-- ==== Sys2Proof/Word.lean ====
section
/-!
DEFINITION. The word types of the block: register values and request words are 32 bits, message
fields and clock counts 16, bytes on the I2C bus and in buffers 8 (00_scope.md R16).
-/

namespace Sys2Proof

/-- A controller register, a request, event, status or command word (R16). -/
abbrev Word := BitVec 32

/-- A message field, a clock count, an RMI4 logical address (R16). -/
abbrev Half := BitVec 16

/-- A byte on the I2C bus or in a buffer (R16). -/
abbrev Byte := BitVec 8

end Sys2Proof
end

