-- ==== Sys2Proof/Config.lean ====
section
/-!
DEFINITION. What an implementation fixes: the named constants and parameters of 00_scope.md R11, the
controller's register names with the parameter RegMap, their offsets and bit positions (10_state.md R60), and the free values the
spec leaves unspecified. A parameter the spec calls OPEN is a field of `Params`, which State holds,
so every claim over all states is a claim over all parameter values (R12).
-/

namespace Sys2Proof

/-- The controller registers the block may reach, in the order of 10_state.md R60. -/
inductive Reg
  | con | tar | dataCmd
  | ssSclHcnt | ssSclLcnt | fsSclHcnt | fsSclLcnt
  | intrStat | intrMask | rawIntrStat
  | rxTl | txTl
  | clrIntr | clrRxUnder | clrRxOver | clrTxOver | clrRdReq | clrTxAbrt
  | clrRxDone | clrActivity | clrStopDet | clrStartDet | clrGenCall
  | enable | status | txflr | rxflr | sdaHold | txAbrtSource | enableStatus | compParam1
  deriving DecidableEq, Repr

/-- Every register of 10_state.md R60, in its order. -/
def Reg.all : List Reg :=
  [.con, .tar, .dataCmd, .ssSclHcnt, .ssSclLcnt, .fsSclHcnt, .fsSclLcnt,
   .intrStat, .intrMask, .rawIntrStat, .rxTl, .txTl,
   .clrIntr, .clrRxUnder, .clrRxOver, .clrTxOver, .clrRdReq, .clrTxAbrt,
   .clrRxDone, .clrActivity, .clrStopDet, .clrStartDet, .clrGenCall,
   .enable, .status, .txflr, .rxflr, .sdaHold, .txAbrtSource, .enableStatus, .compParam1]

/-- A register's place in RegMap (00_scope.md R11): its byte offset, and the bit positions that differ
from the default's, `(k, j)` saying that what R60 to R69 put in bit `k` stands in bit `j`. -/
structure RegPlace where
  offset : Nat
  moved  : List (Fin 32 × Fin 32)
  deriving DecidableEq, Repr

/-- The parameter RegMap: the offset and bit positions of each register (R11, R60, 20_memory.md R112). -/
abbrev RegMap := List (Reg × RegPlace)

/-- The byte offsets of the DesignWare layout (R60). -/
def RegMap.designWareOffsets : List (Reg × Nat) :=
  [(.con, 0x00), (.tar, 0x04), (.dataCmd, 0x10),
   (.ssSclHcnt, 0x14), (.ssSclLcnt, 0x18), (.fsSclHcnt, 0x1C), (.fsSclLcnt, 0x20),
   (.intrStat, 0x2C), (.intrMask, 0x30), (.rawIntrStat, 0x34), (.rxTl, 0x38), (.txTl, 0x3C)] ++
  [(.clrIntr, 0x40), (.clrRxUnder, 0x44), (.clrRxOver, 0x48), (.clrTxOver, 0x4C),
   (.clrRdReq, 0x50), (.clrTxAbrt, 0x54), (.clrRxDone, 0x58), (.clrActivity, 0x5C),
   (.clrStopDet, 0x60), (.clrStartDet, 0x64), (.clrGenCall, 0x68)] ++
  [(.enable, 0x6C), (.status, 0x70), (.txflr, 0x74), (.rxflr, 0x78), (.sdaHold, 0x7C),
   (.txAbrtSource, 0x80), (.enableStatus, 0x9C), (.compParam1, 0xF4)]

/-- The DesignWare layout, the default RegMap (R60), with the bit positions of R61 to R69. -/
def RegMap.designWare : RegMap := RegMap.designWareOffsets.map fun e => (e.1, ⟨e.2, []⟩)

/-- The four timing inputs (30_encoding.md R154). -/
structure TimingIn where
  clkKhz    : Word
  sdaHoldNs : Word
  sdaFallNs : Word
  sclFallNs : Word
  deriving DecidableEq, Repr

/-- The five counts of a TimingFn before the range check; they may be negative (40_timing_and_bus.md
R200). -/
structure RawTiming where
  ssH  : Int
  ssL  : Int
  fsH  : Int
  fsL  : Int
  hold : Int
  deriving DecidableEq, Repr

/-- The speed `configure` selects in CON (00_scope.md R11, BUS_SPEED). -/
inductive BusSpeed
  | standard | fast
  deriving DecidableEq, Repr

/-- The implementation parameters of 00_scope.md R11, plain data fixed for one machine.
`ctlTxDepth` and `ctlRxDepth` are the controller's real depths (70_reset_and_hazards.md R464). `timingFn`
lists the inputs at which TimingFn differs from its decided default, with its values there: a function
as plain data (log 11). -/
structure Params where
  retries          : Nat                       -- RETRIES
  busyPollLimit    : Nat                       -- BUSY_POLL_LIMIT
  disablePollLimit : Nat                       -- DISABLE_POLL_LIMIT
  txFifoDepth      : Nat                       -- TX_FIFO_DEPTH
  rxFifoDepth      : Nat                       -- RX_FIFO_DEPTH
  ctlTxDepth       : Nat
  ctlRxDepth       : Nat
  busSpeed         : BusSpeed                  -- BUS_SPEED
  numCallers       : Nat                       -- NUM_CALLERS
  timeoutS         : Nat                       -- TIMEOUT_S (constrains no step, R450)
  holdMaster       : Bool                      -- EMPTYFIFO_HOLD_MASTER
  f01Init          : List (Half × List Byte)   -- F01_INIT_SEQUENCE
  regWindowSize    : Nat                       -- REG_WINDOW_SIZE
  regMap           : RegMap                    -- RegMap
  timingFn         : List (TimingIn × RawTiming)   -- TimingFn
  deriving DecidableEq, Repr

namespace Config

/-- BLOCK_MAX, the SMBus block payload cap (R11). -/
def blockMax : Nat := 32

/-- UNION_BYTES, the size of the SMBus data union and of the mapper's scratch buffers (R11). -/
def unionBytes : Nat := 34

/-- MAX_MSGS, the largest message count of one transfer (R11). -/
def maxMsgs : Nat := 65535

/-- PAGE_SELECT_REG, the RMI4 page-select register (R11). -/
def pageSelectReg : Byte := 0xFF#8

/-- PDT_START, PDT_END and PDT_ENTRY_SIZE, the descriptor-table scan (R11, 44_rmi4.md R366). -/
def pdtStart : Nat := 0xE9
def pdtEnd : Nat := 0x05
def pdtEntrySize : Nat := 6

/-- The constant S.functionality (10_state.md R46). -/
def functionality : Word := 0x0F7E0003#32

/-- The free value of the n-th register read whose value the spec leaves unspecified: a read of a
CLR register, or of DATA_CMD with the RX FIFO empty (10_state.md R70, R71, R73; log 10). -/
opaque freeReg : Nat → Word

end Config

/-- A register's offset, if RegMap gives one. -/
def RegMap.offset (m : RegMap) (r : Reg) : Option Nat := (m.lookup r).map (·.offset)

/-- The bits of a register that RegMap moves. -/
def RegMap.moved (m : RegMap) (r : Reg) : List (Fin 32 × Fin 32) := ((m.lookup r).map (·.moved)).getD []

/-- Moved bits change places among themselves: each is named once, and each place it leaves is taken
once, so a register's 32 bits stay 32 bits. -/
def movedOk (l : List (Fin 32 × Fin 32)) : Bool :=
  decide (l.map (·.1)).Nodup && decide (l.map (·.2)).Nodup &&
  l.all (fun e => (l.map (·.1)).contains e.2 && (l.map (·.2)).contains e.1)

/-- RegMap places every register at a 4-byte-aligned offset inside the window, no two at one
(20_memory.md R101, R108), moves bits within their register, and has the interrupt bits at the same
places in INTR_STAT, INTR_MASK and RAW_INTR_STAT (10_state.md R65). -/
def RegMap.ok (m : RegMap) (window : Nat) : Bool :=
  (Reg.all.all fun r =>
    match m.offset r with
    | some o => o % 4 == 0 && o + 4 ≤ window
    | none => false) &&
  decide ((Reg.all.map m.offset).Nodup) &&
  Reg.all.all (fun r => movedOk (m.moved r)) &&
  decide (m.moved .intrStat = m.moved .intrMask ∧ m.moved .rawIntrStat = m.moved .intrMask)

/-- The place of bit `k` under a list of moved bits. -/
def movedBit (l : List (Fin 32 × Fin 32)) (k : Fin 32) : Fin 32 := (l.lookup k).getD k

/-- A word whose bit `k` is bit `f k` of another. -/
def takeBits (f : Fin 32 → Fin 32) (w : Word) : Word := BitVec.ofFnLE fun k => w.getLsbD (f k).val

/-- A register's word as it stands on the register window: each bit of the default layout at the place
RegMap gives it (R11, 92_eei_decisions.md D5). -/
def RegMap.toWindow (m : RegMap) (r : Reg) (w : Word) : Word :=
  takeBits (movedBit ((m.moved r).map fun e => (e.2, e.1))) w

/-- The register's word in the default layout, of a word on the register window. -/
def RegMap.ofWindow (m : RegMap) (r : Reg) (w : Word) : Word := takeBits (movedBit (m.moved r)) w

/-- The constraints 00_scope.md R11 and 92_eei_decisions.md put on the parameters. -/
def Params.wf (p : Params) : Bool :=
  decide (2 ≤ p.txFifoDepth ∧ p.txFifoDepth ≤ 256 ∧ p.txFifoDepth ≤ p.ctlTxDepth ∧ p.ctlTxDepth ≤ 256) &&
  decide (1 ≤ p.rxFifoDepth ∧ p.rxFifoDepth ≤ 256 ∧ p.rxFifoDepth ≤ p.ctlRxDepth ∧ p.ctlRxDepth ≤ 256) &&
  decide (1 ≤ p.numCallers ∧ 1 ≤ p.timeoutS ∧ 0x100 ≤ p.regWindowSize) &&
  p.f01Init.all (fun e => decide (1 ≤ e.2.length ∧ e.2.length ≤ Config.blockMax)) &&
  p.regMap.ok p.regWindowSize

/-- The parameters State.reset carries: the values 95_test_vectors.md part 2 assumes, and the least
legal value where it assumes none (DESIGN CHOICE, log 9). -/
def Params.sample : Params where
  retries := 5
  busyPollLimit := 20
  disablePollLimit := 100
  txFifoDepth := 8
  rxFifoDepth := 8
  ctlTxDepth := 8
  ctlRxDepth := 8
  busSpeed := .fast
  numCallers := 2
  timeoutS := 1
  holdMaster := true
  f01Init := []
  regWindowSize := 0x100
  regMap := RegMap.designWare
  timingFn := []

end Sys2Proof
end

