-- ==== Sys2Proof/Syntax.lean ====
section
/-!
DEFINITION. The one instruction type: a constructor per row of spec/opcode_table.json, in the table's
order. A request's operands stand in its operand record (30_encoding.md R148 to R154), not in its
word, so a request constructor carries only what its word carries beside the row's fixed bits: the
SIZE and RW fields of the two UNSUPPORTED rows. The constructors of the INTR_STAT format are the
handler's branches; those of the DATA_CMD format are the controller's command words.
-/

namespace Sys2Proof

/-- The rows of spec/opcode_table.json. -/
inductive Instr
  | busEnable                                             -- BUS_ENABLE, R210
  | busDisable                                            -- BUS_DISABLE, R212
  | busConfigure                                          -- BUS_CONFIGURE, R211
  | busMaskIntr                                           -- BUS_MASK_INTR, R214
  | busClearIntr                                          -- BUS_CLEAR_INTR, R215
  | busPower                                              -- BUS_POWER, R452
  | timingCompute                                         -- TIMING_COMPUTE, R200
  | xfer                                                  -- XFER, R240
  | i2cTransfer                                           -- I2C_TRANSFER, R260
  | smbusQuickW                                           -- SMBUS_XFER.QUICK_W, R321
  | smbusQuickR                                           -- SMBUS_XFER.QUICK_R, R322
  | smbusByteW                                            -- SMBUS_XFER.BYTE_W, R323
  | smbusByteR                                            -- SMBUS_XFER.BYTE_R, R324
  | smbusByteDataW                                        -- SMBUS_XFER.BYTE_DATA_W, R325
  | smbusByteDataR                                        -- SMBUS_XFER.BYTE_DATA_R, R326
  | smbusWordDataW                                        -- SMBUS_XFER.WORD_DATA_W, R327
  | smbusWordDataR                                        -- SMBUS_XFER.WORD_DATA_R, R328
  | smbusBlockDataW                                       -- SMBUS_XFER.BLOCK_DATA_W, R329
  | smbusBlockDataR                                       -- SMBUS_XFER.BLOCK_DATA_R, R330
  | smbusI2cBlockDataW                                    -- SMBUS_XFER.I2C_BLOCK_DATA_W, R331
  | smbusI2cBlockDataR                                    -- SMBUS_XFER.I2C_BLOCK_DATA_R, R332
  | smbusUnsupported (size : BitVec 4) (rw : Bool)        -- SMBUS_XFER.UNSUPPORTED, R334
  | gatedQuickW                                           -- SMBUS_XFER_GATED.QUICK_W, R335
  | gatedQuickR                                           -- SMBUS_XFER_GATED.QUICK_R, R335
  | gatedByteW                                            -- SMBUS_XFER_GATED.BYTE_W, R335
  | gatedByteR                                            -- SMBUS_XFER_GATED.BYTE_R, R335
  | gatedByteDataW                                        -- SMBUS_XFER_GATED.BYTE_DATA_W, R335
  | gatedByteDataR                                        -- SMBUS_XFER_GATED.BYTE_DATA_R, R335
  | gatedWordDataW                                        -- SMBUS_XFER_GATED.WORD_DATA_W, R335
  | gatedWordDataR                                        -- SMBUS_XFER_GATED.WORD_DATA_R, R335
  | gatedBlockDataW                                       -- SMBUS_XFER_GATED.BLOCK_DATA_W, R335
  | gatedBlockDataR                                       -- SMBUS_XFER_GATED.BLOCK_DATA_R, R335
  | gatedI2cBlockDataW                                    -- SMBUS_XFER_GATED.I2C_BLOCK_DATA_W, R335
  | gatedI2cBlockDataR                                    -- SMBUS_XFER_GATED.I2C_BLOCK_DATA_R, R335
  | gatedUnsupported (size : BitVec 4) (rw : Bool)        -- SMBUS_XFER_GATED.UNSUPPORTED, R335
  | rmiSetPage                                            -- RMI_SET_PAGE, R361
  | rmiReadBlock                                          -- RMI_READ_BLOCK, R364
  | rmiWriteBlock                                         -- RMI_WRITE_BLOCK, R365
  | rmiProbe                                              -- RMI_PROBE, R366
  | rmiF01Init                                            -- RMI_F01_INIT, R368
  | lifeStart                                             -- LIFE_START, R390
  | lifeStop                                              -- LIFE_STOP, R392
  | evtIrq                                                -- EVT_IRQ, R280
  | evtTimeout                                            -- EVT_TIMEOUT, R253
  | irqTxAbrt                                             -- IRQ_TX_ABRT, R283
  | irqRxFull                                             -- IRQ_RX_FULL, R300
  | irqTxEmpty                                            -- IRQ_TX_EMPTY, R290
  | irqStopDet                                            -- IRQ_STOP_DET, R310
  | dcWrite (dat : Byte) (stop restart : Bool)            -- DC_WRITE, R291
  | dcRead (stop restart : Bool)                          -- DC_READ, R291
  deriving DecidableEq, Repr

end Sys2Proof
end

