-- ==== Sys2Proof/WellFormed.lean ====
section
/-!
DEFINITION. Which instruction terms are rows of the table: an UNSUPPORTED row stands only for a SIZE
outside the six supported classes (30_encoding.md R143, R147), since a supported SIZE is the word of
a more specific row. Every other constructor admits every value of its fields.
-/

namespace Sys2Proof

/-- SIZE names one of the six supported SMBus size classes (30_encoding.md R143). -/
def sizeSupported (size : BitVec 4) : Bool :=
  size == 0#4 || size == 1#4 || size == 2#4 || size == 3#4 || size == 5#4 || size == 8#4

/-- A well-formed instruction: an UNSUPPORTED row holds an unsupported SIZE. -/
def Instr.wf : Instr → Bool
  | .smbusUnsupported size _ => !sizeSupported size
  | .gatedUnsupported size _ => !sizeSupported size
  | _ => true

end Sys2Proof
end

