-- ==== Sys2Proof/Decode.lean ====
section
/-!
DEFINITION. Decoding, total on every word of every format and rejecting by name (30_encoding.md), and
the encoder written from the same tables. The four formats are separate spaces (R140): the same
number may be a request word, an interrupt status and a command word, so a word is decoded for the
place it arrives at.
-/

namespace Sys2Proof

/-- The two request ports (30_encoding.md R146, 60_exceptions.md R420). -/
inductive Port
  | caller | platform
  deriving DecidableEq, Repr

/-- The four encoded formats (R140); a request arrives on a port. -/
inductive Format
  | req (p : Port)
  | evt
  | intrStat
  | dataCmd
  deriving DecidableEq, Repr

/-- Why a word is no instruction of its format. -/
inductive Reject
  | reservedBits   -- bits the format reserves are set (R141, R156, R160)
  | reservedOpc    -- OPC outside R142 (R170, R173)
  | eventCode      -- an event code on a request port (R156, R173)
  | strayFields    -- SIZE or RW set on a request that is no SMBus request (R145)
  | wrongPort      -- a request its port does not accept (R146)
  | notAnEvent     -- no event code (R156)
  | noBranch       -- an interrupt status that selects no branch (R157)
  | readWithData   -- a read command with DAT bits (R160: DAT is 0 for a read)
  deriving DecidableEq, Repr

/-- The operations of R142, by their OPC value. -/
inductive Opcode
  | busEnable | busDisable | busConfigure | busMaskIntr | busClearIntr | busPower | timingCompute
  | xfer | i2cTransfer | smbusXfer | smbusXferGated
  | rmiSetPage | rmiReadBlock | rmiWriteBlock | rmiProbe | rmiF01Init
  | lifeStart | lifeStop
  deriving DecidableEq, Repr

/-- The OPC table of R142. -/
def opcodeTable : List (Byte × Opcode) :=
  [(0x01#8, .busEnable), (0x02#8, .busDisable), (0x03#8, .busConfigure), (0x04#8, .busMaskIntr),
   (0x05#8, .busClearIntr), (0x06#8, .busPower), (0x07#8, .timingCompute)] ++
  [(0x10#8, .xfer), (0x11#8, .i2cTransfer), (0x20#8, .smbusXfer), (0x21#8, .smbusXferGated),
   (0x30#8, .rmiSetPage), (0x31#8, .rmiReadBlock), (0x32#8, .rmiWriteBlock), (0x33#8, .rmiProbe),
   (0x34#8, .rmiF01Init), (0x40#8, .lifeStart), (0x41#8, .lifeStop)]

/-- The request-word fields of R141. -/
def reqOpc (w : Word) : Byte := w.extractLsb' 0 8
def reqSize (w : Word) : BitVec 4 := w.extractLsb' 8 4
def reqRw (w : Word) : Bool := w.getLsbD 12
def reqRsv (w : Word) : BitVec 19 := w.extractLsb' 13 19

/-- SIZE and RW belong to the SMBus operations alone (R145). -/
def Opcode.isSmbus : Opcode → Bool
  | .smbusXfer | .smbusXferGated => true
  | _ => false

/-- The requests the caller port accepts (R146); the platform port accepts all. -/
def Opcode.onCallerPort : Opcode → Bool
  | .xfer | .i2cTransfer | .smbusXfer | .smbusXferGated => true
  | .rmiSetPage | .rmiReadBlock | .rmiWriteBlock | .rmiProbe | .rmiF01Init => true
  | .busEnable | .busDisable | .busConfigure | .busMaskIntr | .busClearIntr | .busPower => false
  | .timingCompute | .lifeStart | .lifeStop => false

/-- The SMBUS_XFER row of a SIZE and an RW (R143, R144, R182). -/
def smbusRow (size : BitVec 4) (rw : Bool) : Instr :=
  if size = 0#4 then (if rw then .smbusQuickR else .smbusQuickW)
  else if size = 1#4 then (if rw then .smbusByteR else .smbusByteW)
  else if size = 2#4 then (if rw then .smbusByteDataR else .smbusByteDataW)
  else if size = 3#4 then (if rw then .smbusWordDataR else .smbusWordDataW)
  else if size = 5#4 then (if rw then .smbusBlockDataR else .smbusBlockDataW)
  else if size = 8#4 then (if rw then .smbusI2cBlockDataR else .smbusI2cBlockDataW)
  else .smbusUnsupported size rw

/-- The SMBUS_XFER_GATED row of a SIZE and an RW (R152). -/
def gatedRow (size : BitVec 4) (rw : Bool) : Instr :=
  if size = 0#4 then (if rw then .gatedQuickR else .gatedQuickW)
  else if size = 1#4 then (if rw then .gatedByteR else .gatedByteW)
  else if size = 2#4 then (if rw then .gatedByteDataR else .gatedByteDataW)
  else if size = 3#4 then (if rw then .gatedWordDataR else .gatedWordDataW)
  else if size = 5#4 then (if rw then .gatedBlockDataR else .gatedBlockDataW)
  else if size = 8#4 then (if rw then .gatedI2cBlockDataR else .gatedI2cBlockDataW)
  else .gatedUnsupported size rw

/-- The row an accepted request word stands for (R147, last two lines). -/
def Opcode.row (size : BitVec 4) (rw : Bool) : Opcode → Instr
  | .busEnable => .busEnable
  | .busDisable => .busDisable
  | .busConfigure => .busConfigure
  | .busMaskIntr => .busMaskIntr
  | .busClearIntr => .busClearIntr
  | .busPower => .busPower
  | .timingCompute => .timingCompute
  | .xfer => .xfer
  | .i2cTransfer => .i2cTransfer
  | .smbusXfer => smbusRow size rw
  | .smbusXferGated => gatedRow size rw
  | .rmiSetPage => .rmiSetPage
  | .rmiReadBlock => .rmiReadBlock
  | .rmiWriteBlock => .rmiWriteBlock
  | .rmiProbe => .rmiProbe
  | .rmiF01Init => .rmiF01Init
  | .lifeStart => .lifeStart
  | .lifeStop => .lifeStop

/-- Decoding of a request word on a port, in the order of R147. -/
def decodeReq (p : Port) (w : Word) : Except Reject Instr :=
  if reqRsv w ≠ 0#19 then .error .reservedBits
  else match opcodeTable.lookup (reqOpc w) with
    | none => if (reqOpc w).getLsbD 7 then .error .eventCode else .error .reservedOpc
    | some op =>
      if op.isSmbus = false ∧ (reqSize w ≠ 0#4 ∨ reqRw w = true) then .error .strayFields
      else if p = .caller ∧ op.onCallerPort = false then .error .wrongPort
      else .ok (op.row (reqSize w) (reqRw w))

/-- Decoding of an event word (R156). -/
def decodeEvt (w : Word) : Except Reject Instr :=
  if w.extractLsb' 8 24 ≠ 0#24 then .error .reservedBits
  else if w = 0x80#32 then .ok .evtIrq
  else if w = 0x81#32 then .ok .evtTimeout
  else .error .notAnEvent

/-- The branch an interrupt status selects first, in the order of 42_interrupt_fifo.md R280 (R157). -/
def decodeStat (w : Word) : Except Reject Instr :=
  if w.getLsbD 6 then .ok .irqTxAbrt
  else if w.getLsbD 2 then .ok .irqRxFull
  else if w.getLsbD 4 then .ok .irqTxEmpty
  else if w.getLsbD 9 then .ok .irqStopDet
  else .error .noBranch

/-- Decoding of a DATA_CMD command word (R160). -/
def decodeCmd (w : Word) : Except Reject Instr :=
  if w.extractLsb' 11 21 ≠ 0#21 then .error .reservedBits
  else if w.getLsbD 8 then
    if w.extractLsb' 0 8 ≠ 0#8 then .error .readWithData
    else .ok (.dcRead (w.getLsbD 9) (w.getLsbD 10))
  else .ok (.dcWrite (w.extractLsb' 0 8) (w.getLsbD 9) (w.getLsbD 10))

/-- Decoding in the format of the place a word arrives at. -/
def decode : Format → Word → Except Reject Instr
  | .req p, w => decodeReq p w
  | .evt, w => decodeEvt w
  | .intrStat, w => decodeStat w
  | .dataCmd, w => decodeCmd w

/-- Request word assembly (R141). -/
def reqWord (opc : Byte) (size : BitVec 4) (rw : Bool) : Word :=
  (0#19 ++ BitVec.ofBool rw ++ size ++ opc : BitVec (19 + 1 + 4 + 8))

/-- Command word assembly (R160, R161). -/
def cmdWord (dat : Byte) (isRead stop restart : Bool) : Word :=
  (0#21 ++ BitVec.ofBool restart ++ BitVec.ofBool stop ++ BitVec.ofBool isRead ++ dat :
    BitVec (21 + 1 + 1 + 1 + 8))

/-- The format of an instruction's words; a request is taken on the platform port, which accepts
every request (R146). -/
def Instr.format : Instr → Format
  | .evtIrq | .evtTimeout => .evt
  | .irqTxAbrt | .irqRxFull | .irqTxEmpty | .irqStopDet => .intrStat
  | .dcWrite _ _ _ | .dcRead _ _ => .dataCmd
  | _ => .req .platform

/-- The word of an instruction: its row's match value with its fields filled in (R142, R156, R157,
R160, R182). -/
def encode : Instr → Word
  | .busEnable => 0x00000001#32
  | .busDisable => 0x00000002#32
  | .busConfigure => 0x00000003#32
  | .busMaskIntr => 0x00000004#32
  | .busClearIntr => 0x00000005#32
  | .busPower => 0x00000006#32
  | .timingCompute => 0x00000007#32
  | .xfer => 0x00000010#32
  | .i2cTransfer => 0x00000011#32
  | .smbusQuickW => 0x00000020#32
  | .smbusQuickR => 0x00001020#32
  | .smbusByteW => 0x00000120#32
  | .smbusByteR => 0x00001120#32
  | .smbusByteDataW => 0x00000220#32
  | .smbusByteDataR => 0x00001220#32
  | .smbusWordDataW => 0x00000320#32
  | .smbusWordDataR => 0x00001320#32
  | .smbusBlockDataW => 0x00000520#32
  | .smbusBlockDataR => 0x00001520#32
  | .smbusI2cBlockDataW => 0x00000820#32
  | .smbusI2cBlockDataR => 0x00001820#32
  | .smbusUnsupported size rw => reqWord 0x20#8 size rw
  | .gatedQuickW => 0x00000021#32
  | .gatedQuickR => 0x00001021#32
  | .gatedByteW => 0x00000121#32
  | .gatedByteR => 0x00001121#32
  | .gatedByteDataW => 0x00000221#32
  | .gatedByteDataR => 0x00001221#32
  | .gatedWordDataW => 0x00000321#32
  | .gatedWordDataR => 0x00001321#32
  | .gatedBlockDataW => 0x00000521#32
  | .gatedBlockDataR => 0x00001521#32
  | .gatedI2cBlockDataW => 0x00000821#32
  | .gatedI2cBlockDataR => 0x00001821#32
  | .gatedUnsupported size rw => reqWord 0x21#8 size rw
  | .rmiSetPage => 0x00000030#32
  | .rmiReadBlock => 0x00000031#32
  | .rmiWriteBlock => 0x00000032#32
  | .rmiProbe => 0x00000033#32
  | .rmiF01Init => 0x00000034#32
  | .lifeStart => 0x00000040#32
  | .lifeStop => 0x00000041#32
  | .evtIrq => 0x00000080#32
  | .evtTimeout => 0x00000081#32
  | .irqTxAbrt => 0x00000040#32
  | .irqRxFull => 0x00000004#32
  | .irqTxEmpty => 0x00000010#32
  | .irqStopDet => 0x00000200#32
  | .dcWrite dat stop restart => cmdWord dat false stop restart
  | .dcRead stop restart => cmdWord 0#8 true stop restart

/-- Where a word of the opcode table stands when only its bits are given (log 4): a row that fixes
fewer than 32 bits is an interrupt status; a 32-bit word is the first of request, event, command
word and interrupt status that it decodes as. -/
def tableFormat (nbits w : Nat) : Format :=
  let v : Word := BitVec.ofNat 32 (w % 2 ^ nbits)
  if nbits < 32 then .intrStat
  else if (decodeReq .platform v).isOk then .req .platform
  else if (decodeEvt v).isOk then .evt
  else if (decodeCmd v).isOk then .dataCmd
  else .intrStat

/-- The instruction the decoder reads from a table row's word, numbered as the table numbers it. -/
def decodeTableWord (nbits w : Nat) : Option Instr :=
  (decode (tableFormat nbits w) (BitVec.ofNat 32 (w % 2 ^ nbits))).toOption

end Sys2Proof
end

