-- ==== Sys2Proof/Machine/Records.lean ====
section
/-!
DEFINITION. The records the state is made of: agents and their requests (10_state.md section 5,
30_encoding.md section 3), messages and buffers (section 3), the bus-state record S (section 1), the
gate (R47), RMI4 paged devices (section 4), the controller as the block sees it with its bus and
targets (sections 6 to 8), and the moves of the agents (00_scope.md R9). Plain data throughout.
-/

namespace Sys2Proof.Machine

/-- The agents that submit requests (00_scope.md R9). -/
inductive Agent
  | platform
  | caller (c : Nat)
  deriving DecidableEq, Repr

/-- A byte array the engine can reach (20_memory.md R102, 43_smbus.md R320): a caller's buffer, a
request's two mapper scratch buffers T0 and T1, and the 6-byte scratch E of RMI_PROBE. -/
inductive BufId
  | user (n : Nat)
  | t0 (a : Agent)
  | t1 (a : Agent)
  | pdt (a : Agent)
  deriving DecidableEq, Repr

/-- A buffer reference (10_state.md R50). -/
structure BufRef where
  id  : BufId
  cap : Half
  deriving DecidableEq, Repr

/-- A logical message as the engine holds it (10_state.md R48, 30_encoding.md R149). -/
structure Msg where
  addr  : Half
  flags : Half
  len   : Half
  buf   : BufRef
  deriving DecidableEq, Repr

/-- A message record of a caller's operand record: its buffer is one of the caller's (R149). -/
structure MsgRec where
  addr  : Half
  flags : Half
  len   : Half
  buf   : Nat
  cap   : Half
  deriving DecidableEq, Repr

/-- The five timing outputs (30_encoding.md R154). -/
structure TimingOut where
  ssHcnt  : Half
  ssLcnt  : Half
  fsHcnt  : Half
  fsLcnt  : Half
  sdaHold : Half
  deriving DecidableEq, Repr

/-- The platform collaborator's answers (45_lifecycle.md R390, log 17): the register window (base and size)
or a failure, the timing inputs or a failure, and whether the handler install succeeds. -/
structure Provider where
  window : Option (Nat × Nat)
  timing : Option TimingIn
  irq    : Bool
  deriving DecidableEq, Repr

/-- A requester's operand record (30_encoding.md R148 to R154). One record holds the operands of every
request; an operation reads its own (log 39). `data` is the caller buffer that is the SMBus union,
`dev` the index of a paged-device record, `timingOut` the outputs of TIMING_COMPUTE. -/
structure Operands where
  msgs      : List MsgRec
  count     : Half
  addr      : Half
  flags     : Half
  command   : Byte
  data      : Nat
  dev       : Nat
  page      : Byte
  rmiAddr   : Half
  buf       : Nat
  bufCap    : Half
  len       : Half
  kind      : Byte
  enabled   : Bool
  timing    : TimingIn
  timingOut : TimingOut
  provider  : Provider
  deriving DecidableEq, Repr

/-- Timing outputs nothing has written. -/
def TimingOut.zero : TimingOut := ⟨0#16, 0#16, 0#16, 0#16, 0#16⟩

/-- The operand record before a requester has filled it in. -/
def Operands.empty : Operands where
  msgs := []
  count := 0#16
  addr := 0#16
  flags := 0#16
  command := 0#8
  data := 0
  dev := 0
  page := 0#8
  rmiAddr := 0#16
  buf := 0
  bufCap := 0#16
  len := 0#16
  kind := 0#8
  enabled := false
  timing := ⟨0#32, 0#32, 0#32, 0#32⟩
  timingOut := TimingOut.zero
  provider := ⟨none, none, false⟩

/-- The result codes (60_exceptions.md R401). -/
inductive Code
  | ok
  | invalidArgument
  | busBusyTimeout
  | transferTimeout
  | abortedTransfer
  | unsupportedTransactionType
  | pageSelectFailure
  | configurationError
  | disableTimeout
  | protocolError
  | illegalRequest
  deriving DecidableEq, Repr

/-- A result record (30_encoding.md R155). -/
structure Result where
  code  : Code
  value : Word
  inner : Code
  deriving DecidableEq, Repr

/-- S.status (10_state.md R32). -/
inductive Status
  | idle | writeInProgress | readInProgress
  deriving DecidableEq, Repr

/-- S.xphase (10_state.md R40). -/
inductive Phase
  | idle | busyWait | transferActive | completed | aborted | failed | timedOut
  deriving DecidableEq, Repr

/-- S.msg_err (10_state.md R38). -/
inductive MsgErr
  | none | invalidArgument | protocolError
  deriving DecidableEq, Repr

/-- The gate (10_state.md R47). -/
structure Gate where
  owner   : Option Agent
  depth   : Nat
  waiters : List Agent
  deriving DecidableEq, Repr

/-- The bus-state record S (10_state.md R31). -/
structure Bus where
  regBase        : Option Nat
  regSize        : Option Nat
  mapped         : Bool
  ssHcnt         : Half
  ssLcnt         : Half
  fsHcnt         : Half
  fsLcnt         : Half
  sdaHold        : Half
  txFifoDepth    : Nat
  rxFifoDepth    : Nat
  functionality  : Word
  status         : Status
  xphase         : Phase
  pollCount      : Nat
  msgs           : List Msg
  msgsNum        : Nat
  msgWriteIdx    : Nat
  txOff          : Nat
  msgReadIdx     : Nat
  rxOff          : Nat
  lens           : List Nat
  recvPending    : Bool
  holdForLen     : Bool
  cmdErr         : Byte
  msgErr         : MsgErr
  abortSource    : Word
  rxOutstanding  : Nat
  retries        : Nat
  completion     : Bool
  timedOut       : Bool
  ready          : Bool
  powered        : Bool
  irqInstalled   : Bool
  disableUnacked : Bool
  gate           : Gate
  deriving DecidableEq, Repr

/-- An RMI4 function descriptor (10_state.md R56). -/
structure FnDesc where
  number      : Byte
  queryBase   : Half
  commandBase : Half
  controlBase : Half
  dataBase    : Half
  irqCount    : BitVec 3
  version     : BitVec 2
  deriving DecidableEq, Repr

/-- An RMI4 paged-device record D (10_state.md R54); no current page is UNSET. -/
structure PagedDev where
  addr        : Half
  currentPage : Option Byte
  functions   : List FnDesc
  deriving DecidableEq, Repr

/-- Byte memory: address and byte pairs, addresses strictly rising, no entry equal to what an unlisted
address reads as (log 6). -/
abbrev Memory := List Host.Cell

/-- The bus transaction the controller holds (10_state.md R77): its target and TEN bit, sampled at the
START (60_exceptions.md R440), and the direction of the last word. -/
structure Txn where
  target : BitVec 10
  ten    : Bool
  isRead : Bool
  deriving DecidableEq, Repr

/-- A paged RMI4 target on the bus (60_exceptions.md R442, 20_memory.md R103): its page register, the
in-page offset addressed since the START, and its register contents at page * 256 + offset. -/
structure Target where
  addr   : BitVec 7
  page   : Byte
  offset : Option Byte
  regs   : Memory
  deriving DecidableEq, Repr

/-- What happens on the bus to one command word (60_exceptions.md R431, R434, R442). The target
acknowledges, returning `rx` for a read where no rule gives the byte and moving a paged target's
offset to `next`; or it refuses the address, which it can only where the word puts one; or it refuses
the written byte, which it can only where the word is a write; or the controller loses arbitration. A
refusal that does not apply is an acknowledge. The controller sets the abort-source bits `src`. -/
inductive Answer
  | ack (rx next : Byte)
  | nackAddress (src : Word) (rx next : Byte)
  | nackByte (src : Word) (rx next : Byte)
  | arbLost (src : Word)
  deriving DecidableEq, Repr

/-- What is seen on the I2C bus (20_memory.md R105, 60_exceptions.md R431). -/
inductive Wire
  | start (target : BitVec 10) (ten isRead : Bool)
  | sent (b : Byte)
  | received (b : Byte)
  | stop
  deriving DecidableEq, Repr

/-- The controller Ctl with its bus and targets (10_state.md R60 to R69, R77). `latched` holds the raw
interrupt bits other than the two level bits (R66). `wire` is the bus history, newest first
(log 31). -/
structure Ctl where
  con       : Word
  tar       : BitVec 10
  ssHcnt    : Half
  ssLcnt    : Half
  fsHcnt    : Half
  fsLcnt    : Half
  sdaHold   : Half
  intrMask  : Word
  latched   : Word
  rxTl      : Byte
  txTl      : Byte
  enable    : Bool
  icEn      : Bool
  abrtSrc   : Word
  txFifo    : List Word
  rxFifo    : List Byte
  bus       : Option Txn
  otherBusy : Bool
  targets   : List Target
  answer    : Answer
  wire      : List Wire
  deriving DecidableEq, Repr

/-- A step of Ctl and of what is on its bus (60_exceptions.md R430 to R442). -/
inductive CtlMove
  | take (ans : Answer)                        -- the head command word is executed (R431)
  | emptyFifo                                  -- STOP on an empty TX FIFO (R433)
  | arbLost (src : Word)                       -- arbitration is lost before the head word (R434)
  | finishDisable                              -- a disable takes effect (R436)
  | busy (b : Bool)                            -- the bus is kept busy from outside, or freed (R435)
  | latch (k : Fin 14)                         -- an event no rule of the block names (log 26)
  | targetReg (addr : BitVec 7) (a : Half) (b : Byte)   -- a target changes its own register (R442)
  | targetPage (addr : BitVec 7) (page : Byte)          -- a target resets its page (44_rmi4.md R363)
  deriving DecidableEq, Repr

/-- One register access of Seq (00_scope.md R15); a read of an unspecified value records none. -/
inductive Access
  | read (r : Reg) (v : Option Word)
  | write (r : Reg) (v : Word)
  deriving DecidableEq, Repr

/-- A register access as it stands on the register window (20_memory.md R101, 00_scope.md R11): the byte
offset and the word of the machine's RegMap. -/
inductive WindowAccess
  | read (offset : Nat) (v : Option Word)
  | write (offset : Nat) (v : Word)
  deriving DecidableEq, Repr

/-- How a successful SMBUS_XFER is copied back (43_smbus.md R321 to R333). -/
inductive CopyBack
  | none | byteT0 | byteT1 | wordT1 | blockT1 | i2cBlockT1
  deriving DecidableEq, Repr

/-- The six supported SMBus size classes (30_encoding.md R143). -/
inductive SizeClass
  | quick | byte | byteData | wordData | blockData | i2cBlockData
  deriving DecidableEq, Repr

/-- The bytes of an RMI4 block access (44_rmi4.md R364, R365, R368). -/
inductive BlockData
  | read (buf : BufRef) (len : Nat)
  | write (buf : BufRef) (len : Nat)
  | bytes (bs : List Byte)
  deriving DecidableEq, Repr

/-- An RMI4 block access (44_rmi4.md R364, R365). -/
structure Block where
  dev  : Nat
  addr : Half
  data : BlockData
  deriving DecidableEq, Repr

/-- What follows `configure_proc` (40_timing_and_bus.md R208). -/
inductive ConfigUse
  | bus | power
  | start (prov : Provider)
  deriving DecidableEq, Repr

/-- What follows `ctl_disable` (40_timing_and_bus.md R206). -/
inductive DisableUse
  | bus | stop
  | configure (u : ConfigUse)
  | xfer (msgs : List Msg)
  deriving DecidableEq, Repr

/-- Where in its pseudocode a request goes on (00_scope.md R15 `sleep`, 20_memory.md R120). -/
inductive Cont
  | xfer (msgs : List Msg) (count : Half)           -- XFER from step 1 (R240)
  | xferGate (msgs : List Msg) (count : Half)       -- XFER step 2, the gate just taken (R243)
  | busy (msgs : List Msg) (count : Half)           -- XFER step 3, the next poll (R244)
  | disable (k : Nat) (u : DisableUse)              -- poll k of ctl_disable (R206)
  | busEnable | busDisable | busConfigure | busMask
  | busClear (kind : Byte)
  | power (enabled : Bool)
  | start (prov : Provider)
  | stop
  | gated (size : SizeClass) (rw : Bool)            -- SMBUS_XFER_GATED, the gate just taken (R335)
  | setPage (dev : Nat) (page : Byte)               -- RMI_SET_PAGE, the gate just taken (R361)
  | access (blk : Block)                            -- a block access, the gate just taken (R364)
  | block (blk : Block)                             -- its page selected (R364, R365)
  | probe (dev pos : Nat) (found : List FnDesc)     -- the scan's next entry (R366)
  | f01 (dev : Nat) (base : Half) (todo : List (Half × List Byte))   -- the next write (R368)
  deriving DecidableEq, Repr

/-- An operation around the XFER in progress, waiting for its result. -/
inductive Frame
  | retry (left : Nat) (msgs : List Msg) (count : Half)   -- I2C_TRANSFER (R260)
  | smbus (cb : CopyBack)                                 -- SMBUS_XFER (R320)
  | gated                                                 -- SMBUS_XFER_GATED (R335)
  | setPage (dev : Nat) (page : Byte)                     -- set_page (R361)
  | selected (blk : Block)                                -- read_block or write_block, its page select
  | block                                                 -- read_block or write_block, its XFER
  | probe (dev pos : Nat) (found : List FnDesc)           -- probe (R366)
  | f01 (dev : Nat) (base : Half) (todo : List (Half × List Byte))   -- f01_init (R368)
  deriving DecidableEq, Repr

/-- Where a request stands: in no suspension, waiting for the gate, asleep, waiting for completion, its
unwind pending (41_transfer_engine.md R253, R254), or about to go on. -/
inductive Point
  | idle
  | gate (c : Cont)
  | sleep (c : Cont)
  | await
  | unwind
  | go (c : Cont)
  deriving DecidableEq, Repr

/-- A requester (10_state.md R57) with its operand record and its place in its rule. -/
structure Caller where
  req     : Option Instr
  waiting : Bool
  result  : Option Result
  ops     : Operands
  point   : Point
  stack   : List Frame
  deriving DecidableEq, Repr

/-- A requester with no request (10_state.md R80). -/
def Caller.idle : Caller where
  req := none
  waiting := false
  result := none
  ops := Operands.empty
  point := .idle
  stack := []

/-- A move of some agent between two Seq activities, or what lets Seq's next activity begin. -/
inductive Move
  | request (a : Agent) (w : Word) (ops : Operands)   -- a submits a request word (30_encoding.md R140)
  | event (w : Word)                                  -- an event word is delivered to Seq (R156)
  | wake (a : Agent)                                  -- 41_transfer_engine.md R254
  | resume (a : Agent)                                -- a's sleep ends, or its pending unwind runs
  | grant (a : Agent)                                 -- the free gate is granted to a (20_memory.md R123)
  | ctl (m : CtlMove)                                 -- Ctl moves (60_exceptions.md R430)
  | store (a : Agent) (buf off : Nat) (b : Byte)      -- a writes a caller buffer (20_memory.md R100)
  | relist (a : Agent) (msgs : List MsgRec)            -- a's message list is changed (20_memory.md R125)
  | newDevice (addr : Half)                           -- a paged-device record is created (R463)
  | newTarget (addr : BitVec 7) (page : Byte)         -- a paged target is on the bus (R442)
  | powerLoss (draw : Ctl)                            -- registers lost while off (R453, log 25)
  | attach (draw : Ctl)                               -- S is created (45_lifecycle.md R393)
  | detach                                            -- S is destroyed (45_lifecycle.md R393)
  deriving DecidableEq, Repr

end Sys2Proof.Machine
end

