-- ==== Sys2Proof/Machine/State.lean ====
section
/-!
DEFINITION. The machine's state, the reasons a step can stop, and the state right after reset.
-/

namespace Sys2Proof.Machine

/-- The machine. `par` is fixed for one machine (00_scope.md R11); `blk` is the bus-state record S;
`ctl` the controller with its bus; `mem` the caller buffers and mapper scratch; `devs` the
paged-device records; `agents` the requesters, one not listed being idle; `cur` the requester whose
request word is being executed; `handler` the interrupt bits a handler run has still to take;
`running` the requester whose Seq activity has not reached a suspension point; `ctlPlan` the Ctl
moves before each of Seq's coming register accesses; `sched` the moves to come; `io` the register
accesses so far, newest first; `fresh` the counter the free register values are applied to;
`attached` whether S exists. -/
structure State where
  par      : Params
  blk      : Bus
  ctl      : Ctl
  mem      : Memory
  devs     : List PagedDev
  agents   : List (Agent × Caller)
  cur      : Agent
  handler  : Option Word
  running  : Option Agent
  ctlPlan  : List (List CtlMove)
  sched    : List Move
  io       : List Access
  fresh    : Nat
  attached : Bool
  deriving DecidableEq, Repr

/-- Why the machine stops (60_exceptions.md R404). All are safe: the state after them is not
specified. -/
inductive Fault
  /-- A buffer access at or beyond the buffer's capacity (20_memory.md R102): raised by the TX refill
  and the RX drain. Safe. -/
  | bufferBounds
  /-- A caller buffer or the message list of a request in progress is changed by an agent (20_memory.md
  R117, R125): raised by the `store` and `relist` moves. Safe. -/
  | bufferRace
  /-- A request while the last is in progress, a release of the gate by a non-owner, a detach of a
  started bus or with a request in progress (R404, log 27): raised by `request`, by every gate
  release and by `detach`. Safe. -/
  | callerObligation
  deriving DecidableEq, Repr

/-- Why a step has no meaning. All are safe. -/
inductive Refusal
  /-- An instruction without a meaning: raised by no arm. -/
  | notModelled (mnemonic : String)
  /-- RegMap places a register outside the window or unaligned, or its bits not within the register
  (20_memory.md R108, log 12): raised by the fetch. Safe. -/
  | corruptRegMap
  /-- A word delivered as an event that is no event word (30_encoding.md R156, log 38): raised by the
  fetch. Safe. -/
  | notAnEvent
  deriving DecidableEq, Repr

/-- What an operation of the machine answers. -/
abbrev Flow := Host.Outcome State Fault Refusal

/-- S as it is created at controller attach (10_state.md R80). The timing fields and FIFO depths are
unspecified there: DESIGN CHOICE (log 7). -/
def Bus.created (p : Params) : Bus where
  regBase := none
  regSize := none
  mapped := false
  ssHcnt := 0#16
  ssLcnt := 0#16
  fsHcnt := 0#16
  fsLcnt := 0#16
  sdaHold := 0#16
  txFifoDepth := 2
  rxFifoDepth := 1
  functionality := Config.functionality
  status := .idle
  xphase := .idle
  pollCount := 0
  msgs := []
  msgsNum := 0
  msgWriteIdx := 0
  txOff := 0
  msgReadIdx := 0
  rxOff := 0
  lens := []
  recvPending := false
  holdForLen := false
  cmdErr := 0#8
  msgErr := .none
  abortSource := 0#32
  rxOutstanding := 0
  retries := p.retries
  completion := false
  timedOut := false
  ready := false
  powered := true
  irqInstalled := false
  disableUnacked := false
  gate := ⟨none, 0, []⟩

/-- The controller at creation (10_state.md R81): ENABLE_STATUS bit 0 = 0, empty FIFOs, and every
register the spec leaves to a draw at zero: DESIGN CHOICE (log 8). -/
def Ctl.created : Ctl where
  con := 0#32
  tar := 0#10
  ssHcnt := 0#16
  ssLcnt := 0#16
  fsHcnt := 0#16
  fsLcnt := 0#16
  sdaHold := 0#16
  intrMask := 0#32
  latched := 0#32
  rxTl := 0#8
  txTl := 0#8
  enable := false
  icEn := false
  abrtSrc := 0#32
  txFifo := []
  rxFifo := []
  bus := none
  otherBusy := false
  targets := []
  answer := .ack 0#8 0#8
  wire := []

/-- The controller as S is created (10_state.md R81, 70_reset_and_hazards.md R461): a draw, but that
ENABLE_STATUS bit 0 is 0, both FIFOs are empty and no bus transaction is held. Every latched bit is one
that the CLR_INTR read of `xfer_init` clears. -/
def Ctl.drawn (draw : Ctl) : Ctl := { draw with icEn := false, txFifo := [], rxFifo := [], bus := none }

/-- The machine right after reset for given parameters and a draw of the controller's contents
(70_reset_and_hazards.md R460, R461). -/
def State.resetWith (p : Params) (c : Ctl) : State where
  par := p
  blk := Bus.created p
  ctl := Ctl.drawn c
  mem := []
  devs := []
  agents := []
  cur := .platform
  handler := none
  running := none
  ctlPlan := []
  sched := []
  io := []
  fresh := 0
  attached := true

/-- The machine right after reset, at the parameter values of log 9 and the controller contents of
log 8. -/
def State.reset : State := State.resetWith Params.sample Ctl.created

end Sys2Proof.Machine
end

