-- ==== Sys2Proof/Machine/Flags.lean ====
section
/-!
DEFINITION. Every status and interrupt bit the controller computes (10_state.md R65 to R69), the values
the block writes into CON, TAR and INTR_MASK (30_encoding.md R162 to R164), and the numbers of the
result codes (60_exceptions.md R401).
-/

namespace Sys2Proof.Machine

/-- One bit of a word, from a truth value. -/
def bitIf (k : Nat) (b : Bool) : Word := if b then BitVec.twoPow 32 k else 0#32

/-- The raw interrupt bits that are latched: bits 13:0 but for the level bits 2 and 4 (R65, R66). -/
def latchedBits : Word := 0x00003FEB#32

/-- RAW RX_FULL: the RX FIFO level exceeds RX_TL (R66). -/
def Ctl.rxFull (c : Ctl) : Bool := decide (c.rxTl.toNat < c.rxFifo.length)

/-- RAW TX_EMPTY: the controller is enabled and the TX FIFO level is at or below TX_TL (R66). -/
def Ctl.txEmpty (c : Ctl) : Bool := c.icEn && decide (c.txFifo.length ≤ c.txTl.toNat)

/-- RAW_INTR_STAT (R65, R66). -/
def Ctl.raw (c : Ctl) : Word :=
  (c.latched &&& latchedBits) ||| bitIf 2 c.rxFull ||| bitIf 4 c.txEmpty

/-- INTR_STAT (R67). -/
def Ctl.intrStat (c : Ctl) : Word := c.raw &&& c.intrMask

/-- The interrupt line (R67, 60_exceptions.md R410). -/
def Ctl.line (c : Ctl) : Bool := c.intrStat != 0#32

/-- STATUS.ACTIVITY (R69, 60_exceptions.md R435). -/
def Ctl.activity (c : Ctl) : Bool := c.bus.isSome || !c.txFifo.isEmpty || c.otherBusy

/-- STATUS: bit 0 is ACTIVITY; bits 1 to 6, which the block does not read, follow their names (R69,
PRESUMED, log 21), and bits 31:7, which have none, read 0 (PRESUMED, log 21). -/
def Ctl.statusWord (p : Params) (c : Ctl) : Word :=
  bitIf 0 c.activity ||| bitIf 1 (decide (c.txFifo.length < p.ctlTxDepth)) |||
  bitIf 2 c.txFifo.isEmpty ||| bitIf 3 (!c.rxFifo.isEmpty) |||
  bitIf 4 (decide (p.ctlRxDepth ≤ c.rxFifo.length)) ||| bitIf 5 c.bus.isSome

/-- A FIFO level in bits 8:0 (R69). -/
def levelWord (n : Nat) : Word := (BitVec.ofNat 9 n).setWidth 32

/-- COMP_PARAM_1: TX depth - 1 in bits 23:16, RX depth - 1 in bits 15:8 (R60); its other bits, which
the spec does not name, read 0 (DESIGN CHOICE, log 40). -/
def compParam1 (p : Params) : Word :=
  (BitVec.ofNat 32 (p.ctlTxDepth - 1) <<< 16) ||| (BitVec.ofNat 32 (p.ctlRxDepth - 1) <<< 8)

/-- The default mask RX_FULL, TX_EMPTY, TX_ABRT, STOP_DET (30_encoding.md R164). -/
def defaultMask : Word := 0x00000254#32

/-- The default mask without TX_EMPTY (R164). -/
def noTxEmptyMask : Word := 0x00000244#32

/-- The CON value of `configure` (R162). -/
def conValue : BusSpeed → Word
  | .fast => 0x00000065#32
  | .standard => 0x00000063#32

/-- A CON value with bit 4, 10BITADDR_MASTER, set to a message's TEN flag (41_transfer_engine.md R245). -/
def withTen (con : Word) (ten : Bool) : Word := (con &&& ~~~(0x10#32)) ||| bitIf 4 ten

/-- The TAR value for an address (R163). -/
def tarValue (addr : Half) : Word := (addr.extractLsb' 0 10).setWidth 32

/-- ERR_TX_ABRT (10_state.md R37). -/
def errTxAbrt : Byte := 1#8

/-- The 8-bit number of a result code (60_exceptions.md R401). -/
def Code.toByte : Code → Byte
  | .ok => 0#8
  | .invalidArgument => 1#8
  | .busBusyTimeout => 2#8
  | .transferTimeout => 3#8
  | .abortedTransfer => 4#8
  | .unsupportedTransactionType => 5#8
  | .pageSelectFailure => 6#8
  | .configurationError => 7#8
  | .disableTimeout => 8#8
  | .protocolError => 9#8
  | .illegalRequest => 10#8

/-- A result with no inner code (30_encoding.md R155). -/
def Result.of (c : Code) (v : Word) : Result := ⟨c, v, .ok⟩

/-- `OK(v)` (00_scope.md R15). -/
def Result.okValue (v : Word) : Result := Result.of .ok v

/-- A failure whose value is 0 (60_exceptions.md R401). -/
def Result.fail (c : Code) : Result := Result.of c 0#32

end Sys2Proof.Machine
end

