-- ==== Sys2Proof/Machine/Memory.lean ====
section
/-!
DEFINITION. Byte memory in its canonical form: addresses strictly rising and no listed byte equal to
what an unlisted address reads as, which is zero (log 6). One flat address space holds every buffer
(20_memory.md R102) at 65536 addresses each; a paged target's registers (20_memory.md R103) are a
memory of their own.
-/

namespace Sys2Proof.Machine

/-- What an address that is not listed reads as (DESIGN CHOICE, log 6). -/
def unlisted : Byte := 0#8

/-- The byte at an address. -/
def Memory.read : Memory → Nat → Byte
  | [], _ => unlisted
  | (x, c) :: m, a => if a = x then c else Memory.read m a

/-- Memory with the byte at an address set. -/
def Memory.write : Memory → Nat → Byte → Memory
  | [], a, b => if b = unlisted then [] else [(a, b)]
  | (x, c) :: m, a, b =>
    if a < x then (if b = unlisted then (x, c) :: m else (a, b) :: (x, c) :: m)
    else if a = x then (if b = unlisted then m else (a, b) :: m)
    else (x, c) :: Memory.write m a b

/-- Every listed address is above `lo` and they rise, and no listed byte is the unlisted one. -/
def Memory.wfAbove : Option Nat → Memory → Bool
  | _, [] => true
  | lo, (x, c) :: m =>
    (match lo with | none => true | some l => decide (l < x)) && (c != unlisted) &&
      Memory.wfAbove (some x) m

/-- The canonical form. -/
def Memory.wf (m : Memory) : Bool := Memory.wfAbove none m

/-- A requester's number, for the scratch buffers. -/
def Agent.index : Agent → Nat
  | .platform => 0
  | .caller c => c + 1

/-- A buffer's number: four interleaved families, so no two buffers share one. -/
def BufId.slot : BufId → Nat
  | .user n => 4 * n
  | .t0 a => 4 * a.index + 1
  | .t1 a => 4 * a.index + 2
  | .pdt a => 4 * a.index + 3

/-- The address of a buffer's byte; offsets stay below 65536 since `cap` has 16 bits (R50). -/
def bufAddr (id : BufId) (off : Nat) : Nat := id.slot * 65536 + off

/-- `MemRead(buf, off, 1)`: the byte at an offset, none at or beyond `cap` (R102). -/
def memRead (m : Memory) (buf : BufRef) (off : Nat) : Option Byte :=
  if off < buf.cap.toNat then some (m.read (bufAddr buf.id off)) else none

/-- `MemWrite(buf, off, 1, b)`: none at or beyond `cap` (R102). -/
def memWrite (m : Memory) (buf : BufRef) (off : Nat) (b : Byte) : Option Memory :=
  if off < buf.cap.toNat then some (m.write (bufAddr buf.id off) b) else none

/-- Bytes written at consecutive addresses. -/
def Memory.writeAll : Memory → Nat → List Byte → Memory
  | m, _, [] => m
  | m, a, b :: bs => Memory.writeAll (m.write a b) (a + 1) bs

/-- `n` bytes read from consecutive addresses. -/
def Memory.readAll (m : Memory) (a : Nat) : Nat → List Byte
  | 0 => []
  | n + 1 => m.read a :: Memory.readAll m (a + 1) n

end Sys2Proof.Machine
end

