-- ==== Sys2Proof/Machine/Ctl.lean ====
section
/-!
DEFINITION. The controller as environment (60_exceptions.md R430 to R442): what it does with a command
word, its other steps, and what a register access does to it (10_state.md R63, R70 to R76). All of it
is a function on `Ctl`, so that a Ctl step can be taken between any two register accesses.
-/

namespace Sys2Proof.Machine

/-- Latch a raw interrupt bit (10_state.md R66). -/
def Ctl.latch (k : Nat) (c : Ctl) : Ctl := { c with latched := c.latched ||| BitVec.twoPow 32 k }

/-- Clear a raw interrupt bit (10_state.md R71). -/
def Ctl.unlatch (k : Nat) (c : Ctl) : Ctl :=
  { c with latched := c.latched &&& ~~~(BitVec.twoPow 32 k) }

/-- A STOP condition: the bus is released and STOP_DET latched (R432). -/
def Ctl.stop (c : Ctl) : Ctl := Ctl.latch 9 { c with bus := none, wire := .stop :: c.wire }

/-- The target answering an address: a paged target has a 7-bit address (R442). -/
def Target.answers (t : Txn) (d : Target) : Bool := !t.ten && d.addr.setWidth 10 == t.target

/-- A target's own state at a START: a write begins with the offset byte (R442, 44_rmi4.md R360). -/
def Target.atStart (isRead : Bool) (d : Target) : Target :=
  if isRead then d else { d with offset := none }

/-- A paged target receives a byte: the in-page offset first, then page-select or register contents
(R442); `next` is the offset its own address increment moves to (44_rmi4.md R364). -/
def Target.receive (b next : Byte) (d : Target) : Target :=
  match d.offset with
  | none => { d with offset := some b }
  | some o =>
    if o = Config.pageSelectReg then { d with page := b, offset := some next }
    else { d with regs := d.regs.write (d.page.toNat * 256 + o.toNat) b, offset := some next }

/-- The byte a paged target returns: its page register at 0xFF, its register contents elsewhere (R442);
with no offset addressed the byte is the environment's choice. -/
def Target.returns (rx : Byte) (d : Target) : Byte :=
  match d.offset with
  | none => rx
  | some o =>
    if o = Config.pageSelectReg then d.page else d.regs.read (d.page.toNat * 256 + o.toNat)

/-- A paged target's offset after it returned a byte. -/
def Target.advance (next : Byte) (d : Target) : Target :=
  match d.offset with
  | none => d
  | some _ => { d with offset := some next }

/-- Apply a change to the targets that answer the transaction's address. -/
def Ctl.onTargets (t : Txn) (f : Target → Target) (c : Ctl) : Ctl :=
  { c with targets := c.targets.map fun d => if d.answers t then f d else d }

/-- A START or repeated START with the address and direction (R431, R432); START_DET and ACTIVITY latch
(R432; at a repeated START too, log 22). -/
def Ctl.putStart (t : Txn) (c : Ctl) : Ctl :=
  Ctl.onTargets t (Target.atStart t.isRead)
    (Ctl.latch 10 (Ctl.latch 8
      { c with bus := some t, wire := .start t.target t.ten t.isRead :: c.wire }))

/-- The bus made ready for a word: a START samples TAR and CON before the first word of a bus
transaction (R431, R440); a RESTART or a change of direction puts a repeated START (R431). R431 says so of
RESTART_EN = 1 alone; that CON bit 5 = 0 changes nothing here is the model's (DESIGN CHOICE, log 47). -/
def Ctl.address (isRead restart : Bool) (c : Ctl) : Ctl :=
  match c.bus with
  | none => Ctl.putStart ⟨c.tar, c.con.getLsbD 4, isRead⟩ c
  | some t =>
    if restart || t.isRead != isRead then Ctl.putStart ⟨t.target, t.ten, isRead⟩ c else c

/-- An abort (R434): the source bits are set, TX_ABRT latches, the TX FIFO is discarded, and a STOP is
put if the controller holds the bus. -/
def Ctl.abort (src : Word) (c : Ctl) : Ctl :=
  let c := Ctl.latch 6 { c with abrtSrc := c.abrtSrc ||| src, txFifo := [] }
  if c.bus.isSome then Ctl.stop c else c

/-- A STOP after the word if its STOP bit says so (R431). -/
def Ctl.stopIf (stop : Bool) (c : Ctl) : Ctl := if stop then Ctl.stop c else c

/-- A received byte on the RX FIFO; dropped with RX_OVER when it is full (R431, R438). -/
def Ctl.pushRx (p : Params) (b : Byte) (c : Ctl) : Ctl :=
  if c.rxFifo.length < p.ctlRxDepth then { c with rxFifo := c.rxFifo ++ [b] } else Ctl.latch 1 c

/-- A lost arbitration (R434): the source bits are set, TX_ABRT latches, the TX FIFO is discarded, and
the bus is another master's, so no STOP is put (log 23). -/
def Ctl.loseBus (src : Word) (c : Ctl) : Ctl :=
  Ctl.latch 6 { c with abrtSrc := c.abrtSrc ||| src, txFifo := [], bus := none }

/-- DAT goes to the addressed target, then STOP (R431). -/
def Ctl.sendByte (dat next : Byte) (stop : Bool) (c : Ctl) : Ctl :=
  match c.bus with
  | none => c
  | some t =>
    Ctl.stopIf stop
      (Ctl.onTargets t (Target.receive dat next) { c with wire := .sent dat :: c.wire })

/-- One byte comes from the addressed target onto the RX FIFO, then STOP (R431). -/
def Ctl.receiveByte (p : Params) (rx next : Byte) (stop : Bool) (c : Ctl) : Ctl :=
  match c.bus with
  | none => c
  | some t =>
    let b := match c.targets.find? (fun d => d.answers t) with
      | some d => d.returns rx
      | none => rx
    Ctl.stopIf stop
      (Ctl.pushRx p b
        (Ctl.onTargets t (Target.advance next) { c with wire := .received b :: c.wire }))

/-- The word puts an address on the bus: no transaction is held, or a repeated START is due (R431). -/
def Ctl.addressDue (isRead restart : Bool) (c : Ctl) : Bool :=
  match c.bus with
  | none => true
  | some t => restart || t.isRead != isRead

/-- Execution of a write word (R431, R434): the address if it is due, DAT, then STOP; an abort where the
address or the byte, which is on the bus by then, is refused. -/
def Ctl.execWrite (dat : Byte) (stop restart : Bool) (c : Ctl) : Ctl :=
  let due := Ctl.addressDue false restart c
  let c := Ctl.address false restart c
  match c.answer with
  | .ack _ next => Ctl.sendByte dat next stop c
  | .nackAddress src _ next => if due then Ctl.abort src c else Ctl.sendByte dat next stop c
  | .nackByte src _ _ => Ctl.abort src { c with wire := .sent dat :: c.wire }
  | .arbLost src => Ctl.loseBus src c

/-- Execution of a read word (R431, R434): the address if it is due, one byte from the target onto the
RX FIFO, then STOP; an abort where the address is refused. -/
def Ctl.execRead (p : Params) (stop restart : Bool) (c : Ctl) : Ctl :=
  let due := Ctl.addressDue true restart c
  let c := Ctl.address true restart c
  match c.answer with
  | .ack rx next | .nackByte _ rx next => Ctl.receiveByte p rx next stop c
  | .nackAddress src rx next => if due then Ctl.abort src c else Ctl.receiveByte p rx next stop c
  | .arbLost src => Ctl.loseBus src c

/-- A refusal or a lost arbitration names at least one abort source (R434). -/
def Answer.named : Answer → Bool
  | .ack _ _ => true
  | .nackAddress src _ _ | .nackByte src _ _ | .arbLost src => src != 0#32

/-- Ctl may take the head word (R430, R434): it is enabled, no abort is latched and a word is there. -/
def Ctl.mayTake (ans : Answer) (c : Ctl) : Bool :=
  c.icEn && !c.latched.getLsbD 6 && !c.txFifo.isEmpty && ans.named

/-- The head word leaves the TX FIFO; the target's answer to it is at hand. -/
def Ctl.popTx (ans : Answer) (c : Ctl) : Ctl := { c with txFifo := c.txFifo.tail, answer := ans }

/-- Execution of a command word by its fields; a word with no meaning is dropped (log 29). -/
def Ctl.execWord (p : Params) (w : Word) (c : Ctl) : Ctl :=
  match decodeCmd w with
  | .ok (.dcWrite dat stop restart) => Ctl.execWrite dat stop restart c
  | .ok (.dcRead stop restart) => Ctl.execRead p stop restart c
  | _ => c

/-- The events `latch` may latch: those no rule of the block or of Ctl names, RD_REQ, GEN_CALL,
RESTART_DET and MST_ON_HOLD (R65, log 26). RX_DONE is not produced in master mode (R432). -/
def otherEvents : List Nat := [5, 11, 12, 13]

/-- One step of Ctl or of what is on its bus; a step that is not enabled changes nothing (log 19). The STOP
on an empty TX FIFO is a step of its own, which a word that arrives first forestalls (R433, log 41); the
STOP of a disable latches STOP_DET (log 33). Arbitration is lost at a word the TX FIFO holds alone: a bus
held on an empty one is released by a disable only (70_reset_and_hazards.md R476, log 23). -/
def Ctl.move (p : Params) (m : CtlMove) (c : Ctl) : Ctl :=
  match m with
  | .take ans =>
    if Ctl.mayTake ans c then Ctl.execWord p (c.txFifo.headD 0#32) (Ctl.popTx ans c) else c
  | .emptyFifo =>
    if c.icEn && c.bus.isSome && c.txFifo.isEmpty && !p.holdMaster then Ctl.stop c else c
  | .arbLost src =>
    if c.icEn && c.bus.isSome && !c.txFifo.isEmpty && src != 0#32 then Ctl.loseBus src c else c
  | .finishDisable =>
    if c.icEn && !c.enable then
      let c := if c.bus.isSome then Ctl.stop c else c
      { c with txFifo := [], rxFifo := [], icEn := false }
    else c
  | .busy b => { c with otherBusy := b }
  | .latch k => if otherEvents.contains k.val then Ctl.latch k.val c else c
  | .targetReg addr a b =>
    { c with targets := c.targets.map fun d =>
        if d.addr = addr then { d with regs := d.regs.write a.toNat b } else d }
  | .targetPage addr page =>
    { c with targets := c.targets.map fun d =>
        if d.addr = addr then { d with page := page } else d }

/-- Several Ctl steps in order. -/
def Ctl.moves (p : Params) : List CtlMove → Ctl → Ctl
  | [], c => c
  | m :: ms, c => Ctl.moves p ms (Ctl.move p m c)

/-- The value a register read returns; none where the spec leaves it unspecified (10_state.md R70, R71,
R73). Bits 31:14 of INTR_MASK read 0 (R65). A register the block only writes reads what it holds
(DESIGN CHOICE, log 42). -/
def Ctl.readValue (p : Params) (r : Reg) (c : Ctl) : Option Word :=
  match r with
  | .con => some c.con
  | .tar => some (c.tar.setWidth 32)
  | .dataCmd => c.rxFifo.head?.map (·.setWidth 32)
  | .ssSclHcnt => some (c.ssHcnt.setWidth 32)
  | .ssSclLcnt => some (c.ssLcnt.setWidth 32)
  | .fsSclHcnt => some (c.fsHcnt.setWidth 32)
  | .fsSclLcnt => some (c.fsLcnt.setWidth 32)
  | .intrStat => some c.intrStat
  | .intrMask => some (c.intrMask &&& 0x00003FFF#32)
  | .rawIntrStat => some c.raw
  | .rxTl => some (c.rxTl.setWidth 32)
  | .txTl => some (c.txTl.setWidth 32)
  | .clrIntr | .clrRxUnder | .clrRxOver | .clrTxOver | .clrRdReq | .clrTxAbrt => none
  | .clrRxDone | .clrActivity | .clrStopDet | .clrStartDet | .clrGenCall => none
  | .enable => some (bitIf 0 c.enable)
  | .status => some (c.statusWord p)
  | .txflr => some (levelWord c.txFifo.length)
  | .rxflr => some (levelWord c.rxFifo.length)
  | .sdaHold => some (c.sdaHold.setWidth 32)
  | .txAbrtSource => some c.abrtSrc
  | .enableStatus => some (bitIf 0 c.icEn)
  | .compParam1 => some (compParam1 p)

/-- The side effect of a register read (10_state.md R70 to R74). -/
def Ctl.afterRead (r : Reg) (c : Ctl) : Ctl :=
  match r with
  | .clrIntr => { c with latched := 0#32, abrtSrc := 0#32 }
  | .clrRxUnder => Ctl.unlatch 0 c
  | .clrRxOver => Ctl.unlatch 1 c
  | .clrTxOver => Ctl.unlatch 3 c
  | .clrRdReq => Ctl.unlatch 5 c
  | .clrTxAbrt => Ctl.unlatch 6 { c with abrtSrc := 0#32 }
  | .clrRxDone => Ctl.unlatch 7 c
  | .clrActivity => Ctl.unlatch 8 c
  | .clrStopDet => Ctl.unlatch 9 c
  | .clrStartDet => Ctl.unlatch 10 c
  | .clrGenCall => Ctl.unlatch 11 c
  | .dataCmd => if c.rxFifo.isEmpty then Ctl.latch 0 c else { c with rxFifo := c.rxFifo.tail }
  | _ => c

/-- The effect of a register write (10_state.md R60 to R64, R68, R71, R76; 60_exceptions.md R436, R438).
A write to a read-only register has no effect (log 32); DATA_CMD takes a command word at any time
(R76, log 20); a write of ENABLE = 1 while a disable is pending revokes it (log 43). -/
def Ctl.writeReg (p : Params) (r : Reg) (v : Word) (c : Ctl) : Ctl :=
  match r with
  | .con => if c.icEn then c else { c with con := v }
  | .tar => if c.icEn then c else { c with tar := v.setWidth 10 }
  | .ssSclHcnt => if c.icEn then c else { c with ssHcnt := v.setWidth 16 }
  | .ssSclLcnt => if c.icEn then c else { c with ssLcnt := v.setWidth 16 }
  | .fsSclHcnt => if c.icEn then c else { c with fsHcnt := v.setWidth 16 }
  | .fsSclLcnt => if c.icEn then c else { c with fsLcnt := v.setWidth 16 }
  | .sdaHold => if c.icEn then c else { c with sdaHold := v.setWidth 16 }
  | .intrMask => { c with intrMask := v }
  | .rxTl => { c with rxTl := v.setWidth 8 }
  | .txTl => { c with txTl := v.setWidth 8 }
  | .enable => { c with enable := v.getLsbD 0, icEn := v.getLsbD 0 || c.icEn }
  | .dataCmd =>
    if c.txFifo.length < p.ctlTxDepth then { c with txFifo := c.txFifo ++ [v] }
    else Ctl.latch 3 c
  | _ => c

end Sys2Proof.Machine
end

