-- ==== Sys2Proof/Machine/Ops.lean ====
section
/-!
DEFINITION. The shared operations of Seq: requesters' records, register accesses (00_scope.md R15), the
gate (20_memory.md R120 to R123), the posting of a result, which is how every failure reaches its
requester (60_exceptions.md R400), and taking the block's one interrupt with the return from it
(60_exceptions.md R410 to R412).
-/

namespace Sys2Proof.Machine

/-- Go on with `f` where an operation answers a next state. -/
def Flow.andThen (o : Flow) (f : State → Flow) : Flow :=
  match o with
  | .next s => f s
  | .fault r => .fault r
  | .refused r => .refused r

/-- A requester's record in a list of them; one not listed is idle. -/
def lookupAgent : List (Agent × Caller) → Agent → Caller
  | [], _ => Caller.idle
  | (x, c) :: l, a => if a = x then c else lookupAgent l a

/-- The list with a requester's record set. -/
def updateAgent : List (Agent × Caller) → Agent → Caller → List (Agent × Caller)
  | [], a, c => [(a, c)]
  | (x, d) :: l, a, c => if a = x then (x, c) :: l else (x, d) :: updateAgent l a c

/-- A requester's record. -/
def State.agent (s : State) (a : Agent) : Caller := lookupAgent s.agents a

/-- The state with a requester's record set. -/
def State.setAgent (s : State) (a : Agent) (c : Caller) : State :=
  { s with agents := updateAgent s.agents a c }

/-- The operand record of a requester. -/
def State.opsOf (s : State) (a : Agent) : Operands := (s.agent a).ops

/-- Ctl's moves before the next register access (00_scope.md R10, log 2). -/
def ctlTurn (s : State) : State :=
  match s.ctlPlan with
  | [] => s
  | ms :: rest => { s with ctl := Ctl.moves s.par ms s.ctl, ctlPlan := rest }

/-- `RegRead(R)` (00_scope.md R15): Ctl's moves, then the value and the read's side effect. An
unspecified value is a free value (log 10). -/
def regRead (r : Reg) (s0 : State) : Word × State :=
  let s := ctlTurn s0
  match Ctl.readValue s.par r s.ctl with
  | some v => (v, { s with ctl := Ctl.afterRead r s.ctl, io := .read r (some v) :: s.io })
  | none =>
    (Config.freeReg s.fresh,
      { s with ctl := Ctl.afterRead r s.ctl, io := .read r none :: s.io, fresh := s.fresh + 1 })

/-- An access as it stands on the register window under a RegMap (00_scope.md R11, 20_memory.md R112): the
rules, and so Seq and Ctl, name a register's bits by the default layout; none where the map is
corrupt. -/
def Access.onWindow (m : RegMap) : Access → Option WindowAccess
  | .read r v => (m.offset r).map fun o => .read o (v.map (m.toWindow r))
  | .write r v => (m.offset r).map fun o => .write o (m.toWindow r v)

/-- The register window's accesses so far, newest first (20_memory.md R101). -/
def State.windowIo (s : State) : List WindowAccess := s.io.filterMap (Access.onWindow s.par.regMap)

/-- A register read for its side effect alone. -/
def regTouch (r : Reg) (s : State) : State := (regRead r s).2

/-- `RegWrite(R, v)` (00_scope.md R15): Ctl's moves, then the write. -/
def regWrite (r : Reg) (v : Word) (s0 : State) : State :=
  let s := ctlTurn s0
  { s with ctl := Ctl.writeReg s.par r v s.ctl, io := .write r v :: s.io }

/-- `gate_acquire()` where it does not suspend (20_memory.md R120): the gate is free, or the requester
owns it already and enters once more; none where it must wait. -/
def Gate.acquire (a : Agent) (g : Gate) : Option Gate :=
  match g.owner with
  | none => some { g with owner := some a, depth := 1 }
  | some o => if o = a then some { g with depth := g.depth + 1 } else none

/-- A requester that must wait joins the waiters, a set (R120). -/
def Gate.wait (a : Agent) (g : Gate) : Gate :=
  if g.waiters.contains a then g else { g with waiters := g.waiters ++ [a] }

/-- `gate_release()` (20_memory.md R121): none for a requester that does not own the gate. -/
def Gate.release (a : Agent) (g : Gate) : Option Gate :=
  if g.owner = some a ∧ 1 ≤ g.depth then
    some { g with depth := g.depth - 1, owner := if g.depth = 1 then none else g.owner }
  else none

/-- The free gate granted to a waiter (20_memory.md R123): none where it is not free or the requester
is no waiter. -/
def Gate.grant (a : Agent) (g : Gate) : Option Gate :=
  if g.owner = none ∧ g.waiters.contains a = true then
    some { owner := some a, depth := 1, waiters := g.waiters.filter (fun x => !decide (x = a)) }
  else none

/-- The state with the gate set. -/
def State.setGate (s : State) (g : Gate) : State := { s with blk := { s.blk with gate := g } }

/-- The requester stops at a suspension point of its rule (00_scope.md R10). -/
def park (a : Agent) (p : Point) (s : State) : State :=
  s.setAgent a { s.agent a with point := p }

/-- The requester's enclosing operations, innermost first. -/
def setStack (a : Agent) (fs : List Frame) (s : State) : State :=
  s.setAgent a { s.agent a with stack := fs }

/-- Operations entered around the XFER to come, innermost first. -/
def pushFrames (a : Agent) (fs : List Frame) (s : State) : State :=
  setStack a (fs ++ (s.agent a).stack) s

/-- Seq goes on with the requester at once: its activity has reached no suspension point. -/
def goOn (a : Agent) (c : Cont) (fs : List Frame) (s : State) : State :=
  { park a (.go c) (setStack a fs s) with running := some a }

/-- `gate_acquire()` with what follows it (R120): `body` runs now, or, the requester suspended among the
waiters, from `c` once the gate is granted. -/
def withGate (a : Agent) (c : Cont) (body : State → Flow) (s : State) : Flow :=
  match s.blk.gate.acquire a with
  | some g => body (s.setGate g)
  | none => .next (park a (.gate c) (s.setGate (s.blk.gate.wait a)))

/-- `gate_release()` in a rule (R121): a model that meets a release by a non-owner faults. -/
def gateRelease (a : Agent) (s : State) : Flow :=
  match s.blk.gate.release a with
  | some g => .next (s.setGate g)
  | none => .fault .callerObligation

/-- The result is posted to its requester, whose request is over (60_exceptions.md R400, 10_state.md
R57): this is the completion handoff (20_memory.md R115). -/
def post (a : Agent) (r : Result) (s : State) : State :=
  s.setAgent a { s.agent a with
    req := none, waiting := false, result := some r, point := .idle, stack := [] }

/-- `signal_completion()` (41_transfer_engine.md R252). -/
def signalCompletion (s : State) : State := { s with blk := { s.blk with completion := true } }

/-- INTR_MASK written (30_encoding.md R164). -/
def writeMask (v : Word) (s : State) : State := regWrite .intrMask v s

/-- Every paged device's cached page is UNSET (44_rmi4.md R363). -/
def unsetPages (s : State) : State :=
  { s with devs := s.devs.map fun d => { d with currentPage := none } }

/-- A change to one paged-device record. -/
def updateDev (n : Nat) (f : PagedDev → PagedDev) (s : State) : State :=
  { s with devs := s.devs.modify n f }

/-- EVT_IRQ is delivered (60_exceptions.md R411): the line is asserted, the handler installed, power
on. -/
def irqDeliverable (s : State) : Bool := s.ctl.line && s.blk.irqInstalled && s.blk.powered

/-- The idle branch (42_interrupt_fifo.md R281). -/
def idleBranch (s : State) : State := writeMask 0#32 (regTouch .clrIntr s)

/-- The latched bits that have a clear register, in ascending order but for TX_ABRT (R282). -/
def clearRegs : List (Nat × Reg) :=
  [(0, .clrRxUnder), (1, .clrRxOver), (3, .clrTxOver), (5, .clrRdReq), (7, .clrRxDone),
   (8, .clrActivity), (9, .clrStopDet), (10, .clrStartDet), (11, .clrGenCall)]

/-- The abort source is read before the clear that zeroes it (R282, 70_reset_and_hazards.md R472). -/
def clearAbort (stat : Word) (s : State) : State :=
  if stat.getLsbD 6 then
    let r := regRead .txAbrtSource s
    regTouch .clrTxAbrt { r.2 with blk := { r.2.blk with abortSource := r.1 } }
  else s

/-- The clears of the latched bits a snapshot holds (R282). -/
def clearBits (stat : Word) : List (Nat × Reg) → State → State
  | [], s => s
  | (k, r) :: l, s => clearBits stat l (if stat.getLsbD k then regTouch r s else s)

/-- `clear_latched(stat)` (42_interrupt_fifo.md R282). -/
def clearLatched (stat : Word) (s : State) : State :=
  let s := clearBits stat clearRegs (clearAbort stat s)
  if stat.getLsbD 12 || stat.getLsbD 13 then regTouch .clrIntr s else s

/-- The bits of a status that select a handler branch (30_encoding.md R157). -/
def branchBits : Word := 0x00000254#32

/-- A handler run ends (42_interrupt_fifo.md R280, R305): an error the run found completes the
transfer. -/
def endHandler (s : State) : State :=
  if s.blk.msgErr ≠ .none ∧ s.blk.completion = false then
    { signalCompletion (writeMask 0#32 s) with handler := none }
  else { s with handler := none }

/-- The handler run goes on with the branches left in its snapshot, or ends where none is left or the
run has found an error (R280). -/
def nextBranch (stat : Word) (s : State) : State :=
  if s.blk.msgErr ≠ .none ∨ stat &&& branchBits = 0#32 then endHandler s
  else { s with handler := some stat }

/-- The end of branch `k` of the run: its bit of the snapshot is done with (outside a run, log 34). -/
def endBranch (k : Nat) (s : State) : State :=
  nextBranch ((s.handler.getD 0#32) &&& ~~~(BitVec.twoPow 32 k)) s

/-- Interrupt entry (42_interrupt_fifo.md R280 to R282, 60_exceptions.md R412): nothing is saved and no
mode changes; the idle branch where no transfer is active or its completion is signalled, else one
snapshot of INTR_STAT, the clears, and the branches it selects. A snapshot that selects none ends
the run after the clear. -/
def takeIrq (s : State) : State :=
  if s.blk.xphase ≠ .transferActive ∨ s.blk.completion = true then idleBranch s
  else
    let r := regRead .intrStat s
    let s := clearLatched r.1 r.2
    if r.1 &&& branchBits = 0#32 then endHandler s else { s with handler := some r.1 }

end Sys2Proof.Machine
end

