-- ==== Sys2Proof/Machine/Operands.lean ====
section
/-!
DEFINITION. Operand forms: message flags (10_state.md R49), the checks of XFER step 1
(41_transfer_engine.md R242), the bytes an SMBus transaction sends and its messages (43_smbus.md R321
to R332), the RMI4 address split (44_rmi4.md R360), and which caller buffers and message lists a request
lends to the engine (20_memory.md R117, R125).
-/

namespace Sys2Proof.Machine

/-- Message flags (10_state.md R49). -/
def flagRd : Half := 0x0001#16
def flagTen : Half := 0x0010#16
def flagRecvLen : Half := 0x0400#16

/-- The message is a read. -/
def Msg.rd (m : Msg) : Bool := m.flags.getLsbD 0

/-- The address is a 10-bit address. -/
def Msg.ten (m : Msg) : Bool := m.flags.getLsbD 4

/-- The read length is the first received byte. -/
def Msg.recvLen (m : Msg) : Bool := m.flags.getLsbD 10

/-- A caller's message record as a message of the engine. -/
def MsgRec.toMsg (m : MsgRec) : Msg := ⟨m.addr, m.flags, m.len, ⟨.user m.buf, m.cap⟩⟩

/-- The message where the list is shorter than an index: never read after validation (log 36). -/
def Msg.none : Msg := ⟨0#16, 0#16, 0#16, ⟨.user 0, 0#16⟩⟩

/-- Message `i` of a list. -/
def msgAt (msgs : List Msg) (i : Nat) : Msg := msgs.getD i Msg.none

/-- S.status while the write cursor is at a message (10_state.md R32). -/
def Msg.dir (m : Msg) : Status := if m.rd then .readInProgress else .writeInProgress

/-- The per-message checks of R242, against the first message's address and TEN. -/
def Msg.valid (first m : Msg) : Bool :=
  (m.flags &&& ~~~(flagRd ||| flagTen ||| flagRecvLen) == 0#16) &&
  (m.addr.extractLsb' 10 6 == 0#6) &&
  (m.ten || m.addr.extractLsb' 7 3 == 0#3) &&
  (m.addr == first.addr && m.ten == first.ten) &&
  (m.len != 0#16) &&
  decide (m.len.toNat ≤ m.buf.cap.toNat) &&
  (!m.recvLen || (m.rd && m.len == 1#16 && decide (1 + Config.blockMax ≤ m.buf.cap.toNat)))

/-- Every message is valid and at most one has RECV_LEN (R242). -/
def msgsValid (msgs : List Msg) : Bool :=
  msgs.all (Msg.valid (msgAt msgs 0)) && decide ((msgs.filter Msg.recvLen).length ≤ 1)

/-- XFER step 1 (R242): the failure, if any, in the order of the rule. -/
def validate (b : Bus) (msgs : List Msg) (count : Half) : Option Code :=
  if b.ready = false ∨ b.powered = false then some .invalidArgument
  else if count = 0#16 ∨ count.toNat ≠ msgs.length ∨ Config.maxMsgs < count.toNat then
    some .invalidArgument
  else if b.disableUnacked = true then some .disableTimeout
  else if msgsValid msgs = false then some .invalidArgument
  else none

/-- The read cursor past the write messages it stands at (42_interrupt_fifo.md R300). -/
def skipWrites (msgs : List Msg) (i : Nat) : Nat :=
  i + ((msgs.drop i).takeWhile fun m => !m.rd).length

/-- Every message from the read cursor on is a write (42_interrupt_fifo.md R310). -/
def rxComplete (b : Bus) : Bool := (b.msgs.drop b.msgReadIdx).all fun m => !m.rd

/-- The mapper's scratch buffers (43_smbus.md R320, log 37) and the scan's entry buffer (44_rmi4.md R366). -/
def scratch0 (a : Agent) : BufRef := ⟨.t0 a, BitVec.ofNat 16 Config.unionBytes⟩
def scratch1 (a : Agent) : BufRef := ⟨.t1 a, BitVec.ofNat 16 Config.unionBytes⟩
def scratchE (a : Agent) : BufRef := ⟨.pdt a, BitVec.ofNat 16 Config.pdtEntrySize⟩

/-- A write message `W addr T0[0 .. n-1]` (43_smbus.md section 2); `ten` is the TEN bit of the flags. -/
def writeMsg (a : Agent) (addr ten : Half) (n : Nat) : Msg :=
  ⟨addr, ten, BitVec.ofNat 16 n, scratch0 a⟩

/-- A read message `R addr n` into a buffer. -/
def readMsg (buf : BufRef) (addr ten : Half) (n : Nat) : Msg :=
  ⟨addr, ten ||| flagRd, BitVec.ofNat 16 n, buf⟩

/-- A RECV_LEN read `RL addr` into T1. -/
def recvLenMsg (a : Agent) (addr ten : Half) : Msg :=
  ⟨addr, ten ||| flagRd ||| flagRecvLen, 1#16, scratch1 a⟩

/-- What `map` builds (43_smbus.md R320): the bytes put in T0, the messages and the copy-back. -/
structure Mapped where
  bytes : List Byte
  msgs  : List Msg
  back  : CopyBack
  deriving DecidableEq, Repr

/-- `data.block[1 .. L]`, `data` at address `u`. -/
def unionPayload (m : Memory) (u : Nat) : List Byte := m.readAll (u + 1) (m.read u).toNat

/-- A block length `map` accepts (43_smbus.md R329, R331). -/
def blockLenOk (l : Byte) : Bool := decide (1 ≤ l.toNat ∧ l.toNat ≤ Config.blockMax)

/-- `map(size, rw, addr, flags, command, data)` (43_smbus.md R321 to R332); none is InvalidArgument. -/
def smbusMap (a : Agent) (size : SizeClass) (rw : Bool) (o : Operands) (m : Memory) : Option Mapped :=
  let u := bufAddr (.user o.data) 0
  let w (bs : List Byte) : Option Mapped := some ⟨bs, [writeMsg a o.addr o.flags bs.length], .none⟩
  let wr (r : Msg) (cb : CopyBack) : Option Mapped :=
    some ⟨[o.command], [writeMsg a o.addr o.flags 1, r], cb⟩
  match size, rw with
  | .quick, false => w []
  | .quick, true => some ⟨[], [readMsg (scratch0 a) o.addr o.flags 0], .none⟩
  | .byte, false => w [o.command]
  | .byte, true => some ⟨[], [readMsg (scratch0 a) o.addr o.flags 1], .byteT0⟩
  | .byteData, false => w [o.command, m.read u]
  | .byteData, true => wr (readMsg (scratch1 a) o.addr o.flags 1) .byteT1
  | .wordData, false => w [o.command, m.read u, m.read (u + 1)]
  | .wordData, true => wr (readMsg (scratch1 a) o.addr o.flags 2) .wordT1
  | .blockData, false =>
    if blockLenOk (m.read u) then w (o.command :: m.read u :: unionPayload m u) else none
  | .blockData, true => wr (recvLenMsg a o.addr o.flags) .blockT1
  | .i2cBlockData, false =>
    if blockLenOk (m.read u) then w (o.command :: unionPayload m u) else none
  | .i2cBlockData, true =>
    wr (readMsg (scratch1 a) o.addr o.flags Config.blockMax) .i2cBlockT1

/-- `copy_back(data)` (43_smbus.md R324 to R333). -/
def copyBack (a : Agent) (cb : CopyBack) (data : Nat) (m : Memory) : Memory :=
  let u := bufAddr (.user data) 0
  let t0 := bufAddr (.t0 a) 0
  let t1 := bufAddr (.t1 a) 0
  match cb with
  | .none => m
  | .byteT0 => m.write u (m.read t0)
  | .byteT1 => m.write u (m.read t1)
  | .wordT1 => m.writeAll u (m.readAll t1 2)
  | .blockT1 => m.writeAll u (m.readAll t1 ((m.read t1).toNat + 1))
  | .i2cBlockT1 => m.writeAll u (BitVec.ofNat 8 Config.blockMax :: m.readAll t1 Config.blockMax)

/-- The RMI4 address split (44_rmi4.md R360). -/
def rmiPage (a : Half) : Byte := a.extractLsb' 8 8
def rmiOff (a : Half) : Byte := a.extractLsb' 0 8

/-- The descriptor entry decode (44_rmi4.md R367). -/
def decodeEntry (e : List Byte) : FnDesc where
  number := e.getD 5 0#8
  queryBase := (e.getD 0 0#8).setWidth 16
  commandBase := (e.getD 1 0#8).setWidth 16
  controlBase := (e.getD 2 0#8).setWidth 16
  dataBase := (e.getD 3 0#8).setWidth 16
  irqCount := (e.getD 4 0#8).extractLsb' 0 3
  version := (e.getD 4 0#8).extractLsb' 5 2

/-- Which operands a request lends to the engine (30_encoding.md R148 to R154). -/
inductive Shape
  | msgs | union | block | other
  deriving DecidableEq, Repr

/-- Which buffers a request names. QUICK, BYTE write and the unsupported size classes ignore `data`
(30_encoding.md R150, 43_smbus.md R334). -/
def operandShape (i : Instr) : Shape :=
  match i with
  | .xfer | .i2cTransfer => .msgs
  | .rmiReadBlock | .rmiWriteBlock => .block
  | .smbusByteR | .smbusByteDataW | .smbusByteDataR
  | .smbusWordDataW | .smbusWordDataR | .smbusBlockDataW | .smbusBlockDataR
  | .smbusI2cBlockDataW | .smbusI2cBlockDataR => .union
  | .gatedByteR | .gatedByteDataW | .gatedByteDataR
  | .gatedWordDataW | .gatedWordDataR | .gatedBlockDataW | .gatedBlockDataR
  | .gatedI2cBlockDataW | .gatedI2cBlockDataR => .union
  | _ => .other

/-- A caller buffer is lent to the engine by a request in progress (20_memory.md R117, R125, log 28). -/
def Caller.lends (c : Caller) (buf : Nat) : Bool :=
  match c.req with
  | none => false
  | some i =>
    match operandShape i with
    | .msgs => c.ops.msgs.any fun m => m.buf == buf
    | .union => c.ops.data == buf
    | .block => c.ops.buf == buf
    | .other => false

/-- The requester's message list is lent to the engine: its XFER or I2C_TRANSFER is in progress
(20_memory.md R125). -/
def Caller.lendsList (c : Caller) : Bool :=
  match c.req with
  | none => false
  | some i => decide (operandShape i = .msgs)

/-- A caller buffer is lent by some request in progress, or is in the message list of the transfer in
flight (10_state.md R33, 41_transfer_engine.md R241). -/
def State.bufLent (s : State) (buf : Nat) : Bool :=
  s.agents.any (fun e => e.2.lends buf) ||
    (s.blk.status != .idle && s.blk.msgs.any (fun m => decide (m.buf.id = .user buf)))

end Sys2Proof.Machine
end

