-- ==== Sys2Proof/Machine/Return.lean ====
section
/-!
DEFINITION. How the result of an XFER goes back through the operations around it to the requester
(60_exceptions.md R406): each enclosing rule takes the result, releases what it acquired, and passes
it on, wraps it, or goes on with its next transfer.
-/

namespace Sys2Proof.Machine

/-- The descriptor entry the scan has just read (44_rmi4.md R366). -/
def scanEntry (a : Agent) (m : Memory) : List Byte :=
  m.readAll (bufAddr (.pdt a) 0) Config.pdtEntrySize

/-- The function number is a terminator (R366). -/
def isTerminator (e : List Byte) : Bool := e.getD 5 0#8 == 0x00#8 || e.getD 5 0#8 == 0xFF#8

/-- A page-select result (44_rmi4.md R361). -/
def pageResult (r : Result) : Result :=
  if r.code = .ok then Result.okValue 0#32 else ⟨.pageSelectFailure, r.value, r.code⟩

/-- The page the cache holds after a page select (R361). -/
def pageAfter (page : Byte) (r : Result) : Option Byte := if r.code = .ok then some page else none

/-- `(r.code == OK) ? OK(0) : r` (44_rmi4.md R364). -/
def okZero (r : Result) : Result := if r.code = .ok then Result.okValue 0#32 else r

/-- The scan ends (R366): the functions are recorded, the gate released. -/
def endProbe (a : Agent) (dev : Nat) (fns : List FnDesc) (s : State) : Flow :=
  gateRelease a (updateDev dev (fun d => { d with functions := fns }) s)

/-- A result returned to the operations around it, innermost first (60_exceptions.md R406). The next attempt
of the retry wrapper is a suspension point (log 30). -/
def retFrames (a : Agent) : List Frame → Result → State → Flow
  | [], r, s => .next (post a r s)
  | .retry left msgs count :: fs, r, s =>
    if r.code = .busBusyTimeout ∧ left ≠ 0 then
      .next (park a (.go (.xfer msgs count)) (setStack a (.retry (left - 1) msgs count :: fs) s))
    else retFrames a fs r s
  | .smbus cb :: fs, r, s =>
    if r.code = .ok then
      retFrames a fs (Result.okValue 0#32)
        { s with mem := copyBack a cb (s.opsOf a).data s.mem }
    else retFrames a fs r s
  | .gated :: fs, r, s => Flow.andThen (gateRelease a s) (retFrames a fs r)
  | .setPage dev page :: fs, r, s =>
    Flow.andThen
      (gateRelease a (updateDev dev (fun d => { d with currentPage := pageAfter page r }) s))
      (retFrames a fs (pageResult r))
  | .selected blk :: fs, r, s =>
    if r.code = .ok then .next (goOn a (.block blk) fs s)
    else Flow.andThen (gateRelease a s) (retFrames a fs r)
  | .block :: fs, r, s => Flow.andThen (gateRelease a s) (retFrames a fs (okZero r))
  | .probe dev pos found :: fs, r, s =>
    if r.code ≠ .ok then Flow.andThen (endProbe a dev [] s) (retFrames a fs r)
    else
      let e := scanEntry a s.mem
      if isTerminator e then
        Flow.andThen (endProbe a dev found s)
          (retFrames a fs (Result.okValue (BitVec.ofNat 32 found.length)))
      else
        let found := found ++ [decodeEntry e]
        if Config.pdtEnd + Config.pdtEntrySize ≤ pos then
          .next (goOn a (.probe dev (pos - Config.pdtEntrySize) found) fs s)
        else
          Flow.andThen (endProbe a dev found s)
            (retFrames a fs (Result.okValue (BitVec.ofNat 32 found.length)))
  | .f01 dev base todo :: fs, r, s =>
    if r.code ≠ .ok then Flow.andThen (gateRelease a s) (retFrames a fs r)
    else
      match todo with
      | [] => Flow.andThen (gateRelease a s) (retFrames a fs (Result.okValue 0#32))
      | _ :: _ => .next (goOn a (.f01 dev base todo) fs s)

/-- The operation in progress ends with a result (00_scope.md R15 `return`, `raise`). -/
def ret (a : Agent) (r : Result) (s : State) : Flow := retFrames a (s.agent a).stack r s

end Sys2Proof.Machine
end

