-- ==== Sys2Proof/Machine/Timing.lean ====
section
/-!
DEFINITION. The timing calculator and TIMING_COMPUTE (40_timing_and_bus.md R200 to R203).
-/

namespace Sys2Proof.Machine

/-- `round_div` (R201): division by 10^6, rounded half up. The literal stands first so that the kernel does
not count it down where `x` is no numeral. -/
def roundDiv (x : Nat) : Nat := (500000 + x) / 1000000

/-- The default TimingFn (R201). -/
def defaultTiming (t : TimingIn) : RawTiming where
  ssH := (roundDiv (t.clkKhz.toNat * (4000 + t.sdaFallNs.toNat)) : Int) - 3
  ssL := (roundDiv (t.clkKhz.toNat * (4700 + t.sclFallNs.toNat)) : Int) - 1
  fsH := (roundDiv (t.clkKhz.toNat * (600 + t.sdaFallNs.toNat)) : Int) - 3
  fsL := (roundDiv (t.clkKhz.toNat * (1300 + t.sclFallNs.toNat)) : Int) - 1
  hold := (roundDiv (t.clkKhz.toNat * t.sdaHoldNs.toNat) : Int)

/-- A count fits the 16-bit register (R200). -/
def inRange (v : Int) : Bool := decide (0 ≤ v ∧ v ≤ 0xFFFF)

/-- Every count fits (R200, R202). -/
def countsFit (r : RawTiming) : Bool :=
  inRange r.ssH && inRange r.ssL && inRange r.fsH && inRange r.fsL && inRange r.hold

/-- The machine's TimingFn: its own values where it gives any, the default elsewhere (00_scope.md R11,
log 11). -/
def timingFn (p : Params) (t : TimingIn) : RawTiming := (p.timingFn.lookup t).getD (defaultTiming t)

/-- A sum of counts is the bus period within one count, in millionths of a count; `ns` is the period's
length (R203). -/
def periodOk (t : TimingIn) (ns : Nat) (sum : Int) : Bool :=
  let e := ((t.clkKhz.toNat * (ns + t.sdaFallNs.toNat + t.sclFallNs.toNat) : Nat) : Int) - 4000000
  decide (sum * 1000000 - e ≤ 1000000 ∧ e - sum * 1000000 ≤ 1000000)

/-- What R203 asks of the values a machine gives in place of the default's; R202 is the range check. -/
def timingFnOk (p : Params) : Bool :=
  p.timingFn.all fun (t, r) =>
    !countsFit r || (periodOk t 8700 (r.ssH + r.ssL) && periodOk t 1900 (r.fsH + r.fsL))

/-- The timing calculator: none is ConfigurationError (R200). -/
def timing (p : Params) (t : TimingIn) : Option TimingOut :=
  let r := timingFn p t
  if countsFit r then
    some ⟨BitVec.ofInt 16 r.ssH, BitVec.ofInt 16 r.ssL, BitVec.ofInt 16 r.fsH,
      BitVec.ofInt 16 r.fsL, BitVec.ofInt 16 r.hold⟩
  else none

/-- The five outputs in the requester's operand record (30_encoding.md R154). -/
def giveTiming (a : Agent) (o : TimingOut) (s : State) : State :=
  s.setAgent a { s.agent a with ops := { (s.agent a).ops with timingOut := o } }

/-- TIMING_COMPUTE (R200): the outputs go into the requester's operand record, nothing else. -/
def execTimingCompute (s : State) : Flow :=
  let a := s.cur
  match timing s.par (s.opsOf a).timing with
  | none => ret a (Result.fail .configurationError) s
  | some o =>
    ret a (Result.okValue 0#32) (giveTiming a o s)

end Sys2Proof.Machine
end

