-- ==== Sys2Proof/Machine/BusCtl.lean ====
section
/-!
DEFINITION. The bus-controller procedures and what their callers do next (40_timing_and_bus.md R205 to
R208), with the parts of XFER, BUS_*, LIFE_START and LIFE_STOP that follow a `ctl_disable`: since
its poll sleeps (R206), each of them goes on from the poll's end.
-/

namespace Sys2Proof.Machine

/-- `ctl_enable()` (R205). -/
def ctlEnable (s : State) : State := regWrite .enable 1#32 s

/-- The write `ctl_disable` begins with (R206), alone and without a poll in the unwind of R391: with
`ctl_enable` and `ctl_disable` the three `ctl_*` procedures that R213 counts (DEDUCED, log 44). -/
abbrev ctlOff (s : State) : State := regWrite .enable 0#32 s

/-- S.disable_unacked written (R206). -/
def setUnacked (b : Bool) (s : State) : State := { s with blk := { s.blk with disableUnacked := b } }

/-- S.xphase written (10_state.md R40). -/
def setPhase (p : Phase) (s : State) : State := { s with blk := { s.blk with xphase := p } }

/-- The register writes of `configure_proc` after its disable, in order (R208). -/
def configureWrites (s : State) : State :=
  let s := regWrite .con (conValue s.par.busSpeed) s
  let s := regWrite .ssSclHcnt (s.blk.ssHcnt.setWidth 32) s
  let s := regWrite .ssSclLcnt (s.blk.ssLcnt.setWidth 32) s
  let s := regWrite .fsSclHcnt (s.blk.fsHcnt.setWidth 32) s
  let s := regWrite .fsSclLcnt (s.blk.fsLcnt.setWidth 32) s
  let s := regWrite .sdaHold (s.blk.sdaHold.setWidth 32) s
  let s := regWrite .txTl (BitVec.ofNat 32 (s.blk.txFifoDepth / 2)) s
  let s := regWrite .rxTl 0#32 s
  writeMask defaultMask s

/-- The requester's operation ends with a result after the gate is released. -/
def releaseRet (a : Agent) (r : Result) (s : State) : Flow :=
  Flow.andThen (gateRelease a s) (ret a r)

/-- S.mapped is false: the mapping is released (45_lifecycle.md R391, R392). -/
def unmap (s : State) : State := { s with blk := { s.blk with mapped := false } }

/-- `unwind(2)` of a failed start before its unmapping (45_lifecycle.md R391). -/
def unconfigure (s : State) : State := ctlOff (writeMask 0#32 s)

/-- LIFE_START from the end of step 3 on (45_lifecycle.md R390). -/
def startConfigured (a : Agent) (prov : Provider) (ok : Bool) (s : State) : Flow :=
  if ok = false then releaseRet a (Result.fail .disableTimeout) (unmap s)
  else if prov.irq = false then
    releaseRet a (Result.fail .configurationError) (unmap (unconfigure s))
  else
    let s := unsetPages { s with blk := { s.blk with irqInstalled := true } }
    releaseRet a (Result.okValue 0#32) { s with blk := { s.blk with ready := true } }

/-- What follows `configure_proc`, `ok` saying whether its disable was acknowledged. -/
def afterConfigure (a : Agent) (u : ConfigUse) (ok : Bool) (s : State) : Flow :=
  match u with
  | .bus | .power =>
    releaseRet a (if ok then Result.okValue 0#32 else Result.fail .disableTimeout) s
  | .start prov => startConfigured a prov ok s

/-- LIFE_STOP after its disable (45_lifecycle.md R392). -/
def stopTail (a : Agent) (ok : Bool) (s : State) : Flow :=
  releaseRet a (if ok then Result.okValue 0#32 else Result.fail .disableTimeout)
    (unmap { s with blk := { s.blk with irqInstalled := false } })

/-- `xfer_init` after its disable (41_transfer_engine.md R245): TAR, CON bit 4, enable, drop what was
latched, status and phase, the mask; then the caller's wait is armed (R250). -/
def xferArm (a : Agent) (msgs : List Msg) (s : State) : State :=
  let m := msgAt msgs 0
  let s := regWrite .tar (tarValue m.addr) s
  let r := regRead .con s
  let s := regWrite .con (withTen r.1 m.ten) r.2
  let s := regTouch .clrIntr (ctlEnable s)
  let s := { s with blk := { s.blk with status := m.dir, xphase := .transferActive } }
  let s := writeMask defaultMask s
  s.setAgent a { s.agent a with waiting := true, point := .await }

/-- What follows a `ctl_disable` that was acknowledged. -/
def disabled (a : Agent) (u : DisableUse) (s : State) : Flow :=
  match u with
  | .bus => releaseRet a (Result.okValue 0#32) s
  | .stop => stopTail a true s
  | .configure c => afterConfigure a c true (configureWrites s)
  | .xfer msgs => .next (xferArm a msgs s)

/-- What follows a `ctl_disable` that timed out. -/
def disableFailed (a : Agent) (u : DisableUse) (s : State) : Flow :=
  match u with
  | .bus => releaseRet a (Result.fail .disableTimeout) s
  | .stop => stopTail a false s
  | .configure c => afterConfigure a c false s
  | .xfer _ => releaseRet a (Result.fail .disableTimeout) (setPhase .idle s)

/-- Poll `k` of `ctl_disable` (R206): acknowledged, asleep before the next poll, or timed out. -/
def disablePoll (a : Agent) (k : Nat) (u : DisableUse) (s : State) : Flow :=
  let r := regRead .enableStatus s
  if r.1.getLsbD 0 = false then disabled a u (setUnacked false r.2)
  else if k < s.par.disablePollLimit then .next (park a (.sleep (.disable (k + 1) u)) r.2)
  else disableFailed a u (setUnacked true r.2)

/-- `ctl_disable()` (R206). -/
def ctlDisable (a : Agent) (u : DisableUse) (s : State) : Flow :=
  disablePoll a 0 u (ctlOff s)

/-- The common precondition of the BUS_* requests other than BUS_POWER, and the gate (R204). -/
def busRequest (c : Cont) (body : Agent → State → Flow) (s : State) : Flow :=
  if s.blk.mapped = false ∨ s.blk.powered = false then
    ret s.cur (Result.fail .invalidArgument) s
  else withGate s.cur c (body s.cur) s

/-- BUS_ENABLE with the gate held (R210). -/
def busEnableBody (a : Agent) (s : State) : Flow :=
  releaseRet a (Result.okValue 0#32) (ctlEnable s)

/-- BUS_DISABLE with the gate held (R212). -/
def busDisableBody (a : Agent) (s : State) : Flow := ctlDisable a .bus s

/-- BUS_CONFIGURE with the gate held (R211). -/
def busConfigureBody (a : Agent) (s : State) : Flow := ctlDisable a (.configure .bus) s

/-- BUS_MASK_INTR with the gate held (R214). -/
def busMaskBody (a : Agent) (s : State) : Flow :=
  releaseRet a (Result.okValue 0#32) (writeMask 0#32 s)

/-- The clear register of a `kind` (R215): CLR_INTR for 0xFF, a latched bit's own register, none for a
level bit, a bit without a clear register or an index out of range. -/
def clearRegOf (kind : Byte) : Option Reg :=
  if kind = 0xFF#8 then some .clrIntr
  else if kind = 6#8 then some .clrTxAbrt
  else clearRegs.lookup kind.toNat

/-- BUS_CLEAR_INTR with the gate held (R215). -/
def busClearBody (kind : Byte) (a : Agent) (s : State) : Flow :=
  match clearRegOf kind with
  | some r => releaseRet a (Result.okValue 0#32) (regTouch r s)
  | none => releaseRet a (Result.fail .invalidArgument) s

/-- BUS_POWER with the gate held (60_exceptions.md R452). -/
def powerBody (enabled : Bool) (a : Agent) (s : State) : Flow :=
  if enabled = false then
    releaseRet a (Result.okValue 0#32) { s with blk := { s.blk with powered := false } }
  else
    let s := unsetPages { s with blk := { s.blk with powered := true } }
    if s.blk.mapped = true then ctlDisable a (.configure .power) s
    else releaseRet a (Result.okValue 0#32) s

/-- BUS_ENABLE (R210). -/
def execBusEnable (s : State) : Flow := busRequest .busEnable busEnableBody s

/-- BUS_DISABLE (R212). -/
def execBusDisable (s : State) : Flow := busRequest .busDisable busDisableBody s

/-- BUS_CONFIGURE (R211). -/
def execBusConfigure (s : State) : Flow := busRequest .busConfigure busConfigureBody s

/-- BUS_MASK_INTR (R214). -/
def execBusMaskIntr (s : State) : Flow := busRequest .busMask busMaskBody s

/-- BUS_CLEAR_INTR (R215). -/
def execBusClearIntr (s : State) : Flow :=
  let kind := (s.opsOf s.cur).kind
  busRequest (.busClear kind) (busClearBody kind) s

/-- BUS_POWER (60_exceptions.md R452), which has no mapped or powered precondition. -/
def execBusPower (s : State) : Flow :=
  let en := (s.opsOf s.cur).enabled
  withGate s.cur (.power en) (powerBody en s.cur) s

end Sys2Proof.Machine
end

