-- ==== Sys2Proof/Machine/Xfer.lean ====
section
/-!
DEFINITION. The transfer engine (41_transfer_engine.md): XFER steps 1 to 4, the two endings of the
completion wait, the unwind, and the retry wrapper I2C_TRANSFER. Step 5 is Irq.lean.
-/

namespace Sys2Proof.Machine

/-- The field resets of `xfer_init` (R245, 10_state.md R42), before its disable. -/
def xferReset (msgs : List Msg) (count : Half) (s : State) : State :=
  { s with blk := { s.blk with
      msgs := msgs, msgsNum := count.toNat,
      msgWriteIdx := 0, txOff := 0, msgReadIdx := 0, rxOff := 0,
      cmdErr := 0#8, msgErr := .none, abortSource := 0#32, rxOutstanding := 0,
      completion := false, timedOut := false,
      lens := msgs.map (·.len.toNat),
      recvPending := msgs.any Msg.recvLen, holdForLen := false } }

/-- XFER step 4 (R245). -/
def xferInit (a : Agent) (msgs : List Msg) (count : Half) (s : State) : Flow :=
  ctlDisable a (.xfer msgs) (xferReset msgs count s)

/-- One poll of XFER step 3 (R244). -/
def busyPoll (a : Agent) (msgs : List Msg) (count : Half) (s : State) : Flow :=
  let r := regRead .status s
  let s := r.2
  if r.1.getLsbD 0 = false then xferInit a msgs count s
  else if s.blk.pollCount = s.par.busyPollLimit then
    releaseRet a (Result.fail .busBusyTimeout) (setPhase .idle s)
  else
    .next (park a (.sleep (.busy msgs count))
      { s with blk := { s.blk with pollCount := s.blk.pollCount + 1 } })

/-- XFER from the gate on (R243, R244): the phase, the re-check, the first poll. -/
def xferGated (a : Agent) (msgs : List Msg) (count : Half) (s : State) : Flow :=
  if s.blk.ready = false ∨ s.blk.powered = false then
    releaseRet a (Result.fail .invalidArgument) (setPhase .idle s)
  else
    busyPoll a msgs count
      { s with blk := { s.blk with xphase := .busyWait, pollCount := 0 } }

/-- XFER from step 1 on (R240, R242, R243), inside the operations on the requester's stack. -/
def xferStart (a : Agent) (msgs : List Msg) (count : Half) (s : State) : Flow :=
  match validate s.blk msgs count with
  | some c => ret a (Result.fail c) s
  | none => withGate a (.xferGate msgs count) (xferGated a msgs count) s

/-- The phase a wait ends in (R255). -/
def outcomePhase (b : Bus) : Phase :=
  if b.timedOut then .timedOut
  else if b.msgErr ≠ .none then .failed
  else if b.cmdErr ≠ 0#8 then .aborted
  else .completed

/-- The result code of a sequencer-found error (10_state.md R38). -/
def MsgErr.code : MsgErr → Code
  | .none => .ok
  | .invalidArgument => .invalidArgument
  | .protocolError => .protocolError

/-- The result of a transfer (R255). -/
def outcome (b : Bus) : Result :=
  if b.timedOut then Result.fail .transferTimeout
  else if b.msgErr ≠ .none then Result.fail b.msgErr.code
  else if b.cmdErr ≠ 0#8 then Result.of .abortedTransfer b.abortSource
  else Result.okValue (BitVec.ofNat 32 b.msgsNum)

/-- The field writes of the unwind (R256). -/
def unwindFields (s : State) : State :=
  { s with blk := { s.blk with
      status := .idle, msgs := [], msgsNum := 0, lens := [],
      msgWriteIdx := 0, txOff := 0, msgReadIdx := 0, rxOff := 0,
      rxOutstanding := 0, recvPending := false, holdForLen := false, xphase := .idle } }

/-- XFER step 7 (R256): the mask, the fields, the gate, and the result of R255 back to the operations
around the transfer. -/
def unwind (a : Agent) (s : State) : Flow :=
  releaseRet a (outcome s.blk) (unwindFields (writeMask 0#32 s))

/-- The wait of a requester ends (R253, R254): its unwind is pending. -/
def endWait (a : Agent) (s : State) : State :=
  s.setAgent a { s.agent a with waiting := false, point := .unwind }

/-- `Caller.wake(c)` (R254): enabled while it waits and completion is signalled. -/
def wake (a : Agent) (s : State) : State :=
  if (s.agent a).waiting = true ∧ s.blk.completion = true then
    endWait a (setPhase (outcomePhase s.blk) s)
  else s

/-- The requester waiting on the transfer in flight: it owns the gate (R241, log 18). -/
def waitingAgent (s : State) : Option Agent :=
  match s.blk.gate.owner with
  | some a => if (s.agent a).waiting then some a else none
  | none => none

/-- EVT_TIMEOUT, `Timer.timeout(c)` (R253, 60_exceptions.md R450): enabled while a requester waits on a
transfer and completion is not signalled, at any such point (log 35). -/
def execEvtTimeout (s : State) : Flow :=
  match waitingAgent s with
  | some a =>
    if s.blk.completion = false then
      .next (endWait a { s with blk := { s.blk with timedOut := true, xphase := .timedOut } })
    else .next s
  | none => .next s

/-- The message list and count of a requester's operand record (30_encoding.md R148). -/
def State.msgsOf (s : State) (a : Agent) : List Msg := (s.opsOf a).msgs.map MsgRec.toMsg

/-- XFER (R240). -/
def execXfer (s : State) : Flow := xferStart s.cur (s.msgsOf s.cur) (s.opsOf s.cur).count s

/-- I2C_TRANSFER (R260): the budget is read once; only BusBusyTimeout is retried (R261). -/
def execI2cTransfer (s : State) : Flow :=
  let a := s.cur
  let msgs := s.msgsOf a
  let count := (s.opsOf a).count
  xferStart a msgs count (pushFrames a [.retry s.blk.retries msgs count] s)

end Sys2Proof.Machine
end

