-- ==== Sys2Proof/Machine/Irq.lean ====
section
/-!
DEFINITION. The interrupt-driven FIFO controller (42_interrupt_fifo.md): EVT_IRQ and the four handler
branches. A handler run is EVT_IRQ and then the branches its snapshot selects, a step each (log 3);
no other Seq activity comes between them.
-/

namespace Sys2Proof.Machine

/-- The bus-state record changed. -/
def State.mapBlk (s : State) (f : Bus → Bus) : State := { s with blk := f s.blk }

/-- `dc_word(i, off)` for DAT bits `dat` (R291, R293; 30_encoding.md R161). -/
def dcWord (b : Bus) (i off : Nat) (dat : Byte) : Word :=
  let m := msgAt b.msgs i
  cmdWord (if m.rd then 0#8 else dat) m.rd
    (decide (i + 1 = b.msgsNum) && decide (off + 1 = b.lens.getD i 0) && !(m.recvLen && b.recvPending))
    (decide (0 < i) && decide (off = 0))

/-- One command word issued: DATA_CMD, the outstanding-read counter, the write cursor (R290). -/
def issueWord (w : Word) (rd : Bool) (s : State) : State :=
  (regWrite .dataCmd w s).mapBlk fun b =>
    { b with rxOutstanding := if rd then b.rxOutstanding + 1 else b.rxOutstanding, txOff := b.txOff + 1 }

/-- The inner loop of `tx_refill` on the message at the write cursor, with `limit` free TX entries: it
stops with the message issued, the TX FIFO full, or the RX FIFO spoken for (R290, R292). -/
def issueWords : Nat → State → Flow
  | 0, s => .next s
  | limit + 1, s =>
    let b := s.blk
    let m := msgAt b.msgs b.msgWriteIdx
    if ¬ b.txOff < b.lens.getD b.msgWriteIdx 0 then .next s
    else if m.rd then
      if b.rxOutstanding = b.rxFifoDepth then .next s
      else issueWords limit (issueWord (dcWord b b.msgWriteIdx b.txOff 0#8) true s)
    else
      match memRead s.mem m.buf b.txOff with
      | none => .fault .bufferBounds
      | some dat => issueWords limit (issueWord (dcWord b b.msgWriteIdx b.txOff dat) false s)

/-- The outer loop of `tx_refill`, for at most `n` messages (R290, R294). -/
def refillLoop : Nat → State → Flow
  | 0, s => .next s
  | n + 1, s =>
    if s.blk.msgWriteIdx = s.blk.msgsNum ∨ s.blk.holdForLen = true then .next s
    else
      let i := s.blk.msgWriteIdx
      let m := msgAt s.blk.msgs i
      let s := s.mapBlk fun b => { b with status := m.dir }
      let r := regRead .txflr s
      let limit := r.2.blk.txFifoDepth - r.1.toNat
      Flow.andThen (issueWords limit r.2) fun s =>
        if s.blk.txOff < s.blk.lens.getD i 0 then .next s
        else if m.recvLen = true ∧ s.blk.recvPending = true then
          .next (s.mapBlk fun b => { b with holdForLen := true })
        else refillLoop n (s.mapBlk fun b => { b with msgWriteIdx := i + 1, txOff := 0 })

/-- TX_EMPTY is masked once nothing is left to issue (R290, R295). -/
def maskTxEmpty (s : State) : State :=
  if s.blk.msgWriteIdx = s.blk.msgsNum ∨ s.blk.holdForLen = true then writeMask noTxEmptyMask s else s

/-- `tx_refill()` (R290). -/
def txRefill (s : State) : Flow :=
  Flow.andThen (refillLoop (s.blk.msgsNum - s.blk.msgWriteIdx) s) fun s => .next (maskTxEmpty s)

/-- S.msg_err written (10_state.md R38). -/
def setMsgErr (e : MsgErr) (s : State) : State := s.mapBlk fun b => { b with msgErr := e }

/-- A received length the block accepts (R302). -/
def recvLenOk (m : Msg) (l : Byte) : Bool :=
  decide (1 ≤ l.toNat ∧ l.toNat ≤ Config.blockMax ∧ 1 + l.toNat ≤ m.buf.cap.toNat)

/-- `recv_len(i, b)` (R302). -/
def recvLength (i : Nat) (m : Msg) (l : Byte) (s : State) : Flow :=
  if recvLenOk m l = false then .next (setMsgErr .protocolError s)
  else
    match memWrite s.mem m.buf 0 l with
    | none => .fault .bufferBounds
    | some mem =>
      .next (writeMask defaultMask
        { s with mem := mem, blk := { s.blk with
            rxOff := 1, lens := s.blk.lens.set i (1 + l.toNat), recvPending := false, holdForLen := false } })

/-- One received byte stored at the read cursor (R300). -/
def storeByte (m : Msg) (b : Byte) (s : State) : Flow :=
  match memWrite s.mem m.buf s.blk.rxOff b with
  | none => .fault .bufferBounds
  | some mem => .next { s with mem := mem, blk := { s.blk with rxOff := s.blk.rxOff + 1 } }

/-- The read cursor passes a message whose bytes are all received (R300). -/
def passMessage (i : Nat) (s : State) : State :=
  if s.blk.msgErr = .none ∧ s.blk.rxOff = s.blk.lens.getD i 0 then
    s.mapBlk fun b => { b with msgReadIdx := i + 1, rxOff := 0 }
  else s

/-- The read cursor skips the write messages it stands at (R300). -/
def skipAtCursor (b : Bus) : Bus :=
  let i := skipWrites b.msgs b.msgReadIdx
  if i = b.msgReadIdx then b else { b with msgReadIdx := i, rxOff := 0 }

/-- One byte of the drain (R300, R301, R303). -/
def drainByte (s : State) : Flow :=
  let r := regRead .dataCmd (s.mapBlk skipAtCursor)
  let b : Byte := r.1.setWidth 8
  let s := r.2.mapBlk fun k => { k with rxOutstanding := k.rxOutstanding - 1 }
  let i := s.blk.msgReadIdx
  let m := msgAt s.blk.msgs i
  if i = s.blk.msgsNum then .next (setMsgErr .protocolError s)
  else
    Flow.andThen
      (if m.recvLen = true ∧ s.blk.recvPending = true ∧ s.blk.rxOff = 0 then recvLength i m b s
       else storeByte m b s)
      fun s => .next (passMessage i s)

/-- The loop of `rx_drain` over `n` available bytes (R300). -/
def drainLoop : Nat → State → Flow
  | 0, s => .next s
  | n + 1, s =>
    if s.blk.msgErr ≠ .none then .next s else Flow.andThen (drainByte s) (drainLoop n)

/-- `rx_drain()` (R300). -/
def rxDrain (s : State) : Flow :=
  let r := regRead .rxflr s
  drainLoop (r.1.extractLsb' 0 9).toNat r.2

/-- EVT_IRQ (R280): delivered only as 60_exceptions.md R411 says. -/
def execEvtIrq (s : State) : Flow := .next (if irqDeliverable s then takeIrq s else s)

/-- The TX_ABRT branch (R283): it ends the handler run. -/
def execIrqTxAbrt (s : State) : Flow :=
  let s := s.mapBlk fun b => { b with cmdErr := errTxAbrt }
  .next { signalCompletion (writeMask 0#32 s) with handler := none }

/-- The RX_FULL branch (R300). -/
def execIrqRxFull (s : State) : Flow :=
  Flow.andThen (rxDrain s) fun s => .next (endBranch 2 s)

/-- The TX_EMPTY branch, taken while no error is found (R280, R290). -/
def execIrqTxEmpty (s : State) : Flow :=
  if s.blk.msgErr ≠ .none then .next (endBranch 4 s)
  else Flow.andThen (txRefill s) fun s => .next (endBranch 4 s)

/-- `stop_det_branch()` (R310). -/
def stopDetBranch (s : State) : State :=
  let b := s.blk
  let s :=
    if b.msgWriteIdx ≠ b.msgsNum ∨ rxComplete b = false ∨ b.rxOutstanding ≠ 0 then
      setMsgErr .protocolError s
    else s
  signalCompletion (writeMask 0#32 s)

/-- The STOP_DET branch, taken while no error is found (R280, R310). -/
def execIrqStopDet (s : State) : Flow :=
  .next (endBranch 9 (if s.blk.msgErr ≠ .none then s else stopDetBranch s))

end Sys2Proof.Machine
end

