-- ==== Sys2Proof/Machine/DataCmd.lean ====
section
/-!
DEFINITION. The command words the block writes into DATA_CMD, as the controller executes them
(30_encoding.md R160, 42_interrupt_fifo.md R291, 60_exceptions.md R431, R434). The refill assembles and
writes them (Irq.lean, `dcWord`); the controller fetches them from the head of its TX FIFO (log 3).
-/

namespace Sys2Proof.Machine

/-- DC_WRITE: the address if it is due, the byte DAT, and a STOP if the word says so; an abort where it
is not acknowledged (R431, R434). -/
def execDcWrite (dat : Byte) (stop restart : Bool) (s : State) : Flow :=
  .next { s with ctl := Ctl.execWrite dat stop restart s.ctl }

/-- DC_READ: the address if it is due, one byte received onto the RX FIFO, and a STOP if the word says
so; an abort where the address is not acknowledged (R431, R434). -/
def execDcRead (stop restart : Bool) (s : State) : Flow :=
  .next { s with ctl := Ctl.execRead s.par stop restart s.ctl }

end Sys2Proof.Machine
end

