-- ==== Sys2Proof/Machine/Smbus.lean ====
section
/-!
DEFINITION. The SMBus transaction mapper (43_smbus.md): the common frame R320, a meaning per size class
and direction, and the gated variant R335.
-/

namespace Sys2Proof.Machine

/-- A zero-length message, which no XFER takes (41_transfer_engine.md R242): QUICK's (R321, R322). -/
def hasEmptyMsg (msgs : List Msg) : Bool := msgs.any fun m => m.len == 0#16

/-- `smbus_xfer` for a supported size class (R320): the flag check, `map`, the scratch bytes, then one
XFER; the copy-back follows its success (Return.lean). QUICK is InvalidArgument whatever XFER step 1
would test first (R321, R322, log 13). -/
def smbusXfer (size : SizeClass) (rw : Bool) (a : Agent) (s : State) : Flow :=
  let o := s.opsOf a
  if o.flags &&& ~~~flagTen ≠ 0#16 then ret a (Result.fail .invalidArgument) s
  else
    match smbusMap a size rw o s.mem with
    | none => ret a (Result.fail .invalidArgument) s
    | some k =>
      if hasEmptyMsg k.msgs then ret a (Result.fail .invalidArgument) s
      else
        xferStart a k.msgs (BitVec.ofNat 16 k.msgs.length)
          (pushFrames a [.smbus k.back]
            { s with mem := s.mem.writeAll (bufAddr (scratch0 a).id 0) k.bytes })

/-- An SMBUS_XFER request (R320). -/
def smbusRequest (size : SizeClass) (rw : Bool) (s : State) : Flow := smbusXfer size rw s.cur s

/-- `smbus_xfer_gated` with the gate held (R335). -/
def gatedBody (size : SizeClass) (rw : Bool) (a : Agent) (s : State) : Flow :=
  smbusXfer size rw a (pushFrames a [.gated] s)

/-- An SMBUS_XFER_GATED request (R335). -/
def gatedRequest (size : SizeClass) (rw : Bool) (s : State) : Flow :=
  withGate s.cur (.gated size rw) (gatedBody size rw s.cur) s

/-- An unsupported size class (R334): no gate, no register, no buffer. -/
def unsupported (s : State) : Flow := ret s.cur (Result.fail .unsupportedTransactionType) s

/-- SMBUS_XFER, Quick write (R321, log 13). -/
def execSmbusQuickW (s : State) : Flow := smbusRequest .quick false s

/-- SMBUS_XFER, Quick read (R322, log 13). -/
def execSmbusQuickR (s : State) : Flow := smbusRequest .quick true s

/-- SMBUS_XFER, Byte write (R323). -/
def execSmbusByteW (s : State) : Flow := smbusRequest .byte false s

/-- SMBUS_XFER, Byte read (R324). -/
def execSmbusByteR (s : State) : Flow := smbusRequest .byte true s

/-- SMBUS_XFER, ByteData write (R325). -/
def execSmbusByteDataW (s : State) : Flow := smbusRequest .byteData false s

/-- SMBUS_XFER, ByteData read (R326). -/
def execSmbusByteDataR (s : State) : Flow := smbusRequest .byteData true s

/-- SMBUS_XFER, WordData write (R327). -/
def execSmbusWordDataW (s : State) : Flow := smbusRequest .wordData false s

/-- SMBUS_XFER, WordData read (R328). -/
def execSmbusWordDataR (s : State) : Flow := smbusRequest .wordData true s

/-- SMBUS_XFER, BlockData write (R329). -/
def execSmbusBlockDataW (s : State) : Flow := smbusRequest .blockData false s

/-- SMBUS_XFER, BlockData read (R330). -/
def execSmbusBlockDataR (s : State) : Flow := smbusRequest .blockData true s

/-- SMBUS_XFER, I2cBlockData write (R331). -/
def execSmbusI2cBlockDataW (s : State) : Flow := smbusRequest .i2cBlockData false s

/-- SMBUS_XFER, I2cBlockData read (R332). -/
def execSmbusI2cBlockDataR (s : State) : Flow := smbusRequest .i2cBlockData true s

/-- SMBUS_XFER with a SIZE outside the six classes (R334). -/
def execSmbusUnsupported (_size : BitVec 4) (_rw : Bool) (s : State) : Flow := unsupported s

/-- SMBUS_XFER_GATED, Quick write (R335, R321). -/
def execGatedQuickW (s : State) : Flow := gatedRequest .quick false s

/-- SMBUS_XFER_GATED, Quick read (R335, R322). -/
def execGatedQuickR (s : State) : Flow := gatedRequest .quick true s

/-- SMBUS_XFER_GATED, Byte write (R335, R323). -/
def execGatedByteW (s : State) : Flow := gatedRequest .byte false s

/-- SMBUS_XFER_GATED, Byte read (R335, R324). -/
def execGatedByteR (s : State) : Flow := gatedRequest .byte true s

/-- SMBUS_XFER_GATED, ByteData write (R335, R325). -/
def execGatedByteDataW (s : State) : Flow := gatedRequest .byteData false s

/-- SMBUS_XFER_GATED, ByteData read (R335, R326). -/
def execGatedByteDataR (s : State) : Flow := gatedRequest .byteData true s

/-- SMBUS_XFER_GATED, WordData write (R335, R327). -/
def execGatedWordDataW (s : State) : Flow := gatedRequest .wordData false s

/-- SMBUS_XFER_GATED, WordData read (R335, R328). -/
def execGatedWordDataR (s : State) : Flow := gatedRequest .wordData true s

/-- SMBUS_XFER_GATED, BlockData write (R335, R329). -/
def execGatedBlockDataW (s : State) : Flow := gatedRequest .blockData false s

/-- SMBUS_XFER_GATED, BlockData read (R335, R330). -/
def execGatedBlockDataR (s : State) : Flow := gatedRequest .blockData true s

/-- SMBUS_XFER_GATED, I2cBlockData write (R335, R331). -/
def execGatedI2cBlockDataW (s : State) : Flow := gatedRequest .i2cBlockData false s

/-- SMBUS_XFER_GATED, I2cBlockData read (R335, R332). -/
def execGatedI2cBlockDataR (s : State) : Flow := gatedRequest .i2cBlockData true s

/-- SMBUS_XFER_GATED with a SIZE outside the six classes (R335, R334). -/
def execGatedUnsupported (_size : BitVec 4) (_rw : Bool) (s : State) : Flow := unsupported s

end Sys2Proof.Machine
end

