-- ==== Sys2Proof/Machine/Rmi.lean ====
section
/-!
DEFINITION. The RMI4 page-selection sequencer (44_rmi4.md). Each request checks readiness and the device
address, then holds the gate across its page check, page select and block transfer.
-/

namespace Sys2Proof.Machine

/-- A paged-device record; a reference to none is a bad operand (log 15). -/
def State.dev (s : State) (n : Nat) : Option PagedDev := s.devs[n]?

/-- The I2C address of a paged device. -/
def State.devAddr (s : State) (n : Nat) : Half := (s.devs[n]?.map (·.addr)).getD 0#16

/-- The checks every RMI_* request makes first (44_rmi4.md, introduction; 10_state.md R35). -/
def rmiChecked (n : Nat) (s : State) : Bool :=
  s.blk.ready &&
    match s.dev n with
    | some d => d.addr.extractLsb' 7 9 == 0#9
    | none => false

/-- `set_page` with the gate held, its message `[0xFF, page]` (R361, R362). -/
def setPageBody (dev : Nat) (page : Byte) (a : Agent) (s : State) : Flow :=
  xferStart a [writeMsg a (s.devAddr dev) 0#16 2] 1#16
    (pushFrames a [.smbus .none, .setPage dev page]
      { s with mem := s.mem.writeAll (bufAddr (scratch0 a).id 0) [Config.pageSelectReg, page] })

/-- The length a block access moves (R364, R365). -/
def BlockData.len : BlockData → Nat
  | .read _ n => n
  | .write _ n => n
  | .bytes bs => bs.length

/-- The buffer capacity bounds a block access (R364, R365). -/
def BlockData.fits : BlockData → Bool
  | .read buf n => decide (n ≤ buf.cap.toNat)
  | .write buf n => decide (n ≤ buf.cap.toNat)
  | .bytes _ => true

/-- The argument check of read_block and write_block (R364, R365). -/
def Block.lenOk (b : Block) : Bool :=
  decide (1 ≤ b.data.len ∧ b.data.len ≤ Config.blockMax) && b.data.fits

/-- The block transfer, its page selected (R364, R365). -/
def blockBody (blk : Block) (a : Agent) (s : State) : Flow :=
  let addr := s.devAddr blk.dev
  let s := pushFrames a [.block] s
  let put (bs : List Byte) : State :=
    { s with mem := s.mem.writeAll (bufAddr (scratch0 a).id 0) (rmiOff blk.addr :: bs) }
  match blk.data with
  | .read buf n =>
    xferStart a [writeMsg a addr 0#16 1, readMsg buf addr 0#16 n] 2#16 (put [])
  | .write buf n =>
    xferStart a [writeMsg a addr 0#16 (n + 1)] 1#16 (put (s.mem.readAll (bufAddr buf.id 0) n))
  | .bytes bs => xferStart a [writeMsg a addr 0#16 (bs.length + 1)] 1#16 (put bs)

/-- read_block or write_block with the gate held (R363 to R365): a page select exactly when the cached
page is not the address's page. -/
def accessBody (blk : Block) (a : Agent) (s : State) : Flow :=
  let p := rmiPage blk.addr
  if (s.dev blk.dev).bind (·.currentPage) = some p then blockBody blk a s
  else
    withGate a (.setPage blk.dev p) (setPageBody blk.dev p a) (pushFrames a [.selected blk] s)

/-- read_block or write_block (R364, R365): the argument check, then the gate. -/
def blockAccess (blk : Block) (a : Agent) (s : State) : Flow :=
  if blk.lenOk = false then ret a (Result.fail .invalidArgument) s
  else withGate a (.access blk) (accessBody blk a) s

/-- The scan reads its next entry, or ends where it has passed PDT_END (R366). -/
def probeBody (dev pos : Nat) (found : List FnDesc) (a : Agent) (s : State) : Flow :=
  blockAccess ⟨dev, BitVec.ofNat 16 pos, .read (scratchE a) Config.pdtEntrySize⟩ a
    (pushFrames a [.probe dev pos found] s)

/-- `f01_init` with the gate held: its next write, or its end (R368, log 16). -/
def f01Body (dev : Nat) (base : Half) (todo : List (Half × List Byte)) (a : Agent) (s : State) : Flow :=
  match todo with
  | [] => releaseRet a (Result.okValue 0#32) s
  | (k, bs) :: rest =>
    blockAccess ⟨dev, base + k, .bytes bs⟩ a (pushFrames a [.f01 dev base rest] s)

/-- The control base of function 01 in a device's list (R368); of several entries with that number the
first in scan order (DESIGN CHOICE, log 45). -/
def f01Base (d : PagedDev) : Option Half :=
  (d.functions.find? fun f => f.number == 0x01#8).map (·.controlBase)

/-- The device an RMI_* request names. -/
def State.devOf (s : State) : Nat := (s.opsOf s.cur).dev

/-- An RMI_* request: its checks, then what it does. -/
def rmiRequest (body : State → Flow) (s : State) : Flow :=
  if rmiChecked s.devOf s = false then ret s.cur (Result.fail .invalidArgument) s else body s

/-- RMI_SET_PAGE (R361). -/
def execRmiSetPage (s : State) : Flow :=
  let page := (s.opsOf s.cur).page
  rmiRequest (withGate s.cur (.setPage s.devOf page) (setPageBody s.devOf page s.cur)) s

/-- The caller buffer of a block request (30_encoding.md R151). -/
def Operands.bufRef (o : Operands) : BufRef := ⟨.user o.buf, o.bufCap⟩

/-- RMI_READ_BLOCK (R364). -/
def execRmiReadBlock (s : State) : Flow :=
  let o := s.opsOf s.cur
  rmiRequest (blockAccess ⟨s.devOf, o.rmiAddr, .read o.bufRef o.len.toNat⟩ s.cur) s

/-- RMI_WRITE_BLOCK (R365). -/
def execRmiWriteBlock (s : State) : Flow :=
  let o := s.opsOf s.cur
  rmiRequest (blockAccess ⟨s.devOf, o.rmiAddr, .write o.bufRef o.len.toNat⟩ s.cur) s

/-- RMI_PROBE (R366). -/
def execRmiProbe (s : State) : Flow :=
  rmiRequest
    (withGate s.cur (.probe s.devOf Config.pdtStart [])
      (probeBody s.devOf Config.pdtStart [] s.cur)) s

/-- RMI_F01_INIT (R368): function 01 must have been found by a probe. -/
def execRmiF01Init (s : State) : Flow :=
  rmiRequest
    (fun s =>
      match (s.dev s.devOf).bind f01Base with
      | none => ret s.cur (Result.fail .invalidArgument) s
      | some base =>
        withGate s.cur (.f01 s.devOf base s.par.f01Init)
          (f01Body s.devOf base s.par.f01Init s.cur) s) s

end Sys2Proof.Machine
end

