-- ==== Sys2Proof/Machine/Life.lean ====
section
/-!
DEFINITION. Lifecycle requests (45_lifecycle.md): LIFE_START up to its `configure_proc`, LIFE_STOP up to
its `ctl_disable` (BusCtl.lean goes on after the disable), and detach.
-/

namespace Sys2Proof.Machine

/-- The timing fields and FIFO depths written by step 2 (R390). -/
def startTiming (o : TimingOut) (s : State) : State :=
  { s with blk := { s.blk with
      ssHcnt := o.ssHcnt, ssLcnt := o.ssLcnt, fsHcnt := o.fsHcnt, fsLcnt := o.fsLcnt,
      sdaHold := o.sdaHold,
      txFifoDepth := s.par.txFifoDepth, rxFifoDepth := s.par.rxFifoDepth } }

/-- LIFE_START with the gate held (R390, R391). -/
def startBody (prov : Provider) (a : Agent) (s : State) : Flow :=
  match prov.window with
  | none => releaseRet a (Result.fail .configurationError) s
  | some (base, size) =>
    let s := { s with blk := { s.blk with regBase := some base, regSize := some size, mapped := true } }
    match prov.timing.bind (timing s.par) with
    | none => releaseRet a (Result.fail .configurationError) (unmap s)
    | some o => ctlDisable a (.configure (.start prov)) (startTiming o s)

/-- LIFE_START (R390). -/
def execLifeStart (s : State) : Flow :=
  let prov := (s.opsOf s.cur).provider
  if s.blk.mapped = true ∨ s.blk.ready = true ∨ s.blk.powered = false then
    ret s.cur (Result.fail .invalidArgument) s
  else withGate s.cur (.start prov) (startBody prov s.cur) s

/-- LIFE_STOP with the gate held (R392): no register access while powered off. -/
def stopBody (a : Agent) (s : State) : Flow :=
  if s.blk.powered = true then ctlDisable a .stop (writeMask 0#32 s) else stopTail a true s

/-- LIFE_STOP (R392): transfers fail fast from its first write on. -/
def execLifeStop (s : State) : Flow :=
  if s.blk.mapped = false then ret s.cur (Result.okValue 0#32) s
  else withGate s.cur .stop (stopBody s.cur) { s with blk := { s.blk with ready := false } }

end Sys2Proof.Machine
end

