-- ==== Sys2Proof/Machine/Resume.lean ====
section
/-!
DEFINITION. A suspended request goes on: what Seq does for it next, from the point its rule's pseudocode
had reached.
-/

namespace Sys2Proof.Machine

/-- What follows a suspension or a finished part of a request. -/
def runCont (a : Agent) (c : Cont) (s : State) : Flow :=
  match c with
  | .xfer msgs count => xferStart a msgs count s
  | .xferGate msgs count => xferGated a msgs count s
  | .busy msgs count => busyPoll a msgs count s
  | .disable k u => disablePoll a k u s
  | .busEnable => busEnableBody a s
  | .busDisable => busDisableBody a s
  | .busConfigure => busConfigureBody a s
  | .busMask => busMaskBody a s
  | .busClear kind => busClearBody kind a s
  | .power en => powerBody en a s
  | .start prov => startBody prov a s
  | .stop => stopBody a s
  | .gated size rw => gatedBody size rw a s
  | .setPage dev page => setPageBody dev page a s
  | .access blk => accessBody blk a s
  | .block blk => blockBody blk a s
  | .probe dev pos found => probeBody dev pos found a s
  | .f01 dev base todo => f01Body dev base todo a s

/-- The free gate granted to a waiter (20_memory.md R123), which goes on; no step where the gate is not
free or the requester does not wait for it (log 19). -/
def grantGate (a : Agent) (s : State) : Flow :=
  match (s.agent a).point, s.blk.gate.grant a with
  | .gate c, some g => runCont a c (park a .idle (s.setGate g))
  | _, _ => .next s

/-- A requester's sleep ends, its pending unwind runs, or its next part begins; no step elsewhere. -/
def resumeAgent (a : Agent) (s : State) : Flow :=
  match (s.agent a).point with
  | .sleep c | .go c => runCont a c (park a .idle s)
  | .unwind => unwind a (park a .idle s)
  | .idle | .gate _ | .await => .next s

end Sys2Proof.Machine
end

