-- ==== Sys2Proof/Machine/Dispatch.lean ====
section
/-!
DEFINITION. One arm per instruction, each one direct call of its meaning.
-/

namespace Sys2Proof.Machine

def exec (i : Instr) (s : State) : Host.Outcome State Fault Refusal :=
  match i with
  | .busEnable => Sys2Proof.Machine.execBusEnable s
  | .busDisable => Sys2Proof.Machine.execBusDisable s
  | .busConfigure => Sys2Proof.Machine.execBusConfigure s
  | .busMaskIntr => Sys2Proof.Machine.execBusMaskIntr s
  | .busClearIntr => Sys2Proof.Machine.execBusClearIntr s
  | .busPower => Sys2Proof.Machine.execBusPower s
  | .timingCompute => Sys2Proof.Machine.execTimingCompute s
  | .xfer => Sys2Proof.Machine.execXfer s
  | .i2cTransfer => Sys2Proof.Machine.execI2cTransfer s
  | .smbusQuickW => Sys2Proof.Machine.execSmbusQuickW s
  | .smbusQuickR => Sys2Proof.Machine.execSmbusQuickR s
  | .smbusByteW => Sys2Proof.Machine.execSmbusByteW s
  | .smbusByteR => Sys2Proof.Machine.execSmbusByteR s
  | .smbusByteDataW => Sys2Proof.Machine.execSmbusByteDataW s
  | .smbusByteDataR => Sys2Proof.Machine.execSmbusByteDataR s
  | .smbusWordDataW => Sys2Proof.Machine.execSmbusWordDataW s
  | .smbusWordDataR => Sys2Proof.Machine.execSmbusWordDataR s
  | .smbusBlockDataW => Sys2Proof.Machine.execSmbusBlockDataW s
  | .smbusBlockDataR => Sys2Proof.Machine.execSmbusBlockDataR s
  | .smbusI2cBlockDataW => Sys2Proof.Machine.execSmbusI2cBlockDataW s
  | .smbusI2cBlockDataR => Sys2Proof.Machine.execSmbusI2cBlockDataR s
  | .smbusUnsupported size rw => Sys2Proof.Machine.execSmbusUnsupported size rw s
  | .gatedQuickW => Sys2Proof.Machine.execGatedQuickW s
  | .gatedQuickR => Sys2Proof.Machine.execGatedQuickR s
  | .gatedByteW => Sys2Proof.Machine.execGatedByteW s
  | .gatedByteR => Sys2Proof.Machine.execGatedByteR s
  | .gatedByteDataW => Sys2Proof.Machine.execGatedByteDataW s
  | .gatedByteDataR => Sys2Proof.Machine.execGatedByteDataR s
  | .gatedWordDataW => Sys2Proof.Machine.execGatedWordDataW s
  | .gatedWordDataR => Sys2Proof.Machine.execGatedWordDataR s
  | .gatedBlockDataW => Sys2Proof.Machine.execGatedBlockDataW s
  | .gatedBlockDataR => Sys2Proof.Machine.execGatedBlockDataR s
  | .gatedI2cBlockDataW => Sys2Proof.Machine.execGatedI2cBlockDataW s
  | .gatedI2cBlockDataR => Sys2Proof.Machine.execGatedI2cBlockDataR s
  | .gatedUnsupported size rw => Sys2Proof.Machine.execGatedUnsupported size rw s
  | .rmiSetPage => Sys2Proof.Machine.execRmiSetPage s
  | .rmiReadBlock => Sys2Proof.Machine.execRmiReadBlock s
  | .rmiWriteBlock => Sys2Proof.Machine.execRmiWriteBlock s
  | .rmiProbe => Sys2Proof.Machine.execRmiProbe s
  | .rmiF01Init => Sys2Proof.Machine.execRmiF01Init s
  | .lifeStart => Sys2Proof.Machine.execLifeStart s
  | .lifeStop => Sys2Proof.Machine.execLifeStop s
  | .evtIrq => Sys2Proof.Machine.execEvtIrq s
  | .evtTimeout => Sys2Proof.Machine.execEvtTimeout s
  | .irqTxAbrt => Sys2Proof.Machine.execIrqTxAbrt s
  | .irqRxFull => Sys2Proof.Machine.execIrqRxFull s
  | .irqTxEmpty => Sys2Proof.Machine.execIrqTxEmpty s
  | .irqStopDet => Sys2Proof.Machine.execIrqStopDet s
  | .dcWrite dat stop restart => Sys2Proof.Machine.execDcWrite dat stop restart s
  | .dcRead stop restart => Sys2Proof.Machine.execDcRead stop restart s

end Sys2Proof.Machine
end

