-- ==== Sys2Proof/Machine/Fetch.lean ====
section
/-!
DEFINITION. What the machine does next: which instruction the next step executes, at which state, or
which move of another agent it takes instead (00_scope.md R9, R10; log 1 to log 3).
-/

namespace Sys2Proof.Machine

/-- The next step: an instruction with the state it is executed at, or a move already taken. -/
inductive Fetched
  | instr (i : Instr) (s : State)
  | move (o : Flow)

/-- An agent's port (60_exceptions.md R420; the platform is one agent, log 14). -/
def Agent.port : Agent → Port
  | .platform => .platform
  | .caller _ => .caller

/-- The agent exists (00_scope.md R9, R11). -/
def Agent.known (p : Params) : Agent → Bool
  | .platform => true
  | .caller c => decide (c < p.numCallers)

/-- The requester's record with a request just submitted. -/
def Caller.submitted (i : Instr) (ops : Operands) : Caller where
  req := some i
  waiting := false
  result := none
  ops := ops
  point := .idle
  stack := []

/-- The state with a requester's request submitted and about to be executed. -/
def submitted (a : Agent) (i : Instr) (ops : Operands) (s : State) : State :=
  { s.setAgent a (Caller.submitted i ops) with cur := a }

/-- An illegal request word (30_encoding.md R170): its requester gets IllegalRequest(w), nothing else
changes. -/
def refuseWord (a : Agent) (w : Word) (s : State) : State := post a (Result.of .illegalRequest w) s

/-- A request word arrives on its requester's port (30_encoding.md R147; 10_state.md R57). -/
def submit (a : Agent) (w : Word) (ops : Operands) (s : State) : Fetched :=
  if s.attached = false ∨ a.known s.par = false then .move (.next s)
  else if (s.agent a).req.isSome then .move (.fault .callerObligation)
  else
    match decodeReq a.port w with
    | .ok i => .instr i (submitted a i ops s)
    | .error _ => .move (.next (refuseWord a w s))

/-- A caller writes one of its buffers (20_memory.md R100, R117). -/
def storeBuf (buf off : Nat) (b : Byte) (s : State) : Flow :=
  if s.bufLent buf then .fault .bufferRace
  else if off < 65536 then .next { s with mem := s.mem.write (bufAddr (.user buf) off) b }
  else .fault .bufferBounds

/-- A caller changes the message list `a` holds (20_memory.md R125, log 28): a race after `a` submitted it and
before the result, and without effect on any transfer otherwise. -/
def changeList (a : Agent) (msgs : List MsgRec) (s : State) : Flow :=
  if a.known s.par = false then .next s
  else if (s.agent a).lendsList then .fault .bufferRace
  else .next (s.setAgent a { s.agent a with ops := { s.opsOf a with msgs := msgs } })

/-- Ctl takes the head word of its TX FIFO (60_exceptions.md R431), which is the instruction. -/
def takeWord (ans : Answer) (s : State) : Fetched :=
  if Ctl.mayTake ans s.ctl then
    match decodeCmd (s.ctl.txFifo.headD 0#32) with
    | .ok i => .instr i { s with ctl := Ctl.popTx ans s.ctl }
    | .error _ => .move (.next { s with ctl := Ctl.popTx ans s.ctl })
  else .move (.next s)

/-- A draw's registers in the place of the controller's; the targets, the bus history and who keeps the
bus busy from outside are not the controller's. -/
def Ctl.replaced (draw old : Ctl) : Ctl :=
  { draw with otherBusy := old.otherBusy, targets := old.targets, wire := old.wire }

/-- The values INTR_MASK ever holds once `start` has configured (42_interrupt_fifo.md R306). -/
def maskValues : List Word := [0#32, noTxEmptyMask, defaultMask]

/-- What is left of a draw of the registers while power is off: INTR_MASK keeps to its three values (R306)
or as it was in `old`, the FIFOs are empty, and no bus transaction is held. -/
def Ctl.lost (draw old : Ctl) : Ctl :=
  { draw with
    txFifo := [], rxFifo := [], bus := none,
    intrMask := if maskValues.contains draw.intrMask then draw.intrMask else old.intrMask }

/-- Register contents lost while power is off (60_exceptions.md R453, log 25). -/
def losePower (draw : Ctl) (s : State) : State :=
  if s.blk.powered = false then { s with ctl := Ctl.replaced (Ctl.lost draw s.ctl) s.ctl } else s

/-- Detach (45_lifecycle.md R393): a started bus, or one with a request in progress (log 27), is a
fault. -/
def detachBus (s : State) : Flow :=
  if s.blk.mapped = true ∨ s.agents.any (fun e => e.2.req.isSome) = true then
    .fault .callerObligation
  else .next { s with attached := false }

/-- Attach creates S (45_lifecycle.md R393, 10_state.md R80), with the controller's registers a draw
(R81). -/
def attachBus (draw : Ctl) (s : State) : State :=
  if s.attached then s
  else
    { s with
      attached := true, blk := Bus.created s.par, devs := [], agents := [],
      ctl := Ctl.replaced (Ctl.drawn draw) s.ctl }

/-- A move taken between two Seq activities; one that is not enabled changes nothing (log 19). -/
def takeMove (m : Move) (s : State) : Fetched :=
  match m with
  | .request a w ops => submit a w ops s
  | .event w =>
    match decodeEvt w with
    | .ok i => .instr i s
    | .error _ => .move (.refused .notAnEvent)
  | .wake a => .move (.next (wake a s))
  | .resume a => .move (resumeAgent a s)
  | .grant a => .move (grantGate a s)
  | .ctl (.take ans) => takeWord ans s
  | .ctl m => .move (.next { s with ctl := Ctl.move s.par m s.ctl })
  | .store _ buf off b => .move (storeBuf buf off b s)
  | .relist a msgs => .move (changeList a msgs s)
  | .newDevice addr => .move (.next { s with devs := s.devs ++ [⟨addr, none, []⟩] })
  | .newTarget addr page =>
    .move (.next { s with ctl := { s.ctl with
      targets := s.ctl.targets ++ [⟨addr, page, none, []⟩] } })
  | .powerLoss draw => .move (.next (losePower draw s))
  | .attach draw => .move (.next (attachBus draw s))
  | .detach => .move (detachBus s)

/-- The next step: the branch a handler run has reached, Seq's unfinished activity, or the next move of
the schedule; with no move left nothing happens (log 1). A corrupt RegMap is refused (20_memory.md
R108, log 12). -/
def fetch (s : State) : Fetched :=
  if s.par.regMap.ok s.par.regWindowSize = false then .move (.refused .corruptRegMap)
  else
    match s.handler with
    | some stat =>
      match decodeStat stat with
      | .ok i => .instr i s
      | .error _ => .move (.next (endHandler s))
    | none =>
      match s.running with
      | some a => .move (resumeAgent a { s with running := none })
      | none =>
        match s.sched with
        | [] => .move (.next s)
        | m :: ms => takeMove m { s with sched := ms }

/-- The state with a word of the opcode table placed where the next step takes it (log 5): a request is
submitted by the platform with an empty operand record, an event delivered, an interrupt status
held by a handler run, a command word at the head of the TX FIFO of an enabled controller. -/
def placeWord (f : Format) (w : Word) (s : State) : State :=
  match f with
  | .req _ =>
    { s.setAgent .platform Caller.idle with
      attached := true, handler := none, running := none,
      sched := .request .platform w Operands.empty :: s.sched }
  | .evt => { s with handler := none, running := none, sched := .event w :: s.sched }
  | .intrStat => { s with handler := some w }
  | .dataCmd =>
    { s with
      handler := none, running := none,
      sched := .ctl (.take (.ack 0#8 0#8)) :: s.sched,
      ctl := { Ctl.unlatch 6 s.ctl with icEn := true, txFifo := w :: s.ctl.txFifo } }

end Sys2Proof.Machine
end

