-- ==== Sys2Proof/Machine/Step.lean ====
section
/-!
DEFINITION. One step of the machine, and the placing of one word for the next step.
-/

namespace Sys2Proof.Machine

/-- One step: the fetched instruction executed at the state it was fetched with, or the move taken. -/
def step (s : State) : Host.Outcome State Fault Refusal :=
  match fetch s with
  | .instr i s' => exec i s'
  | .move o => o

/-- The word of an opcode-table row, `nbits` of it given, where step takes its next instruction. -/
def State.withFetchWord (s : State) (nbits w : Nat) : State :=
  placeWord (tableFormat nbits w) (BitVec.ofNat 32 (w % 2 ^ nbits)) s

end Sys2Proof.Machine
end

