-- ==== Sys2Proof/Safety.lean ====
section
/-!
DEFINITION. What a safe run is, and the terms claims are stated in: which part of the state a step left
alone, how a request ends, what a transfer that has begun looks like, and the invariants of the machine.
-/

namespace Sys2Proof.Machine

/-- A step that answers a state: no model fault (60_exceptions.md R404) and no refusal. -/
def StepSafe (s : State) : Prop := ∃ t, step s = .next t

/-- A run of `k` steps meets no fault and no refusal. -/
def RunSafe : Nat → State → Prop
  | 0, _ => True
  | k + 1, s => ∃ t, step s = .next t ∧ RunSafe k t

/-- Seq is at no activity and the next step takes move `m` of the schedule, `ms` following it. -/
structure NextMove (m : Move) (ms : List Move) (s : State) : Prop where
  regMap  : s.par.regMap.ok s.par.regWindowSize = true
  handler : s.handler = none
  running : s.running = none
  sched   : s.sched = m :: ms

/-- The gate is free exactly when its depth is 0 (10_state.md R47). -/
def Gate.Wf (g : Gate) : Prop := g.owner = none ↔ g.depth = 0

/-- A requester enters the gate without waiting (20_memory.md R120). -/
def Gate.OpenTo (a : Agent) (g : Gate) : Prop := g.owner = none ∨ g.owner = some a

/-- The gate entered `n` times by `a`, from a state in which it is open to `a` (20_memory.md R120). -/
def Gate.entered (a : Agent) (n : Nat) (g : Gate) : Gate :=
  { g with owner := some a, depth := g.depth + n }

/-- Every byte memory of the machine is in its canonical form: the buffers, and the register contents of
each target (log 6). -/
def State.MemWf (s : State) : Prop :=
  s.mem.wf = true ∧ ∀ d ∈ s.ctl.targets, Memory.wf d.regs = true

/-- INTR_MASK holds one of the values the block writes (42_interrupt_fifo.md R306). -/
def LegalMask (v : Word) : Prop := v = 0x00000000#32 ∨ v = 0x00000244#32 ∨ v = 0x00000254#32

/-- The requester of `cur` is at the start of its request: no operation encloses it. -/
def State.AtRequest (s : State) : Prop := (s.agent s.cur).stack = []

/-- No requester's record but `a`'s differs. -/
def OnlyAgent (a : Agent) (s t : State) : Prop := ∀ b, b ≠ a → t.agent b = s.agent b

/-- Every byte of buffer memory reads as before. -/
def SameMem (s t : State) : Prop := ∀ x, t.mem.read x = s.mem.read x

/-- Every byte of buffer memory outside `n` bytes at address `x0` reads as before. -/
def SameMemBut (x0 n : Nat) (s t : State) : Prop :=
  ∀ x, (x < x0 ∨ x0 + n ≤ x) → t.mem.read x = s.mem.read x

/-- The bytes `bs` stand at consecutive addresses from `x0`. -/
def HoldsAt (x0 : Nat) (bs : List Byte) (t : State) : Prop :=
  ∀ k (h : k < bs.length), t.mem.read (x0 + k) = bs[k]

/-- The model's own bookkeeping and the parameters are as before: what is neither the bus record, the
controller, memory, the paged devices nor a requester's record. -/
structure SameRest (s t : State) : Prop where
  par      : t.par = s.par
  cur      : t.cur = s.cur
  handler  : t.handler = s.handler
  running  : t.running = s.running
  sched    : t.sched = s.sched
  attached : t.attached = s.attached

/-- No register was accessed: the controller, its plan of moves, the access history and the free-value
counter are as before. -/
structure NoAccess (s t : State) : Prop where
  ctl     : t.ctl = s.ctl
  ctlPlan : t.ctlPlan = s.ctlPlan
  io      : t.io = s.io
  fresh   : t.fresh = s.fresh

/-- The request of `a` has ended with a result (60_exceptions.md R400, 10_state.md R57), and no other
requester's record, buffer byte or bookkeeping field differs. -/
structure Finished (a : Agent) (r : Result) (s t : State) : Prop where
  ended  : t.agent a = { s.agent a with
             req := none, waiting := false, result := some r, point := .idle, stack := [] }
  others : OnlyAgent a s t
  mem    : SameMem s t
  rest   : SameRest s t

/-- The request of `cur` ends at once with a result: no register access, the gate and the bus record as
before, nothing but its requester's record changed. -/
def EndsAtOnce (i : Instr) (s : State) (r : Result) : Prop :=
  ∃ t, exec i s = .next t ∧ Finished s.cur r s t ∧ t.blk = s.blk ∧ t.devs = s.devs ∧ NoAccess s t

/-- The request of `a` pauses at a point of its rule, inside the operations `fs`. -/
structure Paused (a : Agent) (p : Point) (fs : List Frame) (s t : State) : Prop where
  caller : t.agent a = { s.agent a with point := p, stack := fs }
  others : OnlyAgent a s t
  mem    : SameMem s t
  rest   : SameRest s t

/-- Another requester owns the gate. -/
def Gate.TakenFrom (a : Agent) (g : Gate) : Prop := ∃ b, g.owner = some b ∧ b ≠ a

/-- The request of `cur` waits for the gate (20_memory.md R120): it has joined the waiters, no register was
accessed, and it goes on with `c` once it is granted the gate. -/
def WaitsForGate (i : Instr) (c : Cont) (s : State) : Prop :=
  ∃ t, exec i s = .next t ∧ Paused s.cur (.gate c) [] s t ∧ NoAccess s t ∧ t.devs = s.devs ∧
    t.blk = { s.blk with gate := s.blk.gate.wait s.cur }

/-- The counts, the hold time and the thresholds are as before (10_state.md R60). -/
structure Ctl.SameCounts (c d : Ctl) : Prop where
  counts : d.ssHcnt = c.ssHcnt ∧ d.ssLcnt = c.ssLcnt ∧ d.fsHcnt = c.fsHcnt ∧ d.fsLcnt = c.fsLcnt ∧
             d.sdaHold = c.sdaHold
  levels : d.rxTl = c.rxTl ∧ d.txTl = c.txTl

/-- Every register the block writes but ENABLE is as before. -/
structure Ctl.SameRegs (c d : Ctl) : Prop where
  control : d.con = c.con ∧ d.tar = c.tar ∧ d.intrMask = c.intrMask
  counts  : c.SameCounts d

/-- The bus lets a transfer begin without a pause: the coming STATUS read finds no activity
(41_transfer_engine.md R244) and the ENABLE_STATUS read after the disable finds it acknowledged
(40_timing_and_bus.md R206). -/
def State.BusFree (s : State) : Prop :=
  (ctlTurn s).ctl.activity = false ∧
  (ctlTurn (regWrite .enable 0#32 (regTouch .status s))).ctl.icEn = false

/-- The coming ENABLE = 0 write is acknowledged at the first ENABLE_STATUS read
(40_timing_and_bus.md R206). -/
def State.DisableAcked (s : State) : Prop :=
  (ctlTurn (regWrite .enable 0#32 s)).ctl.icEn = false

/-- The checks of the bus record in XFER step 1 pass (41_transfer_engine.md R242). -/
def Bus.Accepts (b : Bus) : Prop := b.ready = true ∧ b.powered = true ∧ b.disableUnacked = false

/-- A message XFER step 1 rejects, `first` being message 0 (41_transfer_engine.md R242): a flag bit other
than RD (0), TEN (4), RECV_LEN (10); address bits above the width; another address or TEN; no bytes;
more bytes than the buffer; a RECV_LEN message that is no one-byte read into 33 bytes. -/
def Msg.Bad (first m : Msg) : Prop :=
  (∃ k, m.flags.getLsbD k = true ∧ k ≠ 0 ∧ k ≠ 4 ∧ k ≠ 10) ∨
  (∃ k, 10 ≤ k ∧ m.addr.getLsbD k = true) ∨
  (m.flags.getLsbD 4 = false ∧ ∃ k, 7 ≤ k ∧ m.addr.getLsbD k = true) ∨
  m.addr ≠ first.addr ∨ m.flags.getLsbD 4 ≠ first.flags.getLsbD 4 ∨
  m.len.toNat = 0 ∨ m.buf.cap.toNat < m.len.toNat ∨
  (m.flags.getLsbD 10 = true ∧
    (m.flags.getLsbD 0 = false ∨ m.len.toNat ≠ 1 ∨ m.buf.cap.toNat < 33))

/-- A message list XFER step 1 accepts (41_transfer_engine.md R242). -/
def GoodMsgs (msgs : List Msg) : Prop :=
  (∀ m ∈ msgs, ¬ Msg.Bad (msgAt msgs 0) m) ∧ (msgs.filter Msg.recvLen).length ≤ 1

/-- The bus record of a transfer that has begun: every field `xfer_init` writes, the rest from `b`
(41_transfer_engine.md R245). -/
def begunBus (b : Bus) (msgs : List Msg) (g : Gate) : Bus :=
  { b with
    status := (msgAt msgs 0).dir, xphase := .transferActive, pollCount := 0,
    msgs := msgs, msgsNum := msgs.length,
    msgWriteIdx := 0, txOff := 0, msgReadIdx := 0, rxOff := 0,
    lens := msgs.map (·.len.toNat), recvPending := msgs.any Msg.recvLen, holdForLen := false,
    cmdErr := 0#8, msgErr := .none, abortSource := 0#32, rxOutstanding := 0,
    completion := false, timedOut := false, disableUnacked := false, gate := g }

/-- `xfer_init` of `a`'s transfer of `msgs` has run from its acknowledged disable to its end, inside the
operations `fs` and after the accesses `first`: TAR, CON bit 4, ENABLE and the mask by exactly these
accesses, and `a` waits (41_transfer_engine.md R245, R250). -/
structure Armed (a : Agent) (msgs : List Msg) (fs : List Frame) (first : List Access) (s t : State) :
    Prop where
  tar    : t.ctl.tar = (msgAt msgs 0).addr.extractLsb' 0 10
  con    : ∀ k, t.ctl.con.getLsbD k =
             if k = 4 then (msgAt msgs 0).flags.getLsbD 4 else s.ctl.con.getLsbD k
  enable : t.ctl.enable = true ∧ t.ctl.icEn = true
  mask   : t.ctl.intrMask = 0x00000254#32
  kept   : s.ctl.SameCounts t.ctl
  io     : t.io = [.write .intrMask 0x00000254#32, .read .clrIntr none, .write .enable 1#32,
             .write .con t.ctl.con, .read .con (some s.ctl.con),
             .write .tar (((msgAt msgs 0).addr.extractLsb' 0 10).setWidth 32)] ++ first ++ s.io
  caller : t.agent a = { s.agent a with waiting := true, point := .await, stack := fs }
  others : OnlyAgent a s t
  devs   : t.devs = s.devs
  rest   : SameRest s t

/-- The accesses of a disable acknowledged at its first poll (40_timing_and_bus.md R206). -/
def ackedAtOnce : List Access := [.read .enableStatus (some 0#32), .write .enable 0#32]

/-- `a`'s transfer of `msgs` has begun, inside the operations `fs` and with the gate as `g`, the bus-not-busy
poll counting `polls`, after exactly the register accesses of 41_transfer_engine.md R244 and R245: one
STATUS read without activity, the disable, and `xfer_init`. -/
structure Began (a : Agent) (msgs : List Msg) (fs : List Frame) (g : Gate) (s t : State)
    (polls : Nat := 0) : Prop where
  blk   : t.blk = { begunBus s.blk msgs g with pollCount := polls }
  armed : ∃ v, v.getLsbD 0 = false ∧
            Armed a msgs fs (ackedAtOnce ++ [.read .status (some v)]) s t

/-- The registers `configure_proc` writes, after its disable was acknowledged by the accesses `first`
(40_timing_and_bus.md R208): the values in the controller and the accesses in order, newest first. -/
structure Configured (first : List Access) (s t : State) : Prop where
  con    : t.ctl.con = (match s.par.busSpeed with
             | .fast => 0x00000065#32 | .standard => 0x00000063#32)
  counts : t.ctl.ssHcnt = s.blk.ssHcnt ∧ t.ctl.ssLcnt = s.blk.ssLcnt ∧
             t.ctl.fsHcnt = s.blk.fsHcnt ∧ t.ctl.fsLcnt = s.blk.fsLcnt ∧
             t.ctl.sdaHold = s.blk.sdaHold
  levels : t.ctl.txTl = BitVec.ofNat 8 (s.blk.txFifoDepth / 2) ∧ t.ctl.rxTl = 0#8
  mask   : t.ctl.intrMask = 0x00000254#32
  tar    : t.ctl.tar = s.ctl.tar
  enable : t.ctl.enable = false ∧ t.ctl.icEn = false
  io     : t.io = [.write .intrMask 0x00000254#32, .write .rxTl 0#32,
             .write .txTl (BitVec.ofNat 32 (s.blk.txFifoDepth / 2)),
             .write .sdaHold (s.blk.sdaHold.setWidth 32),
             .write .fsSclLcnt (s.blk.fsLcnt.setWidth 32),
             .write .fsSclHcnt (s.blk.fsHcnt.setWidth 32),
             .write .ssSclLcnt (s.blk.ssLcnt.setWidth 32),
             .write .ssSclHcnt (s.blk.ssHcnt.setWidth 32),
             .write .con t.ctl.con] ++ first ++ s.io

/-- A disable that is not acknowledged: ENABLE is written 0 and ENABLE_STATUS read 1, and no register
the block writes differs otherwise (40_timing_and_bus.md R206, R208). -/
structure Unacked (s t : State) : Prop where
  enable : t.ctl.enable = false
  kept   : s.ctl.SameRegs t.ctl
  io     : t.io = [.read .enableStatus (some 1#32), .write .enable 0#32] ++ s.io

/-- The registers the block writes, the enable state and whether the bus is kept busy from outside are as
before: what Ctl's execution of a command word leaves alone (60_exceptions.md R430, R431). -/
structure Ctl.Quiet (c d : Ctl) : Prop where
  control : d.con = c.con ∧ d.tar = c.tar ∧ d.enable = c.enable ∧ d.icEn = c.icEn
  mask    : d.intrMask = c.intrMask
  counts  : c.SameCounts d
  outside : d.otherBusy = c.otherBusy ∧ d.answer = c.answer

/-- The cursors and lengths of the active message list (10_state.md R34, 42_interrupt_fifo.md R304): one
length per message, each within its buffer; cursors within the list; offsets within the message. -/
structure Bus.CursorsOk (b : Bus) : Prop where
  num     : b.msgsNum = b.msgs.length ∧ b.lens.length = b.msgs.length
  wIdx    : b.msgWriteIdx ≤ b.msgsNum
  rIdx    : b.msgReadIdx ≤ b.msgsNum
  txOff   : b.msgWriteIdx < b.msgsNum → b.txOff ≤ b.lens.getD b.msgWriteIdx 0
  rxOff   : b.msgReadIdx < b.msgsNum → b.rxOff < b.lens.getD b.msgReadIdx 0
  lens    : ∀ i < b.msgsNum, 1 ≤ b.lens.getD i 0 ∧ b.lens.getD i 0 ≤ (msgAt b.msgs i).buf.cap.toNat
  pending : b.recvPending = true → ∀ i < b.msgsNum, (msgAt b.msgs i).recvLen = true →
              b.lens.getD i 0 = 1

/-- A suspended transfer that has passed XFER step 1 holds a list that step accepts
(41_transfer_engine.md R242). -/
def Cont.Checked : Cont → Prop
  | .xferGate msgs count | .busy msgs count => count.toNat = msgs.length ∧ msgsValid msgs = true
  | _ => True

/-- The same of a requester's point. -/
def Point.Checked : Point → Prop
  | .gate c | .sleep c | .go c => c.Checked
  | .idle | .await | .unwind => True

/-- The cursor invariant of the whole machine. -/
def State.CursorInv (s : State) : Prop :=
  s.blk.CursorsOk ∧ ∀ e ∈ s.agents, e.2.point.Checked

/-- The result of a transfer by its precedence: timeout, engine error, abort, success
(41_transfer_engine.md R255). -/
def transferResult (b : Bus) : Result :=
  if b.timedOut = true then ⟨.transferTimeout, 0#32, .ok⟩
  else
    match b.msgErr with
    | .invalidArgument => ⟨.invalidArgument, 0#32, .ok⟩
    | .protocolError => ⟨.protocolError, 0#32, .ok⟩
    | .none =>
      if b.cmdErr ≠ 0#8 then ⟨.abortedTransfer, b.abortSource, .ok⟩
      else ⟨.ok, BitVec.ofNat 32 b.msgsNum, .ok⟩

/-- The transfer in flight has ended cleanly (41_transfer_engine.md R255). -/
def Bus.Clean (b : Bus) : Prop := b.timedOut = false ∧ b.msgErr = .none ∧ b.cmdErr = 0#8

/-- The next step goes on with `a`'s request at `c`, from state `u` with the gate as `g`: the free gate is
granted to `a`, which waits for it; `a`'s sleep ends or its next part begins; or Seq's unfinished activity
goes on (20_memory.md R123, 00_scope.md R10, R15). -/
inductive GoesOn (a : Agent) (c : Cont) (s : State) : State → Gate → Prop
  | granted (ms : List Move) (next : NextMove (.grant a) ms s) (at_ : (s.agent a).point = .gate c)
      (free : s.blk.gate.owner = none) (waits : a ∈ s.blk.gate.waiters) :
      GoesOn a c s { s with sched := ms }
        ⟨some a, 1, s.blk.gate.waiters.filter fun b => !decide (b = a)⟩
  | resumed (ms : List Move) (next : NextMove (.resume a) ms s)
      (at_ : (s.agent a).point = .sleep c ∨ (s.agent a).point = .go c) :
      GoesOn a c s { s with sched := ms } s.blk.gate
  | running (regMap : s.par.regMap.ok s.par.regWindowSize = true) (handler : s.handler = none)
      (run : s.running = some a)
      (at_ : (s.agent a).point = .sleep c ∨ (s.agent a).point = .go c) :
      GoesOn a c s { s with running := none } s.blk.gate

/-- XFER step 1 accepts `a`'s list (41_transfer_engine.md R242), and the gate, `g`, lets `a` in. -/
structure MayEnter (a : Agent) (msgs : List Msg) (count : Half) (g : Gate) (s : State) : Prop where
  accepts : s.blk.Accepts
  count   : count.toNat ≠ 0 ∧ count.toNat = msgs.length
  good    : GoodMsgs msgs
  gate    : g.Wf ∧ g.OpenTo a

/-- In the step `run` from `s`, the transfer of `msgs` by `a` comes to its next STATUS poll
(41_transfer_engine.md R243, R244): from the state `u`, inside the operations `fs`, with the bus record
then `b`. The first poll is made by a request that enters the gate at once, by one that is granted the
gate, and by the next transfer of a request; the later ones where a sleep ends. -/
inductive AtBusyPoll (s : State) :
    Flow → State → Agent → List Frame → List Msg → Half → Bus → Prop
  | xfer (request : s.AtRequest)
      (enters : MayEnter s.cur (s.msgsOf s.cur) (s.agent s.cur).ops.count s.blk.gate s) :
      AtBusyPoll s (exec .xfer s) s s.cur [] (s.msgsOf s.cur) (s.agent s.cur).ops.count
        { s.blk with xphase := .busyWait, pollCount := 0, gate := s.blk.gate.entered s.cur 1 }
  | i2cTransfer (request : s.AtRequest)
      (enters : MayEnter s.cur (s.msgsOf s.cur) (s.agent s.cur).ops.count s.blk.gate s) :
      AtBusyPoll s (exec .i2cTransfer s) s s.cur
        [.retry s.blk.retries (s.msgsOf s.cur) (s.agent s.cur).ops.count]
        (s.msgsOf s.cur) (s.agent s.cur).ops.count
        { s.blk with xphase := .busyWait, pollCount := 0, gate := s.blk.gate.entered s.cur 1 }
  | granted (u : State) (a : Agent) (msgs : List Msg) (count : Half) (g : Gate)
      (on : GoesOn a (.xferGate msgs count) s u g) (length : count.toNat = msgs.length)
      (recheck : s.blk.ready = true ∧ s.blk.powered = true) :
      AtBusyPoll s (step s) u a (s.agent a).stack msgs count
        { s.blk with xphase := .busyWait, pollCount := 0, gate := g }
  | next (u : State) (a : Agent) (msgs : List Msg) (count : Half) (g : Gate)
      (on : GoesOn a (.xfer msgs count) s u g) (enters : MayEnter a msgs count g s) :
      AtBusyPoll s (step s) u a (s.agent a).stack msgs count
        { s.blk with xphase := .busyWait, pollCount := 0, gate := g.entered a 1 }
  | again (u : State) (a : Agent) (msgs : List Msg) (count : Half) (g : Gate)
      (on : GoesOn a (.busy msgs count) s u g) (length : count.toNat = msgs.length) :
      AtBusyPoll s (step s) u a (s.agent a).stack msgs count { s.blk with gate := g }

/-- The bus record `b` with the fields `xfer_init` resets before its disable
(41_transfer_engine.md R245): the phase, the status, the poll count and disable_unacked are as they were. -/
def resetBus (b : Bus) (msgs : List Msg) : Bus :=
  { begunBus b msgs b.gate with
    status := b.status, xphase := b.xphase, pollCount := b.pollCount
    disableUnacked := b.disableUnacked }

/-- The operand record of the request being executed. -/
abbrev State.asked (s : State) : Operands := (s.agent s.cur).ops

/-- A block access of an accepted length (44_rmi4.md R364, R365). -/
def Block.Fits (blk : Block) : Prop :=
  match blk.data with
  | .read buf n | .write buf n => 1 ≤ n ∧ n ≤ 32 ∧ n ≤ buf.cap.toNat
  | .bytes bs => 1 ≤ bs.length ∧ bs.length ≤ 32

/-- The paged device `d` that an RMI_* request names, and the bus, are ready for it (44_rmi4.md, introduction;
10_state.md R35). -/
structure State.RmiReady (s : State) (d : PagedDev) : Prop where
  request : s.AtRequest
  ready   : s.blk.ready = true
  device  : s.devs[s.asked.dev]? = some d
  width   : d.addr.toNat < 128

/-- In the step `run` from `s`, `a` comes to the block access `blk` inside the operations `fs`, its page not
yet looked at, with the gate as `g` by then: RMI_READ_BLOCK or RMI_WRITE_BLOCK, the entry read of a scan or a
write of an init sequence, at once where the gate lets the request in or going on (44_rmi4.md R364 to R368). -/
inductive AtAccess (s : State) : Flow → State → Agent → List Frame → Block → Gate → Prop
  | readBlock (d : PagedDev) (may : s.RmiReady d) (gate : s.blk.gate.Wf ∧ s.blk.gate.OpenTo s.cur) :
      AtAccess s (exec .rmiReadBlock s) s s.cur []
        ⟨s.asked.dev, s.asked.rmiAddr, .read ⟨.user s.asked.buf, s.asked.bufCap⟩ s.asked.len.toNat⟩
        (s.blk.gate.entered s.cur 1)
  | writeBlock (d : PagedDev) (may : s.RmiReady d) (gate : s.blk.gate.Wf ∧ s.blk.gate.OpenTo s.cur) :
      AtAccess s (exec .rmiWriteBlock s) s s.cur []
        ⟨s.asked.dev, s.asked.rmiAddr, .write ⟨.user s.asked.buf, s.asked.bufCap⟩ s.asked.len.toNat⟩
        (s.blk.gate.entered s.cur 1)
  | access (u : State) (a : Agent) (blk : Block) (g : Gate) (on : GoesOn a (.access blk) s u g) :
      AtAccess s (step s) u a (s.agent a).stack blk g
  | probe (d : PagedDev) (may : s.RmiReady d) (gate : s.blk.gate.Wf ∧ s.blk.gate.OpenTo s.cur) :
      AtAccess s (exec .rmiProbe s) s s.cur [.probe s.asked.dev 0xE9 []]
        ⟨s.asked.dev, 0x00E9#16, .read ⟨.pdt s.cur, 6#16⟩ 6⟩ (s.blk.gate.entered s.cur 2)
  | probeOn (u : State) (a : Agent) (n pos : Nat) (found : List FnDesc) (g : Gate)
      (on : GoesOn a (.probe n pos found) s u g) (gate : g.Wf ∧ g.OpenTo a) :
      AtAccess s (step s) u a (.probe n pos found :: (s.agent a).stack)
        ⟨n, BitVec.ofNat 16 pos, .read ⟨.pdt a, 6#16⟩ 6⟩ (g.entered a 1)
  | f01 (d : PagedDev) (may : s.RmiReady d) (gate : s.blk.gate.Wf ∧ s.blk.gate.OpenTo s.cur) (f : FnDesc)
      (found : d.functions.find? (fun f => f.number == 0x01#8) = some f) (k : Half) (bs : List Byte)
      (rest : List (Half × List Byte)) (todo : s.par.f01Init = (k, bs) :: rest) :
      AtAccess s (exec .rmiF01Init s) s s.cur [.f01 s.asked.dev f.controlBase rest]
        ⟨s.asked.dev, f.controlBase + k, .bytes bs⟩ (s.blk.gate.entered s.cur 2)
  | f01On (u : State) (a : Agent) (n : Nat) (base k : Half) (bs : List Byte)
      (rest : List (Half × List Byte)) (g : Gate) (on : GoesOn a (.f01 n base ((k, bs) :: rest)) s u g)
      (gate : g.Wf ∧ g.OpenTo a) :
      AtAccess s (step s) u a (.f01 n base rest :: (s.agent a).stack) ⟨n, base + k, .bytes bs⟩ (g.entered a 1)

/-- The instruction of a supported SMBus size class (30_encoding.md R144). -/
def smbusInstr (gated : Bool) (size : SizeClass) (rw : Bool) : Instr :=
  match size, rw with
  | .quick, false => if gated then .gatedQuickW else .smbusQuickW
  | .quick, true => if gated then .gatedQuickR else .smbusQuickR
  | .byte, false => if gated then .gatedByteW else .smbusByteW
  | .byte, true => if gated then .gatedByteR else .smbusByteR
  | .byteData, false => if gated then .gatedByteDataW else .smbusByteDataW
  | .byteData, true => if gated then .gatedByteDataR else .smbusByteDataR
  | .wordData, false => if gated then .gatedWordDataW else .smbusWordDataW
  | .wordData, true => if gated then .gatedWordDataR else .smbusWordDataR
  | .blockData, false => if gated then .gatedBlockDataW else .smbusBlockDataW
  | .blockData, true => if gated then .gatedBlockDataR else .smbusBlockDataR
  | .i2cBlockData, false => if gated then .gatedI2cBlockDataW else .smbusI2cBlockDataW
  | .i2cBlockData, true => if gated then .gatedI2cBlockDataR else .smbusI2cBlockDataR

/-- The view a successful read of a size class copies back (43_smbus.md R324 to R332). -/
def SizeClass.view : SizeClass → CopyBack
  | .quick => .none
  | .byte => .byteT0
  | .byteData => .byteT1
  | .wordData => .wordT1
  | .blockData => .blockT1
  | .i2cBlockData => .i2cBlockT1

/-- The operands of an SMBus request come to a transfer (43_smbus.md R320, R329, R331): the class is not QUICK,
no flag but TEN is set, and a block write's length byte in the union is 1 to 32. -/
structure State.SmbusMaps (s : State) (a : Agent) (size : SizeClass) (rw : Bool) : Prop where
  moves : size ≠ .quick
  flags : (s.agent a).ops.flags &&& ~~~(0x0010#16) = 0#16
  block : rw = false → (size = .blockData ∨ size = .i2cBlockData) →
            1 ≤ (s.mem.read (bufAddr (.user (s.agent a).ops.data) 0)).toNat ∧
              (s.mem.read (bufAddr (.user (s.agent a).ops.data) 0)).toNat ≤ 32

/-- In the step `run` from `s`, `a` comes to XFER step 1 inside the operations `fs`, with messages to the
address `addr` under the TEN flag of `flags`, well formed otherwise, and with the gate as `g` by then: an
SMBus transfer, a page select, or a block transfer, at once or going on (43_smbus.md R320, R335; 44_rmi4.md
R361 to R365). -/
inductive AtStepOne (s : State) : Flow → State → Agent → List Frame → Half → Half → Gate → Prop
  | smbus (size : SizeClass) (rw : Bool) (request : s.AtRequest) (maps : s.SmbusMaps s.cur size rw) :
      AtStepOne s (exec (smbusInstr false size rw) s) s s.cur [.smbus (if rw then size.view else .none)]
        s.asked.addr s.asked.flags s.blk.gate
  | gated (size : SizeClass) (rw : Bool) (request : s.AtRequest) (maps : s.SmbusMaps s.cur size rw)
      (gate : s.blk.gate.Wf ∧ s.blk.gate.OpenTo s.cur) :
      AtStepOne s (exec (smbusInstr true size rw) s) s s.cur
        [.smbus (if rw then size.view else .none), .gated] s.asked.addr s.asked.flags
        (s.blk.gate.entered s.cur 1)
  | gatedOn (u : State) (a : Agent) (size : SizeClass) (rw : Bool) (g : Gate)
      (on : GoesOn a (.gated size rw) s u g) (maps : s.SmbusMaps a size rw) :
      AtStepOne s (step s) u a
        (.smbus (if rw then size.view else .none) :: .gated :: (s.agent a).stack)
        (s.agent a).ops.addr (s.agent a).ops.flags g
  | setPage (d : PagedDev) (may : s.RmiReady d) (gate : s.blk.gate.Wf ∧ s.blk.gate.OpenTo s.cur) :
      AtStepOne s (exec .rmiSetPage s) s s.cur [.smbus .none, .setPage s.asked.dev s.asked.page] d.addr 0#16
        (s.blk.gate.entered s.cur 1)
  | setPageOn (u : State) (a : Agent) (n : Nat) (page : Byte) (g : Gate)
      (on : GoesOn a (.setPage n page) s u g) (d : PagedDev) (device : s.devs[n]? = some d) :
      AtStepOne s (step s) u a (.smbus .none :: .setPage n page :: (s.agent a).stack) d.addr 0#16 g
  | select (run : Flow) (u : State) (a : Agent) (fs : List Frame) (blk : Block) (g : Gate)
      (acc : AtAccess s run u a fs blk g) (fits : blk.Fits) (gate : g.Wf ∧ g.OpenTo a) (d : PagedDev)
      (device : s.devs[blk.dev]? = some d) (page : d.currentPage ≠ some (blk.addr.extractLsb' 8 8)) :
      AtStepOne s run u a
        (.smbus .none :: .setPage blk.dev (blk.addr.extractLsb' 8 8) :: .selected blk :: fs)
        d.addr 0#16 (g.entered a 1)
  | block (run : Flow) (u : State) (a : Agent) (fs : List Frame) (blk : Block) (g : Gate)
      (acc : AtAccess s run u a fs blk g) (fits : blk.Fits) (d : PagedDev)
      (device : s.devs[blk.dev]? = some d) (page : d.currentPage = some (blk.addr.extractLsb' 8 8)) :
      AtStepOne s run u a (.block :: fs) d.addr 0#16 g
  | blockOn (u : State) (a : Agent) (blk : Block) (g : Gate) (on : GoesOn a (.block blk) s u g)
      (fits : blk.Fits) (d : PagedDev) (device : s.devs[blk.dev]? = some d) :
      AtStepOne s (step s) u a (.block :: (s.agent a).stack) d.addr 0#16 g

/-- XFER step 1 rejects well-formed messages to `addr` under the TEN flag of `flags` with the result `r`: bus
not ready or without power, then a disable not acknowledged, then an address over its width
(41_transfer_engine.md R242). -/
def Bus.Rejects (b : Bus) (addr flags : Half) (r : Result) : Prop :=
  ((b.ready = false ∨ b.powered = false) ∧ r = ⟨.invalidArgument, 0#32, .ok⟩) ∨
  (b.ready = true ∧ b.powered = true ∧ b.disableUnacked = true ∧ r = ⟨.disableTimeout, 0#32, .ok⟩) ∨
  (b.Accepts ∧ (1024 ≤ addr.toNat ∨ (flags.getLsbD 4 = false ∧ 128 ≤ addr.toNat)) ∧
    r = ⟨.invalidArgument, 0#32, .ok⟩)

/-- In the step `run` from `s`, the transfer by `a` inside the operations `fs` ends with the result `r`, the
gate being `g`, its own entry among the depth, and no byte written but in the first `n` of `a`'s first scratch
buffer: by its unwind, at the bound of its bus polls or of its disable polls, by the re-check after the gate,
or in step 1, its bytes in the scratch buffer by then (41_transfer_engine.md R242 to R245, R255). -/
inductive XferEnds (s : State) : Flow → State → Agent → List Frame → Gate → Result → Nat → Prop
  | unwound (a : Agent) (ms : List Move) (next : NextMove (.resume a) ms s)
      (at_ : (s.agent a).point = .unwind) :
      XferEnds s (step s) { s with sched := ms } a (s.agent a).stack s.blk.gate (transferResult s.blk) 0
  | busy (run : Flow) (u : State) (a : Agent) (fs : List Frame) (msgs : List Msg) (count : Half) (b : Bus)
      (poll : AtBusyPoll s run u a fs msgs count b) (active : (ctlTurn s).ctl.activity = true)
      (bound : b.pollCount = s.par.busyPollLimit) :
      XferEnds s run u a fs b.gate ⟨.busBusyTimeout, 0#32, .ok⟩ 0
  | unacked (run : Flow) (u : State) (a : Agent) (fs : List Frame) (msgs : List Msg) (count : Half) (b : Bus)
      (poll : AtBusyPoll s run u a fs msgs count b) (free : (ctlTurn s).ctl.activity = false)
      (enabled : (ctlTurn (regWrite .enable 0#32 (regTouch .status s))).ctl.icEn = true)
      (bound : s.par.disablePollLimit = 0) :
      XferEnds s run u a fs b.gate ⟨.disableTimeout, 0#32, .ok⟩ 0
  | unackedLater (u : State) (a : Agent) (k : Nat) (msgs : List Msg) (g : Gate)
      (on : GoesOn a (.disable k (.xfer msgs)) s u g) (enabled : (ctlTurn s).ctl.icEn = true)
      (bound : s.par.disablePollLimit ≤ k) :
      XferEnds s (step s) u a (s.agent a).stack g ⟨.disableTimeout, 0#32, .ok⟩ 0
  | recheck (u : State) (a : Agent) (msgs : List Msg) (count : Half) (g : Gate)
      (on : GoesOn a (.xferGate msgs count) s u g)
      (fails : s.blk.ready = false ∨ s.blk.powered = false) :
      XferEnds s (step s) u a (s.agent a).stack g ⟨.invalidArgument, 0#32, .ok⟩ 0
  | rejected (run : Flow) (u : State) (a : Agent) (fs : List Frame) (addr flags : Half) (g : Gate) (r : Result)
      (one : AtStepOne s run u a fs addr flags g) (gate : g.Wf ∧ g.OpenTo a)
      (rejects : s.blk.Rejects addr flags r) : XferEnds s run u a fs (g.entered a 1) r 34

/-- The bytes the controller still owes the block: the read words of its TX FIFO and the bytes of its RX
FIFO (42_interrupt_fifo.md R292). -/
def Ctl.owes (c : Ctl) : Nat := (c.txFifo.filter fun w => w.getLsbD 8).length + c.rxFifo.length

/-- The outstanding-read counter covers what the controller owes, and the RX FIFO holds as much
(42_interrupt_fifo.md R292). -/
structure State.ReadsCovered (s : State) : Prop where
  owes  : s.ctl.owes ≤ s.blk.rxOutstanding
  bound : s.blk.rxOutstanding ≤ s.blk.rxFifoDepth

/-- The command words still to be issued, in order: for each message from the write cursor on its bytes,
the first message's from the offset on (42_interrupt_fifo.md R290, R291). -/
def wordsToIssue (b : Bus) (mem : Memory) : List Word :=
  (List.range (b.msgsNum - b.msgWriteIdx)).flatMap fun j =>
    let i := b.msgWriteIdx + j
    let first := if j = 0 then b.txOff else 0
    (List.range (b.lens.getD i 0 - first)).map fun k =>
      dcWord b i (first + k) (mem.read (bufAddr (msgAt b.msgs i).buf.id (first + k)))

/-- The command words of an access history, in its order. -/
def issuedWords (io : List Access) : List Word :=
  io.filterMap fun x => match x with
    | .write .dataCmd w => some w
    | _ => none

/-! ### The control invariant -/

/-- How many times an operation around a transfer has entered the gate (20_memory.md R120). -/
def Frame.holds : Frame → Nat
  | .retry _ _ _ | .smbus _ => 0
  | .gated | .setPage _ _ | .selected _ | .block | .probe _ _ _ | .f01 _ _ _ => 1

/-- How many times the operation a request stands in has entered the gate. -/
def Point.holds : Point → Nat
  | .idle | .gate _ | .go (.xfer _ _) => 0
  | .sleep _ | .await | .unwind | .go _ => 1

/-- How many times a requester has entered the gate. -/
def Caller.holds (c : Caller) : Nat := c.point.holds + (c.stack.map Frame.holds).sum

/-- Where a rule can have suspended: for the gate at the start of a gated part, between two polls, or
before the next transfer of its request. -/
def Point.Placed : Point → Prop
  | .gate (.xfer _ _) | .gate (.busy _ _) | .gate (.disable _ _) => False
  | .gate _ => True
  | .sleep (.busy _ _) | .sleep (.disable _ _) => True
  | .sleep _ => False
  | .go (.xfer _ _) | .go (.block _) | .go (.probe _ _ _) | .go (.f01 _ _ _) => True
  | .go _ => False
  | .idle | .await | .unwind => True

/-- The engine while the gate's owner stands at a point of its rule: the phase, whether a transfer is in
flight, and that none in flight has timed out or begun completed (10_state.md R33, R40). -/
def Point.Engine (b : Bus) : Point → Prop
  | .sleep (.busy _ _) => b.xphase = .busyWait ∧ b.status = .idle
  | .sleep (.disable _ (.xfer _)) =>
    b.xphase = .busyWait ∧ b.status = .idle ∧ b.completion = false ∧ b.timedOut = false
  | .await => b.xphase = .transferActive ∧ b.status ≠ .idle ∧ b.timedOut = false
  | .unwind => b.xphase ∈ [.completed, .aborted, .failed, .timedOut] ∧ b.status ≠ .idle
  | _ => b.xphase = .idle ∧ b.status = .idle

/-- What ties the gate, the engine's phase and the requesters' places together: the gate's depth counts
its owner's entries, nobody else has entered it, and the phase is the one the owner's place gives; a
handler run is one of a transfer not yet completed; a requester with no request is at rest. -/
structure State.Control (s : State) : Prop where
  gate     : s.blk.gate.Wf
  holds    : ∀ a, (s.agent a).holds = if s.blk.gate.owner = some a then s.blk.gate.depth else 0
  owned    : ∀ a, s.blk.gate.owner = some a → (s.agent a).point.Engine s.blk
  free     : s.blk.gate.owner = none → s.blk.xphase = .idle ∧ s.blk.status = .idle
  placed   : ∀ a, (s.agent a).point.Placed
  waiting  : ∀ a, (s.agent a).waiting = true ↔ (s.agent a).point = .await
  atRest   : ∀ a, (s.agent a).req = none → (s.agent a).point = .idle ∧ (s.agent a).stack = []
  handler  : s.handler ≠ none → s.blk.xphase = .transferActive ∧ s.blk.completion = false
  detached : s.attached = false → ∀ a, (s.agent a).req = none

/-- The phase transitions of 10_state.md R41, and no other; BUSY_WAIT may be passed through within one
step. -/
def PhaseStep (b c : Bus) : Prop :=
  c.xphase = b.xphase ∨
  (b.xphase = .idle ∧ c.xphase = .busyWait) ∨
  (b.xphase = .busyWait ∧ c.xphase = .idle) ∨
  ((b.xphase = .idle ∨ b.xphase = .busyWait) ∧ c.xphase = .transferActive ∧ c.completion = false) ∨
  (b.xphase = .transferActive ∧ b.completion = true ∧
    c.xphase = (if b.msgErr ≠ .none then .failed else if b.cmdErr ≠ 0#8 then .aborted else .completed)) ∨
  (b.xphase = .transferActive ∧ b.completion = false ∧ c.timedOut = true ∧ c.xphase = .timedOut) ∨
  (b.xphase ∈ [.completed, .aborted, .failed, .timedOut] ∧ c.xphase = .idle)

/-- One step at the level of 00_scope.md R18: one register access of Seq, one access to a buffer, one
update of internal state; or one step of Ctl, which may come between any two register accesses (R10), of the
bus, or of the platform. A load from a buffer changes nothing. A step of the machine is a run of these, from
one suspension point to the next (log 3); the states between them are the run's. -/
inductive AtomicStep (s : State) : State → Prop
  /-- `RegRead`: the access recorded and its side effect; an unspecified value takes a free value. -/
  | read (r : Reg) : AtomicStep s { s with
      ctl := Ctl.afterRead r s.ctl
      io := .read r (Ctl.readValue s.par r s.ctl) :: s.io
      fresh := if (Ctl.readValue s.par r s.ctl).isSome then s.fresh else s.fresh + 1 }
  /-- `RegWrite`. -/
  | write (r : Reg) (v : Word) : AtomicStep s { s with
      ctl := Ctl.writeReg s.par r v s.ctl, io := .write r v :: s.io }
  /-- A store to a buffer, one byte. -/
  | store (x : Nat) (b : Byte) : AtomicStep s { s with mem := s.mem.write x b }
  /-- An update of S. -/
  | bus (b : Bus) : AtomicStep s { s with blk := b }
  /-- An update of a requester's record. -/
  | caller (a : Agent) (c : Caller) : AtomicStep s (s.setAgent a c)
  /-- An update of the paged-device records. -/
  | devs (d : List PagedDev) : AtomicStep s { s with devs := d }
  /-- An update of the model's own record of where Seq, the handler and the schedules stand. -/
  | place (cur : Agent) (handler : Option Word) (running : Option Agent) (sched : List Move)
      (ctlPlan : List (List CtlMove)) (attached : Bool) : AtomicStep s { s with
        cur := cur, handler := handler, running := running, sched := sched
        ctlPlan := ctlPlan, attached := attached }
  /-- A step of Ctl. -/
  | ctl (m : CtlMove) : AtomicStep s { s with ctl := Ctl.move s.par m s.ctl }
  /-- The head command word leaves the TX FIFO; a write or a read word is executed. -/
  | pop (ans : Answer) : AtomicStep s { s with ctl := Ctl.popTx ans s.ctl }
  | sendByte (dat : Byte) (stop restart : Bool) :
      AtomicStep s { s with ctl := Ctl.execWrite dat stop restart s.ctl }
  | readByte (stop restart : Bool) :
      AtomicStep s { s with ctl := Ctl.execRead s.par stop restart s.ctl }
  /-- A target comes onto the bus. -/
  | target (addr : BitVec 7) (page : Byte) : AtomicStep s { s with ctl := { s.ctl with
      targets := s.ctl.targets ++ [⟨addr, page, none, []⟩] } }
  /-- Register contents lost while power is off. -/
  | lose (draw : Ctl) : AtomicStep s { s with ctl := Ctl.replaced (Ctl.lost draw s.ctl) s.ctl }
  /-- The creation of S. -/
  | attach (draw : Ctl) : AtomicStep s (attachBus draw s)

/-- A run of atomic steps. -/
inductive AtomicRun : State → State → Prop
  | refl (s : State) : AtomicRun s s
  | tail {s t u : State} (h : AtomicRun s t) (p : AtomicStep t u) : AtomicRun s u

/-- The instructions that are requests (30_encoding.md R140). -/
def IsRequest (i : Instr) : Prop := i.format = .req .platform

end Sys2Proof.Machine
end

