-- ==== Sys2Proof/Certificates/Slice0/Obligations.lean ====
section
/-!
DEFINITION. The statements about the machine, one definition each; the titles, tiers and the rules they rest
on are in OBLIGATIONS.json.
-/

open Sys2Proof Sys2Proof.Machine

/-! ### Words -/

/-- Decoding the word of a well-formed instruction, in that instruction's format, gives it back with
every field (30_encoding.md R141, R147, R156, R157, R160, R182). -/
def Obligations.EncodeDecodes : Prop :=
  ∀ i : Instr, i.wf = true → decode i.format (encode i) = .ok i

/-- A request, event or command word that decodes is the word of the instruction it decodes to, and that
instruction is well-formed: no two words decode to one instruction (30_encoding.md R147). -/
def Obligations.DecodedWordIsEncoded : Prop :=
  ∀ (f : Format) (w : Word) (i : Instr), f ≠ .intrStat → decode f w = .ok i →
    encode i = w ∧ i.wf = true ∧
      (i.format = f ∨ (f = .req .caller ∧ i.format = .req .platform))

/-- A request word is legal on a port exactly when its reserved bits are 0, its OPC is one of the table,
SIZE and RW are 0 where it is no SMBus request, and the port accepts it (30_encoding.md R142, R145,
R146, R147, R173). -/
def Obligations.LegalRequestWords : Prop :=
  ∀ (p : Port) (w : Word),
    (∃ i, decodeReq p w = .ok i) ↔
      (w.extractLsb' 13 19 = 0#19 ∧
       w.extractLsb' 0 8 ∈
         [0x01#8, 0x02#8, 0x03#8, 0x04#8, 0x05#8, 0x06#8, 0x07#8, 0x10#8, 0x11#8, 0x20#8, 0x21#8,
          0x30#8, 0x31#8, 0x32#8, 0x33#8, 0x34#8, 0x40#8, 0x41#8] ∧
       (w.extractLsb' 0 8 = 0x20#8 ∨ w.extractLsb' 0 8 = 0x21#8 ∨
         (w.extractLsb' 8 4 = 0#4 ∧ w.getLsbD 12 = false)) ∧
       (p = .caller → w.extractLsb' 0 8 ∈
         [0x10#8, 0x11#8, 0x20#8, 0x21#8, 0x30#8, 0x31#8, 0x32#8, 0x33#8, 0x34#8]))

/-- Words written out from the encoding tables decode to the instruction they stand for (30_encoding.md
R142, R156, R157, R160, R182; 95_test_vectors.md L12). -/
def Obligations.WordsFromTheSpec : Prop :=
  decodeReq .platform 0x00000001#32 = .ok .busEnable ∧
  decodeReq .platform 0x00000007#32 = .ok .timingCompute ∧
  decodeReq .caller 0x00000010#32 = .ok .xfer ∧
  decodeReq .caller 0x00001520#32 = .ok .smbusBlockDataR ∧
  decodeReq .caller 0x00000221#32 = .ok .gatedByteDataW ∧
  decodeReq .caller 0x00000F20#32 = .ok (.smbusUnsupported 15#4 false) ∧
  decodeReq .caller 0x00000031#32 = .ok .rmiReadBlock ∧
  decodeReq .platform 0x00000040#32 = .ok .lifeStart ∧
  decodeEvt 0x00000080#32 = .ok .evtIrq ∧
  decodeStat 0x00000210#32 = .ok .irqTxEmpty ∧
  decodeCmd 0x00000203#32 = .ok (.dcWrite 0x03#8 true false) ∧
  decodeCmd 0x00000700#32 = .ok (.dcRead true true)

/-! ### Steps -/

/-- The next step runs exactly the instruction the word at hand decodes to: a request a requester
submits, with its operands in its record; an event word; the branch a handler run has reached; the
command word at the head of the controller's TX FIFO (00_scope.md R9, 30_encoding.md R140). -/
def Obligations.StepRunsDecoded : Prop :=
  ∀ s : State,
    (∀ a w ops ms i, NextMove (.request a w ops) ms s → s.attached = true →
      a.known s.par = true → (s.agent a).req = none → decodeReq a.port w = .ok i →
      step s = exec i { s with
        sched := ms, cur := a,
        agents := updateAgent s.agents a ⟨some i, false, none, ops, .idle, []⟩ }) ∧
    (∀ w ms i, NextMove (.event w) ms s → decodeEvt w = .ok i →
      step s = exec i { s with sched := ms }) ∧
    (∀ stat i, s.par.regMap.ok s.par.regWindowSize = true → s.handler = some stat →
      decodeStat stat = .ok i → step s = exec i s) ∧
    (∀ ans w ws ms i, NextMove (.ctl (.take ans)) ms s → s.ctl.txFifo = w :: ws →
      s.ctl.icEn = true → s.ctl.latched.getLsbD 6 = false → ans.named = true →
      decodeCmd w = .ok i →
      step s = exec i { s with
        sched := ms, ctl := { s.ctl with txFifo := ws, answer := ans } })

/-- An illegal request word ends its request with IllegalRequest carrying the word; no register is
accessed, and the gate and every other piece of state are as before (30_encoding.md R170). -/
def Obligations.IllegalRequestChangesNothing : Prop :=
  ∀ (s : State) a w ops ms e, NextMove (.request a w ops) ms s → s.attached = true →
    a.known s.par = true → (s.agent a).req = none → decodeReq a.port w = .error e →
    ∃ t, step s = .next t ∧ Finished a ⟨.illegalRequest, w, .ok⟩ { s with sched := ms } t ∧
      t.blk = s.blk ∧ t.devs = s.devs ∧ NoAccess s t

/-- The moves of callers and of the platform that are no requests: a request while the last is in
progress (of the platform too: DEDUCED, log 14) and a detach of a started bus are model faults, and so
is a store into a buffer lent to the engine (which buffers are: log 28) and a change of the message list
of an XFER or I2C_TRANSFER in progress; any other store changes that one byte of its buffer and nothing
else, no register and no field of S, and any other change of a list that list alone (60_exceptions.md
R404; 00_scope.md R10; 20_memory.md R102, R117, R125). -/
def Obligations.CallerMoves : Prop :=
  ∀ s : State,
    (∀ a w ops ms, NextMove (.request a w ops) ms s → s.attached = true →
      a.known s.par = true → (s.agent a).req ≠ none → step s = .fault .callerObligation) ∧
    (∀ ms, NextMove .detach ms s → s.blk.mapped = true → step s = .fault .callerObligation) ∧
    (∀ a n off b ms, NextMove (.store a n off b) ms s → s.bufLent n = true →
      step s = .fault .bufferRace) ∧
    (∀ a l ms i, NextMove (.relist a l) ms s → a.known s.par = true →
      (s.agent a).req = some i → (i = .xfer ∨ i = .i2cTransfer) → step s = .fault .bufferRace) ∧
    (∀ a l ms, NextMove (.relist a l) ms s → (s.agent a).req ≠ some .xfer →
      (s.agent a).req ≠ some .i2cTransfer →
      ∃ t, step s = .next t ∧ t = { s with agents := t.agents, sched := ms } ∧ OnlyAgent a s t ∧
        (a.known s.par = true → t.agent a =
          { s.agent a with ops := { (s.agent a).ops with msgs := l } })) ∧
    (∀ a n off b ms, s.mem.wf = true → NextMove (.store a n off b) ms s → s.bufLent n = false →
      off < 65536 →
      ∃ t, step s = .next t ∧ t.mem.read (bufAddr (.user n) off) = b ∧
        SameMemBut (bufAddr (.user n) off) 1 s t ∧ t = { s with mem := t.mem, sched := ms })

/-! ### Reset -/

/-- What creation of S leaves, at reset and at a later attach, for any parameters and any draw of the
controller's contents: ENABLE_STATUS bit 0 is 0 and the FIFOs are empty whatever the draw; and what
creation of a paged-device record leaves, the cache UNSET and no functions (10_state.md R80, R81;
45_lifecycle.md R393; 70_reset_and_hazards.md R460, R461). That an attach forgets the device records and
keeps the targets, the bus history and who holds the bus is the model's (DEDUCED, log 27), and so are the
equal timing fields and depths of every creation, which R80 leaves unspecified (log 7). -/
def Obligations.ResetRecord : Prop :=
  ∀ (p : Params) (c : Ctl),
    let s := State.resetWith p c
    let b := s.blk
    (b.status = .idle ∧ b.xphase = .idle ∧ b.msgs = [] ∧ b.msgsNum = 0 ∧ b.lens = [] ∧
      b.msgWriteIdx = 0 ∧ b.txOff = 0 ∧ b.msgReadIdx = 0 ∧ b.rxOff = 0 ∧ b.cmdErr = 0#8 ∧
      b.msgErr = .none ∧ b.abortSource = 0#32 ∧ b.rxOutstanding = 0 ∧ b.retries = p.retries ∧
      b.completion = false ∧ b.timedOut = false ∧ b.recvPending = false ∧ b.holdForLen = false) ∧
    (b.ready = false ∧ b.powered = true ∧ b.mapped = false ∧ b.irqInstalled = false ∧
      b.disableUnacked = false ∧ b.pollCount = 0 ∧ b.gate = ⟨none, 0, []⟩ ∧
      b.functionality = 0x0F7E0003#32 ∧ b.regBase = none ∧ b.regSize = none) ∧
    (s.ctl.icEn = false ∧ s.ctl.txFifo = [] ∧ s.ctl.rxFifo = []) ∧
    (∀ a, (s.agent a).req = none ∧ (s.agent a).waiting = false ∧ (s.agent a).result = none) ∧
    (∀ d ∈ s.devs, d.currentPage = none ∧ d.functions = []) ∧
    State.reset.blk.retries = 5 ∧
    (∀ (s : State) (addr : Half) ms, NextMove (.newDevice addr) ms s →
      step s = .next { s with sched := ms, devs := s.devs ++ [⟨addr, none, []⟩] }) ∧
    (∀ (s : State) draw ms, NextMove (.attach draw) ms s → s.attached = false →
      step s = .next { s with
        sched := ms, attached := true, blk := (State.resetWith s.par draw).blk, devs := [],
        agents := [],
        ctl := { draw with
          icEn := false, txFifo := [], rxFifo := [], bus := none, otherBusy := s.ctl.otherBusy,
          targets := s.ctl.targets, wire := s.ctl.wire } })

/-! ### The controller's registers -/

/-- CON, TAR, the counts and SDA_HOLD take a value only while ENABLE_STATUS bit 0 is 0; INTR_MASK, RX_TL,
TX_TL and ENABLE take one at any time (10_state.md R62, R64, R68, R76; 70_reset_and_hazards.md R471). -/
def Obligations.WritesWhileEnabled : Prop :=
  ∀ (s : State) (v : Word),
    let c := (ctlTurn s).ctl
    (c.icEn = true → ∀ r ∈ [Reg.con, .tar, .ssSclHcnt, .ssSclLcnt, .fsSclHcnt, .fsSclLcnt, .sdaHold],
      (regWrite r v s).ctl = c) ∧
    (c.icEn = false →
      (regWrite .con v s).ctl = { c with con := v } ∧
      (regWrite .tar v s).ctl = { c with tar := v.extractLsb' 0 10 } ∧
      (regWrite .ssSclHcnt v s).ctl = { c with ssHcnt := v.extractLsb' 0 16 } ∧
      (regWrite .ssSclLcnt v s).ctl = { c with ssLcnt := v.extractLsb' 0 16 } ∧
      (regWrite .fsSclHcnt v s).ctl = { c with fsHcnt := v.extractLsb' 0 16 } ∧
      (regWrite .fsSclLcnt v s).ctl = { c with fsLcnt := v.extractLsb' 0 16 } ∧
      (regWrite .sdaHold v s).ctl = { c with sdaHold := v.extractLsb' 0 16 }) ∧
    (regWrite .intrMask v s).ctl = { c with intrMask := v } ∧
    (regWrite .rxTl v s).ctl = { c with rxTl := v.extractLsb' 0 8 } ∧
    (regWrite .txTl v s).ctl = { c with txTl := v.extractLsb' 0 8 } ∧
    (regWrite .enable v s).ctl =
      { c with enable := v.getLsbD 0, icEn := if v.getLsbD 0 then true else c.icEn }

/-- The interrupt registers. INTR_STAT is RAW_INTR_STAT masked; RX_FULL and TX_EMPTY are level bits,
bits 31:14 read 0, of INTR_MASK too, and the line is asserted exactly when INTR_STAT is nonzero. Reading
CLR_INTR clears every latched bit and TX_ABRT_SOURCE and no level bit; reading another clear register
clears its own bit only, CLR_TX_ABRT the source as well; a write to one has no effect (10_state.md R65,
R66, R67, R70, R71, R72; 60_exceptions.md R410). -/
def Obligations.InterruptRegisters : Prop :=
  (∀ (p : Params) (c : Ctl),
    Ctl.readValue p .intrStat c = some (c.raw &&& c.intrMask) ∧
    (∃ v, Ctl.readValue p .intrMask c = some v ∧
      ∀ k, v.getLsbD k = (decide (k < 14) && c.intrMask.getLsbD k)) ∧
    c.raw.getLsbD 2 = decide (c.rxTl.toNat < c.rxFifo.length) ∧
    c.raw.getLsbD 4 = (c.icEn && decide (c.txFifo.length ≤ c.txTl.toNat)) ∧
    (∀ k, k ≠ 2 → k ≠ 4 → k < 14 → c.raw.getLsbD k = c.latched.getLsbD k) ∧
    (∀ k, 14 ≤ k → c.raw.getLsbD k = false) ∧
    (c.line = true ↔ c.raw &&& c.intrMask ≠ 0#32)) ∧
  (∀ (s : State),
    let c := (ctlTurn s).ctl
    (let d := (regTouch .clrIntr s).ctl
     d.latched = 0#32 ∧ d.abrtSrc = 0#32 ∧
       d.raw.getLsbD 2 = c.raw.getLsbD 2 ∧ d.raw.getLsbD 4 = c.raw.getLsbD 4) ∧
    (∀ e ∈ [(0, Reg.clrRxUnder), (1, .clrRxOver), (3, .clrTxOver), (5, .clrRdReq), (6, .clrTxAbrt),
        (7, .clrRxDone), (8, .clrActivity), (9, .clrStopDet), (10, .clrStartDet), (11, .clrGenCall)],
      let d := (regTouch e.2 s).ctl
      (∀ k, d.raw.getLsbD k = if k = e.1 then false else c.raw.getLsbD k) ∧
      d.abrtSrc = if e.1 = 6 then 0#32 else c.abrtSrc) ∧
    (∀ r ∈ [Reg.clrIntr, .clrRxUnder, .clrRxOver, .clrTxOver, .clrRdReq, .clrTxAbrt, .clrRxDone,
        .clrActivity, .clrStopDet, .clrStartDet, .clrGenCall], ∀ v, (regWrite r v s).ctl = c))

/-- DATA_CMD and the FIFOs. A write pushes one command word, at any time, or is dropped with TX_OVER
where the TX FIFO is full; a read pops the oldest received byte, or returns a free value with RX_UNDER
where there is none. Between two register accesses Ctl only takes words off the TX FIFO's head and only
adds bytes at the RX FIFO's tail, but that an abort empties the TX FIFO and a disable both; while
ENABLE_STATUS bit 0 is 0 it puts nothing on the bus and moves no FIFO. A bus held on an empty TX FIFO
stays held, and ACTIVITY 1, until a disable takes effect, which releases it, where
EMPTYFIFO_HOLD_MASTER is true (10_state.md R63, R73, R76; 60_exceptions.md R430, R431, R433, R435, R436,
R438, R439; 70_reset_and_hazards.md R476). -/
def Obligations.FifosAtTheController : Prop :=
  (∀ (p : Params) (c : Ctl) (w : Word),
    (c.txFifo.length < p.ctlTxDepth →
      Ctl.writeReg p .dataCmd w c = { c with txFifo := c.txFifo ++ [w] }) ∧
    (p.ctlTxDepth ≤ c.txFifo.length →
      Ctl.writeReg p .dataCmd w c = { c with latched := c.latched ||| 0x8#32 }) ∧
    (∀ b bs, c.rxFifo = b :: bs →
      Ctl.readValue p .dataCmd c = some (b.setWidth 32) ∧
      Ctl.afterRead .dataCmd c = { c with rxFifo := bs }) ∧
    (c.rxFifo = [] →
      Ctl.readValue p .dataCmd c = none ∧
      Ctl.afterRead .dataCmd c = { c with latched := c.latched ||| 0x1#32 })) ∧
  (∀ (p : Params) (m : CtlMove) (c : Ctl),
    let d := Ctl.move p m c
    (d.txFifo <:+ c.txFifo) ∧
    (c.rxFifo <+: d.rxFifo ∨ (d.rxFifo = [] ∧ d.icEn = false)) ∧
    (c.icEn = false → d.icEn = false ∧ d.txFifo = c.txFifo ∧ d.rxFifo = c.rxFifo ∧
      d.wire = c.wire ∧ d.bus = c.bus) ∧
    (c.bus.isSome = true → c.txFifo = [] → p.holdMaster = true → c.enable = true →
      d.bus = c.bus ∧ d.txFifo = [] ∧ d.activity = true) ∧
    (c.icEn = true → c.enable = false → m = .finishDisable →
      d.bus = none ∧ d.txFifo = [] ∧ d.rxFifo = [] ∧ d.icEn = false))

/-! ### The gate -/

/-- The gate: entering it free or again as its owner, joining its waiters, leaving it, and its grant to
any one waiter, which goes on where it suspended; a release by a requester that does not own it is a model
fault. A request of the bus controller or of the lifecycle that finds the gate open does at once what it
does when it is granted the gate (20_memory.md R120, R121, R123; 40_timing_and_bus.md R204). -/
def Obligations.GateRules : Prop :=
  (∀ (g : Gate) (a : Agent),
    (g.owner = none → g.acquire a = some { g with owner := some a, depth := 1 }) ∧
    (g.owner = some a → g.acquire a = some { g with depth := g.depth + 1 }) ∧
    (∀ b, g.owner = some b → b ≠ a → g.acquire a = none ∧ a ∈ (g.wait a).waiters ∧
      (g.wait a).owner = some b ∧ (g.wait a).depth = g.depth) ∧
    (g.owner = some a → 2 ≤ g.depth → g.release a = some { g with depth := g.depth - 1 }) ∧
    (g.owner = some a → g.depth = 1 → g.release a = some { g with owner := none, depth := 0 }) ∧
    (g.owner ≠ some a → g.release a = none) ∧
    (g.owner = none → a ∈ g.waiters →
      ∃ h, g.grant a = some h ∧ h.owner = some a ∧ h.depth = 1 ∧
        ∀ b, b ∈ h.waiters ↔ (b ∈ g.waiters ∧ b ≠ a)) ∧
    (g.owner ≠ none → g.grant a = none)) ∧
  (∀ (s : State) a c g ms, NextMove (.grant a) ms s → (s.agent a).point = .gate c →
    s.blk.gate.grant a = some g →
    step s = runCont a c (park a .idle (({ s with sched := ms } : State).setGate g))) ∧
  (∀ (s : State) a, s.blk.gate.owner ≠ some a → gateRelease a s = .fault .callerObligation) ∧
  (∀ s : State, s.blk.gate.Wf → s.blk.gate.OpenTo s.cur →
    let a := s.cur
    let o := (s.agent a).ops
    let u := s.setGate (s.blk.gate.entered a 1)
    (s.blk.mapped = true → s.blk.powered = true →
      exec .busEnable s = runCont a .busEnable u ∧ exec .busDisable s = runCont a .busDisable u ∧
      exec .busConfigure s = runCont a .busConfigure u ∧
      exec .busMaskIntr s = runCont a .busMask u ∧
      exec .busClearIntr s = runCont a (.busClear o.kind) u) ∧
    exec .busPower s = runCont a (.power o.enabled) u ∧
    (s.blk.mapped = false → s.blk.ready = false → s.blk.powered = true →
      exec .lifeStart s = runCont a (.start o.provider) u) ∧
    (s.blk.mapped = true →
      exec .lifeStop s = runCont a .stop { u with blk := { u.blk with ready := false } }))

/-- While another requester owns the gate, a request accesses no register and changes neither the
transfer in flight nor the gate's owner and depth: it ends at once, or it waits for the gate
(20_memory.md R120, 41_transfer_engine.md R259, 40_timing_and_bus.md R204). Only its own scratch buffer
is written, and S.ready is false from LIFE_STOP's first write on (45_lifecycle.md R392). -/
def Obligations.TakenGateHoldsRequests : Prop :=
  ∀ (s : State) (i : Instr) (b : Agent), IsRequest i → s.AtRequest → s.blk.gate.owner = some b →
    b ≠ s.cur →
    ∃ t, exec i s = .next t ∧ NoAccess s t ∧ SameRest s t ∧ OnlyAgent s.cur s t ∧ t.devs = s.devs ∧
      t.blk = { s.blk with
        ready := t.blk.ready
        gate := { s.blk.gate with waiters := t.blk.gate.waiters } } ∧
      (i ≠ .lifeStop ∨ s.blk.mapped = false → t.blk.ready = s.blk.ready) ∧
      (i = .lifeStop → s.blk.mapped = true → t.blk.ready = false) ∧
      (((t.agent s.cur).req = none ∧ (t.agent s.cur).result ≠ none) ∨
        (s.cur ∈ t.blk.gate.waiters ∧ ∃ c, (t.agent s.cur).point = .gate c)) ∧
      SameMemBut (bufAddr (.t0 s.cur) 0) 34 s t

/-! ### Bus-controller requests -/

/-- BUS_ENABLE performs exactly one register write, ENABLE = 1, and BUS_MASK_INTR exactly one, INTR_MASK =
0, latched bits staying latched; both return OK and leave the bus record as it was, an unacknowledged
disable with it; without the mapping or power they fail and access no register; with the gate taken they
wait (40_timing_and_bus.md R204, R205, R210, R214). -/
def Obligations.OneWriteRequests : Prop :=
  ∀ s : State, s.AtRequest →
    let writes (i : Instr) (r : Reg) (v : Word) (c : Ctl) : Prop :=
      ∃ t, exec i s = .next t ∧ Finished s.cur ⟨.ok, 0#32, .ok⟩ s t ∧ t.blk = s.blk ∧
        t.devs = s.devs ∧ t.ctl = c ∧ t.io = .write r v :: s.io ∧ t.fresh = s.fresh
    ((s.blk.mapped = false ∨ s.blk.powered = false) →
      EndsAtOnce .busEnable s ⟨.invalidArgument, 0#32, .ok⟩ ∧
      EndsAtOnce .busMaskIntr s ⟨.invalidArgument, 0#32, .ok⟩) ∧
    (s.blk.mapped = true → s.blk.powered = true → s.blk.gate.Wf → s.blk.gate.OpenTo s.cur →
      writes .busEnable .enable 1#32 { (ctlTurn s).ctl with enable := true, icEn := true } ∧
      writes .busMaskIntr .intrMask 0#32 { (ctlTurn s).ctl with intrMask := 0#32 }) ∧
    (s.blk.mapped = true → s.blk.powered = true → s.blk.gate.TakenFrom s.cur →
      WaitsForGate .busEnable .busEnable s ∧ WaitsForGate .busMaskIntr .busMask s)

/-- BUS_CLEAR_INTR reads the clear register of its kind, CLR_INTR for 0xFF, and fails with
InvalidArgument and no register access for every other kind; with the gate taken it waits
(30_encoding.md R153, 40_timing_and_bus.md R204, R215). -/
def Obligations.BusClearReads : Prop :=
  (∀ s : State, s.AtRequest → s.blk.mapped = true → s.blk.powered = true →
    s.blk.gate.TakenFrom s.cur → WaitsForGate .busClearIntr (.busClear (s.agent s.cur).ops.kind) s) ∧
  ∀ s : State, s.AtRequest → s.blk.gate.Wf → s.blk.gate.OpenTo s.cur →
    let kind := ((s.agent s.cur).ops.kind).toNat
    let c := (ctlTurn s).ctl
    let done (r : Reg) (d : Ctl) : Prop :=
      ∃ t, exec .busClearIntr s = .next t ∧ Finished s.cur ⟨.ok, 0#32, .ok⟩ s t ∧
        t.blk = s.blk ∧ t.devs = s.devs ∧ t.ctl = d ∧ t.io = .read r none :: s.io
    ((s.blk.mapped = false ∨ s.blk.powered = false) →
      EndsAtOnce .busClearIntr s ⟨.invalidArgument, 0#32, .ok⟩) ∧
    (s.blk.mapped = true → s.blk.powered = true →
      (kind = 0xFF → done .clrIntr { c with latched := 0#32, abrtSrc := 0#32 }) ∧
      (kind = 6 → done .clrTxAbrt
        { c with latched := c.latched &&& ~~~(0x40#32), abrtSrc := 0#32 }) ∧
      (∀ e ∈ [(0, Reg.clrRxUnder), (1, .clrRxOver), (3, .clrTxOver), (5, .clrRdReq), (7, .clrRxDone),
          (8, .clrActivity), (9, .clrStopDet), (10, .clrStartDet), (11, .clrGenCall)],
        kind = e.1 → done e.2 { c with latched := c.latched &&& ~~~(BitVec.twoPow 32 e.1) }) ∧
      (kind ∉ [0, 1, 3, 5, 6, 7, 8, 9, 10, 11, 0xFF] →
        EndsAtOnce .busClearIntr s ⟨.invalidArgument, 0#32, .ok⟩))

/-- BUS_DISABLE writes ENABLE = 0 and polls ENABLE_STATUS: acknowledged, it returns OK and clears
disable_unacked; at the last poll unacknowledged it returns DisableTimeout and sets it; before that it
sleeps, and a later poll is one ENABLE_STATUS read with the same endings; without the mapping or power
it fails and accesses no register; with the gate taken it waits (40_timing_and_bus.md R204, R206,
R212). -/
def Obligations.BusDisablePolls : Prop :=
  (∀ s : State, s.AtRequest → (s.blk.mapped = false ∨ s.blk.powered = false) →
    EndsAtOnce .busDisable s ⟨.invalidArgument, 0#32, .ok⟩) ∧
  (∀ s : State, s.AtRequest → s.blk.mapped = true → s.blk.powered = true →
    s.blk.gate.TakenFrom s.cur → WaitsForGate .busDisable .busDisable s) ∧
  (∀ s : State, s.AtRequest → s.blk.mapped = true → s.blk.powered = true → s.blk.gate.Wf →
    s.blk.gate.OpenTo s.cur →
    ∃ t, exec .busDisable s = .next t ∧ t.devs = s.devs ∧ s.ctl.SameRegs t.ctl ∧
      t.ctl.enable = false ∧
      (s.DisableAcked → Finished s.cur ⟨.ok, 0#32, .ok⟩ s t ∧
        t.blk = { s.blk with disableUnacked := false } ∧ t.ctl.icEn = false ∧
        t.io = [.read .enableStatus (some 0#32), .write .enable 0#32] ++ s.io) ∧
      (¬ s.DisableAcked → s.par.disablePollLimit = 0 →
        Finished s.cur ⟨.disableTimeout, 0#32, .ok⟩ s t ∧
        t.blk = { s.blk with disableUnacked := true } ∧ Unacked s t) ∧
      (¬ s.DisableAcked → s.par.disablePollLimit ≠ 0 →
        Paused s.cur (.sleep (.disable 1 .bus)) [] s t ∧
        t.blk = { s.blk with gate := s.blk.gate.entered s.cur 1 } ∧ Unacked s t)) ∧
  (∀ (s : State) a k ms, NextMove (.resume a) ms s →
    (s.agent a).point = .sleep (.disable k .bus) → (s.agent a).stack = [] →
    s.blk.gate = ⟨some a, 1, s.blk.gate.waiters⟩ →
    let v : Word := if (ctlTurn s).ctl.icEn = true then 1#32 else 0#32
    ∃ t, step s = .next t ∧ t.devs = s.devs ∧ t.ctl = (ctlTurn s).ctl ∧
      t.io = .read .enableStatus (some v) :: s.io ∧
      ((ctlTurn s).ctl.icEn = false →
        Finished a ⟨.ok, 0#32, .ok⟩ { s with sched := ms } t ∧
        t.blk = { s.blk with disableUnacked := false, gate := ⟨none, 0, s.blk.gate.waiters⟩ }) ∧
      ((ctlTurn s).ctl.icEn = true → k < s.par.disablePollLimit →
        Paused a (.sleep (.disable (k + 1) .bus)) [] { s with sched := ms } t ∧ t.blk = s.blk) ∧
      ((ctlTurn s).ctl.icEn = true → s.par.disablePollLimit ≤ k →
        Finished a ⟨.disableTimeout, 0#32, .ok⟩ { s with sched := ms } t ∧
        t.blk = { s.blk with disableUnacked := true, gate := ⟨none, 0, s.blk.gate.waiters⟩ }))

/-- BUS_CONFIGURE disables the controller, then writes CON, the counts, SDA_HOLD, the thresholds and the
default mask in that order, where a later poll acknowledges the disable too; where the disable times out
it writes none of them; without the mapping or power it fails and accesses no register; with the gate
taken it waits (40_timing_and_bus.md R204, R208, R211; 30_encoding.md R162). -/
def Obligations.BusConfigureWrites : Prop :=
  (∀ s : State, s.AtRequest → (s.blk.mapped = false ∨ s.blk.powered = false) →
    EndsAtOnce .busConfigure s ⟨.invalidArgument, 0#32, .ok⟩) ∧
  (∀ s : State, s.AtRequest → s.blk.mapped = true → s.blk.powered = true →
    s.blk.gate.TakenFrom s.cur → WaitsForGate .busConfigure .busConfigure s) ∧
  (∀ s : State, s.AtRequest → s.blk.mapped = true → s.blk.powered = true → s.blk.gate.Wf →
    s.blk.gate.OpenTo s.cur →
    ∃ t, exec .busConfigure s = .next t ∧ t.devs = s.devs ∧
      (s.DisableAcked → Finished s.cur ⟨.ok, 0#32, .ok⟩ s t ∧
        t.blk = { s.blk with disableUnacked := false } ∧ Configured ackedAtOnce s t) ∧
      (¬ s.DisableAcked → s.par.disablePollLimit = 0 →
        Finished s.cur ⟨.disableTimeout, 0#32, .ok⟩ s t ∧
        t.blk = { s.blk with disableUnacked := true } ∧ Unacked s t) ∧
      (¬ s.DisableAcked → s.par.disablePollLimit ≠ 0 →
        Paused s.cur (.sleep (.disable 1 (.configure .bus))) [] s t ∧
        t.blk = { s.blk with gate := s.blk.gate.entered s.cur 1 } ∧ Unacked s t)) ∧
  (∀ (s : State) a k u ms, NextMove (.resume a) ms s → u ∈ [ConfigUse.bus, .power] →
    (s.agent a).point = .sleep (.disable k (.configure u)) → (s.agent a).stack = [] →
    s.blk.gate = ⟨some a, 1, s.blk.gate.waiters⟩ → s.ctl.enable = false →
    ∃ t, step s = .next t ∧ t.devs = s.devs ∧
      ((ctlTurn s).ctl.icEn = false →
        Finished a ⟨.ok, 0#32, .ok⟩ { s with sched := ms } t ∧
        Configured [.read .enableStatus (some 0#32)] s t ∧
        t.blk = { s.blk with disableUnacked := false, gate := ⟨none, 0, s.blk.gate.waiters⟩ }) ∧
      ((ctlTurn s).ctl.icEn = true →
        t.ctl = (ctlTurn s).ctl ∧ t.io = .read .enableStatus (some 1#32) :: s.io ∧
        (k < s.par.disablePollLimit →
          Paused a (.sleep (.disable (k + 1) (.configure u))) [] { s with sched := ms } t ∧
          t.blk = s.blk) ∧
        (s.par.disablePollLimit ≤ k →
          Finished a ⟨.disableTimeout, 0#32, .ok⟩ { s with sched := ms } t ∧
          t.blk = { s.blk with
            disableUnacked := true, gate := ⟨none, 0, s.blk.gate.waiters⟩ })))

/-- BUS_POWER, which needs neither the mapping nor power: off stops register access and nothing else
changes; on makes every cached page UNSET and, where the window is mapped, reconfigures; with the gate
taken it waits (60_exceptions.md R452). -/
def Obligations.BusPowerEffect : Prop :=
  (∀ s : State, s.AtRequest → s.blk.gate.TakenFrom s.cur →
    WaitsForGate .busPower (.power (s.agent s.cur).ops.enabled) s) ∧
  ∀ s : State, s.AtRequest → s.blk.gate.Wf → s.blk.gate.OpenTo s.cur →
    ∃ t, exec .busPower s = .next t ∧
      ((s.agent s.cur).ops.enabled = false →
        Finished s.cur ⟨.ok, 0#32, .ok⟩ s t ∧ t.blk = { s.blk with powered := false } ∧
        t.devs = s.devs ∧ NoAccess s t) ∧
      ((s.agent s.cur).ops.enabled = true →
        t.devs = s.devs.map (fun d => { d with currentPage := none }) ∧
        (s.blk.mapped = false →
          Finished s.cur ⟨.ok, 0#32, .ok⟩ s t ∧ t.blk = { s.blk with powered := true } ∧
          NoAccess s t) ∧
        (s.blk.mapped = true → s.DisableAcked →
          Finished s.cur ⟨.ok, 0#32, .ok⟩ s t ∧ Configured ackedAtOnce s t ∧
          t.blk = { s.blk with powered := true, disableUnacked := false }) ∧
        (s.blk.mapped = true → ¬ s.DisableAcked → s.par.disablePollLimit = 0 →
          Finished s.cur ⟨.disableTimeout, 0#32, .ok⟩ s t ∧ Unacked s t ∧
          t.blk = { s.blk with powered := true, disableUnacked := true }) ∧
        (s.blk.mapped = true → ¬ s.DisableAcked → s.par.disablePollLimit ≠ 0 →
          Paused s.cur (.sleep (.disable 1 (.configure .power))) [] s t ∧ Unacked s t ∧
          t.blk = { s.blk with powered := true, gate := s.blk.gate.entered s.cur 1 }))

/-! ### Timing -/

/-- TIMING_COMPUTE: the machine's TimingFn, its own values where it gives any and the default elsewhere
(log 11): five 16-bit outputs into the operand record and OK, or ConfigurationError where one is outside
0 to 65535; no register, nothing of S; and, for a TimingFn whose own values are as R203 asks, the counts
sum to the bus period within one count, in both modes, stated in millionths of a count
(40_timing_and_bus.md R200, R201, R202, R203; 00_scope.md R11). -/
def Obligations.TimingOutputs : Prop :=
  (∀ s : State, s.AtRequest →
    let q := (s.agent s.cur).ops.timing
    let count (ns : Nat) (off : Int) : Int := (((500000 + q.clkKhz.toNat * ns) / 1000000 : Nat) : Int) - off
    let r : RawTiming := (s.par.timingFn.lookup q).getD
      ⟨count (4000 + q.sdaFallNs.toNat) 3, count (4700 + q.sclFallNs.toNat) 1,
        count (600 + q.sdaFallNs.toNat) 3, count (1300 + q.sclFallNs.toNat) 1,
        count q.sdaHoldNs.toNat 0⟩
    let outs := [r.ssH, r.ssL, r.fsH, r.fsL, r.hold]
    ((∀ v ∈ outs, 0 ≤ v ∧ v ≤ 65535) →
      ∃ t o, exec .timingCompute s = .next t ∧ t.blk = s.blk ∧ t.devs = s.devs ∧ NoAccess s t ∧
        SameMem s t ∧ SameRest s t ∧ OnlyAgent s.cur s t ∧
        t.agent s.cur = { s.agent s.cur with
          req := none, waiting := false, result := some ⟨.ok, 0#32, .ok⟩, point := .idle, stack := [],
          ops := { (s.agent s.cur).ops with timingOut := o } } ∧
        (o.ssHcnt.toNat : Int) = r.ssH ∧ (o.ssLcnt.toNat : Int) = r.ssL ∧
        (o.fsHcnt.toNat : Int) = r.fsH ∧ (o.fsLcnt.toNat : Int) = r.fsL ∧
        (o.sdaHold.toNat : Int) = r.hold) ∧
    ((∃ v ∈ outs, v < 0 ∨ 65535 < v) →
      EndsAtOnce .timingCompute s ⟨.configurationError, 0#32, .ok⟩)) ∧
  (∀ (p : Params) (q : TimingIn) (o : TimingOut), timingFnOk p = true → timing p q = some o →
    let near (x y : Int) : Prop := x - y ≤ 1000000 ∧ y - x ≤ 1000000
    near (((o.ssHcnt.toNat + o.ssLcnt.toNat : Nat) : Int) * 1000000)
      (((q.clkKhz.toNat * (8700 + q.sdaFallNs.toNat + q.sclFallNs.toNat) : Nat) : Int) - 4000000) ∧
    near (((o.fsHcnt.toNat + o.fsLcnt.toNat : Nat) : Int) * 1000000)
      (((q.clkKhz.toNat * (1900 + q.sdaFallNs.toNat + q.sclFallNs.toNat) : Nat) : Int) - 4000000))

/-! ### The transfer engine -/

/-- XFER step 1, for XFER and I2C_TRANSFER: each failing check ends the request at once with its code, in
the rule's order, before any gate or register access; the first check is made again once a waiting request
is granted the gate, which it then releases (41_transfer_engine.md R242, R243; 60_exceptions.md R403). -/
def Obligations.XferValidation : Prop :=
  (∀ (s : State) a msgs count ms, NextMove (.grant a) ms s →
    (s.agent a).point = .gate (.xferGate msgs count) → (s.agent a).stack = [] →
    s.blk.gate.owner = none → a ∈ s.blk.gate.waiters →
    (s.blk.ready = false ∨ s.blk.powered = false) →
    ∃ t, step s = .next t ∧ Finished a ⟨.invalidArgument, 0#32, .ok⟩ { s with sched := ms } t ∧
      NoAccess s t ∧ t.devs = s.devs ∧ t.blk = { s.blk with xphase := .idle, gate := t.blk.gate } ∧
      t.blk.gate.owner = none ∧ t.blk.gate.depth = 0 ∧
      ∀ b, b ∈ t.blk.gate.waiters ↔ (b ∈ s.blk.gate.waiters ∧ b ≠ a)) ∧
  ∀ s : State, s.AtRequest → ∀ i ∈ [Instr.xfer, .i2cTransfer],
    let o := (s.agent s.cur).ops
    let msgs := s.msgsOf s.cur
    let counted : Prop := o.count.toNat ≠ 0 ∧ o.count.toNat = msgs.length
    ((s.blk.ready = false ∨ s.blk.powered = false) → EndsAtOnce i s ⟨.invalidArgument, 0#32, .ok⟩) ∧
    (s.blk.ready = true → s.blk.powered = true → ¬ counted →
      EndsAtOnce i s ⟨.invalidArgument, 0#32, .ok⟩) ∧
    (s.blk.ready = true → s.blk.powered = true → counted → s.blk.disableUnacked = true →
      EndsAtOnce i s ⟨.disableTimeout, 0#32, .ok⟩) ∧
    (s.blk.Accepts → counted → ¬ GoodMsgs msgs → EndsAtOnce i s ⟨.invalidArgument, 0#32, .ok⟩)

/-- A valid XFER or I2C_TRANSFER on a free bus begins its transfer: S, TAR, CON bit 4, ENABLE and
INTR_MASK as `xfer_init` says, by exactly its register accesses, and the caller waits; I2C_TRANSFER has
its retry budget S.retries; with the gate taken both wait. Every transfer that was suspended begins so
too, inside the operations around it: where it is granted the gate, where it is the next transfer of its
request, where a later bus poll finds no activity, and where a later disable poll is acknowledged
(41_transfer_engine.md R240, R243, R244, R245, R250, R260; 40_timing_and_bus.md R206). -/
def Obligations.XferBegins : Prop :=
  (∀ s : State, s.AtRequest → s.blk.Accepts → s.blk.gate.TakenFrom s.cur →
    let msgs := s.msgsOf s.cur
    let count := (s.agent s.cur).ops.count
    count.toNat ≠ 0 → count.toNat = msgs.length → GoodMsgs msgs →
    WaitsForGate .xfer (.xferGate msgs count) s ∧
    ∃ t, exec .i2cTransfer s = .next t ∧
      Paused s.cur (.gate (.xferGate msgs count)) [.retry s.blk.retries msgs count] s t ∧
      NoAccess s t ∧ t.devs = s.devs ∧ t.blk = { s.blk with gate := s.blk.gate.wait s.cur }) ∧
  (∀ s : State, s.AtRequest → s.blk.Accepts → s.blk.gate.Wf → s.blk.gate.OpenTo s.cur → s.BusFree →
    let msgs := s.msgsOf s.cur
    let count := (s.agent s.cur).ops.count
    count.toNat ≠ 0 → count.toNat = msgs.length → GoodMsgs msgs →
    (∃ t, exec .xfer s = .next t ∧ SameMem s t ∧
      Began s.cur msgs [] (s.blk.gate.entered s.cur 1) s t) ∧
    (∃ t, exec .i2cTransfer s = .next t ∧ SameMem s t ∧
      Began s.cur msgs [.retry s.blk.retries msgs count] (s.blk.gate.entered s.cur 1) s t)) ∧
  ∀ (s u : State) a msgs (count : Half) g, count.toNat = msgs.length →
    let fs := (s.agent a).stack
    (GoesOn a (.xferGate msgs count) s u g → s.blk.ready = true → s.blk.powered = true → s.BusFree →
      ∃ t, step s = .next t ∧ SameMem s t ∧ Began a msgs fs g u t) ∧
    (GoesOn a (.xfer msgs count) s u g → s.blk.Accepts → count.toNat ≠ 0 → GoodMsgs msgs →
      g.Wf → g.OpenTo a → s.BusFree →
      ∃ t, step s = .next t ∧ SameMem s t ∧ Began a msgs fs (g.entered a 1) u t) ∧
    (GoesOn a (.busy msgs count) s u g → s.BusFree →
      ∃ t, step s = .next t ∧ SameMem s t ∧ Began a msgs fs g u t s.blk.pollCount) ∧
    (∀ k, GoesOn a (.disable k (.xfer msgs)) s u g → (ctlTurn s).ctl.icEn = false →
      ∃ t, step s = .next t ∧ SameMem s t ∧
        Armed a msgs fs [.read .enableStatus (some 0#32)] u t ∧
        t.blk = { s.blk with
          status := (msgAt msgs 0).dir, xphase := .transferActive, disableUnacked := false,
          gate := g })

/-- The polls of XFER. A STATUS poll, the first or a later one, that reads ACTIVITY sleeps, having
counted; at the bound it fails XFER with BusBusyTimeout, the gate released and the phase IDLE; STATUS
alone is read. The disable of `xfer_init`, the fields reset by then: where its first ENABLE_STATUS poll
or a later one finds it unacknowledged it sleeps, and at the bound it fails XFER with DisableTimeout,
disable_unacked set, the phase IDLE, S.status as it was and the gate released; no later step of
`xfer_init` is done (41_transfer_engine.md R244, R245; 40_timing_and_bus.md R206, R207). -/
def Obligations.XferPolls : Prop :=
  (∀ (s u : State) run a fs msgs count b, AtBusyPoll s run u a fs msgs count b →
    (ctlTurn s).ctl.activity = true →
    let polled (t : State) : Prop := t.devs = s.devs ∧ t.ctl = (ctlTurn s).ctl ∧
      ∃ v, v.getLsbD 0 = true ∧ t.io = .read .status (some v) :: s.io
    (b.pollCount ≠ s.par.busyPollLimit →
      ∃ t, run = .next t ∧ polled t ∧ Paused a (.sleep (.busy msgs count)) fs u t ∧
        t.blk = { b with pollCount := b.pollCount + 1 }) ∧
    (b.pollCount = s.par.busyPollLimit → fs = [] → b.gate.owner = some a → b.gate.depth = 1 →
      ∃ t, run = .next t ∧ polled t ∧ Finished a ⟨.busBusyTimeout, 0#32, .ok⟩ u t ∧
        t.blk = { b with xphase := .idle, gate := ⟨none, 0, b.gate.waiters⟩ })) ∧
  (∀ (s u : State) run a fs msgs count b, AtBusyPoll s run u a fs msgs count b →
    (ctlTurn s).ctl.activity = false →
    (ctlTurn (regWrite .enable 0#32 (regTouch .status s))).ctl.icEn = true →
    let polled (t : State) : Prop :=
      t.devs = s.devs ∧ t.ctl.enable = false ∧ s.ctl.SameRegs t.ctl ∧
      ∃ v, v.getLsbD 0 = false ∧ t.io = [.read .enableStatus (some 1#32), .write .enable 0#32,
        .read .status (some v)] ++ s.io
    (s.par.disablePollLimit ≠ 0 →
      ∃ t, run = .next t ∧ polled t ∧ Paused a (.sleep (.disable 1 (.xfer msgs))) fs u t ∧
        t.blk = resetBus b msgs) ∧
    (s.par.disablePollLimit = 0 → fs = [] → b.gate.owner = some a → b.gate.depth = 1 →
      ∃ t, run = .next t ∧ polled t ∧ Finished a ⟨.disableTimeout, 0#32, .ok⟩ u t ∧
        t.blk = { resetBus b msgs with
          xphase := .idle, disableUnacked := true, gate := ⟨none, 0, b.gate.waiters⟩ })) ∧
  ∀ (s u : State) a k msgs g, GoesOn a (.disable k (.xfer msgs)) s u g →
    (ctlTurn s).ctl.icEn = true →
    let polled (t : State) : Prop := t.devs = s.devs ∧ t.ctl = (ctlTurn s).ctl ∧
      t.io = .read .enableStatus (some 1#32) :: s.io
    (k < s.par.disablePollLimit →
      ∃ t, step s = .next t ∧ polled t ∧
        Paused a (.sleep (.disable (k + 1) (.xfer msgs))) (s.agent a).stack u t ∧
        t.blk = { s.blk with gate := g }) ∧
    (s.par.disablePollLimit ≤ k → (s.agent a).stack = [] → g.owner = some a → g.depth = 1 →
      ∃ t, step s = .next t ∧ polled t ∧ Finished a ⟨.disableTimeout, 0#32, .ok⟩ u t ∧
        t.blk = { s.blk with
          xphase := .idle, disableUnacked := true, gate := ⟨none, 0, g.waiters⟩ })

/-- Only BusBusyTimeout is retried, at the first STATUS poll or a later one, and only while the budget
lasts: between two attempts the gate is free, and the request stands at a suspension point of the
model's (DESIGN CHOICE, log 30). Any other result of the transfer is the request's at once: a failed
check before or after the gate, an unacknowledged disable, and the unwind's, success or failure as
41_transfer_engine.md R255 gives it (R242, R243, R245, R260, R261). -/
def Obligations.RetryOnlyBusBusy : Prop :=
  (∀ (s u : State) run a left msgs count m' c' b,
    AtBusyPoll s run u a [.retry left msgs count] m' c' b → b.gate.owner = some a →
    b.gate.depth = 1 →
    ((ctlTurn s).ctl.activity = true → b.pollCount = s.par.busyPollLimit →
      ∃ t, run = .next t ∧ SameMem s t ∧
        t.blk = { b with xphase := .idle, gate := ⟨none, 0, b.gate.waiters⟩ } ∧
        (left = 0 → Finished a ⟨.busBusyTimeout, 0#32, .ok⟩ u t) ∧
        (left ≠ 0 → Paused a (.go (.xfer msgs count)) [.retry (left - 1) msgs count] u t)) ∧
    ((ctlTurn s).ctl.activity = false →
      (ctlTurn (regWrite .enable 0#32 (regTouch .status s))).ctl.icEn = true →
      s.par.disablePollLimit = 0 →
      ∃ t, run = .next t ∧ Finished a ⟨.disableTimeout, 0#32, .ok⟩ u t ∧
        t.blk = { resetBus b m' with
          xphase := .idle, disableUnacked := true, gate := ⟨none, 0, b.gate.waiters⟩ })) ∧
  ∀ (s u : State) a left msgs count g, (s.agent a).stack = [.retry left msgs count] →
    (g.owner = some a → g.depth = 1 → ∀ k m', GoesOn a (.disable k (.xfer m')) s u g →
      (ctlTurn s).ctl.icEn = true → s.par.disablePollLimit ≤ k →
      ∃ t, step s = .next t ∧ Finished a ⟨.disableTimeout, 0#32, .ok⟩ u t ∧
        t.blk = { s.blk with
          xphase := .idle, disableUnacked := true, gate := ⟨none, 0, g.waiters⟩ }) ∧
    (g.owner = some a → g.depth = 1 → ∀ m' c', GoesOn a (.xferGate m' c') s u g →
      (s.blk.ready = false ∨ s.blk.powered = false) →
      ∃ t, step s = .next t ∧ Finished a ⟨.invalidArgument, 0#32, .ok⟩ u t ∧
        t.blk.gate.owner = none) ∧
    (∀ m' c', GoesOn a (.xfer m' c') s u g →
      ((s.blk.ready = false ∨ s.blk.powered = false) →
        ∃ t, step s = .next t ∧ Finished a ⟨.invalidArgument, 0#32, .ok⟩ u t ∧ t.blk.gate = g) ∧
      (s.blk.ready = true → s.blk.powered = true → c'.toNat ≠ 0 → c'.toNat = m'.length →
        s.blk.disableUnacked = true →
        ∃ t, step s = .next t ∧ Finished a ⟨.disableTimeout, 0#32, .ok⟩ u t ∧ t.blk.gate = g)) ∧
    (∀ ms, NextMove (.resume a) ms s → (s.agent a).point = .unwind →
      s.blk.gate = ⟨some a, 1, s.blk.gate.waiters⟩ →
      ∃ t, step s = .next t ∧ Finished a (transferResult s.blk) { s with sched := ms } t ∧
        t.blk.gate.owner = none)

/-- The two endings of a completion wait. The timer ends the wait of a requester on a transfer whose
completion is not signalled, and nothing else: timed_out and the phase TIMED_OUT, the requester's unwind
pending; with completion signalled, or with no requester waiting, it changes nothing. A waiting caller
wakes once completion is signalled, and the phase is the class of the outcome; before that the wake is
no step. The model finds the requester that waits as the gate's owner (DEDUCED, log 18), and an event or
a wake that is not enabled changes nothing (DESIGN CHOICE, log 19) (41_transfer_engine.md R253, R254,
R255, R258; 60_exceptions.md R450). -/
def Obligations.WaitEndings : Prop :=
  (∀ s : State,
    ∃ t, exec .evtTimeout s = .next t ∧
      (∀ a, s.blk.gate.owner = some a → (s.agent a).waiting = true → s.blk.completion = false →
        t.blk = { s.blk with timedOut := true, xphase := .timedOut } ∧
        t.agent a = { s.agent a with waiting := false, point := .unwind } ∧
        OnlyAgent a s t ∧ SameMem s t ∧ SameRest s t ∧ NoAccess s t ∧ t.devs = s.devs) ∧
      (s.blk.completion = true → t = s) ∧
      ((∀ a, s.blk.gate.owner = some a → (s.agent a).waiting = false) → t = s)) ∧
  (∀ (s : State) a ms, NextMove (.wake a) ms s →
    ∃ t, step s = .next t ∧
      ((s.agent a).waiting = true → s.blk.completion = true →
        t.agent a = { s.agent a with waiting := false, point := .unwind } ∧ OnlyAgent a s t ∧
        SameMem s t ∧ NoAccess s t ∧ t.devs = s.devs ∧
        t.blk = { s.blk with xphase :=
          if s.blk.timedOut = true then .timedOut
          else if s.blk.msgErr ≠ .none then .failed
          else if s.blk.cmdErr ≠ 0#8 then .aborted else .completed }) ∧
      (s.blk.completion = false → t = { s with sched := ms }) ∧
      ((s.agent a).waiting = false → t = { s with sched := ms }))

/-- The unwind of a transfer: INTR_MASK is written 0, the message list and the cursors are reset, status
and phase are IDLE, the error fields keep their values, the gate is released, and the result is posted
with the precedence timeout, engine error, abort, success (41_transfer_engine.md R255, R256). -/
def Obligations.UnwindPostsOutcome : Prop :=
  ∀ (s : State) a ms, NextMove (.resume a) ms s → (s.agent a).point = .unwind →
    (s.agent a).stack = [] → s.blk.gate = ⟨some a, 1, s.blk.gate.waiters⟩ →
    ∃ t, step s = .next t ∧ t.devs = s.devs ∧
      Finished a
        (if s.blk.timedOut = true then ⟨.transferTimeout, 0#32, .ok⟩
         else match s.blk.msgErr with
           | .invalidArgument => ⟨.invalidArgument, 0#32, .ok⟩
           | .protocolError => ⟨.protocolError, 0#32, .ok⟩
           | .none =>
             if s.blk.cmdErr ≠ 0#8 then ⟨.abortedTransfer, s.blk.abortSource, .ok⟩
             else ⟨.ok, BitVec.ofNat 32 s.blk.msgsNum, .ok⟩)
        { s with sched := ms } t ∧
      t.blk = { s.blk with
        status := .idle, xphase := .idle, msgs := [], msgsNum := 0, lens := [],
        msgWriteIdx := 0, txOff := 0, msgReadIdx := 0, rxOff := 0,
        rxOutstanding := 0, recvPending := false, holdForLen := false,
        gate := ⟨none, 0, s.blk.gate.waiters⟩ } ∧
      t.ctl = { (ctlTurn s).ctl with intrMask := 0#32 } ∧
      t.io = .write .intrMask 0#32 :: s.io

/-! ### The interrupt handler -/

/-- When EVT_IRQ is delivered, and the idle branch: nothing happens where the line is not asserted, no
handler is installed or power is off; a delivery with no transfer active, or with completion signalled,
reads CLR_INTR and writes INTR_MASK = 0, and touches no cursor, buffer or error field
(60_exceptions.md R411, 42_interrupt_fifo.md R281). -/
def Obligations.IdleDelivery : Prop :=
  ∀ s : State,
    ((s.ctl.raw &&& s.ctl.intrMask = 0#32 ∨ s.blk.irqInstalled = false ∨ s.blk.powered = false) →
      exec .evtIrq s = .next s) ∧
    (s.ctl.raw &&& s.ctl.intrMask ≠ 0#32 → s.blk.irqInstalled = true → s.blk.powered = true →
      (s.blk.xphase ≠ .transferActive ∨ s.blk.completion = true) →
      ∃ t, exec .evtIrq s = .next t ∧ t.blk = s.blk ∧ t.agents = s.agents ∧ t.devs = s.devs ∧
        SameMem s t ∧ SameRest s t ∧ t.ctl.con = s.ctl.con ∧ t.ctl.tar = s.ctl.tar ∧
        t.ctl.enable = s.ctl.enable ∧ s.ctl.SameCounts t.ctl ∧ t.ctl.intrMask = 0#32 ∧
        t.io = [.write .intrMask 0#32, .read .clrIntr none] ++ s.io)

/-- Interrupt entry with a transfer active: INTR_STAT is read once; where the snapshot holds TX_ABRT,
TX_ABRT_SOURCE is read into S.abort_source before CLR_TX_ABRT; then every other latched bit of the
snapshot is cleared in ascending order; nothing else of S changes, and the run goes on with the
snapshot where it selects a branch (42_interrupt_fifo.md R280, R282; 70_reset_and_hazards.md R472). -/
def Obligations.SnapshotThenClears : Prop :=
  ∀ s : State, s.ctl.raw &&& s.ctl.intrMask ≠ 0#32 → s.blk.irqInstalled = true →
    s.blk.powered = true → s.blk.xphase = .transferActive → s.blk.completion = false →
    s.blk.msgErr = .none →
    let stat := (ctlTurn s).ctl.raw &&& (ctlTurn s).ctl.intrMask
    let src := (ctlTurn (regRead .intrStat s).2).ctl.abrtSrc
    let clear (k : Nat) (r : Reg) : List Access := if stat.getLsbD k = true then [.read r none] else []
    ∃ t, exec .evtIrq s = .next t ∧ t.agents = s.agents ∧ t.devs = s.devs ∧ SameMem s t ∧
      t.par = s.par ∧ t.cur = s.cur ∧ t.running = s.running ∧ t.sched = s.sched ∧
      t.attached = s.attached ∧
      s.ctl.SameRegs t.ctl ∧ t.ctl.enable = s.ctl.enable ∧
      t.blk = { s.blk with
        abortSource := if stat.getLsbD 6 = true then src else s.blk.abortSource } ∧
      t.io = (if stat.getLsbD 12 = true ∨ stat.getLsbD 13 = true then [.read .clrIntr none] else []) ++
        clear 11 .clrGenCall ++ clear 10 .clrStartDet ++ clear 9 .clrStopDet ++
        clear 8 .clrActivity ++ clear 7 .clrRxDone ++ clear 5 .clrRdReq ++ clear 3 .clrTxOver ++
        clear 1 .clrRxOver ++ clear 0 .clrRxUnder ++
        (if stat.getLsbD 6 = true then [.read .clrTxAbrt none, .read .txAbrtSource (some src)]
         else []) ++
        .read .intrStat (some stat) :: s.io ∧
      (t.handler = some stat ∨
        (t.handler = none ∧ stat.getLsbD 2 = false ∧ stat.getLsbD 4 = false ∧
          stat.getLsbD 6 = false ∧ stat.getLsbD 9 = false))

/-- The two branches that end a transfer. TX_ABRT: cmd_err is 1, INTR_MASK is written 0, completion is
signalled and the handler run ends; no FIFO is read and nothing else changes. STOP_DET masks all and
signals completion; the transfer is a ProtocolError where a message is still to be issued, a read
message is not complete, or reads are outstanding, and clean otherwise (42_interrupt_fifo.md R283,
R310). -/
def Obligations.EndingBranches : Prop :=
  (∀ s : State,
    ∃ t, exec .irqTxAbrt s = .next t ∧
      t.blk = { s.blk with cmdErr := 1#8, completion := true } ∧
      t.ctl = { (ctlTurn s).ctl with intrMask := 0#32 } ∧
      t.io = .write .intrMask 0#32 :: s.io ∧ t.handler = none ∧
      t.agents = s.agents ∧ t.devs = s.devs ∧ SameMem s t ∧ t.par = s.par ∧ t.cur = s.cur ∧
      t.running = s.running ∧ t.sched = s.sched ∧ t.attached = s.attached ∧ t.fresh = s.fresh) ∧
  (∀ s : State, s.blk.msgErr = .none →
    let clean : Prop := s.blk.msgWriteIdx = s.blk.msgsNum ∧ s.blk.rxOutstanding = 0 ∧
      ∀ j, s.blk.msgReadIdx ≤ j → j < s.blk.msgs.length →
        (msgAt s.blk.msgs j).flags.getLsbD 0 = false
    ∃ t, exec .irqStopDet s = .next t ∧
      (clean → t.blk = { s.blk with completion := true }) ∧
      (¬ clean → t.blk = { s.blk with completion := true, msgErr := .protocolError }) ∧
      t.ctl = { (ctlTurn s).ctl with intrMask := 0#32 } ∧
      t.io = .write .intrMask 0#32 :: s.io ∧
      t.agents = s.agents ∧ t.devs = s.devs ∧ SameMem s t ∧ t.par = s.par ∧ t.cur = s.cur ∧
      t.running = s.running ∧ t.sched = s.sched ∧ t.attached = s.attached ∧ t.fresh = s.fresh)

/-- The command word of message `i` at offset `off`, bit by bit: DAT is the byte for a write and 0 for a
read, CMD the direction, RESTART the first word of every message but the first, STOP the last word of
the last message once no length byte is awaited (42_interrupt_fifo.md R291, R293; 30_encoding.md R160,
R161). -/
def Obligations.CommandWordBits : Prop :=
  ∀ (b : Bus) (i off : Nat) (dat : Byte),
    let m := msgAt b.msgs i
    let w := dcWord b i off dat
    let rd := m.flags.getLsbD 0
    w.extractLsb' 0 8 = (if rd = true then 0#8 else dat) ∧ w.getLsbD 8 = rd ∧
    (w.getLsbD 10 = true ↔ 0 < i ∧ off = 0) ∧
    (w.getLsbD 9 = true ↔ i + 1 = b.msgsNum ∧ off + 1 = b.lens.getD i 0 ∧
      ¬ (m.flags.getLsbD 10 = true ∧ b.recvPending = true)) ∧
    (∀ k, 11 ≤ k → w.getLsbD k = false)

/-- The TX refill, whatever Ctl does between its accesses. In general it issues, in order, the next of the
words that are due, reads and writes over every message, and stands where they end, S.status the direction
of the message it is at; it stops for one of four reasons: nothing is left, or the one read of a RECV_LEN
message is out and its length awaited (no word past it is issued), and then TX_EMPTY is masked; the reads
it has asked for fill the RX FIFO; or the TX FIFO is full by its last TXFLR read. One write message that
fits the free TX FIFO goes out whole after one TXFLR read, STOP on the last word alone
(42_interrupt_fifo.md R290, R291, R292, R294, R295, R312). -/
def Obligations.RefillIssuesWrite : Prop :=
  (∀ (s : State) (stat : Word), s.handler = some stat → s.blk.msgErr = .none → s.blk.CursorsOk →
    let b := s.blk
    ∃ t n, exec .irqTxEmpty s = .next t ∧
      let c := t.blk
      let left : Prop := c.msgWriteIdx < c.msgsNum ∧ c.txOff < c.lens.getD c.msgWriteIdx 0
      issuedWords t.io = ((wordsToIssue b s.mem).take n).reverse ++ issuedWords s.io ∧
      n ≤ (wordsToIssue b s.mem).length ∧ wordsToIssue c t.mem = (wordsToIssue b s.mem).drop n ∧
      c.rxOutstanding =
        b.rxOutstanding + (((wordsToIssue b s.mem).take n).filter fun w => w.getLsbD 8).length ∧
      c = { b with
        status := c.status, msgWriteIdx := c.msgWriteIdx, txOff := c.txOff,
        rxOutstanding := c.rxOutstanding, holdForLen := c.holdForLen } ∧
      ((b.msgWriteIdx = b.msgsNum ∨ b.holdForLen = true) →
        n = 0 ∧ c = b ∧ t.io = .write .intrMask 0x00000244#32 :: s.io) ∧
      (b.msgWriteIdx < b.msgsNum → b.holdForLen = false →
        c.status = (msgAt c.msgs (min c.msgWriteIdx (c.msgsNum - 1))).dir ∧
        (∀ j, b.msgWriteIdx ≤ j → j < b.msgsNum → (msgAt b.msgs j).flags.getLsbD 10 = true →
          b.recvPending = true → c.msgWriteIdx ≤ j) ∧
        ((c.msgWriteIdx = c.msgsNum ∧ c.holdForLen = false) ∨
          (c.holdForLen = true ∧ c.msgWriteIdx < c.msgsNum ∧
            c.txOff = c.lens.getD c.msgWriteIdx 0 ∧ c.recvPending = true ∧
            (msgAt c.msgs c.msgWriteIdx).flags.getLsbD 10 = true) ∨
          (left ∧ c.holdForLen = false ∧ (msgAt c.msgs c.msgWriteIdx).flags.getLsbD 0 = true ∧
            c.rxOutstanding = c.rxFifoDepth) ∨
          (left ∧ c.holdForLen = false ∧ ∃ (ws : List Word) (v : Word) (io : List Access),
            t.io = (ws.map fun w => Access.write .dataCmd w) ++ .read .txflr (some v) :: io ∧
            c.txFifoDepth ≤ ws.length + v.toNat))) ∧
      ((c.msgWriteIdx = c.msgsNum ∨ c.holdForLen = true) →
        t.ctl.intrMask = 0x00000244#32 ∧ ∃ io, t.io = .write .intrMask 0x00000244#32 :: io) ∧
      (¬ (c.msgWriteIdx = c.msgsNum ∨ c.holdForLen = true) → t.ctl.intrMask = s.ctl.intrMask) ∧
      SameMem s t ∧ t.agents = s.agents ∧ t.devs = s.devs) ∧
  ∀ (s : State) (m : Msg) (stat : Word),
    s.handler = some stat → s.blk.msgErr = .none → s.blk.msgs = [m] → s.blk.msgsNum = 1 →
    s.blk.msgWriteIdx = 0 → s.blk.txOff = 0 → s.blk.holdForLen = false →
    s.blk.lens = [m.len.toNat] → m.flags.getLsbD 0 = false → m.flags.getLsbD 10 = false →
    1 ≤ m.len.toNat → m.len.toNat ≤ m.buf.cap.toNat →
    (ctlTurn s).ctl.txFifo.length < 512 →
    m.len.toNat + (ctlTurn s).ctl.txFifo.length ≤ s.blk.txFifoDepth →
    ∃ t, exec .irqTxEmpty s = .next t ∧
      t.io = .write .intrMask 0x00000244#32 ::
        ((List.range m.len.toNat).reverse.map fun k =>
          Access.write .dataCmd ((s.mem.read (bufAddr m.buf.id k)).setWidth 32 |||
            (if k + 1 = m.len.toNat then 0x200#32 else 0#32))) ++
        .read .txflr (some (BitVec.ofNat 32 (ctlTurn s).ctl.txFifo.length)) :: s.io ∧
      t.blk = { s.blk with status := .writeInProgress, msgWriteIdx := 1, txOff := 0 } ∧
      t.ctl.intrMask = 0x00000244#32 ∧ SameMem s t ∧ t.agents = s.agents ∧ t.devs = s.devs

/-- The FIFOs stay in bounds. The refill asks for no more bytes than the RX FIFO holds, and never writes a
full TX FIFO: no TX_OVER is latched; the drain never reads an empty RX FIFO: no RX_UNDER is latched while
the controller stays enabled. RX_OVER is not latched either: a transfer begins with the outstanding-read
counter covering the read words in the TX FIFO and the bytes in the RX FIFO, and interrupt entry, every
handler branch, every command word executed and every move of Ctl keeps it so, the counter within the RX
FIFO (42_interrupt_fifo.md R292, 10_state.md R43, 70_reset_and_hazards.md R473, R474, 60_exceptions.md
R438). -/
def Obligations.FifosStayInBounds : Prop :=
  (∀ s t : State,
    (exec .irqTxEmpty s = .next t →
      (s.blk.rxOutstanding ≤ s.blk.rxFifoDepth → t.blk.rxOutstanding ≤ t.blk.rxFifoDepth) ∧
      (s.blk.txFifoDepth ≤ s.par.ctlTxDepth → s.par.ctlTxDepth ≤ 256 →
        s.ctl.txFifo.length ≤ s.par.ctlTxDepth →
        t.ctl.latched.getLsbD 3 = s.ctl.latched.getLsbD 3 ∧
        t.ctl.txFifo.length ≤ s.par.ctlTxDepth)) ∧
    (exec .irqRxFull s = .next t → s.ctl.enable = true → s.par.ctlRxDepth ≤ 256 →
      s.ctl.rxFifo.length ≤ s.par.ctlRxDepth →
      t.ctl.latched.getLsbD 0 = s.ctl.latched.getLsbD 0 ∧
      t.ctl.rxFifo.length ≤ s.par.ctlRxDepth)) ∧
  (∀ s t : State, s.blk.rxFifoDepth ≤ s.par.ctlRxDepth →
    (∀ i ∈ [Instr.evtIrq, .irqTxAbrt, .irqRxFull, .irqTxEmpty, .irqStopDet],
      exec i s = .next t → s.ReadsCovered →
      t.ReadsCovered ∧ (t.ctl.latched.getLsbD 1 = true → s.ctl.latched.getLsbD 1 = true)) ∧
    (∀ dat stop restart, exec (.dcWrite dat stop restart) s = .next t → s.ReadsCovered →
      t.ReadsCovered ∧ t.ctl.latched.getLsbD 1 = s.ctl.latched.getLsbD 1) ∧
    (∀ stop restart, exec (.dcRead stop restart) s = .next t →
      s.ctl.owes < s.blk.rxOutstanding → s.blk.rxOutstanding ≤ s.blk.rxFifoDepth →
      t.ReadsCovered ∧ t.ctl.latched.getLsbD 1 = s.ctl.latched.getLsbD 1)) ∧
  (∀ (p : Params) (m : CtlMove) (c : Ctl), c.owes ≤ p.ctlRxDepth →
    (Ctl.move p m c).owes ≤ c.owes ∧
    (Ctl.move p m c).latched.getLsbD 1 = c.latched.getLsbD 1) ∧
  (∀ (s u : State) run a fs msgs count b, AtBusyPoll s run u a fs msgs count b → s.BusFree →
    (ctlTurn (regWrite .enable 0#32 (regTouch .status s))).ctl.owes = 0 →
    ∃ t, run = .next t ∧ t.ReadsCovered) ∧
  ∀ (s u : State) a k msgs g, GoesOn a (.disable k (.xfer msgs)) s u g →
    (ctlTurn s).ctl.icEn = false → (ctlTurn s).ctl.owes = 0 →
    s.blk.rxOutstanding ≤ s.blk.rxFifoDepth →
    ∃ t, step s = .next t ∧ t.ReadsCovered

/-- The RX drain of bytes of one message: the read cursor first skips the write messages it stands at; the
bytes the RX FIFO holds at the RXFLR read land at that message's offsets in arrival order, one DATA_CMD
read each, and no other byte of memory changes; where the last of them completes the message the cursor
passes it (42_interrupt_fifo.md R300, R301; 20_memory.md R105), whatever Ctl adds meanwhile. -/
def Obligations.DrainStoresInOrder : Prop :=
  ∀ (s : State) (m : Msg) (stat : Word) (i : Nat),
    let bs := (ctlTurn s).ctl.rxFifo
    let off := if i = s.blk.msgReadIdx then s.blk.rxOff else 0
    let len := s.blk.lens.getD i 0
    s.handler = some stat → s.mem.wf = true → s.blk.msgErr = .none → s.ctl.enable = true →
    bs.length < 512 → (bs ≠ [] ∨ i = s.blk.msgReadIdx) → s.blk.msgReadIdx ≤ i →
    (∀ j, s.blk.msgReadIdx ≤ j → j < i → (msgAt s.blk.msgs j).flags.getLsbD 0 = false) →
    i < s.blk.msgsNum → i < s.blk.msgs.length →
    msgAt s.blk.msgs i = m → m.flags.getLsbD 0 = true →
    (m.flags.getLsbD 10 = false ∨ s.blk.recvPending = false) →
    off < len → off + bs.length ≤ len → len ≤ m.buf.cap.toNat →
    ∃ t, exec .irqRxFull s = .next t ∧
      HoldsAt (bufAddr m.buf.id off) bs t ∧
      SameMemBut (bufAddr m.buf.id off) bs.length s t ∧
      t.blk = { s.blk with
        msgReadIdx := if off + bs.length = len then i + 1 else i
        rxOff := if off + bs.length = len then 0 else off + bs.length
        rxOutstanding := s.blk.rxOutstanding - bs.length } ∧
      t.io = (bs.reverse.map fun b => Access.read .dataCmd (some (b.setWidth 32))) ++
        .read .rxflr (some (BitVec.ofNat 32 bs.length)) :: s.io ∧
      t.agents = s.agents ∧ t.devs = s.devs

/-- What ends or redirects a drain. The length byte of a RECV_LEN message, the one byte in the RX FIFO:
the read cursor first skips the write messages it stands at; a byte of 1 to 32 within the buffer is
stored, redefines the length, clears the hold and unmasks TX_EMPTY; otherwise nothing is stored and the
run completes the transfer with ProtocolError. A byte beyond the read messages is read, by one DATA_CMD
read after the one of RXFLR, and discarded, the bytes after it left where they are, and completes the
transfer with ProtocolError (42_interrupt_fifo.md R300, R302, R303, R305). -/
def Obligations.DrainEndings : Prop :=
  (∀ (s : State) (m : Msg) (l : Byte) (stat : Word) (i : Nat),
    s.handler = some stat → s.mem.wf = true → s.blk.msgErr = .none → s.ctl.enable = true →
    (ctlTurn s).ctl.rxFifo = [l] → s.blk.msgReadIdx ≤ i →
    (∀ j, s.blk.msgReadIdx ≤ j → j < i → (msgAt s.blk.msgs j).flags.getLsbD 0 = false) →
    i < s.blk.msgsNum → s.blk.lens.length = s.blk.msgs.length →
    i < s.blk.msgs.length → msgAt s.blk.msgs i = m → m.flags.getLsbD 0 = true →
    m.flags.getLsbD 10 = true → s.blk.recvPending = true →
    (i = s.blk.msgReadIdx → s.blk.rxOff = 0) →
    ∃ t, exec .irqRxFull s = .next t ∧ t.agents = s.agents ∧ t.devs = s.devs ∧
      ((1 ≤ l.toNat ∧ l.toNat ≤ 32 ∧ 1 + l.toNat ≤ m.buf.cap.toNat) →
        t.mem.read (bufAddr m.buf.id 0) = l ∧ SameMemBut (bufAddr m.buf.id 0) 1 s t ∧
        t.blk = { s.blk with
          msgReadIdx := i, rxOff := 1, lens := s.blk.lens.set i (1 + l.toNat),
          recvPending := false, holdForLen := false,
          rxOutstanding := s.blk.rxOutstanding - 1 } ∧
        t.ctl.intrMask = 0x00000254#32 ∧
        t.io = [.write .intrMask 0x00000254#32, .read .dataCmd (some (l.setWidth 32)),
          .read .rxflr (some 1#32)] ++ s.io) ∧
      (¬ (1 ≤ l.toNat ∧ l.toNat ≤ 32 ∧ 1 + l.toNat ≤ m.buf.cap.toNat) →
        SameMem s t ∧ t.blk.msgErr = .protocolError ∧
        (s.blk.completion = false →
          t.blk = { s.blk with
            msgReadIdx := i, rxOff := 0, msgErr := .protocolError,
            rxOutstanding := s.blk.rxOutstanding - 1, completion := true } ∧
          t.ctl.intrMask = 0#32 ∧ t.handler = none ∧
          t.io = [.write .intrMask 0#32, .read .dataCmd (some (l.setWidth 32)),
            .read .rxflr (some 1#32)] ++ s.io))) ∧
  (∀ (s : State) (stat : Word), s.handler = some stat → s.blk.msgErr = .none →
    s.ctl.enable = true → ∀ b bs, (ctlTurn s).ctl.rxFifo = b :: bs → bs.length < 511 →
    s.blk.msgs.length = s.blk.msgsNum → s.blk.msgReadIdx ≤ s.blk.msgsNum →
    (∀ j, s.blk.msgReadIdx ≤ j → j < s.blk.msgsNum → (msgAt s.blk.msgs j).flags.getLsbD 0 = false) →
    s.blk.completion = false →
    ∃ t, exec .irqRxFull s = .next t ∧ SameMem s t ∧
      t.blk = { s.blk with
        msgReadIdx := s.blk.msgsNum,
        rxOff := if s.blk.msgReadIdx = s.blk.msgsNum then s.blk.rxOff else 0,
        rxOutstanding := s.blk.rxOutstanding - 1, msgErr := .protocolError, completion := true } ∧
      t.io = [.write .intrMask 0#32, .read .dataCmd (some (b.setWidth 32)),
        .read .rxflr (some (BitVec.ofNat 32 (bs.length + 1)))] ++ s.io ∧
      (∃ more, t.ctl.rxFifo = bs ++ more) ∧
      t.ctl.intrMask = 0#32 ∧ t.handler = none ∧ t.agents = s.agents ∧ t.devs = s.devs)

/-- What no handler branch changes: the requesters, the devices, the gate, the lifecycle flags, the timing
fields, the phase and the message list; the registers INTR_MASK apart; and every byte of memory but
those of a read message's buffer, which the RX drain alone stores (42_interrupt_fifo.md R283, R290,
R300, R310; 60_exceptions.md R412). -/
def Obligations.HandlerBranchFrame : Prop :=
  ∀ (s t : State), ∀ i ∈ [Instr.irqTxAbrt, .irqRxFull, .irqTxEmpty, .irqStopDet],
    exec i s = .next t →
    t.agents = s.agents ∧ t.devs = s.devs ∧ t.par = s.par ∧ t.cur = s.cur ∧ t.sched = s.sched ∧
    t.running = s.running ∧ t.attached = s.attached ∧
    t.blk = { t.blk with
      regBase := s.blk.regBase, regSize := s.blk.regSize, mapped := s.blk.mapped,
      ssHcnt := s.blk.ssHcnt, ssLcnt := s.blk.ssLcnt, fsHcnt := s.blk.fsHcnt,
      fsLcnt := s.blk.fsLcnt, sdaHold := s.blk.sdaHold, txFifoDepth := s.blk.txFifoDepth,
      rxFifoDepth := s.blk.rxFifoDepth, functionality := s.blk.functionality,
      xphase := s.blk.xphase, pollCount := s.blk.pollCount, msgs := s.blk.msgs,
      msgsNum := s.blk.msgsNum, abortSource := s.blk.abortSource, retries := s.blk.retries,
      timedOut := s.blk.timedOut, ready := s.blk.ready, powered := s.blk.powered,
      irqInstalled := s.blk.irqInstalled, disableUnacked := s.blk.disableUnacked,
      gate := s.blk.gate } ∧
    (t.ctl.con = s.ctl.con ∧ t.ctl.tar = s.ctl.tar ∧ t.ctl.enable = s.ctl.enable ∧
      t.ctl.ssHcnt = s.ctl.ssHcnt ∧ t.ctl.ssLcnt = s.ctl.ssLcnt ∧ t.ctl.fsHcnt = s.ctl.fsHcnt ∧
      t.ctl.fsLcnt = s.ctl.fsLcnt ∧ t.ctl.sdaHold = s.ctl.sdaHold ∧ t.ctl.rxTl = s.ctl.rxTl ∧
      t.ctl.txTl = s.ctl.txTl) ∧
    (i ≠ .irqRxFull → SameMem s t) ∧
    (∀ x, (∀ m ∈ s.blk.msgs, m.flags.getLsbD 0 = true → ∀ k < m.buf.cap.toNat,
      x ≠ bufAddr m.buf.id k) → t.mem.read x = s.mem.read x)

/-! ### Command words in the controller -/

/-- DC_WRITE. Acknowledged: START or repeated START where it is due, which latches START_DET and
ACTIVITY (at a repeated START: DEDUCED, log 22; which comes whatever CON.RESTART_EN holds: DESIGN
CHOICE, log 47), the byte, then STOP if the word says so, which releases the bus and latches STOP_DET.
An abort sets its source bits, latches TX_ABRT and empties the TX FIFO: where the address is refused
there is no byte, where the byte is refused it is on the bus already, and both put a STOP; where
arbitration is lost the bus is another master's and no STOP is put (DEDUCED, log 23). An address refused
where none is due is no refusal. Only the controller changes (60_exceptions.md R431, R432, R434, R440).
-/
def Obligations.WriteWordOnBus : Prop :=
  ∀ (s : State) (dat : Byte) (stop restart : Bool),
    let c := s.ctl
    let started : List Wire := match c.bus with
      | none => [.start c.tar (c.con.getLsbD 4) false]
      | some b => if restart = true ∨ b.isRead = true then [.start b.target b.ten false] else []
    let acked : Prop := (∃ rx next, c.answer = .ack rx next) ∨
      (started = [] ∧ ∃ src rx next, c.answer = .nackAddress src rx next)
    ∃ d, exec (.dcWrite dat stop restart) s = .next { s with ctl := d } ∧ Ctl.Quiet c d ∧
      d.rxFifo = c.rxFifo ∧
      (∀ k ∈ [8, 10], d.latched.getLsbD k = (decide (started ≠ []) || c.latched.getLsbD k)) ∧
      (acked →
        d.wire = (if stop = true then [.stop] else []) ++ .sent dat :: started ++ c.wire ∧
        d.txFifo = c.txFifo ∧ d.abrtSrc = c.abrtSrc ∧ d.bus.isSome = !stop ∧
        d.latched.getLsbD 9 = (stop || c.latched.getLsbD 9) ∧
        d.latched.getLsbD 6 = c.latched.getLsbD 6) ∧
      (∀ src, (∃ rx next, c.answer = .nackAddress src rx next) → started ≠ [] →
        d.wire = .stop :: started ++ c.wire ∧ d.txFifo = [] ∧ d.abrtSrc = c.abrtSrc ||| src ∧
        d.bus = none ∧ d.latched.getLsbD 9 = true ∧ d.latched.getLsbD 6 = true) ∧
      (∀ src, (∃ rx next, c.answer = .nackByte src rx next) →
        d.wire = .stop :: .sent dat :: started ++ c.wire ∧ d.txFifo = [] ∧
        d.abrtSrc = c.abrtSrc ||| src ∧ d.bus = none ∧ d.latched.getLsbD 9 = true ∧
        d.latched.getLsbD 6 = true) ∧
      (∀ src, c.answer = .arbLost src →
        d.wire = started ++ c.wire ∧ d.txFifo = [] ∧ d.abrtSrc = c.abrtSrc ||| src ∧
        d.bus = none ∧ d.latched.getLsbD 9 = c.latched.getLsbD 9 ∧ d.latched.getLsbD 6 = true)

/-- DC_READ. Acknowledged: START or repeated START where it is due, which latches START_DET and ACTIVITY
(at a repeated START: DEDUCED, log 22; which comes whatever CON.RESTART_EN holds: DESIGN CHOICE, log
47), one byte received and pushed at the RX FIFO's tail (dropped with RX_OVER where it is full), then
STOP if the word says so. A read word is refused only in its address, where one is due: an abort, with a
STOP; where arbitration is lost no STOP is put (DEDUCED, log 23). Only the controller changes
(60_exceptions.md R431, R432, R434, R438). -/
def Obligations.ReadWordOnBus : Prop :=
  ∀ (s : State) (stop restart : Bool),
    let c := s.ctl
    let started : List Wire := match c.bus with
      | none => [.start c.tar (c.con.getLsbD 4) true]
      | some b => if restart = true ∨ b.isRead = false then [.start b.target b.ten true] else []
    let acked (rx : Byte) : Prop := (∃ next, c.answer = .ack rx next) ∨
      (∃ src next, c.answer = .nackByte src rx next) ∨
      (started = [] ∧ ∃ src next, c.answer = .nackAddress src rx next)
    ∃ d, exec (.dcRead stop restart) s = .next { s with ctl := d } ∧ Ctl.Quiet c d ∧
      (∀ k ∈ [8, 10], d.latched.getLsbD k = (decide (started ≠ []) || c.latched.getLsbD k)) ∧
      (∀ rx, acked rx → ∃ b,
        (c.targets = [] → b = rx) ∧
        d.wire = (if stop = true then [.stop] else []) ++ .received b :: started ++ c.wire ∧
        d.txFifo = c.txFifo ∧ d.abrtSrc = c.abrtSrc ∧ d.bus.isSome = !stop ∧
        d.latched.getLsbD 9 = (stop || c.latched.getLsbD 9) ∧
        d.latched.getLsbD 6 = c.latched.getLsbD 6 ∧
        (c.rxFifo.length < s.par.ctlRxDepth → d.rxFifo = c.rxFifo ++ [b]) ∧
        (s.par.ctlRxDepth ≤ c.rxFifo.length → d.rxFifo = c.rxFifo ∧ d.latched.getLsbD 1 = true)) ∧
      (∀ src, (∃ rx next, c.answer = .nackAddress src rx next) → started ≠ [] →
        d.wire = .stop :: started ++ c.wire ∧ d.txFifo = [] ∧ d.rxFifo = c.rxFifo ∧
        d.abrtSrc = c.abrtSrc ||| src ∧ d.bus = none ∧ d.latched.getLsbD 9 = true ∧
        d.latched.getLsbD 6 = true) ∧
      (∀ src, c.answer = .arbLost src →
        d.wire = started ++ c.wire ∧ d.txFifo = [] ∧ d.rxFifo = c.rxFifo ∧
        d.abrtSrc = c.abrtSrc ||| src ∧ d.bus = none ∧
        d.latched.getLsbD 9 = c.latched.getLsbD 9 ∧ d.latched.getLsbD 6 = true)

/-- A paged target. The START or repeated START of a write word resets its offset, that of a read word
keeps it; the first byte of a write is then its in-page offset, the next one its page register at offset
0xFF or that register's content elsewhere; a read returns what the offset addresses. A word that puts
START, one that puts a repeated START, and one that goes on with the transaction held, are all covered
(a repeated START comes whatever CON.RESTART_EN holds: DESIGN CHOICE, log 47); a target at another
address, or under a 10-bit one, is left as it is (60_exceptions.md R431, R442; 20_memory.md R103; the
target's state is the model's, log 24). -/
def Obligations.PagedTargetOnBus : Prop :=
  ∀ (s : State) (g : Target) (b next rx : Byte) (stop restart : Bool), s.ctl.targets = [g] →
    s.ctl.answer = .ack rx next →
    let addressed : Prop := match s.ctl.bus with
      | none => s.ctl.tar = g.addr.setWidth 10 ∧ s.ctl.con.getLsbD 4 = false
      | some x => x.target = g.addr.setWidth 10 ∧ x.ten = false
    let offset : Option Byte := match s.ctl.bus with
      | none => none
      | some x => if restart = true ∨ x.isRead = true then none else g.offset
    (addressed → ∃ t, exec (.dcWrite b stop restart) s = .next t ∧
      (offset = none → t.ctl.targets = [{ g with offset := some b }]) ∧
      (offset = some 0xFF#8 → t.ctl.targets = [{ g with page := b, offset := some next }]) ∧
      (∀ o, offset = some o → o ≠ 0xFF#8 → t.ctl.targets = [{ g with
        regs := g.regs.write (g.page.toNat * 256 + o.toNat) b, offset := some next }])) ∧
    (addressed → ∃ t, exec (.dcRead stop restart) s = .next t ∧
      (g.offset = none → t.ctl.targets = [g]) ∧
      (g.offset = some 0xFF#8 → Wire.received g.page ∈ t.ctl.wire.take 2) ∧
      (∀ o, g.offset = some o → o ≠ 0xFF#8 →
        Wire.received (g.regs.read (g.page.toNat * 256 + o.toNat)) ∈ t.ctl.wire.take 2) ∧
      (g.offset ≠ none → t.ctl.targets = [{ g with offset := some next }])) ∧
    (¬ addressed →
      (∃ t, exec (.dcWrite b stop restart) s = .next t ∧ t.ctl.targets = [g]) ∧
      ∃ t, exec (.dcRead stop restart) s = .next t ∧ t.ctl.targets = [g])

/-! ### The SMBus mapper -/

/-- What an SMBus request refuses. An unsupported size class ends at once with
UnsupportedTransactionType, ready or not: no gate, no register, no buffer. Every supported class, QUICK
among them, fails with InvalidArgument, no register accessed and no byte written, where a flag other
than TEN is set, and the block writes where the length byte of the union is 0 or over 32: a plain one
whoever owns the gate, a gated one at once or when it is granted the gate (43_smbus.md R320, R329, R331,
R334, R335; 30_encoding.md R171). -/
def Obligations.SmbusRejects : Prop :=
  (∀ s : State, s.AtRequest → ∀ (size : BitVec 4) (rw : Bool),
    EndsAtOnce (.smbusUnsupported size rw) s ⟨.unsupportedTransactionType, 0#32, .ok⟩ ∧
    EndsAtOnce (.gatedUnsupported size rw) s ⟨.unsupportedTransactionType, 0#32, .ok⟩) ∧
  (∀ s : State, s.AtRequest →
    let l := (s.mem.read (bufAddr (.user (s.agent s.cur).ops.data) 0)).toNat
    ((s.agent s.cur).ops.flags &&& ~~~(0x0010#16) ≠ 0#16 →
      ∀ i ∈ [Instr.smbusQuickW, .smbusQuickR, .smbusByteW, .smbusByteR, .smbusByteDataW,
          .smbusByteDataR, .smbusWordDataW, .smbusWordDataR, .smbusBlockDataW, .smbusBlockDataR,
          .smbusI2cBlockDataW, .smbusI2cBlockDataR],
        EndsAtOnce i s ⟨.invalidArgument, 0#32, .ok⟩) ∧
    ((l = 0 ∨ 32 < l) →
      ∀ i ∈ [Instr.smbusBlockDataW, .smbusI2cBlockDataW],
        EndsAtOnce i s ⟨.invalidArgument, 0#32, .ok⟩)) ∧
  (∀ s : State, s.AtRequest → s.blk.gate.Wf → s.blk.gate.OpenTo s.cur →
    let l := (s.mem.read (bufAddr (.user (s.agent s.cur).ops.data) 0)).toNat
    ((s.agent s.cur).ops.flags &&& ~~~(0x0010#16) ≠ 0#16 →
      ∀ i ∈ [Instr.gatedQuickW, .gatedQuickR, .gatedByteW, .gatedByteR, .gatedByteDataW,
          .gatedByteDataR, .gatedWordDataW, .gatedWordDataR, .gatedBlockDataW, .gatedBlockDataR,
          .gatedI2cBlockDataW, .gatedI2cBlockDataR],
        EndsAtOnce i s ⟨.invalidArgument, 0#32, .ok⟩) ∧
    ((l = 0 ∨ 32 < l) →
      ∀ i ∈ [Instr.gatedBlockDataW, .gatedI2cBlockDataW],
        EndsAtOnce i s ⟨.invalidArgument, 0#32, .ok⟩)) ∧
  ∀ (s u : State) a size rw g, GoesOn a (.gated size rw) s u g → (s.agent a).stack = [] →
    g.owner = some a → g.depth = 1 →
    let l := (s.mem.read (bufAddr (.user (s.agent a).ops.data) 0)).toNat
    ((s.agent a).ops.flags &&& ~~~(0x0010#16) ≠ 0#16 ∨
      (rw = false ∧ (size = .blockData ∨ size = .i2cBlockData) ∧ (l = 0 ∨ 32 < l))) →
    ∃ t, step s = .next t ∧ Finished a ⟨.invalidArgument, 0#32, .ok⟩ u t ∧ NoAccess u t ∧
      t.devs = s.devs ∧ t.blk = { s.blk with gate := ⟨none, 0, g.waiters⟩ }

/-- QUICK, in both directions and both forms, always fails with InvalidArgument, no register accessed
and no byte written: a zero-length message is never transferred, whatever the bus record holds, an
unacknowledged disable included (log 13); a gated one that finds the gate taken waits for it first
(43_smbus.md R321, R322, R335; 92_eei_decisions.md D15). -/
def Obligations.QuickNeverTransfers : Prop :=
  (∀ s : State, s.AtRequest → s.blk.gate.Wf → s.blk.gate.OpenTo s.cur →
    ∀ i ∈ [Instr.smbusQuickW, .smbusQuickR, .gatedQuickW, .gatedQuickR],
      EndsAtOnce i s ⟨.invalidArgument, 0#32, .ok⟩) ∧
  (∀ s : State, s.AtRequest → s.blk.gate.TakenFrom s.cur →
    EndsAtOnce .smbusQuickW s ⟨.invalidArgument, 0#32, .ok⟩ ∧
    EndsAtOnce .smbusQuickR s ⟨.invalidArgument, 0#32, .ok⟩ ∧
    WaitsForGate .gatedQuickW (.gated .quick false) s ∧
    WaitsForGate .gatedQuickR (.gated .quick true) s) ∧
  ∀ (s u : State) a rw g, GoesOn a (.gated .quick rw) s u g → (s.agent a).stack = [] →
    g.owner = some a → g.depth = 1 →
    ∃ t, step s = .next t ∧ Finished a ⟨.invalidArgument, 0#32, .ok⟩ u t ∧ NoAccess u t ∧
      t.devs = s.devs ∧ t.blk = { s.blk with gate := ⟨none, 0, g.waiters⟩ }

/-- The SMBus writes, plain and gated: each puts its bytes in the request's first scratch buffer, command
first, a word low byte first, a block's length byte in BLOCK_DATA alone, and begins one transfer of one
write message of exactly those bytes; a gated one that finds the gate taken waits, and begins that
transfer when it is granted the gate (43_smbus.md R323, R325, R327, R329, R331, R335). -/
def Obligations.SmbusWritesBegin : Prop :=
  (∀ s : State, s.AtRequest → s.blk.gate.TakenFrom s.cur →
    ∀ e ∈ [(Instr.gatedByteW, SizeClass.byte), (.gatedByteDataW, .byteData),
        (.gatedWordDataW, .wordData), (.gatedBlockDataW, .blockData),
        (.gatedI2cBlockDataW, .i2cBlockData)], WaitsForGate e.1 (.gated e.2 false) s) ∧
  (∀ (s u : State) a size g, GoesOn a (.gated size false) s u g → (s.agent a).stack = [] →
    s.mem.wf = true → s.blk.Accepts → g.Wf → g.OpenTo a → s.BusFree →
    let o := (s.agent a).ops
    let d (k : Nat) : Byte := s.mem.read (bufAddr (.user o.data) k)
    let payload := (List.range (d 0).toNat).map fun k => d (k + 1)
    let bs : List Byte := o.command :: match size with
      | .quick | .byte => []
      | .byteData => [d 0]
      | .wordData => [d 0, d 1]
      | .blockData => d 0 :: payload
      | .i2cBlockData => payload
    o.flags &&& ~~~(0x0010#16) = 0#16 → o.addr.toNat < 1024 →
    (o.flags = 0#16 → o.addr.toNat < 128) → size ≠ .quick →
    ((size = .blockData ∨ size = .i2cBlockData) → 1 ≤ (d 0).toNat ∧ (d 0).toNat ≤ 32) →
    ∃ t, step s = .next t ∧
      Began a [⟨o.addr, o.flags, BitVec.ofNat 16 bs.length, ⟨.t0 a, 34#16⟩⟩] [.smbus .none, .gated]
        (g.entered a 1) u t ∧
      HoldsAt (bufAddr (.t0 a) 0) bs t ∧ SameMemBut (bufAddr (.t0 a) 0) bs.length s t) ∧
  ∀ s : State, s.AtRequest → s.mem.wf = true → s.blk.Accepts → s.blk.gate.Wf →
    s.blk.gate.OpenTo s.cur → s.BusFree →
    let o := (s.agent s.cur).ops
    let u (k : Nat) : Byte := s.mem.read (bufAddr (.user o.data) k)
    let payload := (List.range (u 0).toNat).map fun k => u (k + 1)
    let begins (i : Instr) (fs : List Frame) (n : Nat) (bs : List Byte) : Prop :=
      ∃ t, exec i s = .next t ∧
        Began s.cur [⟨o.addr, o.flags, BitVec.ofNat 16 bs.length, ⟨.t0 s.cur, 34#16⟩⟩] fs
          (s.blk.gate.entered s.cur n) s t ∧
        HoldsAt (bufAddr (.t0 s.cur) 0) bs t ∧
        SameMemBut (bufAddr (.t0 s.cur) 0) bs.length s t
    let both (i j : Instr) (bs : List Byte) : Prop :=
      begins i [.smbus .none] 1 bs ∧ begins j [.smbus .none, .gated] 2 bs
    o.flags &&& ~~~(0x0010#16) = 0#16 → o.addr.toNat < 1024 →
    (o.flags = 0#16 → o.addr.toNat < 128) →
    both .smbusByteW .gatedByteW [o.command] ∧
    both .smbusByteDataW .gatedByteDataW [o.command, u 0] ∧
    both .smbusWordDataW .gatedWordDataW [o.command, u 0, u 1] ∧
    (1 ≤ (u 0).toNat → (u 0).toNat ≤ 32 →
      both .smbusBlockDataW .gatedBlockDataW (o.command :: u 0 :: payload) ∧
      both .smbusI2cBlockDataW .gatedI2cBlockDataW (o.command :: payload))

/-- The SMBus reads, plain and gated: BYTE is one read message; the others write the command alone and
then read 1, 2 or 32 bytes, or a length byte (RECV_LEN), into the second scratch buffer, as one
transfer of two messages; a gated one that finds the gate taken waits, and begins that transfer when it is
granted the gate (43_smbus.md R324, R326, R328, R330, R332, R335, R336). -/
def Obligations.SmbusReadsBegin : Prop :=
  (∀ s : State, s.AtRequest → s.blk.gate.TakenFrom s.cur →
    ∀ e ∈ [(Instr.gatedByteR, SizeClass.byte), (.gatedByteDataR, .byteData),
        (.gatedWordDataR, .wordData), (.gatedBlockDataR, .blockData),
        (.gatedI2cBlockDataR, .i2cBlockData)], WaitsForGate e.1 (.gated e.2 true) s) ∧
  (∀ (s u : State) a size g, GoesOn a (.gated size true) s u g → (s.agent a).stack = [] →
    s.mem.wf = true → s.blk.Accepts → g.Wf → g.OpenTo a → s.BusFree →
    let o := (s.agent a).ops
    let pair (flags n : Half) : List Msg :=
      [⟨o.addr, o.flags, 1#16, ⟨.t0 a, 34#16⟩⟩, ⟨o.addr, o.flags ||| flags, n, ⟨.t1 a, 34#16⟩⟩]
    let begins (cb : CopyBack) (msgs : List Msg) (bs : List Byte) : Prop :=
      ∃ t, step s = .next t ∧ Began a msgs [.smbus cb, .gated] (g.entered a 1) u t ∧
        HoldsAt (bufAddr (.t0 a) 0) bs t ∧ SameMemBut (bufAddr (.t0 a) 0) bs.length s t
    o.flags &&& ~~~(0x0010#16) = 0#16 → o.addr.toNat < 1024 →
    (o.flags = 0#16 → o.addr.toNat < 128) →
    match size with
    | .quick => True
    | .byte => begins .byteT0 [⟨o.addr, o.flags ||| 0x0001#16, 1#16, ⟨.t0 a, 34#16⟩⟩] []
    | .byteData => begins .byteT1 (pair 0x0001#16 1#16) [o.command]
    | .wordData => begins .wordT1 (pair 0x0001#16 2#16) [o.command]
    | .blockData => begins .blockT1 (pair 0x0401#16 1#16) [o.command]
    | .i2cBlockData => begins .i2cBlockT1 (pair 0x0001#16 32#16) [o.command]) ∧
  ∀ s : State, s.AtRequest → s.mem.wf = true → s.blk.Accepts → s.blk.gate.Wf →
    s.blk.gate.OpenTo s.cur → s.BusFree →
    let o := (s.agent s.cur).ops
    let begins (i : Instr) (fs : List Frame) (n : Nat) (msgs : List Msg) (bs : List Byte) : Prop :=
      ∃ t, exec i s = .next t ∧ Began s.cur msgs fs (s.blk.gate.entered s.cur n) s t ∧
        HoldsAt (bufAddr (.t0 s.cur) 0) bs t ∧
        SameMemBut (bufAddr (.t0 s.cur) 0) bs.length s t
    let both (i j : Instr) (cb : CopyBack) (msgs : List Msg) (bs : List Byte) : Prop :=
      begins i [.smbus cb] 1 msgs bs ∧ begins j [.smbus cb, .gated] 2 msgs bs
    let pair (flags n : Half) : List Msg :=
      [⟨o.addr, o.flags, 1#16, ⟨.t0 s.cur, 34#16⟩⟩,
       ⟨o.addr, o.flags ||| flags, n, ⟨.t1 s.cur, 34#16⟩⟩]
    o.flags &&& ~~~(0x0010#16) = 0#16 → o.addr.toNat < 1024 →
    (o.flags = 0#16 → o.addr.toNat < 128) →
    both .smbusByteR .gatedByteR .byteT0
      [⟨o.addr, o.flags ||| 0x0001#16, 1#16, ⟨.t0 s.cur, 34#16⟩⟩] [] ∧
    both .smbusByteDataR .gatedByteDataR .byteT1 (pair 0x0001#16 1#16) [o.command] ∧
    both .smbusWordDataR .gatedWordDataR .wordT1 (pair 0x0001#16 2#16) [o.command] ∧
    both .smbusBlockDataR .gatedBlockDataR .blockT1 (pair 0x0401#16 1#16) [o.command] ∧
    both .smbusI2cBlockDataR .gatedI2cBlockDataR .i2cBlockT1 (pair 0x0001#16 32#16) [o.command]

/-- The end of an SMBus request, plain or gated, however its transfer ends: where it succeeded the union
takes the read's view, its other bytes and all other memory unchanged, and the result is OK(0); where it
failed, at its unwind, before its wait or in XFER step 1, the union is as the caller passed it, with all
memory but the mapper's own scratch bytes in the last case, and the transfer's result is returned
unchanged; the gate is free. A failure in step 1 (bus not ready or without power, a disable not
acknowledged, an address over its width) accesses no register, whichever operation the transfer stands
in; a plain request needs no gate for it (43_smbus.md R320, R324 to R333, R335; 41_transfer_engine.md
R242, R255; 10_state.md R35). -/
def Obligations.SmbusCopyBack : Prop :=
  (∀ (s : State) size rw r, s.AtRequest → s.SmbusMaps s.cur size rw →
    s.blk.Rejects s.asked.addr s.asked.flags r →
    ∃ t, exec (smbusInstr false size rw) s = .next t ∧ NoAccess s t ∧ SameRest s t ∧
      t.blk = s.blk ∧ t.devs = s.devs ∧ OnlyAgent s.cur s t ∧
      t.agent s.cur = { s.agent s.cur with
        req := none, waiting := false, result := some r, point := .idle, stack := [] } ∧
      SameMemBut (bufAddr (.t0 s.cur) 0) 34 s t) ∧
  (∀ (s u t : State) run a fs addr flags g r, AtStepOne s run u a fs addr flags g →
    s.blk.Rejects addr flags r → run = .next t → NoAccess u t) ∧
  ∀ (s u : State) run a fs cb g r n, XferEnds s run u a fs g r n →
    ((fs = [.smbus cb] ∧ g = ⟨some a, 1, g.waiters⟩) ∨
      (fs = [.smbus cb, .gated] ∧ g = ⟨some a, 2, g.waiters⟩)) →
    s.mem.wf = true →
    let x := bufAddr (.user (s.agent a).ops.data) 0
    let t1 (k : Nat) : Byte := s.mem.read (bufAddr (.t1 a) k)
    let bytes : List Byte := match cb with
      | .none => []
      | .byteT0 => [s.mem.read (bufAddr (.t0 a) 0)]
      | .byteT1 => [t1 0]
      | .wordT1 => [t1 0, t1 1]
      | .blockT1 => t1 0 :: (List.range (t1 0).toNat).map fun k => t1 (k + 1)
      | .i2cBlockT1 => 32#8 :: (List.range 32).map t1
    ∃ t, run = .next t ∧ OnlyAgent a s t ∧ (t.agent a).req = none ∧
      t.blk.gate = ⟨none, 0, g.waiters⟩ ∧
      (r.code = .ok → (t.agent a).result = some ⟨.ok, 0#32, .ok⟩ ∧ HoldsAt x bytes t ∧
        SameMemBut x bytes.length s t) ∧
      (r.code ≠ .ok → SameMemBut (bufAddr (.t0 a) 0) n s t ∧ (t.agent a).result = some r)

/-! ### RMI4 -/

/-- Every RMI_* request fails with InvalidArgument, before any gate or register access, where the bus is
not ready or the device address is wider than 7 bits (44_rmi4.md introduction, 10_state.md R35), or
where its operand names no device record (DESIGN CHOICE, log 15). -/
def Obligations.RmiFailsFast : Prop :=
  ∀ s : State, s.AtRequest →
    (s.blk.ready = false ∨
      (∃ d, s.devs[(s.agent s.cur).ops.dev]? = some d ∧ 128 ≤ d.addr.toNat) ∨
      s.devs[(s.agent s.cur).ops.dev]? = none) →
    ∀ i ∈ [Instr.rmiSetPage, .rmiReadBlock, .rmiWriteBlock, .rmiProbe, .rmiF01Init],
      EndsAtOnce i s ⟨.invalidArgument, 0#32, .ok⟩

/-- RMI_SET_PAGE begins one write of the two bytes 0xFF and the page to the device, whatever page is
cached, at once where the gate is open and else when it is granted the gate (44_rmi4.md R361, R362). -/
def Obligations.SetPageWrites : Prop :=
  (∀ (s : State) (d : PagedDev), s.AtRequest → s.mem.wf = true → s.blk.Accepts → s.blk.gate.Wf →
    s.blk.gate.OpenTo s.cur → s.BusFree →
    let o := (s.agent s.cur).ops
    s.devs[o.dev]? = some d → d.addr.toNat < 128 →
    ∃ t, exec .rmiSetPage s = .next t ∧
      Began s.cur [⟨d.addr, 0#16, 2#16, ⟨.t0 s.cur, 34#16⟩⟩]
        [.smbus .none, .setPage o.dev o.page] (s.blk.gate.entered s.cur 2) s t ∧
      HoldsAt (bufAddr (.t0 s.cur) 0) [0xFF#8, o.page] t ∧
      SameMemBut (bufAddr (.t0 s.cur) 0) 2 s t) ∧
  (∀ (s : State) (d : PagedDev), s.AtRequest → s.blk.ready = true → s.blk.gate.TakenFrom s.cur →
    let o := (s.agent s.cur).ops
    s.devs[o.dev]? = some d → d.addr.toNat < 128 →
    WaitsForGate .rmiSetPage (.setPage o.dev o.page) s) ∧
  ∀ (s u : State) a n page g (d : PagedDev), GoesOn a (.setPage n page) s u g → s.mem.wf = true →
    s.blk.Accepts → g.Wf → g.OpenTo a → s.BusFree → s.devs[n]? = some d → d.addr.toNat < 128 →
    ∃ t, step s = .next t ∧
      Began a [⟨d.addr, 0#16, 2#16, ⟨.t0 a, 34#16⟩⟩]
        (.smbus .none :: .setPage n page :: (s.agent a).stack) (g.entered a 1) u t ∧
      HoldsAt (bufAddr (.t0 a) 0) [0xFF#8, page] t ∧ SameMemBut (bufAddr (.t0 a) 0) 2 s t

/-- The end of a page select, however its transfer ends, in XFER step 1 too, where only scratch bytes
are written: on success the device's cache holds the page and the result is OK(0); on failure the cache
is UNSET and the result is PageSelectFailure with the value and, as its inner code, the code of the
transfer's own result; no other device record changes, and the gate is free (44_rmi4.md R361, R362;
10_state.md R55; 30_encoding.md R155; 41_transfer_engine.md R242, R255). -/
def Obligations.PageSelectEnds : Prop :=
  ∀ (s u : State) run a n d page g r k,
    XferEnds s run u a [.smbus .none, .setPage n page] g r k →
    g = ⟨some a, 2, g.waiters⟩ → s.devs[n]? = some d →
    ∃ t, run = .next t ∧ SameMemBut (bufAddr (.t0 a) 0) k s t ∧ OnlyAgent a s t ∧ (t.agent a).req = none ∧
      t.blk.gate = ⟨none, 0, g.waiters⟩ ∧ (∀ k, k ≠ n → t.devs[k]? = s.devs[k]?) ∧
      (r.code = .ok → (t.agent a).result = some ⟨.ok, 0#32, .ok⟩ ∧
        t.devs[n]? = some { d with currentPage := some page }) ∧
      (r.code ≠ .ok → t.devs[n]? = some { d with currentPage := none } ∧
        (t.agent a).result = some ⟨.pageSelectFailure, r.value, r.code⟩)

/-- RMI_READ_BLOCK and RMI_WRITE_BLOCK: a length of 0, over 32 or over the buffer ends at once with
InvalidArgument, whoever owns the gate; else the first transfer is a page select exactly when the cached
page is not the high byte of the address, and the block transfer with the low byte as its register
address where it is; with the gate taken it waits, and begins so when it is granted the gate; a block
access that goes on after its page select begins its block transfer (44_rmi4.md R360, R363, R364, R365).
-/
def Obligations.BlockAccessSelectsPage : Prop :=
  (∀ (s : State) (d : PagedDev), s.AtRequest → s.blk.ready = true → s.blk.gate.TakenFrom s.cur →
    let o := (s.agent s.cur).ops
    s.devs[o.dev]? = some d → d.addr.toNat < 128 →
    1 ≤ o.len.toNat → o.len.toNat ≤ 32 → o.len.toNat ≤ o.bufCap.toNat →
    WaitsForGate .rmiReadBlock
      (.access ⟨o.dev, o.rmiAddr, .read ⟨.user o.buf, o.bufCap⟩ o.len.toNat⟩) s ∧
    WaitsForGate .rmiWriteBlock
      (.access ⟨o.dev, o.rmiAddr, .write ⟨.user o.buf, o.bufCap⟩ o.len.toNat⟩) s) ∧
  (∀ (s : State) (d : PagedDev), s.RmiReady d →
    (s.asked.len.toNat = 0 ∨ 32 < s.asked.len.toNat ∨ s.asked.bufCap.toNat < s.asked.len.toNat) →
    ∀ i ∈ [Instr.rmiReadBlock, .rmiWriteBlock], EndsAtOnce i s ⟨.invalidArgument, 0#32, .ok⟩) ∧
  (∀ (s u : State) a (blk : Block) g (d : PagedDev), s.mem.wf = true → s.blk.Accepts → g.Wf →
    g.OpenTo a → s.BusFree → s.devs[blk.dev]? = some d → d.addr.toNat < 128 →
    blk.Fits →
    let t0 : BufRef := ⟨.t0 a, 34#16⟩
    let page := blk.addr.extractLsb' 8 8
    let fs := (s.agent a).stack
    let begins (msgs : List Msg) (fs : List Frame) (n : Nat) (bs : List Byte) : Prop :=
      ∃ t, step s = .next t ∧ Began a msgs fs (g.entered a n) u t ∧
        HoldsAt (bufAddr (.t0 a) 0) bs t ∧ SameMemBut (bufAddr (.t0 a) 0) bs.length s t
    let transfer : Prop := begins
      (match blk.data with
        | .read buf n => [⟨d.addr, 0#16, 1#16, t0⟩, ⟨d.addr, 0x0001#16, BitVec.ofNat 16 n, buf⟩]
        | .write _ n => [⟨d.addr, 0#16, BitVec.ofNat 16 (n + 1), t0⟩]
        | .bytes bs => [⟨d.addr, 0#16, BitVec.ofNat 16 (bs.length + 1), t0⟩])
      (.block :: fs) 1
      (blk.addr.extractLsb' 0 8 :: match blk.data with
        | .read _ _ => []
        | .write buf n => (List.range n).map fun k => s.mem.read (bufAddr buf.id k)
        | .bytes bs => bs)
    (GoesOn a (.block blk) s u g → transfer) ∧
    (GoesOn a (.access blk) s u g →
      (d.currentPage = some page → transfer) ∧
      (d.currentPage ≠ some page →
        begins [⟨d.addr, 0#16, 2#16, t0⟩]
          (.smbus .none :: .setPage blk.dev page :: .selected blk :: fs) 2 [0xFF#8, page]))) ∧
  ∀ (s : State) (d : PagedDev), s.AtRequest → s.mem.wf = true → s.blk.Accepts → s.blk.gate.Wf →
    s.blk.gate.OpenTo s.cur → s.BusFree →
    let o := (s.agent s.cur).ops
    let a := s.cur
    let page := o.rmiAddr.extractLsb' 8 8
    let off := o.rmiAddr.extractLsb' 0 8
    let src := (List.range o.len.toNat).map fun k => s.mem.read (bufAddr (.user o.buf) k)
    let t0 : BufRef := ⟨.t0 a, 34#16⟩
    let begins (i : Instr) (msgs : List Msg) (fs : List Frame) (n : Nat) (bs : List Byte) : Prop :=
      ∃ t, exec i s = .next t ∧ Began a msgs fs (s.blk.gate.entered a n) s t ∧
        HoldsAt (bufAddr (.t0 a) 0) bs t ∧ SameMemBut (bufAddr (.t0 a) 0) bs.length s t
    s.devs[o.dev]? = some d → d.addr.toNat < 128 →
    1 ≤ o.len.toNat → o.len.toNat ≤ 32 → o.len.toNat ≤ o.bufCap.toNat →
      ((d.currentPage = some page →
        begins .rmiReadBlock
          [⟨d.addr, 0#16, 1#16, t0⟩, ⟨d.addr, 0x0001#16, o.len, ⟨.user o.buf, o.bufCap⟩⟩]
          [.block] 2 [off] ∧
        begins .rmiWriteBlock [⟨d.addr, 0#16, o.len + 1#16, t0⟩] [.block] 2 (off :: src)) ∧
      (d.currentPage ≠ some page →
        begins .rmiReadBlock [⟨d.addr, 0#16, 2#16, t0⟩]
          [.smbus .none, .setPage o.dev page,
            .selected ⟨o.dev, o.rmiAddr, .read ⟨.user o.buf, o.bufCap⟩ o.len.toNat⟩]
          3 [0xFF#8, page] ∧
        begins .rmiWriteBlock [⟨d.addr, 0#16, 2#16, t0⟩]
          [.smbus .none, .setPage o.dev page,
            .selected ⟨o.dev, o.rmiAddr, .write ⟨.user o.buf, o.bufCap⟩ o.len.toNat⟩]
          3 [0xFF#8, page]))

/-- After the page select of a block access: a failed one, in XFER step 1 too, ends the access with
PageSelectFailure and the transfer's own code and value, the device's cache UNSET, the gate's entries
left and the block transfer not attempted; a good one leaves the page in the cache and goes on at once,
without a suspension, to the block transfer, the gate still held; no other device record changes. Inside
RMI_PROBE a failed one ends the scan, its function list emptied, inside RMI_F01_INIT the sequence
(44_rmi4.md R361, R363, R364, R365, R366, R368; 41_transfer_engine.md R242, R255). -/
def Obligations.FailedSelectStopsAccess : Prop :=
  ∀ (s u : State) run a n page blk fs g r w,
    XferEnds s run u a (.smbus .none :: .setPage n page :: .selected blk :: fs) g r w →
    let ended (t : State) : Prop :=
      t.running = u.running ∧ SameMemBut (bufAddr (.t0 a) 0) w s t ∧ (t.agent a).req = none ∧ t.blk.gate = ⟨none, 0, g.waiters⟩ ∧
        (t.agent a).result = some ⟨.pageSelectFailure, r.value, r.code⟩
    (r.code = .ok → ∀ k, g = ⟨some a, k + 3, g.waiters⟩ →
      ∃ t, run = .next t ∧ SameMem s t ∧ OnlyAgent a s t ∧ t.running = some a ∧
        t.agent a = { s.agent a with point := .go (.block blk), stack := fs } ∧
        t.blk.gate = ⟨some a, k + 1, g.waiters⟩ ∧
        (∀ d, s.devs[n]? = some d → t.devs[n]? = some { d with currentPage := some page }) ∧
        ∀ j, j ≠ n → t.devs[j]? = s.devs[j]?) ∧
    (r.code ≠ .ok → g = ⟨some a, fs.length + 3, g.waiters⟩ →
      (fs = [] ∨ ∃ base todo, fs = [.f01 n base todo]) →
      ∃ t, run = .next t ∧ OnlyAgent a s t ∧ ended t ∧
        (∀ d, s.devs[n]? = some d → t.devs[n]? = some { d with currentPage := none }) ∧
        ∀ j, j ≠ n → t.devs[j]? = s.devs[j]?) ∧
    (r.code ≠ .ok → g = ⟨some a, fs.length + 3, g.waiters⟩ →
      ∀ pos found, fs = [.probe n pos found] →
      ∃ t, run = .next t ∧ OnlyAgent a s t ∧ ended t ∧
        (∀ d, s.devs[n]? = some d →
          t.devs[n]? = some { d with currentPage := none, functions := [] }) ∧
        ∀ j, j ≠ n → t.devs[j]? = s.devs[j]?)

/-- The end of a block access, however its transfer ends, in XFER step 1 too: its transfer's result is
the request's, a success as OK(0), the gate is free and no device record changes. Inside RMI_F01_INIT a
failed write ends the request with its result, the last one with OK(0), and another goes on with the
next write, the gate still held (44_rmi4.md R364, R365, R368; 41_transfer_engine.md R242, R255). -/
def Obligations.BlockAccessEnds : Prop :=
  ∀ (s u : State) run a fs g r w, XferEnds s run u a fs g r w →
    let ended (t : State) (r : Result) : Prop :=
      (t.agent a).req = none ∧ (t.agent a).result = some r ∧ t.running = u.running ∧
        t.blk.gate = ⟨none, 0, g.waiters⟩
    (fs = [.block] → g = ⟨some a, 2, g.waiters⟩ →
      ∃ t, run = .next t ∧ SameMemBut (bufAddr (.t0 a) 0) w s t ∧ OnlyAgent a s t ∧ t.devs = s.devs ∧
        (r.code = .ok → ended t ⟨.ok, 0#32, .ok⟩) ∧
        (r.code ≠ .ok → ended t r)) ∧
    (∀ n base todo, fs = [.block, .f01 n base todo] → g = ⟨some a, 3, g.waiters⟩ →
      ∃ t, run = .next t ∧ SameMemBut (bufAddr (.t0 a) 0) w s t ∧ OnlyAgent a s t ∧ t.devs = s.devs ∧
        (r.code = .ok → todo = [] → ended t ⟨.ok, 0#32, .ok⟩) ∧
        (r.code = .ok → todo ≠ [] → t.running = some a ∧
          (t.agent a).point = .go (.f01 n base todo) ∧ (t.agent a).stack = [] ∧
          t.blk.gate = ⟨some a, 1, g.waiters⟩) ∧
        (r.code ≠ .ok → ended t r))

/-- RMI_PROBE begins its scan with the 6-byte read at 0x00E9, selecting page 0 first where it is not
cached; RMI_F01_INIT needs function 01 found, does nothing with an empty sequence, fails with
InvalidArgument at an entry of 0 or over 32 bytes, at once or going on, and begins its first write
otherwise, selecting the page first where it is not cached; with the gate taken both wait. A scan that
is granted the gate or goes on begins the read at its address, and an init sequence that is granted the
gate or goes on begins its next write (44_rmi4.md R363, R365, R366, R368). Of several entries with
number 01 the first in scan order gives the control base (DESIGN CHOICE, log 45), and the address
control base + k wraps at 65536 (DESIGN CHOICE, log 16). -/
def Obligations.ProbeAndInitBegin : Prop :=
  (∀ (s : State) (d : PagedDev), s.AtRequest → s.blk.ready = true →
    let o := (s.agent s.cur).ops
    s.devs[o.dev]? = some d → d.addr.toNat < 128 →
    ((∀ f ∈ d.functions, f.number ≠ 0x01#8) →
      EndsAtOnce .rmiF01Init s ⟨.invalidArgument, 0#32, .ok⟩) ∧
    (s.blk.gate.Wf → s.blk.gate.OpenTo s.cur → (∃ f ∈ d.functions, f.number = 0x01#8) →
      (s.par.f01Init = [] → EndsAtOnce .rmiF01Init s ⟨.ok, 0#32, .ok⟩) ∧
      (∀ k bs rest, s.par.f01Init = (k, bs) :: rest → (bs.length = 0 ∨ 32 < bs.length) →
        EndsAtOnce .rmiF01Init s ⟨.invalidArgument, 0#32, .ok⟩)) ∧
    (s.blk.gate.TakenFrom s.cur →
      WaitsForGate .rmiProbe (.probe o.dev 0xE9 []) s ∧
      ∀ f, d.functions.find? (fun f => f.number == 0x01#8) = some f →
        WaitsForGate .rmiF01Init (.f01 o.dev f.controlBase s.par.f01Init) s)) ∧
  (∀ (s u : State) a n base todo g, GoesOn a (.f01 n base todo) s u g → (s.agent a).stack = [] →
    g.owner = some a → g.depth = 1 →
    let ends (r : Result) : Prop :=
      ∃ t, step s = .next t ∧ Finished a r u t ∧ NoAccess u t ∧ t.devs = s.devs ∧
        t.blk = { s.blk with gate := ⟨none, 0, g.waiters⟩ }
    (todo = [] → ends ⟨.ok, 0#32, .ok⟩) ∧
    (∀ k bs rest, todo = (k, bs) :: rest → (bs.length = 0 ∨ 32 < bs.length) →
      ends ⟨.invalidArgument, 0#32, .ok⟩)) ∧
  (∀ (s : State) (d : PagedDev), s.AtRequest → s.mem.wf = true → s.blk.Accepts → s.blk.gate.Wf →
    s.blk.gate.OpenTo s.cur → s.BusFree →
    let o := (s.agent s.cur).ops
    let a := s.cur
    let t0 : BufRef := ⟨.t0 a, 34#16⟩
    let scan : Block := ⟨o.dev, 0x00E9#16, .read ⟨.pdt a, 6#16⟩ 6⟩
    let begins (i : Instr) (msgs : List Msg) (fs : List Frame) (n : Nat) (bs : List Byte) : Prop :=
      ∃ t, exec i s = .next t ∧ Began a msgs fs (s.blk.gate.entered a n) s t ∧
        HoldsAt (bufAddr (.t0 a) 0) bs t ∧ SameMemBut (bufAddr (.t0 a) 0) bs.length s t
    s.devs[o.dev]? = some d → d.addr.toNat < 128 →
    (d.currentPage = some 0x00#8 →
      begins .rmiProbe
        [⟨d.addr, 0#16, 1#16, t0⟩, ⟨d.addr, 0x0001#16, 6#16, ⟨.pdt a, 6#16⟩⟩]
        [.block, .probe o.dev 0xE9 []] 3 [0xE9#8]) ∧
    (d.currentPage ≠ some 0x00#8 →
      begins .rmiProbe [⟨d.addr, 0#16, 2#16, t0⟩]
        [.smbus .none, .setPage o.dev 0x00#8, .selected scan, .probe o.dev 0xE9 []]
        4 [0xFF#8, 0x00#8]) ∧
    (∀ f, d.functions.find? (fun f => f.number == 0x01#8) = some f →
      ∀ k bs rest, s.par.f01Init = (k, bs) :: rest → 1 ≤ bs.length → bs.length ≤ 32 →
        let x := f.controlBase + k
        let page := x.extractLsb' 8 8
        (d.currentPage = some page →
          begins .rmiF01Init [⟨d.addr, 0#16, BitVec.ofNat 16 (bs.length + 1), t0⟩]
            [.block, .f01 o.dev f.controlBase rest] 3 (x.extractLsb' 0 8 :: bs)) ∧
        (d.currentPage ≠ some page →
          begins .rmiF01Init [⟨d.addr, 0#16, 2#16, t0⟩]
            [.smbus .none, .setPage o.dev page, .selected ⟨o.dev, x, .bytes bs⟩,
              .f01 o.dev f.controlBase rest] 4 [0xFF#8, page]))) ∧
  ∀ (s u : State) a n g (d : PagedDev), s.mem.wf = true → s.blk.Accepts → g.Wf → g.OpenTo a →
    s.BusFree → s.devs[n]? = some d → d.addr.toNat < 128 →
    let t0 : BufRef := ⟨.t0 a, 34#16⟩
    let fs := (s.agent a).stack
    let begins (msgs : List Msg) (fs : List Frame) (k : Nat) (bs : List Byte) : Prop :=
      ∃ t, step s = .next t ∧ Began a msgs fs (g.entered a k) u t ∧
        HoldsAt (bufAddr (.t0 a) 0) bs t ∧ SameMemBut (bufAddr (.t0 a) 0) bs.length s t
    (∀ pos found, GoesOn a (.probe n pos found) s u g →
      let x := BitVec.ofNat 16 pos
      let page := x.extractLsb' 8 8
      (d.currentPage = some page →
        begins [⟨d.addr, 0#16, 1#16, t0⟩, ⟨d.addr, 0x0001#16, 6#16, ⟨.pdt a, 6#16⟩⟩]
          (.block :: .probe n pos found :: fs) 2 [x.extractLsb' 0 8]) ∧
      (d.currentPage ≠ some page →
        begins [⟨d.addr, 0#16, 2#16, t0⟩]
          (.smbus .none :: .setPage n page :: .selected ⟨n, x, .read ⟨.pdt a, 6#16⟩ 6⟩ ::
            .probe n pos found :: fs) 3 [0xFF#8, page])) ∧
    (∀ base k bs rest, GoesOn a (.f01 n base ((k, bs) :: rest)) s u g → 1 ≤ bs.length →
      bs.length ≤ 32 →
      let x := base + k
      let page := x.extractLsb' 8 8
      (d.currentPage = some page →
        begins [⟨d.addr, 0#16, BitVec.ofNat 16 (bs.length + 1), t0⟩]
          (.block :: .f01 n base rest :: fs) 2 (x.extractLsb' 0 8 :: bs)) ∧
      (d.currentPage ≠ some page →
        begins [⟨d.addr, 0#16, 2#16, t0⟩]
          (.smbus .none :: .setPage n page :: .selected ⟨n, x, .bytes bs⟩ ::
            .f01 n base rest :: fs) 3 [0xFF#8, page]))

/-- The scan after one entry read, however its transfer ends, in XFER step 1 too: a failed read empties
the function list and is the result; a function number 0x00 or 0xFF ends the scan unrecorded; another
entry is decoded and recorded, and the scan goes on 6 addresses down until the address would pass 0x05
(44_rmi4.md R366, R367; 41_transfer_engine.md R242, R255). -/
def Obligations.ProbeTakesEntry : Prop :=
  ∀ (s u : State) run a n d pos found g r w,
    XferEnds s run u a [.block, .probe n pos found] g r w →
    g = ⟨some a, 3, g.waiters⟩ → s.devs[n]? = some d →
    let e (k : Nat) : Byte := s.mem.read (bufAddr (.pdt a) k)
    let entry : FnDesc :=
      ⟨e 5, (e 0).setWidth 16, (e 1).setWidth 16, (e 2).setWidth 16, (e 3).setWidth 16,
        (e 4).extractLsb' 0 3, (e 4).extractLsb' 5 2⟩
    let ended (t : State) (fns : List FnDesc) (r : Result) : Prop :=
      t.devs[n]? = some { d with functions := fns } ∧ t.running = u.running ∧
        t.blk.gate = ⟨none, 0, g.waiters⟩ ∧ (t.agent a).req = none ∧
        (t.agent a).result = some r
    ∃ t, run = .next t ∧ SameMemBut (bufAddr (.t0 a) 0) w s t ∧ OnlyAgent a s t ∧
      (∀ k, k ≠ n → t.devs[k]? = s.devs[k]?) ∧
      (r.code ≠ .ok → ended t [] r) ∧
      (r.code = .ok →
        ((e 5 = 0x00#8 ∨ e 5 = 0xFF#8) →
          ended t found ⟨.ok, BitVec.ofNat 32 found.length, .ok⟩) ∧
        (e 5 ≠ 0x00#8 → e 5 ≠ 0xFF#8 → pos < 0x0B →
          ended t (found ++ [entry]) ⟨.ok, BitVec.ofNat 32 (found.length + 1), .ok⟩) ∧
        (e 5 ≠ 0x00#8 → e 5 ≠ 0xFF#8 → 0x0B ≤ pos →
          t.running = some a ∧ (t.agent a).point = .go (.probe n (pos - 6) (found ++ [entry])) ∧
          (t.agent a).stack = [] ∧ t.devs = s.devs ∧ t.blk.gate = ⟨some a, 1, g.waiters⟩))

/-! ### Lifecycle -/

/-- LIFE_START: already started or powered off, InvalidArgument at once; a failed mapping, timing fetch or
range check, ConfigurationError with nothing mapped and no register accessed; else it maps, takes the
timing fields and depths, configures, installs, makes every cached page UNSET and sets ready last. A
failed install undoes the configuration and the mapping; a disable never acknowledged undoes the mapping
and is a DisableTimeout; one not acknowledged yet sleeps, and a later poll has the same endings; with the
gate taken it waits (45_lifecycle.md R390, R391; 40_timing_and_bus.md R206, R208; 10_state.md R45). -/
def Obligations.StartSteps : Prop :=
  (∀ s : State, s.AtRequest → s.blk.mapped = false → s.blk.ready = false → s.blk.powered = true →
    s.blk.gate.TakenFrom s.cur → WaitsForGate .lifeStart (.start (s.agent s.cur).ops.provider) s) ∧
  (∀ s : State, s.AtRequest → s.blk.gate.Wf → s.blk.gate.OpenTo s.cur →
    let prov := (s.agent s.cur).ops.provider
    ((s.blk.mapped = true ∨ s.blk.ready = true ∨ s.blk.powered = false) →
      EndsAtOnce .lifeStart s ⟨.invalidArgument, 0#32, .ok⟩) ∧
    (s.blk.mapped = false → s.blk.ready = false → s.blk.powered = true →
      (prov.window = none → EndsAtOnce .lifeStart s ⟨.configurationError, 0#32, .ok⟩) ∧
      (∀ w, prov.window = some w →
        (prov.timing.bind (timing s.par) = none →
          ∃ t, exec .lifeStart s = .next t ∧ Finished s.cur ⟨.configurationError, 0#32, .ok⟩ s t ∧
            NoAccess s t ∧ t.devs = s.devs ∧
            t.blk = { s.blk with regBase := some w.1, regSize := some w.2, mapped := false }) ∧
        (∀ o, prov.timing.bind (timing s.par) = some o →
          let b := { s.blk with
            regBase := some w.1, regSize := some w.2,
            ssHcnt := o.ssHcnt, ssLcnt := o.ssLcnt, fsHcnt := o.fsHcnt, fsLcnt := o.fsLcnt,
            sdaHold := o.sdaHold, txFifoDepth := s.par.txFifoDepth,
            rxFifoDepth := s.par.rxFifoDepth }
          (s.DisableAcked → prov.irq = true →
            ∃ t, exec .lifeStart s = .next t ∧ Finished s.cur ⟨.ok, 0#32, .ok⟩ s t ∧
              Configured ackedAtOnce { s with blk := b } t ∧
              t.devs = s.devs.map (fun d => { d with currentPage := none }) ∧
              t.blk = { b with
                mapped := true, irqInstalled := true, ready := true, disableUnacked := false }) ∧
          (s.DisableAcked → prov.irq = false →
            ∃ t, exec .lifeStart s = .next t ∧
              Finished s.cur ⟨.configurationError, 0#32, .ok⟩ s t ∧ t.devs = s.devs ∧
              t.blk = { b with mapped := false, disableUnacked := false } ∧
              t.ctl.intrMask = 0#32 ∧ t.ctl.enable = false ∧
              ∃ l, t.io = [.write .enable 0#32, .write .intrMask 0#32] ++ l) ∧
          (¬ s.DisableAcked → s.par.disablePollLimit = 0 →
            ∃ t, exec .lifeStart s = .next t ∧ Finished s.cur ⟨.disableTimeout, 0#32, .ok⟩ s t ∧
              t.devs = s.devs ∧ Unacked s t ∧
              t.blk = { b with mapped := false, disableUnacked := true }) ∧
          (¬ s.DisableAcked → s.par.disablePollLimit ≠ 0 →
            ∃ t, exec .lifeStart s = .next t ∧
              Paused s.cur (.sleep (.disable 1 (.configure (.start prov)))) [] s t ∧
              t.devs = s.devs ∧ Unacked s t ∧
              t.blk = { b with mapped := true, gate := s.blk.gate.entered s.cur 1 }))))) ∧
  ∀ (s u : State) a k prov g, GoesOn a (.disable k (.configure (.start prov))) s u g →
    (s.agent a).stack = [] → g.owner = some a → g.depth = 1 → s.ctl.enable = false →
    let b := { s.blk with gate := ⟨none, 0, g.waiters⟩ }
    ∃ t, step s = .next t ∧
      ((ctlTurn s).ctl.icEn = false → prov.irq = true →
        Finished a ⟨.ok, 0#32, .ok⟩ u t ∧ Configured [.read .enableStatus (some 0#32)] u t ∧
        t.devs = s.devs.map (fun d => { d with currentPage := none }) ∧
        t.blk = { b with irqInstalled := true, ready := true, disableUnacked := false }) ∧
      ((ctlTurn s).ctl.icEn = false → prov.irq = false →
        Finished a ⟨.configurationError, 0#32, .ok⟩ u t ∧ t.devs = s.devs ∧
        t.blk = { b with mapped := false, disableUnacked := false } ∧
        t.ctl.intrMask = 0#32 ∧ t.ctl.enable = false ∧
        ∃ l, t.io = [.write .enable 0#32, .write .intrMask 0#32] ++ l) ∧
      ((ctlTurn s).ctl.icEn = true →
        t.devs = s.devs ∧ t.ctl = (ctlTurn s).ctl ∧
        t.io = .read .enableStatus (some 1#32) :: s.io ∧
        (k < s.par.disablePollLimit →
          Paused a (.sleep (.disable (k + 1) (.configure (.start prov)))) [] u t ∧
          t.blk = { s.blk with gate := g }) ∧
        (s.par.disablePollLimit ≤ k →
          Finished a ⟨.disableTimeout, 0#32, .ok⟩ u t ∧
          t.blk = { b with mapped := false, disableUnacked := true }))

/-- LIFE_STOP: not mapped, OK and nothing done; else ready is false first, before the gate is waited for
where it is taken; then, on power, INTR_MASK = 0 and the disable, and the handler and mapping are released
even where the disable times out, at a later poll too (45_lifecycle.md R392; 40_timing_and_bus.md
R206; 95_test_vectors.md L9). -/
def Obligations.StopSteps : Prop :=
  (∀ s : State, s.AtRequest → s.blk.mapped = true → s.blk.gate.TakenFrom s.cur →
    ∃ t, exec .lifeStop s = .next t ∧ Paused s.cur (.gate .stop) [] s t ∧ NoAccess s t ∧
      t.devs = s.devs ∧
      t.blk = { s.blk with ready := false, gate := s.blk.gate.wait s.cur }) ∧
  (∀ s : State, s.AtRequest → s.blk.mapped = false → EndsAtOnce .lifeStop s ⟨.ok, 0#32, .ok⟩) ∧
  (∀ s : State, s.AtRequest → s.blk.gate.Wf → s.blk.gate.OpenTo s.cur → s.blk.mapped = true →
    let b := { s.blk with ready := false, irqInstalled := false, mapped := false }
    let masked := writeMask 0#32 s
    ∃ t, exec .lifeStop s = .next t ∧ t.devs = s.devs ∧ t.blk.ready = false ∧
      (s.blk.powered = false →
        Finished s.cur ⟨.ok, 0#32, .ok⟩ s t ∧ NoAccess s t ∧ t.blk = b) ∧
      (s.blk.powered = true → masked.DisableAcked →
        Finished s.cur ⟨.ok, 0#32, .ok⟩ s t ∧ t.blk = { b with disableUnacked := false } ∧
        t.ctl.intrMask = 0#32 ∧ t.ctl.enable = false ∧ t.ctl.icEn = false ∧
        t.ctl.con = s.ctl.con ∧ t.ctl.tar = s.ctl.tar ∧ s.ctl.SameCounts t.ctl ∧
        t.io = [.read .enableStatus (some 0#32), .write .enable 0#32, .write .intrMask 0#32] ++
          s.io) ∧
      (s.blk.powered = true → ¬ masked.DisableAcked → s.par.disablePollLimit = 0 →
        Finished s.cur ⟨.disableTimeout, 0#32, .ok⟩ s t ∧
        t.blk = { b with disableUnacked := true } ∧ t.ctl.intrMask = 0#32) ∧
      (s.blk.powered = true → ¬ masked.DisableAcked → s.par.disablePollLimit ≠ 0 →
        Paused s.cur (.sleep (.disable 1 .stop)) [] s t ∧ t.ctl.intrMask = 0#32 ∧
        t.blk = { s.blk with ready := false, gate := s.blk.gate.entered s.cur 1 })) ∧
  ∀ (s u : State) a k g, GoesOn a (.disable k .stop) s u g → (s.agent a).stack = [] →
    g.owner = some a → g.depth = 1 →
    let b := { s.blk with
      irqInstalled := false, mapped := false, gate := ⟨none, 0, g.waiters⟩ }
    let v : Word := if (ctlTurn s).ctl.icEn = true then 1#32 else 0#32
    ∃ t, step s = .next t ∧ t.devs = s.devs ∧ t.ctl = (ctlTurn s).ctl ∧
      t.io = .read .enableStatus (some v) :: s.io ∧
      ((ctlTurn s).ctl.icEn = false →
        Finished a ⟨.ok, 0#32, .ok⟩ u t ∧ t.blk = { b with disableUnacked := false }) ∧
      ((ctlTurn s).ctl.icEn = true → k < s.par.disablePollLimit →
        Paused a (.sleep (.disable (k + 1) .stop)) [] u t ∧ t.blk = { s.blk with gate := g }) ∧
      ((ctlTurn s).ctl.icEn = true → s.par.disablePollLimit ≤ k →
        Finished a ⟨.disableTimeout, 0#32, .ok⟩ u t ∧ t.blk = { b with disableUnacked := true })

/-! ### The whole machine -/

/-- Every step keeps every byte memory in its canonical form. -/
def Obligations.StepKeepsMemory : Prop :=
  ∀ s t : State, s.MemWf → step s = .next t → t.MemWf

/-- Every step keeps the cursors within the message list and the offsets within the messages, each length
within its buffer (10_state.md R34, 42_interrupt_fifo.md R304). -/
def Obligations.StepKeepsCursors : Prop :=
  ∀ s t : State, s.CursorInv → step s = .next t → t.CursorInv

/-- Every step keeps the gate free exactly when its depth is 0 (10_state.md R47, 20_memory.md R121), and
it keeps what ties the gate, the engine and the requesters together: the gate's depth counts its owner's
entries, nobody else has entered it, S.status is IDLE exactly while no transfer is in flight
(10_state.md R33), and the phase changes only as 10_state.md R41 says. -/
def Obligations.StepKeepsGate : Prop :=
  (∀ s t : State, s.blk.gate.Wf → step s = .next t → t.blk.gate.Wf) ∧
  (∀ s t : State, s.Control → step s = .next t → t.Control ∧ PhaseStep s.blk t.blk) ∧
  ∀ s : State, s.Control →
    (s.blk.status ≠ .idle ↔
      ∃ a, s.blk.gate.owner = some a ∧
        ((s.agent a).point = .await ∨ (s.agent a).point = .unwind))

/-- The four invariants hold after reset, for any parameters and a controller whose targets hold nothing
yet. -/
def Obligations.ResetInvariants : Prop :=
  ∀ (p : Params) (c : Ctl), c.targets = [] →
    (State.resetWith p c).MemWf ∧ (State.resetWith p c).CursorInv ∧
      (State.resetWith p c).blk.gate.Wf ∧ (State.resetWith p c).Control

/-- No other value than 0, 0x244 and 0x254 is written to INTR_MASK: a step leaves it, writes one of them,
or is the creation of S, at which the controller's registers are a draw (30_encoding.md R164,
42_interrupt_fifo.md R306, 10_state.md R81). A loss of register contents while power is off keeps to the
three values or to the value INTR_MASK had (DESIGN CHOICE, log 25). -/
def Obligations.MaskValues : Prop :=
  ∀ s t : State, step s = .next t →
    t.ctl.intrMask = s.ctl.intrMask ∨ LegalMask t.ctl.intrMask ∨
      (s.attached = false ∧ ∃ draw, s.sched.head? = some (.attach draw))

/-- What no instruction changes: the parameters, the retry budget and the functionality constant; and no
instruction but LIFE_START writes the timing fields, the depths and the register window, none but
LIFE_START and LIFE_STOP S.ready. The same of a step, whatever it takes, that is no creation of S: only a
LIFE_START that begins or is granted the gate writes the former, and only a LIFE_STOP that begins or a
LIFE_START writes the latter (10_state.md R44, R45, R46; 45_lifecycle.md R390, R392, R394). -/
def Obligations.WhoWritesConstants : Prop :=
  (∀ (i : Instr) (s t : State), s.AtRequest → exec i s = .next t →
    t.par = s.par ∧ t.blk.retries = s.blk.retries ∧ t.blk.functionality = s.blk.functionality ∧
    (i ≠ .lifeStart →
      t.blk.ssHcnt = s.blk.ssHcnt ∧ t.blk.ssLcnt = s.blk.ssLcnt ∧ t.blk.fsHcnt = s.blk.fsHcnt ∧
      t.blk.fsLcnt = s.blk.fsLcnt ∧ t.blk.sdaHold = s.blk.sdaHold ∧
      t.blk.txFifoDepth = s.blk.txFifoDepth ∧ t.blk.rxFifoDepth = s.blk.rxFifoDepth ∧
      t.blk.regBase = s.blk.regBase ∧ t.blk.regSize = s.blk.regSize ∧
      (i ≠ .lifeStop → t.blk.ready = s.blk.ready))) ∧
  ∀ s t : State, step s = .next t → (∀ draw ms, NextMove (.attach draw) ms s → s.attached = true) →
    let begins (i : Instr) : Prop :=
      ∃ a w ops ms, NextMove (.request a w ops) ms s ∧ decodeReq a.port w = .ok i
    let starts : Prop := begins .lifeStart ∨ ∃ a prov u g, GoesOn a (.start prov) s u g
    t.par = s.par ∧ t.blk.retries = s.blk.retries ∧ t.blk.functionality = s.blk.functionality ∧
    (¬ starts →
      t.blk.ssHcnt = s.blk.ssHcnt ∧ t.blk.ssLcnt = s.blk.ssLcnt ∧ t.blk.fsHcnt = s.blk.fsHcnt ∧
      t.blk.fsLcnt = s.blk.fsLcnt ∧ t.blk.sdaHold = s.blk.sdaHold ∧
      t.blk.txFifoDepth = s.blk.txFifoDepth ∧ t.blk.rxFifoDepth = s.blk.rxFifoDepth ∧
      t.blk.regBase = s.blk.regBase ∧ t.blk.regSize = s.blk.regSize ∧
      (¬ begins .lifeStop →
        (∀ a k prov u g, ¬ GoesOn a (.disable k (.configure (.start prov))) s u g) →
        t.blk.ready = s.blk.ready))

/-- Completion is signalled by the interrupt handler alone, and always right after INTR_MASK is written 0:
an instruction that sets S.completion is a handler branch and leaves INTR_MASK = 0. Of a step: it sets
S.completion only while a transfer is active, in a handler run, which it ends; and once set S.completion
stays until another transfer's beginning, or a creation of S, clears it: at most one signal a transfer
(41_transfer_engine.md R252, 10_state.md R36, 42_interrupt_fifo.md R311). -/
def Obligations.CompletionBySignal : Prop :=
  (∀ (i : Instr) (s t : State), s.AtRequest → exec i s = .next t → s.blk.completion = false →
    t.blk.completion = true →
    (i = .evtIrq ∨ i = .irqTxAbrt ∨ i = .irqRxFull ∨ i = .irqTxEmpty ∨ i = .irqStopDet) ∧
      t.ctl.intrMask = 0#32 ∧ ∃ l, t.io = .write .intrMask 0#32 :: l) ∧
  ∀ s t : State, s.Control → step s = .next t →
    (s.blk.completion = false → t.blk.completion = true →
      s.blk.xphase = .transferActive ∧
      (s.handler ≠ none ∨ ∃ ms, NextMove (.event 0x00000080#32) ms s) ∧ t.handler = none ∧
      t.ctl.intrMask = 0#32 ∧ ∃ l, t.io = .write .intrMask 0#32 :: l) ∧
    (s.blk.completion = true → t.blk.completion = false →
      s.blk.xphase = .idle ∨ s.blk.xphase = .busyWait)

/-- In a state the cursor invariant holds of, the four handler branches always answer a next state: no
buffer access is out of bounds (20_memory.md R102, 42_interrupt_fifo.md R304, 60_exceptions.md R406). -/
def Obligations.BranchesNeverFault : Prop :=
  ∀ s : State, s.CursorInv → ∀ i ∈ [Instr.irqTxAbrt, .irqRxFull, .irqTxEmpty, .irqStopDet],
    ∃ t, exec i s = .next t
end

