-- ==== Sys2Proof/Laws/State.lean ====
section
/-!
SUPPORT. One lemma per field per update of the state: what each shared operation leaves alone and what it
sets, so that no later proof unfolds a record update.
-/

namespace Sys2Proof.Machine

variable (s : State) (a b : Agent)

@[simp] theorem setAgent_par (c : Caller) : (s.setAgent a c).par = s.par := rfl
@[simp] theorem setAgent_blk (c : Caller) : (s.setAgent a c).blk = s.blk := rfl
@[simp] theorem setAgent_ctl (c : Caller) : (s.setAgent a c).ctl = s.ctl := rfl
@[simp] theorem setAgent_mem (c : Caller) : (s.setAgent a c).mem = s.mem := rfl
@[simp] theorem setAgent_devs (c : Caller) : (s.setAgent a c).devs = s.devs := rfl
@[simp] theorem setAgent_agents (c : Caller) : (s.setAgent a c).agents = updateAgent s.agents a c := rfl
@[simp] theorem setAgent_cur (c : Caller) : (s.setAgent a c).cur = s.cur := rfl
@[simp] theorem setAgent_handler (c : Caller) : (s.setAgent a c).handler = s.handler := rfl
@[simp] theorem setAgent_running (c : Caller) : (s.setAgent a c).running = s.running := rfl
@[simp] theorem setAgent_ctlPlan (c : Caller) : (s.setAgent a c).ctlPlan = s.ctlPlan := rfl
@[simp] theorem setAgent_sched (c : Caller) : (s.setAgent a c).sched = s.sched := rfl
@[simp] theorem setAgent_io (c : Caller) : (s.setAgent a c).io = s.io := rfl
@[simp] theorem setAgent_fresh (c : Caller) : (s.setAgent a c).fresh = s.fresh := rfl
@[simp] theorem setAgent_attached (c : Caller) : (s.setAgent a c).attached = s.attached := rfl

@[simp] theorem setGate_par (g : Gate) : (s.setGate g).par = s.par := rfl
@[simp] theorem setGate_blk (g : Gate) : (s.setGate g).blk = { s.blk with gate := g } := rfl
@[simp] theorem setGate_ctl (g : Gate) : (s.setGate g).ctl = s.ctl := rfl
@[simp] theorem setGate_mem (g : Gate) : (s.setGate g).mem = s.mem := rfl
@[simp] theorem setGate_devs (g : Gate) : (s.setGate g).devs = s.devs := rfl
@[simp] theorem setGate_agents (g : Gate) : (s.setGate g).agents = s.agents := rfl
@[simp] theorem setGate_cur (g : Gate) : (s.setGate g).cur = s.cur := rfl
@[simp] theorem setGate_handler (g : Gate) : (s.setGate g).handler = s.handler := rfl
@[simp] theorem setGate_running (g : Gate) : (s.setGate g).running = s.running := rfl
@[simp] theorem setGate_ctlPlan (g : Gate) : (s.setGate g).ctlPlan = s.ctlPlan := rfl
@[simp] theorem setGate_sched (g : Gate) : (s.setGate g).sched = s.sched := rfl
@[simp] theorem setGate_io (g : Gate) : (s.setGate g).io = s.io := rfl
@[simp] theorem setGate_fresh (g : Gate) : (s.setGate g).fresh = s.fresh := rfl
@[simp] theorem setGate_attached (g : Gate) : (s.setGate g).attached = s.attached := rfl

@[simp] theorem mapBlk_par (f : Bus → Bus) : (s.mapBlk f).par = s.par := rfl
@[simp] theorem mapBlk_blk (f : Bus → Bus) : (s.mapBlk f).blk = f s.blk := rfl
@[simp] theorem mapBlk_ctl (f : Bus → Bus) : (s.mapBlk f).ctl = s.ctl := rfl
@[simp] theorem mapBlk_mem (f : Bus → Bus) : (s.mapBlk f).mem = s.mem := rfl
@[simp] theorem mapBlk_devs (f : Bus → Bus) : (s.mapBlk f).devs = s.devs := rfl
@[simp] theorem mapBlk_agents (f : Bus → Bus) : (s.mapBlk f).agents = s.agents := rfl
@[simp] theorem mapBlk_cur (f : Bus → Bus) : (s.mapBlk f).cur = s.cur := rfl
@[simp] theorem mapBlk_handler (f : Bus → Bus) : (s.mapBlk f).handler = s.handler := rfl
@[simp] theorem mapBlk_running (f : Bus → Bus) : (s.mapBlk f).running = s.running := rfl
@[simp] theorem mapBlk_ctlPlan (f : Bus → Bus) : (s.mapBlk f).ctlPlan = s.ctlPlan := rfl
@[simp] theorem mapBlk_sched (f : Bus → Bus) : (s.mapBlk f).sched = s.sched := rfl
@[simp] theorem mapBlk_io (f : Bus → Bus) : (s.mapBlk f).io = s.io := rfl
@[simp] theorem mapBlk_fresh (f : Bus → Bus) : (s.mapBlk f).fresh = s.fresh := rfl
@[simp] theorem mapBlk_attached (f : Bus → Bus) : (s.mapBlk f).attached = s.attached := rfl

@[simp] theorem park_par (p : Point) : (park a p s).par = s.par := rfl
@[simp] theorem park_blk (p : Point) : (park a p s).blk = s.blk := rfl
@[simp] theorem park_ctl (p : Point) : (park a p s).ctl = s.ctl := rfl
@[simp] theorem park_mem (p : Point) : (park a p s).mem = s.mem := rfl
@[simp] theorem park_devs (p : Point) : (park a p s).devs = s.devs := rfl
@[simp] theorem park_cur (p : Point) : (park a p s).cur = s.cur := rfl
@[simp] theorem park_handler (p : Point) : (park a p s).handler = s.handler := rfl
@[simp] theorem park_running (p : Point) : (park a p s).running = s.running := rfl
@[simp] theorem park_ctlPlan (p : Point) : (park a p s).ctlPlan = s.ctlPlan := rfl
@[simp] theorem park_sched (p : Point) : (park a p s).sched = s.sched := rfl
@[simp] theorem park_io (p : Point) : (park a p s).io = s.io := rfl
@[simp] theorem park_fresh (p : Point) : (park a p s).fresh = s.fresh := rfl
@[simp] theorem park_attached (p : Point) : (park a p s).attached = s.attached := rfl

@[simp] theorem setStack_par (fs : List Frame) : (setStack a fs s).par = s.par := rfl
@[simp] theorem setStack_blk (fs : List Frame) : (setStack a fs s).blk = s.blk := rfl
@[simp] theorem setStack_ctl (fs : List Frame) : (setStack a fs s).ctl = s.ctl := rfl
@[simp] theorem setStack_mem (fs : List Frame) : (setStack a fs s).mem = s.mem := rfl
@[simp] theorem setStack_devs (fs : List Frame) : (setStack a fs s).devs = s.devs := rfl
@[simp] theorem setStack_cur (fs : List Frame) : (setStack a fs s).cur = s.cur := rfl
@[simp] theorem setStack_handler (fs : List Frame) : (setStack a fs s).handler = s.handler := rfl
@[simp] theorem setStack_running (fs : List Frame) : (setStack a fs s).running = s.running := rfl
@[simp] theorem setStack_ctlPlan (fs : List Frame) : (setStack a fs s).ctlPlan = s.ctlPlan := rfl
@[simp] theorem setStack_sched (fs : List Frame) : (setStack a fs s).sched = s.sched := rfl
@[simp] theorem setStack_io (fs : List Frame) : (setStack a fs s).io = s.io := rfl
@[simp] theorem setStack_fresh (fs : List Frame) : (setStack a fs s).fresh = s.fresh := rfl
@[simp] theorem setStack_attached (fs : List Frame) : (setStack a fs s).attached = s.attached := rfl

@[simp] theorem pushFrames_par (fs : List Frame) : (pushFrames a fs s).par = s.par := rfl
@[simp] theorem pushFrames_blk (fs : List Frame) : (pushFrames a fs s).blk = s.blk := rfl
@[simp] theorem pushFrames_ctl (fs : List Frame) : (pushFrames a fs s).ctl = s.ctl := rfl
@[simp] theorem pushFrames_mem (fs : List Frame) : (pushFrames a fs s).mem = s.mem := rfl
@[simp] theorem pushFrames_devs (fs : List Frame) : (pushFrames a fs s).devs = s.devs := rfl
@[simp] theorem pushFrames_cur (fs : List Frame) : (pushFrames a fs s).cur = s.cur := rfl
@[simp] theorem pushFrames_handler (fs : List Frame) : (pushFrames a fs s).handler = s.handler := rfl
@[simp] theorem pushFrames_running (fs : List Frame) : (pushFrames a fs s).running = s.running := rfl
@[simp] theorem pushFrames_ctlPlan (fs : List Frame) : (pushFrames a fs s).ctlPlan = s.ctlPlan := rfl
@[simp] theorem pushFrames_sched (fs : List Frame) : (pushFrames a fs s).sched = s.sched := rfl
@[simp] theorem pushFrames_io (fs : List Frame) : (pushFrames a fs s).io = s.io := rfl
@[simp] theorem pushFrames_fresh (fs : List Frame) : (pushFrames a fs s).fresh = s.fresh := rfl
@[simp] theorem pushFrames_attached (fs : List Frame) : (pushFrames a fs s).attached = s.attached := rfl

@[simp] theorem post_par (r : Result) : (post a r s).par = s.par := rfl
@[simp] theorem post_blk (r : Result) : (post a r s).blk = s.blk := rfl
@[simp] theorem post_ctl (r : Result) : (post a r s).ctl = s.ctl := rfl
@[simp] theorem post_mem (r : Result) : (post a r s).mem = s.mem := rfl
@[simp] theorem post_devs (r : Result) : (post a r s).devs = s.devs := rfl
@[simp] theorem post_cur (r : Result) : (post a r s).cur = s.cur := rfl
@[simp] theorem post_handler (r : Result) : (post a r s).handler = s.handler := rfl
@[simp] theorem post_running (r : Result) : (post a r s).running = s.running := rfl
@[simp] theorem post_ctlPlan (r : Result) : (post a r s).ctlPlan = s.ctlPlan := rfl
@[simp] theorem post_sched (r : Result) : (post a r s).sched = s.sched := rfl
@[simp] theorem post_io (r : Result) : (post a r s).io = s.io := rfl
@[simp] theorem post_fresh (r : Result) : (post a r s).fresh = s.fresh := rfl
@[simp] theorem post_attached (r : Result) : (post a r s).attached = s.attached := rfl

@[simp] theorem goOn_par (c : Cont) (fs : List Frame) : (goOn a c fs s).par = s.par := rfl
@[simp] theorem goOn_blk (c : Cont) (fs : List Frame) : (goOn a c fs s).blk = s.blk := rfl
@[simp] theorem goOn_ctl (c : Cont) (fs : List Frame) : (goOn a c fs s).ctl = s.ctl := rfl
@[simp] theorem goOn_mem (c : Cont) (fs : List Frame) : (goOn a c fs s).mem = s.mem := rfl
@[simp] theorem goOn_devs (c : Cont) (fs : List Frame) : (goOn a c fs s).devs = s.devs := rfl
@[simp] theorem goOn_cur (c : Cont) (fs : List Frame) : (goOn a c fs s).cur = s.cur := rfl
@[simp] theorem goOn_handler (c : Cont) (fs : List Frame) : (goOn a c fs s).handler = s.handler := rfl
@[simp] theorem goOn_running (c : Cont) (fs : List Frame) : (goOn a c fs s).running = some a := rfl
@[simp] theorem goOn_ctlPlan (c : Cont) (fs : List Frame) : (goOn a c fs s).ctlPlan = s.ctlPlan := rfl
@[simp] theorem goOn_sched (c : Cont) (fs : List Frame) : (goOn a c fs s).sched = s.sched := rfl
@[simp] theorem goOn_io (c : Cont) (fs : List Frame) : (goOn a c fs s).io = s.io := rfl
@[simp] theorem goOn_fresh (c : Cont) (fs : List Frame) : (goOn a c fs s).fresh = s.fresh := rfl
@[simp] theorem goOn_attached (c : Cont) (fs : List Frame) : (goOn a c fs s).attached = s.attached := rfl

@[simp] theorem setPhase_par (p : Phase) : (setPhase p s).par = s.par := rfl
@[simp] theorem setPhase_blk (p : Phase) : (setPhase p s).blk = { s.blk with xphase := p } := rfl
@[simp] theorem setPhase_ctl (p : Phase) : (setPhase p s).ctl = s.ctl := rfl
@[simp] theorem setPhase_mem (p : Phase) : (setPhase p s).mem = s.mem := rfl
@[simp] theorem setPhase_devs (p : Phase) : (setPhase p s).devs = s.devs := rfl
@[simp] theorem setPhase_agents (p : Phase) : (setPhase p s).agents = s.agents := rfl
@[simp] theorem setPhase_cur (p : Phase) : (setPhase p s).cur = s.cur := rfl
@[simp] theorem setPhase_handler (p : Phase) : (setPhase p s).handler = s.handler := rfl
@[simp] theorem setPhase_running (p : Phase) : (setPhase p s).running = s.running := rfl
@[simp] theorem setPhase_ctlPlan (p : Phase) : (setPhase p s).ctlPlan = s.ctlPlan := rfl
@[simp] theorem setPhase_sched (p : Phase) : (setPhase p s).sched = s.sched := rfl
@[simp] theorem setPhase_io (p : Phase) : (setPhase p s).io = s.io := rfl
@[simp] theorem setPhase_fresh (p : Phase) : (setPhase p s).fresh = s.fresh := rfl
@[simp] theorem setPhase_attached (p : Phase) : (setPhase p s).attached = s.attached := rfl

@[simp] theorem setUnacked_par (u : Bool) : (setUnacked u s).par = s.par := rfl
@[simp] theorem setUnacked_blk (u : Bool) : (setUnacked u s).blk = { s.blk with disableUnacked := u } := rfl
@[simp] theorem setUnacked_ctl (u : Bool) : (setUnacked u s).ctl = s.ctl := rfl
@[simp] theorem setUnacked_mem (u : Bool) : (setUnacked u s).mem = s.mem := rfl
@[simp] theorem setUnacked_devs (u : Bool) : (setUnacked u s).devs = s.devs := rfl
@[simp] theorem setUnacked_agents (u : Bool) : (setUnacked u s).agents = s.agents := rfl
@[simp] theorem setUnacked_cur (u : Bool) : (setUnacked u s).cur = s.cur := rfl
@[simp] theorem setUnacked_handler (u : Bool) : (setUnacked u s).handler = s.handler := rfl
@[simp] theorem setUnacked_running (u : Bool) : (setUnacked u s).running = s.running := rfl
@[simp] theorem setUnacked_ctlPlan (u : Bool) : (setUnacked u s).ctlPlan = s.ctlPlan := rfl
@[simp] theorem setUnacked_sched (u : Bool) : (setUnacked u s).sched = s.sched := rfl
@[simp] theorem setUnacked_io (u : Bool) : (setUnacked u s).io = s.io := rfl
@[simp] theorem setUnacked_fresh (u : Bool) : (setUnacked u s).fresh = s.fresh := rfl
@[simp] theorem setUnacked_attached (u : Bool) : (setUnacked u s).attached = s.attached := rfl

@[simp] theorem setMsgErr_par (e : MsgErr) : (setMsgErr e s).par = s.par := rfl
@[simp] theorem setMsgErr_blk (e : MsgErr) : (setMsgErr e s).blk = { s.blk with msgErr := e } := rfl
@[simp] theorem setMsgErr_ctl (e : MsgErr) : (setMsgErr e s).ctl = s.ctl := rfl
@[simp] theorem setMsgErr_mem (e : MsgErr) : (setMsgErr e s).mem = s.mem := rfl
@[simp] theorem setMsgErr_devs (e : MsgErr) : (setMsgErr e s).devs = s.devs := rfl
@[simp] theorem setMsgErr_agents (e : MsgErr) : (setMsgErr e s).agents = s.agents := rfl
@[simp] theorem setMsgErr_cur (e : MsgErr) : (setMsgErr e s).cur = s.cur := rfl
@[simp] theorem setMsgErr_handler (e : MsgErr) : (setMsgErr e s).handler = s.handler := rfl
@[simp] theorem setMsgErr_running (e : MsgErr) : (setMsgErr e s).running = s.running := rfl
@[simp] theorem setMsgErr_ctlPlan (e : MsgErr) : (setMsgErr e s).ctlPlan = s.ctlPlan := rfl
@[simp] theorem setMsgErr_sched (e : MsgErr) : (setMsgErr e s).sched = s.sched := rfl
@[simp] theorem setMsgErr_io (e : MsgErr) : (setMsgErr e s).io = s.io := rfl
@[simp] theorem setMsgErr_fresh (e : MsgErr) : (setMsgErr e s).fresh = s.fresh := rfl
@[simp] theorem setMsgErr_attached (e : MsgErr) : (setMsgErr e s).attached = s.attached := rfl

@[simp] theorem signalCompletion_par : (signalCompletion s).par = s.par := rfl
@[simp] theorem signalCompletion_blk : (signalCompletion s).blk = { s.blk with completion := true } := rfl
@[simp] theorem signalCompletion_ctl : (signalCompletion s).ctl = s.ctl := rfl
@[simp] theorem signalCompletion_mem : (signalCompletion s).mem = s.mem := rfl
@[simp] theorem signalCompletion_devs : (signalCompletion s).devs = s.devs := rfl
@[simp] theorem signalCompletion_agents : (signalCompletion s).agents = s.agents := rfl
@[simp] theorem signalCompletion_cur : (signalCompletion s).cur = s.cur := rfl
@[simp] theorem signalCompletion_handler : (signalCompletion s).handler = s.handler := rfl
@[simp] theorem signalCompletion_running : (signalCompletion s).running = s.running := rfl
@[simp] theorem signalCompletion_ctlPlan : (signalCompletion s).ctlPlan = s.ctlPlan := rfl
@[simp] theorem signalCompletion_sched : (signalCompletion s).sched = s.sched := rfl
@[simp] theorem signalCompletion_io : (signalCompletion s).io = s.io := rfl
@[simp] theorem signalCompletion_fresh : (signalCompletion s).fresh = s.fresh := rfl
@[simp] theorem signalCompletion_attached : (signalCompletion s).attached = s.attached := rfl

@[simp] theorem unmap_par : (unmap s).par = s.par := rfl
@[simp] theorem unmap_blk : (unmap s).blk = { s.blk with mapped := false } := rfl
@[simp] theorem unmap_ctl : (unmap s).ctl = s.ctl := rfl
@[simp] theorem unmap_mem : (unmap s).mem = s.mem := rfl
@[simp] theorem unmap_devs : (unmap s).devs = s.devs := rfl
@[simp] theorem unmap_agents : (unmap s).agents = s.agents := rfl
@[simp] theorem unmap_cur : (unmap s).cur = s.cur := rfl
@[simp] theorem unmap_handler : (unmap s).handler = s.handler := rfl
@[simp] theorem unmap_running : (unmap s).running = s.running := rfl
@[simp] theorem unmap_ctlPlan : (unmap s).ctlPlan = s.ctlPlan := rfl
@[simp] theorem unmap_sched : (unmap s).sched = s.sched := rfl
@[simp] theorem unmap_io : (unmap s).io = s.io := rfl
@[simp] theorem unmap_fresh : (unmap s).fresh = s.fresh := rfl
@[simp] theorem unmap_attached : (unmap s).attached = s.attached := rfl

@[simp] theorem unsetPages_par : (unsetPages s).par = s.par := rfl
@[simp] theorem unsetPages_blk : (unsetPages s).blk = s.blk := rfl
@[simp] theorem unsetPages_ctl : (unsetPages s).ctl = s.ctl := rfl
@[simp] theorem unsetPages_mem : (unsetPages s).mem = s.mem := rfl
@[simp] theorem unsetPages_devs : (unsetPages s).devs = s.devs.map fun d => { d with currentPage := none } := rfl
@[simp] theorem unsetPages_agents : (unsetPages s).agents = s.agents := rfl
@[simp] theorem unsetPages_cur : (unsetPages s).cur = s.cur := rfl
@[simp] theorem unsetPages_handler : (unsetPages s).handler = s.handler := rfl
@[simp] theorem unsetPages_running : (unsetPages s).running = s.running := rfl
@[simp] theorem unsetPages_ctlPlan : (unsetPages s).ctlPlan = s.ctlPlan := rfl
@[simp] theorem unsetPages_sched : (unsetPages s).sched = s.sched := rfl
@[simp] theorem unsetPages_io : (unsetPages s).io = s.io := rfl
@[simp] theorem unsetPages_fresh : (unsetPages s).fresh = s.fresh := rfl
@[simp] theorem unsetPages_attached : (unsetPages s).attached = s.attached := rfl

@[simp] theorem updateDev_par (n : Nat) (f : PagedDev → PagedDev) : (updateDev n f s).par = s.par := rfl
@[simp] theorem updateDev_blk (n : Nat) (f : PagedDev → PagedDev) : (updateDev n f s).blk = s.blk := rfl
@[simp] theorem updateDev_ctl (n : Nat) (f : PagedDev → PagedDev) : (updateDev n f s).ctl = s.ctl := rfl
@[simp] theorem updateDev_mem (n : Nat) (f : PagedDev → PagedDev) : (updateDev n f s).mem = s.mem := rfl
@[simp] theorem updateDev_devs (n : Nat) (f : PagedDev → PagedDev) : (updateDev n f s).devs = s.devs.modify n f := rfl
@[simp] theorem updateDev_agents (n : Nat) (f : PagedDev → PagedDev) : (updateDev n f s).agents = s.agents := rfl
@[simp] theorem updateDev_cur (n : Nat) (f : PagedDev → PagedDev) : (updateDev n f s).cur = s.cur := rfl
@[simp] theorem updateDev_handler (n : Nat) (f : PagedDev → PagedDev) : (updateDev n f s).handler = s.handler := rfl
@[simp] theorem updateDev_running (n : Nat) (f : PagedDev → PagedDev) : (updateDev n f s).running = s.running := rfl
@[simp] theorem updateDev_ctlPlan (n : Nat) (f : PagedDev → PagedDev) : (updateDev n f s).ctlPlan = s.ctlPlan := rfl
@[simp] theorem updateDev_sched (n : Nat) (f : PagedDev → PagedDev) : (updateDev n f s).sched = s.sched := rfl
@[simp] theorem updateDev_io (n : Nat) (f : PagedDev → PagedDev) : (updateDev n f s).io = s.io := rfl
@[simp] theorem updateDev_fresh (n : Nat) (f : PagedDev → PagedDev) : (updateDev n f s).fresh = s.fresh := rfl
@[simp] theorem updateDev_attached (n : Nat) (f : PagedDev → PagedDev) : (updateDev n f s).attached = s.attached := rfl

@[simp] theorem endWait_par : (endWait a s).par = s.par := rfl
@[simp] theorem endWait_blk : (endWait a s).blk = s.blk := rfl
@[simp] theorem endWait_ctl : (endWait a s).ctl = s.ctl := rfl
@[simp] theorem endWait_mem : (endWait a s).mem = s.mem := rfl
@[simp] theorem endWait_devs : (endWait a s).devs = s.devs := rfl
@[simp] theorem endWait_cur : (endWait a s).cur = s.cur := rfl
@[simp] theorem endWait_handler : (endWait a s).handler = s.handler := rfl
@[simp] theorem endWait_running : (endWait a s).running = s.running := rfl
@[simp] theorem endWait_ctlPlan : (endWait a s).ctlPlan = s.ctlPlan := rfl
@[simp] theorem endWait_sched : (endWait a s).sched = s.sched := rfl
@[simp] theorem endWait_io : (endWait a s).io = s.io := rfl
@[simp] theorem endWait_fresh : (endWait a s).fresh = s.fresh := rfl
@[simp] theorem endWait_attached : (endWait a s).attached = s.attached := rfl

/-! ### Requesters' records -/

@[simp] theorem lookupAgent_updateAgent_self (l : List (Agent × Caller)) (c : Caller) :
    lookupAgent (updateAgent l a c) a = c := by
  induction l with
  | nil => simp [updateAgent, lookupAgent]
  | cons e l ih =>
    obtain ⟨x, d⟩ := e
    by_cases h : a = x <;> simp [updateAgent, lookupAgent, h, ih]

theorem lookupAgent_updateAgent_ne (l : List (Agent × Caller)) (c : Caller) (h : b ≠ a) :
    lookupAgent (updateAgent l a c) b = lookupAgent l b := by
  induction l with
  | nil => simp [updateAgent, lookupAgent, h]
  | cons e l ih =>
    obtain ⟨x, d⟩ := e
    by_cases hx : a = x
    · subst hx; simp [updateAgent, lookupAgent, h]
    · by_cases hb : b = x <;> simp [updateAgent, lookupAgent, hx, hb, ih]

@[simp] theorem agent_setAgent_self (c : Caller) : (s.setAgent a c).agent a = c := by
  simp [State.agent]

@[simp] theorem agent_setAgent_ne (c : Caller) (h : b ≠ a) :
    (s.setAgent a c).agent b = s.agent b := by
  simp [State.agent, lookupAgent_updateAgent_ne, h]

/-- A requester's record depends on the list of records alone. -/
theorem agent_congr {s t : State} (h : t.agents = s.agents) (b : Agent) : t.agent b = s.agent b := by
  simp [State.agent, h]

@[simp] theorem agent_park_self (p : Point) :
    (park a p s).agent a = { s.agent a with point := p } := by
  simp [park]

@[simp] theorem agent_park_ne (p : Point) (h : b ≠ a) :
    (park a p s).agent b = s.agent b := by
  simp [park, h]

@[simp] theorem agent_setStack_self (fs : List Frame) :
    (setStack a fs s).agent a = { s.agent a with stack := fs } := by
  simp [setStack]

@[simp] theorem agent_setStack_ne (fs : List Frame) (h : b ≠ a) :
    (setStack a fs s).agent b = s.agent b := by
  simp [setStack, h]

@[simp] theorem agent_pushFrames_self (fs : List Frame) :
    (pushFrames a fs s).agent a = { s.agent a with stack := fs ++ (s.agent a).stack } := by
  simp [pushFrames, setStack]

@[simp] theorem agent_pushFrames_ne (fs : List Frame) (h : b ≠ a) :
    (pushFrames a fs s).agent b = s.agent b := by
  simp [pushFrames, setStack, h]

@[simp] theorem agent_post_self (r : Result) :
    (post a r s).agent a = { s.agent a with
      req := none, waiting := false, result := some r, point := .idle, stack := [] } := by
  simp [post]

@[simp] theorem agent_post_ne (r : Result) (h : b ≠ a) :
    (post a r s).agent b = s.agent b := by
  simp [post, h]

@[simp] theorem agent_endWait_self :
    (endWait a s).agent a = { s.agent a with waiting := false, point := .unwind } := by
  simp [endWait]

@[simp] theorem agent_endWait_ne (h : b ≠ a) :
    (endWait a s).agent b = s.agent b := by
  simp [endWait, h]

@[simp] theorem agent_setGate (g : Gate) : (s.setGate g).agent b = s.agent b := rfl
@[simp] theorem agent_mapBlk (f : Bus → Bus) : (s.mapBlk f).agent b = s.agent b := rfl
@[simp] theorem agent_setPhase (p : Phase) : (setPhase p s).agent b = s.agent b := rfl
@[simp] theorem agent_setUnacked (u : Bool) : (setUnacked u s).agent b = s.agent b := rfl
@[simp] theorem agent_setMsgErr (e : MsgErr) : (setMsgErr e s).agent b = s.agent b := rfl
@[simp] theorem agent_signalCompletion : (signalCompletion s).agent b = s.agent b := rfl
@[simp] theorem agent_unmap : (unmap s).agent b = s.agent b := rfl
@[simp] theorem agent_unsetPages : (unsetPages s).agent b = s.agent b := rfl
@[simp] theorem agent_updateDev (n : Nat) (f : PagedDev → PagedDev) : (updateDev n f s).agent b = s.agent b := rfl

end Sys2Proof.Machine
end

