-- ==== Sys2Proof/Laws/Access.lean ====
section
/-!
SUPPORT. What a step of the controller may do, and what a register access does to the rest of the state:
the laws every later proof cites instead of unfolding the controller.
-/

namespace Sys2Proof.Machine

/-! ### Ctl's own steps write no register of the block -/

/-- The registers Ctl never writes on its own (20_memory.md R124, 10_state.md R76): `d` holds them as
`c`, and `d` is enabled only if `c` is (60_exceptions.md R436). -/
structure Ctl.Keeps (c d : Ctl) : Prop where
  con      : d.con = c.con
  tar      : d.tar = c.tar
  ssHcnt   : d.ssHcnt = c.ssHcnt
  ssLcnt   : d.ssLcnt = c.ssLcnt
  fsHcnt   : d.fsHcnt = c.fsHcnt
  fsLcnt   : d.fsLcnt = c.fsLcnt
  sdaHold  : d.sdaHold = c.sdaHold
  intrMask : d.intrMask = c.intrMask
  rxTl     : d.rxTl = c.rxTl
  txTl     : d.txTl = c.txTl
  enable   : d.enable = c.enable
  icEn     : d.icEn = true → c.icEn = true

theorem Ctl.Keeps.refl (c : Ctl) : Ctl.Keeps c c := by constructor <;> simp

theorem Ctl.Keeps.trans {c d e : Ctl} (h : Ctl.Keeps c d) (k : Ctl.Keeps d e) : Ctl.Keeps c e where
  con := k.con.trans h.con
  tar := k.tar.trans h.tar
  ssHcnt := k.ssHcnt.trans h.ssHcnt
  ssLcnt := k.ssLcnt.trans h.ssLcnt
  fsHcnt := k.fsHcnt.trans h.fsHcnt
  fsLcnt := k.fsLcnt.trans h.fsLcnt
  sdaHold := k.sdaHold.trans h.sdaHold
  intrMask := k.intrMask.trans h.intrMask
  rxTl := k.rxTl.trans h.rxTl
  txTl := k.txTl.trans h.txTl
  enable := k.enable.trans h.enable
  icEn := fun e => h.icEn (k.icEn e)

theorem Ctl.latch_keeps (k : Nat) (c : Ctl) : Ctl.Keeps c (Ctl.latch k c) := by
  constructor <;> simp [Ctl.latch]

theorem Ctl.stop_keeps (c : Ctl) : Ctl.Keeps c (Ctl.stop c) := by
  constructor <;> simp [Ctl.stop, Ctl.latch]

theorem Ctl.stopIf_keeps (b : Bool) (c : Ctl) : Ctl.Keeps c (Ctl.stopIf b c) := by
  cases b
  · exact Ctl.Keeps.refl c
  · exact Ctl.stop_keeps c

theorem Ctl.onTargets_keeps (t : Txn) (f : Target → Target) (c : Ctl) :
    Ctl.Keeps c (Ctl.onTargets t f c) := by
  constructor <;> simp [Ctl.onTargets]

theorem Ctl.putStart_keeps (t : Txn) (c : Ctl) : Ctl.Keeps c (Ctl.putStart t c) := by
  constructor <;> simp [Ctl.putStart, Ctl.onTargets, Ctl.latch]

theorem Ctl.address_keeps (r q : Bool) (c : Ctl) : Ctl.Keeps c (Ctl.address r q c) := by
  unfold Ctl.address
  split
  · exact Ctl.putStart_keeps _ c
  · split
    · exact Ctl.putStart_keeps _ c
    · exact Ctl.Keeps.refl c

theorem Ctl.abort_keeps (src : Word) (c : Ctl) : Ctl.Keeps c (Ctl.abort src c) := by
  unfold Ctl.abort
  simp only []
  split <;> constructor <;> simp [Ctl.stop, Ctl.latch]

theorem Ctl.pushRx_keeps (p : Params) (b : Byte) (c : Ctl) : Ctl.Keeps c (Ctl.pushRx p b c) := by
  unfold Ctl.pushRx
  split <;> constructor <;> simp [Ctl.latch]

theorem Ctl.loseBus_keeps (src : Word) (c : Ctl) : Ctl.Keeps c (Ctl.loseBus src c) := by
  constructor <;> simp [Ctl.loseBus, Ctl.latch]

theorem Ctl.sendByte_keeps (dat next : Byte) (stop : Bool) (c : Ctl) :
    Ctl.Keeps c (Ctl.sendByte dat next stop c) := by
  unfold Ctl.sendByte
  split
  · exact Ctl.Keeps.refl c
  · refine Ctl.Keeps.trans (Ctl.Keeps.trans ?_ (Ctl.onTargets_keeps _ _ _)) (Ctl.stopIf_keeps _ _)
    constructor <;> simp

theorem Ctl.receiveByte_keeps (p : Params) (rx next : Byte) (stop : Bool) (c : Ctl) :
    Ctl.Keeps c (Ctl.receiveByte p rx next stop c) := by
  unfold Ctl.receiveByte
  split
  · exact Ctl.Keeps.refl c
  · refine Ctl.Keeps.trans ?_ (Ctl.stopIf_keeps _ _)
    refine Ctl.Keeps.trans (Ctl.Keeps.trans ?_ (Ctl.onTargets_keeps _ _ _)) (Ctl.pushRx_keeps _ _ _)
    constructor <;> simp

theorem Ctl.execWrite_keeps (dat : Byte) (stop restart : Bool) (c : Ctl) :
    Ctl.Keeps c (Ctl.execWrite dat stop restart c) := by
  have h := Ctl.address_keeps false restart c
  unfold Ctl.execWrite
  simp only []
  split
  · exact h.trans (Ctl.sendByte_keeps _ _ _ _)
  · split
    · exact h.trans (Ctl.abort_keeps _ _)
    · exact h.trans (Ctl.sendByte_keeps _ _ _ _)
  · refine h.trans (Ctl.Keeps.trans ?_ (Ctl.abort_keeps _ _))
    constructor <;> simp
  · exact h.trans (Ctl.loseBus_keeps _ _)

theorem Ctl.execRead_keeps (p : Params) (stop restart : Bool) (c : Ctl) :
    Ctl.Keeps c (Ctl.execRead p stop restart c) := by
  have h := Ctl.address_keeps true restart c
  unfold Ctl.execRead
  simp only []
  split
  · exact h.trans (Ctl.receiveByte_keeps p _ _ _ _)
  · exact h.trans (Ctl.receiveByte_keeps p _ _ _ _)
  · split
    · exact h.trans (Ctl.abort_keeps _ _)
    · exact h.trans (Ctl.receiveByte_keeps p _ _ _ _)
  · exact h.trans (Ctl.loseBus_keeps _ _)

theorem Ctl.execWord_keeps (p : Params) (w : Word) (c : Ctl) : Ctl.Keeps c (Ctl.execWord p w c) := by
  unfold Ctl.execWord
  split
  · exact Ctl.execWrite_keeps _ _ _ c
  · exact Ctl.execRead_keeps p _ _ c
  · exact Ctl.Keeps.refl c

theorem Ctl.move_keeps (p : Params) (m : CtlMove) (c : Ctl) : Ctl.Keeps c (Ctl.move p m c) := by
  cases m with
  | take ans =>
    simp only [Ctl.move]
    split
    · refine Ctl.Keeps.trans ?_ (Ctl.execWord_keeps p _ _)
      constructor <;> simp [Ctl.popTx]
    · exact Ctl.Keeps.refl c
  | emptyFifo => simp only [Ctl.move]; split; exacts [Ctl.stop_keeps c, Ctl.Keeps.refl c]
  | arbLost src =>
    simp only [Ctl.move]
    split; exacts [Ctl.loseBus_keeps _ c, Ctl.Keeps.refl c]
  | finishDisable =>
    simp only [Ctl.move]
    split
    · split <;> constructor <;> simp [Ctl.stop, Ctl.latch]
    · exact Ctl.Keeps.refl c
  | busy b => constructor <;> simp [Ctl.move]
  | latch k => simp only [Ctl.move]; split; exacts [Ctl.latch_keeps _ c, Ctl.Keeps.refl c]
  | targetReg addr a b => constructor <;> simp [Ctl.move]
  | targetPage addr page => constructor <;> simp [Ctl.move]

/-- Any sequence of Ctl's steps keeps the registers the block writes. -/
theorem Ctl.moves_keeps (p : Params) (ms : List CtlMove) (c : Ctl) :
    Ctl.Keeps c (Ctl.moves p ms c) := by
  induction ms generalizing c with
  | nil => exact Ctl.Keeps.refl c
  | cons m ms ih => exact (Ctl.move_keeps p m c).trans (ih _)

/-! ### Register accesses -/

variable (s : State) (r : Reg) (v : Word)

/-- Ctl's turn as one update: the next entry of the plan is used up. -/
theorem ctlTurn_eq :
    ctlTurn s = { s with
      ctl := Ctl.moves s.par (s.ctlPlan.headD []) s.ctl, ctlPlan := s.ctlPlan.tail } := by
  unfold ctlTurn
  split
  · next h => simp [h, Ctl.moves]; rw [← h]
  · next h => simp [h]

/-- Ctl's turn depends on the parameters, the controller and the plan alone. -/
theorem ctlTurn_congr {s u : State} (hp : u.par = s.par) (hc : u.ctl = s.ctl)
    (hl : u.ctlPlan = s.ctlPlan) :
    (ctlTurn u).ctl = (ctlTurn s).ctl ∧ (ctlTurn u).ctlPlan = (ctlTurn s).ctlPlan := by
  simp only [ctlTurn_eq, hp, hc, hl, and_self]

/-- With no plan left Ctl does nothing. -/
theorem ctlTurn_of_nil (h : s.ctlPlan = []) : ctlTurn s = s := by simp [ctlTurn, h]

/-- A register access is preceded by Ctl's turn, which keeps the registers the block writes. -/
theorem ctlTurn_keeps : Ctl.Keeps s.ctl (ctlTurn s).ctl := by
  rw [ctlTurn_eq]; exact Ctl.moves_keeps _ _ _

@[simp] theorem ctlTurn_par : (ctlTurn s).par = s.par := by simp [ctlTurn_eq]
@[simp] theorem ctlTurn_blk : (ctlTurn s).blk = s.blk := by simp [ctlTurn_eq]
@[simp] theorem ctlTurn_mem : (ctlTurn s).mem = s.mem := by simp [ctlTurn_eq]
@[simp] theorem ctlTurn_devs : (ctlTurn s).devs = s.devs := by simp [ctlTurn_eq]
@[simp] theorem ctlTurn_agents : (ctlTurn s).agents = s.agents := by simp [ctlTurn_eq]
@[simp] theorem ctlTurn_cur : (ctlTurn s).cur = s.cur := by simp [ctlTurn_eq]
@[simp] theorem ctlTurn_handler : (ctlTurn s).handler = s.handler := by simp [ctlTurn_eq]
@[simp] theorem ctlTurn_running : (ctlTurn s).running = s.running := by simp [ctlTurn_eq]
@[simp] theorem ctlTurn_sched : (ctlTurn s).sched = s.sched := by simp [ctlTurn_eq]
@[simp] theorem ctlTurn_attached : (ctlTurn s).attached = s.attached := by simp [ctlTurn_eq]
@[simp] theorem ctlTurn_io : (ctlTurn s).io = s.io := by simp [ctlTurn_eq]
@[simp] theorem ctlTurn_fresh : (ctlTurn s).fresh = s.fresh := by simp [ctlTurn_eq]

/-- The state a register read leaves, as one update. -/
theorem regRead_snd :
    (regRead r s).2 = { s with
      ctl := Ctl.afterRead r (ctlTurn s).ctl, ctlPlan := (ctlTurn s).ctlPlan,
      io := .read r (Ctl.readValue s.par r (ctlTurn s).ctl) :: s.io,
      fresh := if (Ctl.readValue s.par r (ctlTurn s).ctl).isSome then s.fresh else s.fresh + 1 } := by
  unfold regRead
  simp only [ctlTurn_par]
  split
  · next h => simp [h]
  · next h => simp [h]

/-- The value a register read returns: the register's, or a free value (log 10). -/
theorem regRead_fst :
    (regRead r s).1 =
      (Ctl.readValue s.par r (ctlTurn s).ctl).getD (Config.freeReg s.fresh) := by
  unfold regRead
  simp only [ctlTurn_par, ctlTurn_fresh]
  split <;> simp_all

/-- The state a register write leaves, as one update. -/
theorem regWrite_eq :
    regWrite r v s = { s with
      ctl := Ctl.writeReg s.par r v (ctlTurn s).ctl, ctlPlan := (ctlTurn s).ctlPlan,
      io := .write r v :: s.io } := by
  unfold regWrite
  simp only [ctlTurn_par, ctlTurn_io]
  rw [ctlTurn_eq]

@[simp] theorem regRead_par : (regRead r s).2.par = s.par := by simp [regRead_snd]
@[simp] theorem regTouch_par : (regTouch r s).par = s.par := by simp [regTouch]
@[simp] theorem regWrite_par : (regWrite r v s).par = s.par := by simp [regWrite_eq]
@[simp] theorem writeMask_par : (writeMask v s).par = s.par := by simp [writeMask]
@[simp] theorem regRead_blk : (regRead r s).2.blk = s.blk := by simp [regRead_snd]
@[simp] theorem regTouch_blk : (regTouch r s).blk = s.blk := by simp [regTouch]
@[simp] theorem regWrite_blk : (regWrite r v s).blk = s.blk := by simp [regWrite_eq]
@[simp] theorem writeMask_blk : (writeMask v s).blk = s.blk := by simp [writeMask]
@[simp] theorem regRead_mem : (regRead r s).2.mem = s.mem := by simp [regRead_snd]
@[simp] theorem regTouch_mem : (regTouch r s).mem = s.mem := by simp [regTouch]
@[simp] theorem regWrite_mem : (regWrite r v s).mem = s.mem := by simp [regWrite_eq]
@[simp] theorem writeMask_mem : (writeMask v s).mem = s.mem := by simp [writeMask]
@[simp] theorem regRead_devs : (regRead r s).2.devs = s.devs := by simp [regRead_snd]
@[simp] theorem regTouch_devs : (regTouch r s).devs = s.devs := by simp [regTouch]
@[simp] theorem regWrite_devs : (regWrite r v s).devs = s.devs := by simp [regWrite_eq]
@[simp] theorem writeMask_devs : (writeMask v s).devs = s.devs := by simp [writeMask]
@[simp] theorem regRead_agents : (regRead r s).2.agents = s.agents := by simp [regRead_snd]
@[simp] theorem regTouch_agents : (regTouch r s).agents = s.agents := by simp [regTouch]
@[simp] theorem regWrite_agents : (regWrite r v s).agents = s.agents := by simp [regWrite_eq]
@[simp] theorem writeMask_agents : (writeMask v s).agents = s.agents := by simp [writeMask]
@[simp] theorem regRead_cur : (regRead r s).2.cur = s.cur := by simp [regRead_snd]
@[simp] theorem regTouch_cur : (regTouch r s).cur = s.cur := by simp [regTouch]
@[simp] theorem regWrite_cur : (regWrite r v s).cur = s.cur := by simp [regWrite_eq]
@[simp] theorem writeMask_cur : (writeMask v s).cur = s.cur := by simp [writeMask]
@[simp] theorem regRead_handler : (regRead r s).2.handler = s.handler := by simp [regRead_snd]
@[simp] theorem regTouch_handler : (regTouch r s).handler = s.handler := by simp [regTouch]
@[simp] theorem regWrite_handler : (regWrite r v s).handler = s.handler := by simp [regWrite_eq]
@[simp] theorem writeMask_handler : (writeMask v s).handler = s.handler := by simp [writeMask]
@[simp] theorem regRead_running : (regRead r s).2.running = s.running := by simp [regRead_snd]
@[simp] theorem regTouch_running : (regTouch r s).running = s.running := by simp [regTouch]
@[simp] theorem regWrite_running : (regWrite r v s).running = s.running := by simp [regWrite_eq]
@[simp] theorem writeMask_running : (writeMask v s).running = s.running := by simp [writeMask]
@[simp] theorem regRead_sched : (regRead r s).2.sched = s.sched := by simp [regRead_snd]
@[simp] theorem regTouch_sched : (regTouch r s).sched = s.sched := by simp [regTouch]
@[simp] theorem regWrite_sched : (regWrite r v s).sched = s.sched := by simp [regWrite_eq]
@[simp] theorem writeMask_sched : (writeMask v s).sched = s.sched := by simp [writeMask]
@[simp] theorem regRead_attached : (regRead r s).2.attached = s.attached := by simp [regRead_snd]
@[simp] theorem regTouch_attached : (regTouch r s).attached = s.attached := by simp [regTouch]
@[simp] theorem regWrite_attached : (regWrite r v s).attached = s.attached := by simp [regWrite_eq]
@[simp] theorem writeMask_attached : (writeMask v s).attached = s.attached := by simp [writeMask]

@[simp] theorem regRead_ctl : (regRead r s).2.ctl = Ctl.afterRead r (ctlTurn s).ctl := by
  simp [regRead_snd]
@[simp] theorem regTouch_ctl : (regTouch r s).ctl = Ctl.afterRead r (ctlTurn s).ctl := by
  simp [regTouch]
@[simp] theorem regWrite_ctl : (regWrite r v s).ctl = Ctl.writeReg s.par r v (ctlTurn s).ctl := by
  simp [regWrite_eq]
@[simp] theorem writeMask_ctl :
    (writeMask v s).ctl = { (ctlTurn s).ctl with intrMask := v } := by
  simp [writeMask, Ctl.writeReg]
@[simp] theorem regWrite_io : (regWrite r v s).io = .write r v :: s.io := by simp [regWrite_eq]
@[simp] theorem writeMask_io : (writeMask v s).io = .write .intrMask v :: s.io := by
  simp [writeMask]
@[simp] theorem regRead_io :
    (regRead r s).2.io = .read r (Ctl.readValue s.par r (ctlTurn s).ctl) :: s.io := by
  simp [regRead_snd]
@[simp] theorem regTouch_io :
    (regTouch r s).io = .read r (Ctl.readValue s.par r (ctlTurn s).ctl) :: s.io := by
  simp [regTouch]
@[simp] theorem regWrite_fresh : (regWrite r v s).fresh = s.fresh := by simp [regWrite_eq]
@[simp] theorem regWrite_ctlPlan : (regWrite r v s).ctlPlan = (ctlTurn s).ctlPlan := by
  simp [regWrite_eq]
@[simp] theorem regRead_ctlPlan : (regRead r s).2.ctlPlan = (ctlTurn s).ctlPlan := by
  simp [regRead_snd]
@[simp] theorem agent_ctlTurn (b : Agent) : (ctlTurn s).agent b = s.agent b :=
  agent_congr (ctlTurn_agents s) b
@[simp] theorem agent_regRead (b : Agent) : (regRead r s).2.agent b = s.agent b :=
  agent_congr (regRead_agents s r) b
@[simp] theorem agent_regTouch (b : Agent) : (regTouch r s).agent b = s.agent b :=
  agent_congr (regTouch_agents s r) b
@[simp] theorem agent_regWrite (b : Agent) : (regWrite r v s).agent b = s.agent b :=
  agent_congr (regWrite_agents s r v) b
@[simp] theorem agent_writeMask (b : Agent) : (writeMask v s).agent b = s.agent b :=
  agent_congr (writeMask_agents s v) b

end Sys2Proof.Machine
end

