-- ==== Sys2Proof/Laws/Memory.lean ====
section
/-!
SUPPORT. The laws of byte memory: a read after a write, that a write keeps the canonical form, that equal
contents in canonical form are equal data, and that the buffers' address ranges are disjoint.
-/

namespace Sys2Proof.Machine

theorem Memory.read_write_self (m : Memory) (a : Nat) (b : Byte) (h : Memory.wfAbove none m = true) :
    (m.write a b).read a = b := by
  suffices ∀ lo, Memory.wfAbove lo m = true → (m.write a b).read a = b from this none h
  clear h
  induction m with
  | nil => intro lo _; by_cases hb : b = unlisted <;> simp [Memory.write, Memory.read, hb]
  | cons e m ih =>
    obtain ⟨x, c⟩ := e
    intro lo h
    simp only [Memory.wfAbove, Bool.and_eq_true] at h
    have above : ∀ (l : Memory) (y : Nat), Memory.wfAbove (some y) l = true → a ≤ y →
        Memory.read l a = unlisted := by
      intro l
      induction l with
      | nil => intros; rfl
      | cons f l ihl =>
        obtain ⟨z, d⟩ := f
        intro y hl ha
        simp only [Memory.wfAbove, Bool.and_eq_true, decide_eq_true_eq] at hl
        have hz : ¬ a = z := by omega
        simp only [Memory.read, hz, if_false]
        exact ihl z hl.2 (by omega)
    simp only [Memory.write]
    split
    · split
      · next hb =>
        have : ¬ a = x := by omega
        simp only [Memory.read, this, if_false, hb]
        exact above m x h.2 (by omega)
      · simp [Memory.read]
    · split
      · next hx =>
        split
        · next hb => rw [hb]; exact above m x h.2 (by omega)
        · simp [Memory.read]
      · next hx =>
        simp only [Memory.read, hx, if_false]
        exact ih (some x) h.2

theorem Memory.read_write_ne (m : Memory) (a x : Nat) (b : Byte) (h : x ≠ a) :
    (m.write a b).read x = m.read x := by
  induction m with
  | nil => by_cases hb : b = unlisted <;> simp [Memory.write, Memory.read, hb, h]
  | cons e m ih =>
    obtain ⟨y, c⟩ := e
    simp only [Memory.write]
    split
    · split
      · rfl
      · simp [Memory.read, h]
    · split
      · next hy =>
        subst hy
        split <;> simp [Memory.read, h]
      · simp only [Memory.read, ih]

theorem Memory.above_of_lt : ∀ (lo : Option Nat) (a : Nat), (∀ l, lo = some l → l < a) →
    (match lo with | none => true | some l => decide (l < a)) = true
  | none, _, _ => rfl
  | some l, _, h => by simpa using h l rfl

theorem Memory.wfAbove_write (m : Memory) (a : Nat) (b : Byte) (lo : Option Nat)
    (h : Memory.wfAbove lo m = true) (hlo : ∀ l, lo = some l → l < a) :
    Memory.wfAbove lo (m.write a b) = true := by
  induction m generalizing lo with
  | nil =>
    have hl := Memory.above_of_lt lo a hlo
    by_cases hb : b = unlisted
    · simp [Memory.write, hb, Memory.wfAbove]
    · simp only [Memory.write, hb, if_false, Memory.wfAbove, Bool.and_eq_true]
      exact ⟨⟨hl, by simpa using hb⟩, trivial⟩
  | cons e m ih =>
    obtain ⟨x, c⟩ := e
    have hl := Memory.above_of_lt lo a hlo
    simp only [Memory.write]
    have h0 := h
    simp only [Memory.wfAbove, Bool.and_eq_true] at h
    split
    · next hax =>
      split
      · exact h0
      · next hb =>
        simp only [Memory.wfAbove, Bool.and_eq_true]
        exact ⟨⟨hl, by simpa using hb⟩, ⟨⟨by simpa using hax, h.1.2⟩, h.2⟩⟩
    · split
      · next hax =>
        subst hax
        split
        · -- the entry is removed: what follows it is above it, so above `lo`
          have : ∀ (l : Memory), Memory.wfAbove (some a) l = true → Memory.wfAbove lo l = true := by
            intro l hl'
            cases l with
            | nil => rfl
            | cons f l =>
              obtain ⟨z, d⟩ := f
              simp only [Memory.wfAbove, Bool.and_eq_true, decide_eq_true_eq] at hl' ⊢
              refine ⟨⟨?_, hl'.1.2⟩, hl'.2⟩
              cases lo with
              | none => rfl
              | some k => have := hlo k rfl; simp; omega
          exact this m h.2
        · next hb =>
          simp only [Memory.wfAbove, Bool.and_eq_true]
          exact ⟨⟨hl, by simpa using hb⟩, h.2⟩
      · next hax hne =>
        simp only [Memory.wfAbove, Bool.and_eq_true]
        refine ⟨h.1, ih (some x) h.2 (by intro l hl'; cases hl'; omega)⟩

/-- A write keeps the canonical form. -/
theorem Memory.wf_write (m : Memory) (a : Nat) (b : Byte) (h : m.wf = true) :
    Memory.wf (m.write a b) = true :=
  Memory.wfAbove_write m a b none h (by simp)

theorem Memory.wf_writeAll (m : Memory) (a : Nat) (bs : List Byte) (h : m.wf = true) :
    Memory.wf (m.writeAll a bs) = true := by
  induction bs generalizing m a with
  | nil => exact h
  | cons b bs ih => exact ih _ _ (Memory.wf_write m a b h)

theorem memWrite_wf {m m' : Memory} {buf : BufRef} {off : Nat} {b : Byte}
    (h : m.wf = true) (hw : memWrite m buf off b = some m') : m'.wf = true := by
  unfold memWrite at hw
  split at hw
  · cases hw; exact Memory.wf_write m _ b h
  · cases hw

/-- Bytes written at consecutive addresses: every address outside them reads as before. -/
theorem Memory.read_writeAll_out (m : Memory) (a x : Nat) (bs : List Byte)
    (h : x < a ∨ a + bs.length ≤ x) : (m.writeAll a bs).read x = m.read x := by
  induction bs generalizing m a with
  | nil => rfl
  | cons b bs ih =>
    simp only [List.length_cons] at h
    simp only [Memory.writeAll]
    rw [ih (m.write a b) (a + 1) (by omega), Memory.read_write_ne m a x b (by omega)]

/-- Bytes written at consecutive addresses read back. -/
theorem Memory.read_writeAll (m : Memory) (a k : Nat) (bs : List Byte) (h : m.wf = true)
    (hk : k < bs.length) : (m.writeAll a bs).read (a + k) = bs[k] := by
  induction bs generalizing m a k with
  | nil => simp at hk
  | cons b bs ih =>
    simp only [Memory.writeAll]
    cases k with
    | zero =>
      rw [Memory.read_writeAll_out _ _ _ _ (by omega)]
      simpa using Memory.read_write_self m a b h
    | succ k =>
      have := ih (m.write a b) (a + 1) k (Memory.wf_write m a b h) (by simpa using hk)
      simpa [Nat.add_assoc, Nat.add_comm 1 k] using this

@[simp] theorem Memory.readAll_length (m : Memory) (a n : Nat) : (m.readAll a n).length = n := by
  induction n generalizing a with
  | zero => rfl
  | succ n ih => simp [Memory.readAll, ih]

theorem Memory.readAll_getElem (m : Memory) (a n k : Nat) (hk : k < (m.readAll a n).length) :
    (m.readAll a n)[k] = m.read (a + k) := by
  induction n generalizing a k with
  | zero => simp [Memory.readAll] at hk
  | succ n ih =>
    cases k with
    | zero => simp [Memory.readAll]
    | succ k =>
      have := ih (a + 1) k (by simpa [Memory.readAll] using hk)
      simpa [Memory.readAll, Nat.add_assoc, Nat.add_comm 1 k] using this

/-! ### Buffers do not overlap -/

theorem Agent.index_inj {a b : Agent} (h : a.index = b.index) : a = b := by
  cases a <;> cases b <;> simp_all [Agent.index]

theorem BufId.slot_inj {x y : BufId} (h : x.slot = y.slot) : x = y := by
  cases x <;> cases y <;> simp only [BufId.slot] at h <;>
    first
    | (congr 1; omega)
    | (congr 1; exact Agent.index_inj (by omega))

/-- The bytes of two buffers, offsets below 65536, stand at different addresses. -/
theorem bufAddr_ne {x y : BufId} {i j : Nat} (h : x ≠ y) (hi : i < 65536) (hj : j < 65536) :
    bufAddr x i ≠ bufAddr y j := by
  intro e
  apply h
  apply BufId.slot_inj
  unfold bufAddr at e
  omega

end Sys2Proof.Machine
end

