-- ==== Sys2Proof/Laws/Ctl.lean ====
section
/-!
SUPPORT. The laws of the controller's interrupt bits and of its FIFOs between two register accesses,
and of the register contents of the targets.
-/

namespace Sys2Proof.Machine

/-! ### Interrupt bits -/

theorem getLsbD_bitIf (n k : Nat) (b : Bool) :
    (bitIf n b).getLsbD k = (b && decide (k = n) && decide (k < 32)) := by
  cases b
  · simp [bitIf]
  · by_cases h : k = n <;> by_cases h32 : n < 32 <;>
      simp_all [bitIf, BitVec.getLsbD_twoPow, eq_comm]

theorem latchedBits_getLsbD (k : Nat) :
    latchedBits.getLsbD k = decide (k < 14 ∧ k ≠ 2 ∧ k ≠ 4) := by
  have h : ∀ j : Fin 32, latchedBits.getLsbD j.val = decide (j.val < 14 ∧ j.val ≠ 2 ∧ j.val ≠ 4) := by
    decide
  by_cases hk : k < 32
  · exact h ⟨k, hk⟩
  · rw [BitVec.getLsbD_of_ge _ _ (by omega)]
    have : ¬ k < 14 := by omega
    simp [this]

/-- Every bit of RAW_INTR_STAT (10_state.md R65, R66). -/
theorem raw_getLsbD (c : Ctl) (k : Nat) :
    c.raw.getLsbD k =
      if k = 2 then c.rxFull else if k = 4 then c.txEmpty
      else c.latched.getLsbD k && decide (k < 14) := by
  have h32 : k < 14 → k < 32 := by omega
  simp only [Ctl.raw, BitVec.getLsbD_or, BitVec.getLsbD_and, getLsbD_bitIf, latchedBits_getLsbD]
  by_cases h2 : k = 2
  · subst h2; simp
  · by_cases h4 : k = 4
    · subst h4; simp
    · simp [h2, h4]

theorem latched_latch (c : Ctl) (n k : Nat) (hn : n < 32) :
    (Ctl.latch n c).latched.getLsbD k = (c.latched.getLsbD k || decide (k = n)) := by
  simp only [Ctl.latch, BitVec.getLsbD_or, BitVec.getLsbD_twoPow, hn, decide_true, Bool.true_and]
  rw [decide_eq_decide.2 (eq_comm (a := n) (b := k))]

theorem latched_unlatch (c : Ctl) (n k : Nat) :
    (Ctl.unlatch n c).latched.getLsbD k = (c.latched.getLsbD k && !decide (k = n)) := by
  by_cases hk : k < 32
  · simp only [Ctl.unlatch, BitVec.getLsbD_and, BitVec.getLsbD_not, BitVec.getLsbD_twoPow, hk,
      decide_true, Bool.true_and]
    by_cases h : n = k
    · subst h; simp [hk]
    · have h' : ¬ k = n := fun e => h e.symm
      simp [h, h']
  · rw [BitVec.getLsbD_of_ge _ _ (by omega), BitVec.getLsbD_of_ge _ _ (by omega)]; simp

/-! ### FIFOs -/

/-- What the execution of a command word may do to the FIFOs (60_exceptions.md R431, R434, R438): words
leave the TX FIFO at its head, bytes join the RX FIFO at its tail up to the real depth, and neither
RX_UNDER nor TX_OVER is latched. -/
structure Ctl.Grows (p : Params) (c d : Ctl) : Prop where
  tx      : d.txFifo <:+ c.txFifo
  rx      : c.rxFifo <+: d.rxFifo
  depth   : c.rxFifo.length ≤ p.ctlRxDepth → d.rxFifo.length ≤ p.ctlRxDepth
  under   : d.latched.getLsbD 0 = c.latched.getLsbD 0
  txOver  : d.latched.getLsbD 3 = c.latched.getLsbD 3

theorem Ctl.Grows.refl (p : Params) (c : Ctl) : Ctl.Grows p c c :=
  ⟨List.suffix_refl _, List.prefix_refl _, id, rfl, rfl⟩

theorem Ctl.Grows.trans {p : Params} {c d e : Ctl} (h : Ctl.Grows p c d) (k : Ctl.Grows p d e) :
    Ctl.Grows p c e where
  tx := k.tx.trans h.tx
  rx := h.rx.trans k.rx
  depth := fun x => k.depth (h.depth x)
  under := k.under.trans h.under
  txOver := k.txOver.trans h.txOver

theorem Ctl.latch_grows (p : Params) (c : Ctl) (n : Nat) (hn : n < 32) (h0 : n ≠ 0) (h3 : n ≠ 3) :
    Ctl.Grows p c (Ctl.latch n c) := by
  refine ⟨List.suffix_refl _, List.prefix_refl _, id, ?_, ?_⟩
  · rw [latched_latch _ _ _ hn]; simp [Ne.symm h0]
  · rw [latched_latch _ _ _ hn]; simp [Ne.symm h3]

/-- A change of neither FIFO nor the latched bits. -/
theorem Ctl.grows_of_eq {p : Params} {c d : Ctl} (ht : d.txFifo = c.txFifo) (hr : d.rxFifo = c.rxFifo)
    (hl : d.latched = c.latched) : Ctl.Grows p c d := by
  refine ⟨by rw [ht], by rw [hr], by rw [hr]; exact id, by rw [hl], by rw [hl]⟩

theorem Ctl.stop_grows (p : Params) (c : Ctl) : Ctl.Grows p c (Ctl.stop c) :=
  Ctl.Grows.trans (d := { c with bus := none, wire := .stop :: c.wire })
    (Ctl.grows_of_eq rfl rfl rfl) (Ctl.latch_grows p _ 9 (by decide) (by decide) (by decide))

theorem Ctl.stopIf_grows (p : Params) (b : Bool) (c : Ctl) : Ctl.Grows p c (Ctl.stopIf b c) := by
  cases b
  · exact Ctl.Grows.refl p c
  · exact Ctl.stop_grows p c

theorem Ctl.putStart_grows (p : Params) (t : Txn) (c : Ctl) : Ctl.Grows p c (Ctl.putStart t c) := by
  unfold Ctl.putStart
  refine Ctl.Grows.trans (d := Ctl.latch 10 (Ctl.latch 8
    { c with bus := some t, wire := .start t.target t.ten t.isRead :: c.wire })) ?_
    (Ctl.grows_of_eq rfl rfl rfl)
  refine Ctl.Grows.trans ?_ (Ctl.latch_grows p _ 10 (by decide) (by decide) (by decide))
  refine Ctl.Grows.trans ?_ (Ctl.latch_grows p _ 8 (by decide) (by decide) (by decide))
  exact Ctl.grows_of_eq rfl rfl rfl

theorem Ctl.address_grows (p : Params) (r q : Bool) (c : Ctl) :
    Ctl.Grows p c (Ctl.address r q c) := by
  unfold Ctl.address
  split
  · exact Ctl.putStart_grows p _ c
  · split
    · exact Ctl.putStart_grows p _ c
    · exact Ctl.Grows.refl p c

theorem Ctl.abort_grows (p : Params) (src : Word) (c : Ctl) : Ctl.Grows p c (Ctl.abort src c) := by
  unfold Ctl.abort
  simp only []
  have h : Ctl.Grows p c (Ctl.latch 6 { c with abrtSrc := c.abrtSrc ||| src, txFifo := [] }) := by
    refine Ctl.Grows.trans (d := { c with abrtSrc := c.abrtSrc ||| src, txFifo := [] }) ?_
      (Ctl.latch_grows p _ 6 (by decide) (by decide) (by decide))
    exact ⟨List.nil_suffix, List.prefix_refl _, id, rfl, rfl⟩
  split
  · exact h.trans (Ctl.stop_grows p _)
  · exact h

theorem Ctl.pushRx_grows (p : Params) (b : Byte) (c : Ctl) : Ctl.Grows p c (Ctl.pushRx p b c) := by
  unfold Ctl.pushRx
  split
  · next h =>
    exact ⟨List.suffix_refl _, List.prefix_append _ _, fun _ => by simpa using h, rfl, rfl⟩
  · exact Ctl.latch_grows p c 1 (by decide) (by decide) (by decide)

theorem Ctl.loseBus_grows (p : Params) (src : Word) (c : Ctl) : Ctl.Grows p c (Ctl.loseBus src c) := by
  refine Ctl.Grows.trans (d := { c with abrtSrc := c.abrtSrc ||| src, txFifo := [], bus := none }) ?_
    (Ctl.latch_grows p _ 6 (by decide) (by decide) (by decide))
  exact ⟨List.nil_suffix, List.prefix_refl _, id, rfl, rfl⟩

theorem Ctl.sendByte_grows (p : Params) (dat next : Byte) (stop : Bool) (c : Ctl) :
    Ctl.Grows p c (Ctl.sendByte dat next stop c) := by
  unfold Ctl.sendByte
  split
  · exact Ctl.Grows.refl p c
  · refine Ctl.Grows.trans ?_ (Ctl.stopIf_grows p _ _)
    exact Ctl.grows_of_eq rfl rfl rfl

theorem Ctl.receiveByte_grows (p : Params) (rx next : Byte) (stop : Bool) (c : Ctl) :
    Ctl.Grows p c (Ctl.receiveByte p rx next stop c) := by
  unfold Ctl.receiveByte
  split
  · exact Ctl.Grows.refl p c
  · refine Ctl.Grows.trans ?_ (Ctl.stopIf_grows p _ _)
    refine Ctl.Grows.trans ?_ (Ctl.pushRx_grows p _ _)
    exact Ctl.grows_of_eq rfl rfl rfl

theorem Ctl.execWrite_grows (p : Params) (dat : Byte) (stop restart : Bool) (c : Ctl) :
    Ctl.Grows p c (Ctl.execWrite dat stop restart c) := by
  have h := Ctl.address_grows p false restart c
  unfold Ctl.execWrite
  simp only []
  split
  · exact h.trans (Ctl.sendByte_grows p _ _ _ _)
  · split
    · exact h.trans (Ctl.abort_grows p _ _)
    · exact h.trans (Ctl.sendByte_grows p _ _ _ _)
  · refine h.trans (Ctl.Grows.trans ?_ (Ctl.abort_grows p _ _))
    exact Ctl.grows_of_eq rfl rfl rfl
  · exact h.trans (Ctl.loseBus_grows p _ _)

theorem Ctl.execRead_grows (p : Params) (stop restart : Bool) (c : Ctl) :
    Ctl.Grows p c (Ctl.execRead p stop restart c) := by
  have h := Ctl.address_grows p true restart c
  unfold Ctl.execRead
  simp only []
  split
  · exact h.trans (Ctl.receiveByte_grows p _ _ _ _)
  · exact h.trans (Ctl.receiveByte_grows p _ _ _ _)
  · split
    · exact h.trans (Ctl.abort_grows p _ _)
    · exact h.trans (Ctl.receiveByte_grows p _ _ _ _)
  · exact h.trans (Ctl.loseBus_grows p _ _)

theorem Ctl.execWord_grows (p : Params) (w : Word) (c : Ctl) :
    Ctl.Grows p c (Ctl.execWord p w c) := by
  unfold Ctl.execWord
  split
  · exact Ctl.execWrite_grows p _ _ _ c
  · exact Ctl.execRead_grows p _ _ c
  · exact Ctl.Grows.refl p c

/-- What a step of Ctl may do to the FIFOs (60_exceptions.md R430, R436, R439): as a command word, but
that a disable empties both; and nothing while ENABLE_STATUS bit 0 is 0. -/
structure Ctl.Feeds (p : Params) (c d : Ctl) : Prop where
  tx      : d.txFifo <:+ c.txFifo
  rx      : c.rxFifo <+: d.rxFifo ∨ (d.rxFifo = [] ∧ d.icEn = false)
  depth   : c.rxFifo.length ≤ p.ctlRxDepth → d.rxFifo.length ≤ p.ctlRxDepth
  under   : d.latched.getLsbD 0 = c.latched.getLsbD 0
  txOver  : d.latched.getLsbD 3 = c.latched.getLsbD 3
  off     : c.icEn = false → d.icEn = false ∧ d.txFifo = c.txFifo ∧ d.rxFifo = c.rxFifo ∧
              d.wire = c.wire ∧ d.bus = c.bus

theorem Ctl.Feeds.refl (p : Params) (c : Ctl) : Ctl.Feeds p c c :=
  ⟨List.suffix_refl _, .inl (List.prefix_refl _), id, rfl, rfl, fun h => ⟨h, rfl, rfl, rfl, rfl⟩⟩

theorem Ctl.Feeds.trans {p : Params} {c d e : Ctl} (h : Ctl.Feeds p c d) (k : Ctl.Feeds p d e) :
    Ctl.Feeds p c e where
  tx := k.tx.trans h.tx
  rx := by
    rcases k.rx with k1 | k1
    · rcases h.rx with h1 | h1
      · exact .inl (h1.trans k1)
      · obtain ⟨o1, _, o3, _⟩ := k.off h1.2
        exact .inr ⟨o3.trans h1.1, o1⟩
    · exact .inr k1
  depth := fun x => k.depth (h.depth x)
  under := k.under.trans h.under
  txOver := k.txOver.trans h.txOver
  off := fun x => by
    obtain ⟨h1, h2, h3, h4, h5⟩ := h.off x
    obtain ⟨k1, k2, k3, k4, k5⟩ := k.off h1
    exact ⟨k1, k2.trans h2, k3.trans h3, k4.trans h4, k5.trans h5⟩

theorem Ctl.Grows.feeds {p : Params} {c d : Ctl} (h : Ctl.Grows p c d) (hc : c.icEn = true) :
    Ctl.Feeds p c d :=
  ⟨h.tx, .inl h.rx, h.depth, h.under, h.txOver, fun x => by simp [hc] at x⟩

theorem Ctl.move_feeds (p : Params) (m : CtlMove) (c : Ctl) : Ctl.Feeds p c (Ctl.move p m c) := by
  cases m with
  | take ans =>
    simp only [Ctl.move]
    split
    · next h =>
      have hc : c.icEn = true := by simp [Ctl.mayTake] at h; exact h.1.1.1
      refine Ctl.Grows.feeds (Ctl.Grows.trans (d := Ctl.popTx ans c) ?_ (Ctl.execWord_grows p _ _)) hc
      exact ⟨List.tail_suffix _, List.prefix_refl _, id, rfl, rfl⟩
    · exact Ctl.Feeds.refl p c
  | emptyFifo =>
    simp only [Ctl.move]
    split
    · next h => simp at h; exact (Ctl.stop_grows p c).feeds h.1.1.1
    · exact Ctl.Feeds.refl p c
  | arbLost src =>
    simp only [Ctl.move]
    split
    · next h =>
      simp at h
      exact (Ctl.loseBus_grows p src c).feeds h.1.1.1
    · exact Ctl.Feeds.refl p c
  | finishDisable =>
    simp only [Ctl.move]
    split
    · next h =>
      simp at h
      have hs := Ctl.stop_grows p c
      split
      · exact ⟨List.nil_suffix, .inr ⟨rfl, rfl⟩, fun _ => Nat.zero_le _, hs.under, hs.txOver,
          fun x => by simp [h.1] at x⟩
      · exact ⟨List.nil_suffix, .inr ⟨rfl, rfl⟩, fun _ => Nat.zero_le _, rfl, rfl,
          fun x => by simp [h.1] at x⟩
    · exact Ctl.Feeds.refl p c
  | busy b => exact ⟨List.suffix_refl _, .inl (List.prefix_refl _), id, rfl, rfl,
      fun h => ⟨h, rfl, rfl, rfl, rfl⟩⟩
  | latch k =>
    simp only [Ctl.move]
    split
    · next h =>
      have hk : k.val = 5 ∨ k.val = 11 ∨ k.val = 12 ∨ k.val = 13 := by
        simpa [otherEvents] using h
      have := Ctl.latch_grows p c k.val (by omega) (by omega) (by omega)
      exact ⟨this.tx, .inl this.rx, this.depth, this.under, this.txOver,
        fun x => ⟨x, rfl, rfl, rfl, rfl⟩⟩
    · exact Ctl.Feeds.refl p c
  | targetReg addr a b => exact ⟨List.suffix_refl _, .inl (List.prefix_refl _), id, rfl, rfl,
      fun h => ⟨h, rfl, rfl, rfl, rfl⟩⟩
  | targetPage addr page => exact ⟨List.suffix_refl _, .inl (List.prefix_refl _), id, rfl, rfl,
      fun h => ⟨h, rfl, rfl, rfl, rfl⟩⟩

/-- Any sequence of Ctl's steps feeds the FIFOs so. -/
theorem Ctl.moves_feeds (p : Params) (ms : List CtlMove) (c : Ctl) :
    Ctl.Feeds p c (Ctl.moves p ms c) := by
  induction ms generalizing c with
  | nil => exact Ctl.Feeds.refl p c
  | cons m ms ih => exact (Ctl.move_feeds p m c).trans (ih _)

/-- Ctl's turn before a register access feeds the FIFOs so. -/
theorem ctlTurn_feeds (s : State) : Ctl.Feeds s.par s.ctl (ctlTurn s).ctl := by
  rw [ctlTurn_eq]; exact Ctl.moves_feeds _ _ _

/-- While ENABLE is 1 no step of Ctl disables the controller (60_exceptions.md R436). -/
theorem Ctl.moves_icEn (p : Params) (ms : List CtlMove) (c : Ctl) (he : c.enable = true) :
    (Ctl.moves p ms c).icEn = c.icEn := by
  induction ms generalizing c with
  | nil => rfl
  | cons m ms ih =>
    simp only [Ctl.moves]
    rw [ih _ ((Ctl.move_keeps p m c).enable.trans he)]
    have word : ∀ w d, (Ctl.execWord p w d).icEn = d.icEn := by
      intro w d
      have addr : ∀ r q, (Ctl.address r q d).icEn = d.icEn := by
        intro r q
        unfold Ctl.address
        split
        · rfl
        · split <;> rfl
      have abort : ∀ src e, (Ctl.abort src e).icEn = e.icEn := by
        intro src e; unfold Ctl.abort; simp only []; split <;> rfl
      have stop : ∀ b e, (Ctl.stopIf b e).icEn = e.icEn := by intro b e; cases b <;> rfl
      have push : ∀ b e, (Ctl.pushRx p b e).icEn = e.icEn := by
        intro b e; unfold Ctl.pushRx; split <;> rfl
      have send : ∀ b n st e, (Ctl.sendByte b n st e).icEn = e.icEn := by
        intro b n st e; unfold Ctl.sendByte; split
        · rfl
        · rw [stop]; rfl
      have recv : ∀ b n st e, (Ctl.receiveByte p b n st e).icEn = e.icEn := by
        intro b n st e; unfold Ctl.receiveByte; split
        · rfl
        · rw [stop, push]; rfl
      unfold Ctl.execWord
      split
      · unfold Ctl.execWrite
        simp only []
        split
        · rw [send, addr]
        · split
          · rw [abort, addr]
          · rw [send, addr]
        · rw [abort]; exact addr _ _
        · exact addr _ _
      · unfold Ctl.execRead
        simp only []
        split
        · rw [recv, addr]
        · rw [recv, addr]
        · split
          · rw [abort, addr]
          · rw [recv, addr]
        · exact addr _ _
      · rfl
    cases m with
    | take ans =>
      simp only [Ctl.move]
      split
      · exact word _ _
      · rfl
    | finishDisable => simp [Ctl.move, he]
    | emptyFifo => simp only [Ctl.move]; split <;> rfl
    | arbLost src => simp only [Ctl.move]; split <;> rfl
    | latch k => simp only [Ctl.move]; split <;> rfl
    | busy b => rfl
    | targetReg addr a b => rfl
    | targetPage addr page => rfl

/-! ### Targets -/

/-- Every target's register contents are in canonical form (log 6). -/
def Ctl.TargetsWf (c : Ctl) : Prop := ∀ d ∈ c.targets, Memory.wf d.regs = true

theorem Ctl.onTargets_wf (t : Txn) (f : Target → Target) (c : Ctl)
    (hf : ∀ d : Target, Memory.wf d.regs = true → Memory.wf (f d).regs = true) (h : c.TargetsWf) :
    (Ctl.onTargets t f c).TargetsWf := by
  intro d hd
  simp only [Ctl.onTargets, List.mem_map] at hd
  obtain ⟨x, hx, rfl⟩ := hd
  split
  · exact hf _ (h _ hx)
  · exact h _ hx

theorem Ctl.address_wf (r q : Bool) (c : Ctl) (h : c.TargetsWf) : (Ctl.address r q c).TargetsWf := by
  have put : ∀ t, (Ctl.putStart t c).TargetsWf := fun t =>
    Ctl.onTargets_wf t _ _ (fun d hd => by unfold Target.atStart; split <;> exact hd) h
  unfold Ctl.address
  split
  · exact put _
  · split
    · exact put _
    · exact h

theorem Ctl.abort_wf (src : Word) (c : Ctl) (h : c.TargetsWf) : (Ctl.abort src c).TargetsWf := by
  unfold Ctl.abort; simp only []; split <;> exact h

theorem Ctl.stopIf_wf (b : Bool) (c : Ctl) (h : c.TargetsWf) : (Ctl.stopIf b c).TargetsWf := by
  cases b <;> exact h

theorem Ctl.pushRx_wf (p : Params) (b : Byte) (c : Ctl) (h : c.TargetsWf) :
    (Ctl.pushRx p b c).TargetsWf := by
  unfold Ctl.pushRx; split <;> exact h

theorem Ctl.sendByte_wf (dat next : Byte) (stop : Bool) (c : Ctl) (h : c.TargetsWf) :
    (Ctl.sendByte dat next stop c).TargetsWf := by
  unfold Ctl.sendByte
  split
  · exact h
  · refine Ctl.stopIf_wf _ _ (Ctl.onTargets_wf _ _ _ (fun d hd => ?_) h)
    unfold Target.receive
    split
    · exact hd
    · split
      · exact hd
      · exact Memory.wf_write _ _ _ hd

theorem Ctl.receiveByte_wf (p : Params) (rx next : Byte) (stop : Bool) (c : Ctl) (h : c.TargetsWf) :
    (Ctl.receiveByte p rx next stop c).TargetsWf := by
  unfold Ctl.receiveByte
  split
  · exact h
  · refine Ctl.stopIf_wf _ _ (Ctl.pushRx_wf p _ _ (Ctl.onTargets_wf _ _ _ (fun d hd => ?_) h))
    unfold Target.advance
    split <;> exact hd

theorem Ctl.execWrite_wf (dat : Byte) (stop restart : Bool) (c : Ctl) (h : c.TargetsWf) :
    (Ctl.execWrite dat stop restart c).TargetsWf := by
  have ha := Ctl.address_wf false restart c h
  unfold Ctl.execWrite
  simp only []
  split
  · exact Ctl.sendByte_wf _ _ _ _ ha
  · split
    · exact Ctl.abort_wf _ _ ha
    · exact Ctl.sendByte_wf _ _ _ _ ha
  · exact Ctl.abort_wf _ _ ha
  · exact ha

theorem Ctl.execRead_wf (p : Params) (stop restart : Bool) (c : Ctl) (h : c.TargetsWf) :
    (Ctl.execRead p stop restart c).TargetsWf := by
  have ha := Ctl.address_wf true restart c h
  unfold Ctl.execRead
  simp only []
  split
  · exact Ctl.receiveByte_wf p _ _ _ _ ha
  · exact Ctl.receiveByte_wf p _ _ _ _ ha
  · split
    · exact Ctl.abort_wf _ _ ha
    · exact Ctl.receiveByte_wf p _ _ _ _ ha
  · exact ha

theorem Ctl.move_wf (p : Params) (m : CtlMove) (c : Ctl) (h : c.TargetsWf) :
    (Ctl.move p m c).TargetsWf := by
  cases m with
  | take ans =>
    simp only [Ctl.move]
    split
    · unfold Ctl.execWord
      split
      · exact Ctl.execWrite_wf _ _ _ _ h
      · exact Ctl.execRead_wf p _ _ _ h
      · exact h
    · exact h
  | finishDisable =>
    simp only [Ctl.move]
    split
    · split <;> exact h
    · exact h
  | emptyFifo => simp only [Ctl.move]; split <;> exact h
  | arbLost src => simp only [Ctl.move]; split <;> exact h
  | latch k => simp only [Ctl.move]; split <;> exact h
  | busy b => exact h
  | targetReg addr a b =>
    intro d hd
    simp only [Ctl.move, List.mem_map] at hd
    obtain ⟨x, hx, rfl⟩ := hd
    split
    · exact Memory.wf_write _ _ _ (h _ hx)
    · exact h _ hx
  | targetPage addr page =>
    intro d hd
    simp only [Ctl.move, List.mem_map] at hd
    obtain ⟨x, hx, rfl⟩ := hd
    have := h x hx
    split <;> exact this

theorem Ctl.moves_wf (p : Params) (ms : List CtlMove) (c : Ctl) (h : c.TargetsWf) :
    (Ctl.moves p ms c).TargetsWf := by
  induction ms generalizing c with
  | nil => exact h
  | cons m ms ih => exact ih _ (Ctl.move_wf p m c h)

theorem ctlTurn_wf (s : State) (h : s.ctl.TargetsWf) : (ctlTurn s).ctl.TargetsWf := by
  rw [ctlTurn_eq]; exact Ctl.moves_wf _ _ _ h

/-- A register access leaves the targets as Ctl's turn left them. -/
theorem Ctl.afterRead_targets (r : Reg) (c : Ctl) : (Ctl.afterRead r c).targets = c.targets := by
  cases r <;> first | rfl | (simp only [Ctl.afterRead]; split <;> rfl)

theorem Ctl.writeReg_targets (p : Params) (r : Reg) (v : Word) (c : Ctl) :
    (Ctl.writeReg p r v c).targets = c.targets := by
  cases r <;> simp only [Ctl.writeReg] <;> first | rfl | (split <;> rfl)

end Sys2Proof.Machine
end

