-- ==== Sys2Proof/Laws/Request.lean ====
section
/-!
SUPPORT. The laws of the operations every request is made of: going on after an operation, the gate, and
the return of a result to the requester.
-/

namespace Sys2Proof.Machine

variable {s t : State} {a b : Agent}

/-! ### Going on -/

@[simp] theorem Flow.andThen_next (s : State) (f : State → Flow) :
    Flow.andThen (.next s) f = f s := rfl
@[simp] theorem Flow.andThen_fault (r : Fault) (f : State → Flow) :
    Flow.andThen (.fault r) f = .fault r := rfl
@[simp] theorem Flow.andThen_refused (r : Refusal) (f : State → Flow) :
    Flow.andThen (.refused r) f = .refused r := rfl

/-- A next state of two operations in sequence is the second's, from a next state of the first. -/
theorem Flow.andThen_eq_next {o : Flow} {f : State → Flow} {t : State}
    (h : Flow.andThen o f = .next t) : ∃ u, o = .next u ∧ f u = .next t := by
  cases o with
  | next u => exact ⟨u, rfl, h⟩
  | fault r => cases h
  | refused r => cases h

/-! ### The gate -/

/-- An open gate is entered without waiting (20_memory.md R120). -/
theorem Gate.acquire_open {g : Gate} (hw : g.Wf) (ho : g.OpenTo a) :
    g.acquire a = some (g.entered a 1) := by
  rcases ho with h | h
  · have := hw.1 h
    simp [Gate.acquire, Gate.entered, h, this]
  · simp [Gate.acquire, Gate.entered, h]

/-- The owner enters again (20_memory.md R120). -/
theorem Gate.acquire_entered (g : Gate) (n : Nat) :
    (g.entered a n).acquire a = some (g.entered a (n + 1)) := by
  simp [Gate.acquire, Gate.entered, Nat.add_assoc]

/-- Leaving the outermost entry puts the gate back as it was (20_memory.md R121). -/
theorem Gate.release_entered_one {g : Gate} (hw : g.Wf) (ho : g.OpenTo a) :
    (g.entered a 1).release a = some g := by
  obtain ⟨o, d, w⟩ := g
  rcases ho with h | h <;> simp only at h <;> subst h
  · have : d = 0 := hw.1 rfl
    subst this; simp [Gate.release, Gate.entered]
  · have : d ≠ 0 := fun e => by have := hw.2 e; simp at this
    simp [Gate.release, Gate.entered, this]

/-- Leaving an inner entry keeps the gate held (20_memory.md R121). -/
theorem Gate.release_entered (g : Gate) (n : Nat) :
    (g.entered a (n + 2)).release a = some (g.entered a (n + 1)) := by
  obtain ⟨o, d, w⟩ := g
  have : d + (n + 2) ≠ 1 := by omega
  simp [Gate.release, Gate.entered, this]

/-- A gate held by another is not entered, and a release of it is none (20_memory.md R120, R121). -/
theorem Gate.acquire_taken {g : Gate} (h : g.owner = some b) (hb : b ≠ a) : g.acquire a = none := by
  simp [Gate.acquire, h, hb]

/-- The gate as a held gate, from its owner and depth. -/
theorem Gate.release_last {g : Gate} (h : g = ⟨some a, 1, g.waiters⟩) :
    g.release a = some ⟨none, 0, g.waiters⟩ := by
  rw [h]; simp [Gate.release]

theorem Gate.release_inner {g : Gate} {n : Nat} (h : g = ⟨some a, n + 2, g.waiters⟩) :
    g.release a = some ⟨some a, n + 1, g.waiters⟩ := by
  rw [h]; simp [Gate.release]

/-- Entering keeps the gate well-formed. -/
theorem Gate.Wf.acquire {g h : Gate} (_hg : g.Wf) (e : g.acquire a = some h) : h.Wf := by
  unfold Gate.acquire at e
  split at e
  · cases e; simp [Gate.Wf]
  · split at e
    · next ho _ => cases e; simp [Gate.Wf, ho]
    · cases e

theorem Gate.Wf.wait {g : Gate} (hg : g.Wf) (a : Agent) : (g.wait a).Wf := by
  unfold Gate.wait; split <;> exact hg

theorem Gate.Wf.release {g h : Gate} (e : g.release a = some h) : h.Wf := by
  unfold Gate.release at e
  split at e
  · next hc =>
    cases e
    by_cases hd : g.depth = 1
    · simp [Gate.Wf, hd]
    · have : g.depth - 1 ≠ 0 := by omega
      simp [Gate.Wf, hd, hc.1, this]
  · cases e

theorem Gate.Wf.grant {g h : Gate} (e : g.grant a = some h) : h.Wf := by
  unfold Gate.grant at e
  split at e
  · cases e; simp [Gate.Wf]
  · cases e

/-- A gated operation whose gate is open runs its body with the gate entered. -/
theorem withGate_open (c : Cont) (body : State → Flow) (hw : s.blk.gate.Wf)
    (ho : s.blk.gate.OpenTo a) :
    withGate a c body s = body (s.setGate (s.blk.gate.entered a 1)) := by
  simp [withGate, Gate.acquire_open hw ho]

/-- A gated operation inside the gate enters it once more. -/
theorem withGate_entered (c : Cont) (body : State → Flow) {g : Gate} {n : Nat}
    (h : s.blk.gate = g.entered a n) :
    withGate a c body s = body (s.setGate (g.entered a (n + 1))) := by
  simp [withGate, h, Gate.acquire_entered]

/-- A gated operation whose gate another holds waits for it. -/
theorem withGate_taken (c : Cont) (body : State → Flow) (h : s.blk.gate.owner = some b)
    (hb : b ≠ a) :
    withGate a c body s = .next (park a (.gate c) (s.setGate (s.blk.gate.wait a))) := by
  simp [withGate, Gate.acquire_taken h hb]

theorem gateRelease_of {g : Gate} (h : s.blk.gate.release a = some g) :
    gateRelease a s = .next (s.setGate g) := by
  simp [gateRelease, h]

/-! ### The return of a result -/

/-- With no operation around it, a result is posted (60_exceptions.md R400). -/
theorem ret_of_nil (r : Result) (h : (s.agent a).stack = []) : ret a r s = .next (post a r s) := by
  simp [ret, h, retFrames]

theorem releaseRet_of {g : Gate} (r : Result) (h : s.blk.gate.release a = some g) :
    releaseRet a r s = ret a r (s.setGate g) := by
  simp [releaseRet, gateRelease_of h]

/-- A posted result is a finished request, its requester alone changed. -/
theorem Finished.post_of {r : Result} {u : State} (h : u.agents = s.agents) (hm : SameMem s u)
    (hr : SameRest s u) : Finished a r s (post a r u) where
  ended := by rw [agent_post_self, agent_congr h]
  others := fun b hb => by rw [agent_post_ne _ _ _ _ hb, agent_congr h]
  mem := fun x => by rw [post_mem]; exact hm x
  rest := ⟨by simp [hr.par], by simp [hr.cur], by simp [hr.handler], by simp [hr.running],
    by simp [hr.sched], by simp [hr.attached]⟩

theorem SameRest.refl (s : State) : SameRest s s := ⟨rfl, rfl, rfl, rfl, rfl, rfl⟩

/-- A request that only returns a result ends at once. -/
theorem endsAtOnce_of_ret {i : Instr} {r : Result} (h : exec i s = ret s.cur r s)
    (hs : s.AtRequest) : EndsAtOnce i s r := by
  refine ⟨post s.cur r s, by rw [h, ret_of_nil r hs], ?_, by simp, by simp, ?_⟩
  · exact Finished.post_of rfl (fun _ => rfl) (SameRest.refl s)
  · constructor <;> simp

/-- A request whose first act is to enter a gate another holds waits for it, nothing else changed. -/
theorem waitsForGate_of {i : Instr} {c : Cont} (body : State → Flow)
    (h : exec i s = withGate s.cur c body s) (hs : s.AtRequest) (hg : s.blk.gate.TakenFrom s.cur) :
    WaitsForGate i c s := by
  obtain ⟨b, ho, hb⟩ := hg
  refine ⟨_, h.trans (withGate_taken c body ho hb), ⟨?_, fun b hb => ?_, fun _ => rfl, ?_⟩, ?_, rfl, rfl⟩
  · rw [agent_park_self, agent_setGate]
    simpa [State.AtRequest] using hs
  · rw [agent_park_ne _ _ _ _ hb, agent_setGate]
  · exact ⟨rfl, rfl, rfl, rfl, rfl, rfl⟩
  · exact ⟨rfl, rfl, rfl, rfl⟩

/-- The result the unwind posts is that of R255. -/
theorem outcome_eq (b : Bus) : outcome b = transferResult b := by
  unfold outcome transferResult
  cases b.timedOut <;> cases b.msgErr <;>
    simp [MsgErr.code, Result.fail, Result.of, Result.okValue]

/-- A clean transfer's result is the count of its messages; every other is a failure (R255). -/
theorem transferResult_clean {b : Bus} (h : b.Clean) :
    transferResult b = ⟨.ok, BitVec.ofNat 32 b.msgsNum, .ok⟩ := by
  obtain ⟨h1, h2, h3⟩ := h
  simp [transferResult, h1, h2, h3]

theorem transferResult_code {b : Bus} (h : ¬ b.Clean) : (transferResult b).code ≠ .ok := by
  unfold transferResult
  unfold Bus.Clean at h
  cases ht : b.timedOut <;> cases hm : b.msgErr <;> simp_all

/-! ### Polls of the controller -/

@[simp] theorem bitIf_zero_getLsbD (b : Bool) : (bitIf 0 b).getLsbD 0 = b := by
  cases b <;> simp [bitIf]

/-- ENABLE_STATUS as read (10_state.md R68). -/
theorem regRead_enableStatus (s : State) :
    (regRead .enableStatus s).1 = bitIf 0 (ctlTurn s).ctl.icEn := by
  simp [regRead_fst, Ctl.readValue]

/-- STATUS.ACTIVITY as read (10_state.md R69). -/
theorem regRead_status_activity (s : State) :
    (regRead .status s).1.getLsbD 0 = (ctlTurn s).ctl.activity := by
  have h : ∀ n, n ≠ 0 → n < 32 → ∀ b, (bitIf n b).getLsbD 0 = false := by
    intro n h0 hn b
    cases b <;> simp [bitIf, h0, eq_comm, BitVec.getElem_twoPow]
  simp only [regRead_fst, Ctl.readValue, Option.getD_some, Ctl.statusWord, BitVec.getLsbD_or,
    bitIf_zero_getLsbD]
  rw [h 1 (by decide) (by decide), h 2 (by decide) (by decide), h 3 (by decide) (by decide),
    h 4 (by decide) (by decide), h 5 (by decide) (by decide)]
  simp

variable (a) (k : Nat) (u : DisableUse)

/-- An acknowledged disable (40_timing_and_bus.md R206). -/
theorem disablePoll_acked (h : (ctlTurn s).ctl.icEn = false) :
    disablePoll a k u s = disabled a u (setUnacked false (regRead .enableStatus s).2) := by
  simp [disablePoll, regRead_enableStatus, h, bitIf]

/-- A poll below the bound that finds the controller enabled sleeps (40_timing_and_bus.md R206). -/
theorem disablePoll_sleeps (h : (ctlTurn s).ctl.icEn = true) (hk : k < s.par.disablePollLimit) :
    disablePoll a k u s =
      .next (park a (.sleep (.disable (k + 1) u)) (regRead .enableStatus s).2) := by
  simp only [disablePoll, regRead_enableStatus, h, bitIf_zero_getLsbD, hk, Bool.true_eq_false,
    if_false, if_true]

/-- The poll at the bound that finds the controller enabled is a DisableTimeout
(40_timing_and_bus.md R206). -/
theorem disablePoll_fails (h : (ctlTurn s).ctl.icEn = true) (hk : s.par.disablePollLimit ≤ k) :
    disablePoll a k u s = disableFailed a u (setUnacked true (regRead .enableStatus s).2) := by
  have hk' : ¬ k < s.par.disablePollLimit := by omega
  simp only [disablePoll, regRead_enableStatus, h, bitIf_zero_getLsbD, hk', Bool.true_eq_false,
    if_false]

end Sys2Proof.Machine
end

