-- ==== Sys2Proof/Laws/Step.lean ====
section
/-!
SUPPORT. What the next step does, by what is at hand: the case analysis of `fetch`, once.
-/

namespace Sys2Proof.Machine

variable {s : State}

/-- With Seq at no activity the step takes the schedule's next move. -/
theorem step_move {m : Move} {ms : List Move} (h : NextMove m ms s) :
    step s = match takeMove m { s with sched := ms } with
      | .instr i u => exec i u
      | .move o => o := by
  obtain ⟨h1, h2, h3, h4⟩ := h
  have hf : fetch s = takeMove m { s with sched := ms } := by simp [fetch, h1, h2, h3, h4]
  exact congrArg (fun f => match f with
    | .instr i u => exec i u
    | .move o => o) hf

/-- With a handler run under way the step executes the branch its snapshot selects next. -/
theorem step_branch {stat : Word} {i : Instr} (hm : s.par.regMap.ok s.par.regWindowSize = true)
    (h : s.handler = some stat) (hd : decodeStat stat = .ok i) : step s = exec i s := by
  simp [step, fetch, hm, h, hd]

/-- A sleeping requester, or one about to go on, is resumed where its rule stopped. -/
theorem step_resume {a : Agent} {ms : List Move} {c : Cont} (h : NextMove (.resume a) ms s)
    (hp : (s.agent a).point = .sleep c ∨ (s.agent a).point = .go c) :
    step s = runCont a c (park a .idle { s with sched := ms }) := by
  have hp' : (State.agent { s with sched := ms } a).point = .sleep c ∨
      (State.agent { s with sched := ms } a).point = .go c := hp
  rw [step_move h]
  simp only [takeMove, resumeAgent]
  rcases hp' with e | e <;> rw [e]

/-- A pending unwind runs. -/
theorem step_unwind {a : Agent} {ms : List Move} (h : NextMove (.resume a) ms s)
    (hp : (s.agent a).point = .unwind) :
    step s = unwind a (park a .idle { s with sched := ms }) := by
  have hp' : (State.agent { s with sched := ms } a).point = .unwind := hp
  rw [step_move h]
  simp only [takeMove, resumeAgent]
  rw [hp']

/-- A request that goes on runs its rule from where it stood, the gate its own where it was granted. -/
theorem step_goesOn {a : Agent} {c : Cont} {u : State} {g : Gate} (h : GoesOn a c s u g) :
    step s = runCont a c (park a .idle (u.setGate g)) := by
  cases h with
  | granted ms h at_ free waits =>
    have hp : (State.agent { s with sched := ms } a).point = .gate c := at_
    have hg : s.blk.gate.grant a =
        some ⟨some a, 1, s.blk.gate.waiters.filter fun b => !decide (b = a)⟩ := by
      simp [Gate.grant, free, waits]
    rw [step_move h]
    simp only [takeMove, grantGate]
    rw [hp]
    simp only [hg]
  | resumed ms h at_ => exact step_resume h at_
  | running hm hh hr at_ =>
    have e : step s = resumeAgent a { s with running := none } := by
      cases s
      simp only at hm hh hr
      subst hh hr
      simp only [step, fetch, hm, Bool.true_eq_false, if_false]
    have hp : (State.agent { s with running := none } a).point = .sleep c ∨
        (State.agent { s with running := none } a).point = .go c := at_
    rw [e, resumeAgent]
    rcases hp with hp | hp <;> rw [hp] <;> rfl

/-! ### A request word arrives -/

variable {a : Agent} {w : Word} {ops : Operands}

/-- A legal word of a requester with no request is submitted and executed (30_encoding.md R147). -/
theorem submit_ok {i : Instr} (ha : s.attached = true) (hk : a.known s.par = true)
    (hr : (s.agent a).req = none) (hd : decodeReq a.port w = .ok i) :
    submit a w ops s = .instr i (submitted a i ops s) := by
  simp [submit, ha, hk, hr, hd]

/-- An illegal word is answered (30_encoding.md R170). -/
theorem submit_illegal {e : Reject} (ha : s.attached = true) (hk : a.known s.par = true)
    (hr : (s.agent a).req = none) (hd : decodeReq a.port w = .error e) :
    submit a w ops s = .move (.next (refuseWord a w s)) := by
  simp [submit, ha, hk, hr, hd]

/-- A word while a request is in progress is a fault (60_exceptions.md R404). -/
theorem submit_busy (ha : s.attached = true) (hk : a.known s.par = true)
    (hr : (s.agent a).req ≠ none) :
    submit a w ops s = .move (.fault .callerObligation) := by
  have : (s.agent a).req.isSome = true := by simpa [Option.isSome_iff_ne_none] using hr
  simp [submit, ha, hk, this]

end Sys2Proof.Machine
end

