-- ==== Sys2Proof/Laws/Reach.lean ====
section
/-!
SUPPORT. What a step can do, said once: every step is a sequence of the primitive updates listed in
`Prim`, each with the condition under which it is made. An invariant of the machine is an invariant of
the primitives.
-/

namespace Sys2Proof.Machine

/-- A change of the gate (20_memory.md R120 to R123). -/
def GateStep (g h : Gate) : Prop :=
  ∃ a, g.acquire a = some h ∨ g.release a = some h ∨ g.grant a = some h ∨ g.wait a = h

/-- The message list, its cursors and lengths, and the gate are as before. -/
structure Bus.SameCursors (b c : Bus) : Prop where
  list : c.msgs = b.msgs ∧ c.msgsNum = b.msgsNum ∧ c.lens = b.lens ∧ c.recvPending = b.recvPending
  tx   : c.msgWriteIdx = b.msgWriteIdx ∧ c.txOff = b.txOff
  rx   : c.msgReadIdx = b.msgReadIdx ∧ c.rxOff = b.rxOff
  gate : c.gate = b.gate

/-- A change of the bus record other than the gate's; `P` is what makes an accepted list of it
where the requester resumed had passed XFER step 1. -/
inductive BlkStep (P : Prop) (b : Bus) : Bus → Prop
  /-- A field that is no cursor. -/
  | other (c : Bus) (h : b.SameCursors c) : BlkStep P b c
  /-- `xfer_init` of an accepted list (41_transfer_engine.md R245). -/
  | begin (c : Bus) (hv : P → msgsValid c.msgs = true ∧ c.msgsNum = c.msgs.length)
      (list : c.lens = c.msgs.map (·.len.toNat))
      (tx : c.msgWriteIdx = 0 ∧ c.txOff = 0) (rx : c.msgReadIdx = 0 ∧ c.rxOff = 0)
      (gate : c.gate = b.gate) : BlkStep P b c
  /-- The unwind (41_transfer_engine.md R256). -/
  | clear (c : Bus) (list : c.msgs = [] ∧ c.msgsNum = 0 ∧ c.lens = [])
      (tx : c.msgWriteIdx = 0 ∧ c.txOff = 0) (rx : c.msgReadIdx = 0 ∧ c.rxOff = 0)
      (gate : c.gate = b.gate) : BlkStep P b c
  /-- A command word issued (42_interrupt_fifo.md R290). -/
  | issue (n : Nat) (h : b.txOff < b.lens.getD b.msgWriteIdx 0) :
      BlkStep P b { b with rxOutstanding := n, txOff := b.txOff + 1 }
  /-- The write cursor passes a message (42_interrupt_fifo.md R290). -/
  | next (h : b.msgWriteIdx ≠ b.msgsNum) :
      BlkStep P b { b with msgWriteIdx := b.msgWriteIdx + 1, txOff := 0 }
  /-- The read cursor skips write messages (42_interrupt_fifo.md R300). -/
  | skip : BlkStep P b (skipAtCursor b)
  /-- A byte stored that ends no message (42_interrupt_fifo.md R300). -/
  | store (h : b.rxOff + 1 ≠ b.lens.getD b.msgReadIdx 0) : BlkStep P b { b with rxOff := b.rxOff + 1 }
  /-- A byte stored that ends its message (42_interrupt_fifo.md R300). -/
  | pass (h : b.msgReadIdx ≠ b.msgsNum) :
      BlkStep P b { b with msgReadIdx := b.msgReadIdx + 1, rxOff := 0 }
  /-- A length byte accepted (42_interrupt_fifo.md R302). -/
  | length (l : Byte) (hp : b.recvPending = true)
      (hr : (msgAt b.msgs b.msgReadIdx).recvLen = true)
      (hl : recvLenOk (msgAt b.msgs b.msgReadIdx) l = true) :
      BlkStep P b { b with
        rxOff := 1, lens := b.lens.set b.msgReadIdx (1 + l.toNat), recvPending := false,
        holdForLen := false }

/-- One primitive update of the machine. -/
inductive Prim (P : Prop) (s : State) : State → Prop
  | read (r : Reg) : Prim P s (regRead r s).2
  | write (r : Reg) (v : Word) (h : r = .intrMask → LegalMask v) : Prim P s (regWrite r v s)
  | gate (g : Gate) (h : GateStep s.blk.gate g) : Prim P s (s.setGate g)
  | blk (b : Bus) (h : BlkStep P s.blk b) : Prim P s { s with blk := b }
  | caller (a : Agent) (c : Caller) (h : P → (s.agent a).point.Checked → c.point.Checked) :
      Prim P s (s.setAgent a c)
  | store (x : Nat) (b : Byte) : Prim P s { s with mem := s.mem.write x b }
  | devs (d : List PagedDev) : Prim P s { s with devs := d }
  | book (cur : Agent) (handler : Option Word) (running : Option Agent) (sched : List Move)
      (attached : Bool) : Prim P s { s with
        cur := cur, handler := handler, running := running, sched := sched, attached := attached }
  | ctl (m : CtlMove) : Prim P s { s with ctl := Ctl.move s.par m s.ctl }
  | pop (ans : Answer) : Prim P s { s with ctl := Ctl.popTx ans s.ctl }
  | sendByte (dat : Byte) (stop restart : Bool) :
      Prim P s { s with ctl := Ctl.execWrite dat stop restart s.ctl }
  | readByte (stop restart : Bool) :
      Prim P s { s with ctl := Ctl.execRead s.par stop restart s.ctl }
  | target (addr : BitVec 7) (page : Byte) : Prim P s { s with ctl := { s.ctl with
      targets := s.ctl.targets ++ [⟨addr, page, none, []⟩] } }
  | lose (draw : Ctl) : Prim P s { s with ctl := Ctl.replaced (Ctl.lost draw s.ctl) s.ctl }

/-- A sequence of primitive updates. -/
inductive Reach (P : Prop) : State → State → Prop
  | refl (s : State) : Reach P s s
  | tail {s t u : State} (h : Reach P s t) (p : Prim P t u) : Reach P s u

theorem Reach.trans {P : Prop} {s t u : State} (h : Reach P s t) (k : Reach P t u) : Reach P s u := by
  induction k with
  | refl => exact h
  | tail _ p ih => exact ih.tail p

theorem Reach.one {P : Prop} {s t : State} (p : Prim P s t) : Reach P s t := (Reach.refl s).tail p

/-- An operation whose next state is reached from `s`. -/
def FlowReach (P : Prop) (s : State) (o : Flow) : Prop := ∀ t, o = .next t → Reach P s t

variable {P : Prop} {s t : State} {a : Agent}

theorem FlowReach.next (h : Reach P s t) : FlowReach P s (.next t) := fun _ e => by cases e; exact h
theorem FlowReach.fault (r : Fault) : FlowReach P s (.fault r) := fun _ e => by cases e
theorem FlowReach.refused (r : Refusal) : FlowReach P s (.refused r) := fun _ e => by cases e

theorem FlowReach.andThen {o : Flow} {f : State → Flow} (h : FlowReach P s o)
    (k : ∀ t, FlowReach P t (f t)) : FlowReach P s (Flow.andThen o f) := by
  intro u e
  obtain ⟨t, h1, h2⟩ := Flow.andThen_eq_next e
  exact (h t h1).trans (k t u h2)

/-- What is reached from a state reached from `s` is reached from `s`. -/
theorem FlowReach.of {o : Flow} (h : Reach P s t) (k : FlowReach P t o) : FlowReach P s o :=
  fun u e => h.trans (k u e)

/-! ### The shared operations -/

theorem Reach.read (r : Reg) (s : State) : Reach P s (regRead r s).2 := .one (.read r)
theorem Reach.touch (r : Reg) (s : State) : Reach P s (regTouch r s) := .one (.read r)
theorem Reach.write (r : Reg) (v : Word) (s : State) (h : r ≠ .intrMask) :
    Reach P s (regWrite r v s) := .one (.write r v fun e => absurd e h)
theorem Reach.mask {v : Word} (s : State) (h : LegalMask v) : Reach P s (writeMask v s) :=
  .one (.write .intrMask v fun _ => h)
theorem Reach.caller (a : Agent) (c : Caller) (s : State)
    (h : P → (s.agent a).point.Checked → c.point.Checked) : Reach P s (s.setAgent a c) :=
  .one (.caller a c h)
theorem Reach.park (a : Agent) (p : Point) (s : State) (h : P → p.Checked) :
    Reach P s (Machine.park a p s) := .caller a _ s fun x _ => h x
theorem Reach.stack (a : Agent) (fs : List Frame) (s : State) : Reach P s (setStack a fs s) :=
  .caller a _ s fun _ => id
theorem Reach.push (a : Agent) (fs : List Frame) (s : State) : Reach P s (pushFrames a fs s) :=
  .stack a _ s
theorem Reach.post (a : Agent) (r : Result) (s : State) : Reach P s (Machine.post a r s) :=
  .caller a _ s fun _ _ => trivial
theorem Reach.handler (h : Option Word) (s : State) : Reach P s { s with handler := h } :=
  .one (.book s.cur h s.running s.sched s.attached)
theorem Reach.sched (ms : List Move) (s : State) : Reach P s { s with sched := ms } :=
  .one (.book s.cur s.handler s.running ms s.attached)
theorem Reach.running (r : Option Agent) (s : State) : Reach P s { s with running := r } :=
  .one (.book s.cur s.handler r s.sched s.attached)
theorem Reach.attached (b : Bool) (s : State) : Reach P s { s with attached := b } :=
  .one (.book s.cur s.handler s.running s.sched b)
theorem Reach.devs (d : List PagedDev) (s : State) : Reach P s { s with devs := d } := .one (.devs d)
theorem Reach.bytes (x : Nat) (bs : List Byte) (s : State) :
    Reach P s { s with mem := s.mem.writeAll x bs } := by
  induction bs generalizing x s with
  | nil => exact .refl s
  | cons b bs ih => exact (Reach.one (.store x b)).trans (ih (x + 1) { s with mem := s.mem.write x b })
theorem Reach.memWrite {buf : BufRef} {off : Nat} {b : Byte} {m : Memory} (s : State)
    (h : memWrite s.mem buf off b = some m) : Reach P s { s with mem := m } := by
  unfold Machine.memWrite at h
  split at h
  · cases h; exact .one (.store _ b)
  · cases h

/-- A field of the bus record that is no cursor. -/
theorem Reach.blk (b : Bus) (s : State) (h : s.blk.SameCursors b) : Reach P s { s with blk := b } :=
  .one (.blk b (.other b h))

theorem Reach.goOn (a : Agent) (c : Cont) (fs : List Frame) (s : State) (h : P → c.Checked) :
    Reach P s (Machine.goOn a c fs s) :=
  ((Reach.stack a fs s).trans (.park a (.go c) _ h)).trans (.running (some a) _)

theorem withGate_reach (c : Cont) (body : State → Flow) (s : State) (hc : P → c.Checked)
    (h : ∀ t, FlowReach P t (body t)) : FlowReach P s (withGate a c body s) := by
  unfold withGate
  split
  · next g hg => exact (FlowReach.of (.one (.gate g ⟨a, .inl hg⟩)) (h _))
  · exact .next ((Reach.one (.gate _ ⟨a, .inr (.inr (.inr rfl))⟩)).trans (.park a _ _ hc))

theorem gateRelease_reach (a : Agent) (s : State) : FlowReach P s (gateRelease a s) := by
  unfold gateRelease
  split
  · next g hg => exact .next (.one (.gate g ⟨a, .inr (.inl hg)⟩))
  · exact .fault _

theorem Reach.copyBack (cb : CopyBack) (n : Nat) (s : State) :
    Reach P s { s with mem := Machine.copyBack a cb n s.mem } := by
  cases cb with
  | none => exact .refl s
  | byteT0 => exact .one (.store _ _)
  | byteT1 => exact .one (.store _ _)
  | wordT1 => exact .bytes _ _ s
  | blockT1 => exact .bytes _ _ s
  | i2cBlockT1 => exact .bytes _ _ s

theorem updateDev_reach (n : Nat) (f : PagedDev → PagedDev) (s : State) :
    Reach P s (updateDev n f s) := .devs _ s

theorem retFrames_reach (fs : List Frame) (r : Result) (s : State) :
    FlowReach P s (retFrames a fs r s) := by
  induction fs generalizing r s with
  | nil => exact .next (.post a r s)
  | cons f fs ih =>
    have rel : ∀ r s, FlowReach P s (Flow.andThen (gateRelease a s) (retFrames a fs r)) :=
      fun r s => (gateRelease_reach a s).andThen fun t => ih r t
    cases f with
    | retry left msgs count =>
      simp only [retFrames]
      split
      · exact .next ((Reach.stack a _ s).trans (.park a _ _ fun _ => trivial))
      · exact ih r s
    | smbus cb =>
      simp only [retFrames]
      split
      · exact .of (.copyBack cb _ s) (ih _ _)
      · exact ih r s
    | gated => exact rel r s
    | setPage dev page => exact .of (updateDev_reach _ _ s) (rel _ _)
    | selected blk =>
      simp only [retFrames]
      split
      · exact .next (.goOn a _ fs s fun _ => trivial)
      · exact rel r s
    | block => exact rel _ s
    | probe dev pos found =>
      have pro : ∀ fns r s, FlowReach P s (Flow.andThen (endProbe a dev fns s) (retFrames a fs r)) :=
        fun fns r s => .of (updateDev_reach _ _ s) (rel r _)
      simp only [retFrames]
      split
      · exact pro _ _ s
      · split
        · exact pro _ _ s
        · split
          · exact .next (.goOn a _ fs s fun _ => trivial)
          · exact pro _ _ s
    | f01 dev base todo =>
      simp only [retFrames]
      split
      · exact rel _ s
      · split
        · exact rel _ s
        · exact .next (.goOn a _ fs s fun _ => trivial)

theorem ret_reach (r : Result) (s : State) : FlowReach P s (ret a r s) := retFrames_reach _ r s

theorem releaseRet_reach (r : Result) (s : State) : FlowReach P s (releaseRet a r s) :=
  (gateRelease_reach a s).andThen fun t => ret_reach r t

/-! ### Bus-controller requests -/

theorem Reach.unmap (s : State) : Reach P s (Machine.unmap s) := .blk _ s (by constructor <;> simp)
theorem Reach.unsetPages (s : State) : Reach P s (Machine.unsetPages s) := .devs _ s
theorem Reach.phase (p : Phase) (s : State) : Reach P s (setPhase p s) :=
  .blk _ s (by constructor <;> simp)
theorem Reach.unacked (b : Bool) (s : State) : Reach P s (setUnacked b s) :=
  .blk _ s (by constructor <;> simp)

theorem legalMask_zero : LegalMask 0#32 := .inl rfl
theorem legalMask_default : LegalMask defaultMask := .inr (.inr rfl)
theorem legalMask_noTxEmpty : LegalMask noTxEmptyMask := .inr (.inl rfl)

theorem Reach.configureWrites (s : State) : Reach P s (Machine.configureWrites s) := by
  unfold Machine.configureWrites
  simp only []
  refine Reach.trans ?_ (Reach.mask _ legalMask_default)
  repeat' refine Reach.trans ?_ (Reach.write _ _ _ (by decide))
  exact .refl s

theorem Reach.unconfigure (s : State) : Reach P s (Machine.unconfigure s) :=
  (Reach.mask s legalMask_zero).trans (.write _ _ _ (by decide))

theorem startConfigured_reach (prov : Provider) (ok : Bool) (s : State) :
    FlowReach P s (startConfigured a prov ok s) := by
  unfold startConfigured
  split
  · exact .of (.unmap s) (releaseRet_reach _ _)
  · split
    · exact .of ((Reach.unconfigure s).trans (.unmap _)) (releaseRet_reach _ _)
    · refine .of ?_ (releaseRet_reach _ _)
      refine Reach.trans (t := Machine.unsetPages
        { s with blk := { s.blk with irqInstalled := true } }) ?_ ?_
      · exact (Reach.blk _ s (by constructor <;> simp)).trans (.unsetPages _)
      · exact Reach.blk _ (Machine.unsetPages _) (by constructor <;> simp)

theorem afterConfigure_reach (u : ConfigUse) (ok : Bool) (s : State) :
    FlowReach P s (afterConfigure a u ok s) := by
  cases u with
  | bus => exact releaseRet_reach _ s
  | power => exact releaseRet_reach _ s
  | start prov => exact startConfigured_reach prov ok s

theorem stopTail_reach (ok : Bool) (s : State) : FlowReach P s (stopTail a ok s) :=
  .of ((Reach.blk _ s (by constructor <;> simp)).trans (.unmap _)) (releaseRet_reach _ _)

theorem Reach.xferArm (msgs : List Msg) (s : State) : Reach P s (Machine.xferArm a msgs s) := by
  unfold Machine.xferArm Machine.ctlEnable
  simp only []
  refine Reach.trans ?_ (Reach.caller a _ _ fun _ _ => trivial)
  refine Reach.trans ?_ (Reach.mask _ legalMask_default)
  refine Reach.trans ?_ (Reach.blk _ _ (by constructor <;> simp))
  refine Reach.trans ?_ (Reach.touch _ _)
  refine Reach.trans ?_ (Reach.write _ _ _ (by decide))
  refine Reach.trans ?_ (Reach.write _ _ _ (by decide))
  refine Reach.trans ?_ (Reach.read _ _)
  exact Reach.write _ _ s (by decide)

theorem disabled_reach (u : DisableUse) (s : State) : FlowReach P s (disabled a u s) := by
  cases u with
  | bus => exact releaseRet_reach _ s
  | stop => exact stopTail_reach _ s
  | configure c => exact .of (.configureWrites s) (afterConfigure_reach _ _ _)
  | xfer msgs => exact .next (.xferArm msgs s)

theorem disableFailed_reach (u : DisableUse) (s : State) : FlowReach P s (disableFailed a u s) := by
  cases u with
  | bus => exact releaseRet_reach _ s
  | stop => exact stopTail_reach _ s
  | configure c => exact afterConfigure_reach _ _ s
  | xfer msgs => exact .of (.phase _ s) (releaseRet_reach _ _)

theorem disablePoll_reach (k : Nat) (u : DisableUse) (s : State) :
    FlowReach P s (disablePoll a k u s) := by
  unfold disablePoll
  simp only []
  split
  · exact .of ((Reach.read _ s).trans (.unacked _ _)) (disabled_reach _ _)
  · split
    · exact .next ((Reach.read _ s).trans (.park a _ _ fun _ => trivial))
    · exact .of ((Reach.read _ s).trans (.unacked _ _)) (disableFailed_reach _ _)

theorem ctlDisable_reach (u : DisableUse) (s : State) : FlowReach P s (ctlDisable a u s) :=
  .of (.write _ _ s (by decide)) (disablePoll_reach _ _ _)

theorem busRequest_reach (c : Cont) (hc : P → c.Checked) (body : Agent → State → Flow)
    (h : ∀ a t, FlowReach P t (body a t)) (s : State) : FlowReach P s (busRequest c body s) := by
  unfold busRequest
  split
  · exact ret_reach _ s
  · exact withGate_reach c _ s hc (h _)

theorem busEnableBody_reach (s : State) : FlowReach P s (busEnableBody a s) :=
  .of (.write _ _ s (by decide)) (releaseRet_reach _ _)

theorem busMaskBody_reach (s : State) : FlowReach P s (busMaskBody a s) :=
  .of (.mask s legalMask_zero) (releaseRet_reach _ _)

theorem busClearBody_reach (kind : Byte) (s : State) : FlowReach P s (busClearBody kind a s) := by
  unfold busClearBody
  split
  · exact .of (.touch _ s) (releaseRet_reach _ _)
  · exact releaseRet_reach _ s

theorem powerBody_reach (en : Bool) (s : State) : FlowReach P s (powerBody en a s) := by
  unfold powerBody
  split
  · exact .of (.blk _ s (by constructor <;> simp)) (releaseRet_reach _ _)
  · have h : Reach P s (Machine.unsetPages { s with blk := { s.blk with powered := true } }) :=
      (Reach.blk _ s (by constructor <;> simp)).trans (.unsetPages _)
    simp only []
    refine .of h ?_
    split
    · exact ctlDisable_reach _ _
    · exact releaseRet_reach _ _

/-! ### The transfer engine -/

theorem Cont.checked_of_validate {b : Bus} {msgs : List Msg} {count : Half}
    (h : validate b msgs count = none) : count.toNat = msgs.length ∧ msgsValid msgs = true := by
  unfold validate at h
  split at h
  · cases h
  · split at h
    · cases h
    · next hc =>
      split at h
      · cases h
      · split at h
        · cases h
        · next hv =>
          simp only [not_or, not_not] at hc
          exact ⟨hc.2.1, by simpa using hv⟩

theorem xferInit_reach (msgs : List Msg) (count : Half) (s : State)
    (h : P → count.toNat = msgs.length ∧ msgsValid msgs = true) :
    FlowReach P s (xferInit a msgs count s) := by
  refine .of (Reach.one (.blk (xferReset msgs count s).blk ?_)) (ctlDisable_reach _ _)
  exact .begin _ (fun x => ⟨(h x).2, (h x).1⟩) rfl ⟨rfl, rfl⟩ ⟨rfl, rfl⟩ rfl

theorem busyPoll_reach (msgs : List Msg) (count : Half) (s : State)
    (h : P → count.toNat = msgs.length ∧ msgsValid msgs = true) :
    FlowReach P s (busyPoll a msgs count s) := by
  unfold busyPoll
  simp only []
  refine .of (.read .status s) ?_
  split
  · exact xferInit_reach msgs count _ h
  · split
    · exact .of (.phase _ _) (releaseRet_reach _ _)
    · refine .next ?_
      refine Reach.trans (Reach.blk _ _ ?_) (.park a (.sleep (.busy msgs count)) _ h)
      constructor <;> simp

theorem xferGated_reach (msgs : List Msg) (count : Half) (s : State)
    (h : P → count.toNat = msgs.length ∧ msgsValid msgs = true) :
    FlowReach P s (xferGated a msgs count s) := by
  unfold xferGated
  split
  · exact .of (.phase _ s) (releaseRet_reach _ _)
  · refine .of (Reach.blk _ s ?_) (busyPoll_reach msgs count _ h)
    constructor <;> simp

theorem xferStart_reach (msgs : List Msg) (count : Half) (s : State) :
    FlowReach P s (xferStart a msgs count s) := by
  unfold xferStart
  split
  · exact ret_reach _ s
  · next h =>
    have hc := Cont.checked_of_validate h
    exact withGate_reach (.xferGate msgs count) _ s (fun _ => hc) fun t => xferGated_reach msgs count t fun _ => hc

theorem unwind_reach (s : State) : FlowReach P s (unwind a s) := by
  refine .of ((Reach.mask s legalMask_zero).trans (Reach.one (.blk (unwindFields _).blk ?_)))
    (releaseRet_reach _ _)
  exact .clear _ ⟨rfl, rfl, rfl⟩ ⟨rfl, rfl⟩ ⟨rfl, rfl⟩ rfl

theorem Reach.endWait (a : Agent) (s : State) : Reach P s (Machine.endWait a s) :=
  .caller a _ s fun _ _ => trivial

theorem Reach.wake (a : Agent) (s : State) : Reach P s (Machine.wake a s) := by
  unfold Machine.wake
  split
  · exact (Reach.phase _ s).trans (.endWait a _)
  · exact .refl s

theorem execEvtTimeout_reach (s : State) : FlowReach P s (execEvtTimeout s) := by
  unfold execEvtTimeout
  split
  · split
    · refine .next (Reach.trans (Reach.blk _ s ?_) (.endWait _ _))
      constructor <;> simp
    · exact .next (.refl s)
  · exact .next (.refl s)

theorem execI2cTransfer_reach (s : State) : FlowReach P s (execI2cTransfer s) :=
  .of (.push _ _ s) (xferStart_reach _ _ _)

/-! ### The SMBus mapper -/

theorem smbusXfer_reach (size : SizeClass) (rw : Bool) (s : State) :
    FlowReach P s (smbusXfer size rw a s) := by
  unfold smbusXfer
  simp only []
  split
  · exact ret_reach _ s
  · split
    · exact ret_reach _ s
    · split
      · exact ret_reach _ s
      · exact .of ((Reach.bytes _ _ s).trans (.push a _ _)) (xferStart_reach _ _ _)

theorem smbusRequest_reach (size : SizeClass) (rw : Bool) (s : State) :
    FlowReach P s (smbusRequest size rw s) := smbusXfer_reach size rw s

theorem gatedBody_reach (size : SizeClass) (rw : Bool) (s : State) :
    FlowReach P s (gatedBody size rw a s) :=
  .of (.push a _ s) (smbusXfer_reach _ _ _)

theorem gatedRequest_reach (size : SizeClass) (rw : Bool) (s : State) :
    FlowReach P s (gatedRequest size rw s) :=
  withGate_reach (.gated size rw) _ s (fun _ => trivial) fun t => gatedBody_reach size rw t

/-! ### RMI4 -/

theorem setPageBody_reach (dev : Nat) (page : Byte) (s : State) :
    FlowReach P s (setPageBody dev page a s) :=
  .of ((Reach.bytes _ _ s).trans (.push a _ _)) (xferStart_reach _ _ _)

theorem blockBody_reach (blk : Block) (s : State) : FlowReach P s (blockBody blk a s) := by
  unfold blockBody
  simp only []
  refine .of (.push a [.block] s) ?_
  split
  all_goals exact .of (.bytes _ _ _) (xferStart_reach _ _ _)

theorem accessBody_reach (blk : Block) (s : State) : FlowReach P s (accessBody blk a s) := by
  unfold accessBody
  simp only []
  split
  · exact blockBody_reach blk s
  · exact .of (.push a _ s)
      (withGate_reach (.setPage _ _) _ _ (fun _ => trivial) fun t => setPageBody_reach _ _ t)

theorem blockAccess_reach (blk : Block) (s : State) : FlowReach P s (blockAccess blk a s) := by
  unfold blockAccess
  split
  · exact ret_reach _ s
  · exact withGate_reach (.access blk) _ s (fun _ => trivial) fun t => accessBody_reach blk t

theorem probeBody_reach (dev pos : Nat) (found : List FnDesc) (s : State) :
    FlowReach P s (probeBody dev pos found a s) :=
  .of (.push a _ s) (blockAccess_reach _ _)

theorem f01Body_reach (dev : Nat) (base : Half) (todo : List (Half × List Byte)) (s : State) :
    FlowReach P s (f01Body dev base todo a s) := by
  unfold f01Body
  split
  · exact releaseRet_reach _ s
  · exact .of (.push a _ s) (blockAccess_reach _ _)

theorem rmiRequest_reach (body : State → Flow) (h : ∀ t, FlowReach P t (body t)) (s : State) :
    FlowReach P s (rmiRequest body s) := by
  unfold rmiRequest
  split
  · exact ret_reach _ s
  · exact h s

/-! ### Lifecycle -/

theorem startBody_reach (prov : Provider) (s : State) : FlowReach P s (startBody prov a s) := by
  unfold startBody
  split
  · exact releaseRet_reach _ s
  · next base size _ =>
    have h : Reach P s { s with blk := { s.blk with
        regBase := some base, regSize := some size, mapped := true } } :=
      Reach.blk _ s (by constructor <;> simp)
    simp only []
    refine .of h ?_
    split
    · exact .of (.unmap _) (releaseRet_reach _ _)
    · refine .of (Reach.blk _ _ ?_) (ctlDisable_reach _ _)
      constructor <;> simp

theorem stopBody_reach (s : State) : FlowReach P s (stopBody a s) := by
  unfold stopBody
  split
  · exact .of (.mask s legalMask_zero) (ctlDisable_reach _ _)
  · exact stopTail_reach _ s

/-! ### The interrupt handler -/

/-- `mapBlk` as an update of the bus record. -/
theorem Reach.mapBlk {f : Bus → Bus} (s : State) (h : BlkStep P s.blk (f s.blk)) :
    Reach P s (s.mapBlk f) := .one (.blk _ h)

theorem Reach.mapOther {f : Bus → Bus} (s : State) (h : s.blk.SameCursors (f s.blk)) :
    Reach P s (s.mapBlk f) := .mapBlk s (.other _ h)

theorem Reach.signal (s : State) : Reach P s (signalCompletion s) :=
  .blk _ s (by constructor <;> simp)

theorem Reach.msgErr (e : MsgErr) (s : State) : Reach P s (setMsgErr e s) :=
  .mapOther s (by constructor <;> simp)

theorem Reach.clearAbort (stat : Word) (s : State) : Reach P s (Machine.clearAbort stat s) := by
  unfold Machine.clearAbort
  split
  · simp only []
    refine Reach.trans (Reach.read .txAbrtSource s) ?_
    refine Reach.trans (Reach.blk _ _ ?_) (.touch _ _)
    constructor <;> simp
  · exact .refl s

theorem Reach.clearBits (stat : Word) (l : List (Nat × Reg)) (s : State) :
    Reach P s (Machine.clearBits stat l s) := by
  induction l generalizing s with
  | nil => exact .refl s
  | cons e l ih =>
    obtain ⟨k, r⟩ := e
    simp only [Machine.clearBits]
    split
    · exact (Reach.touch r s).trans (ih _)
    · exact ih s

theorem Reach.clearLatched (stat : Word) (s : State) : Reach P s (Machine.clearLatched stat s) := by
  unfold Machine.clearLatched
  simp only []
  split
  · exact ((Reach.clearAbort stat s).trans (.clearBits _ _ _)).trans (.touch _ _)
  · exact (Reach.clearAbort stat s).trans (.clearBits _ _ _)

theorem Reach.endHandler (s : State) : Reach P s (Machine.endHandler s) := by
  unfold Machine.endHandler
  split
  · exact ((Reach.mask s legalMask_zero).trans (.signal _)).trans (.handler none _)
  · exact .handler none s

theorem Reach.nextBranch (stat : Word) (s : State) : Reach P s (Machine.nextBranch stat s) := by
  unfold Machine.nextBranch
  split
  · exact .endHandler s
  · exact .handler _ s

theorem Reach.takeIrq (s : State) : Reach P s (Machine.takeIrq s) := by
  unfold Machine.takeIrq Machine.idleBranch
  split
  · exact (Reach.touch _ s).trans (.mask _ legalMask_zero)
  · simp only []
    split
    · exact ((Reach.read .intrStat s).trans (.clearLatched _ _)).trans (.endHandler _)
    · exact ((Reach.read .intrStat s).trans (.clearLatched _ _)).trans (.handler _ _)

theorem issueWord_reach (w : Word) (rd : Bool) (s : State)
    (h : s.blk.txOff < s.blk.lens.getD s.blk.msgWriteIdx 0) : Reach P s (issueWord w rd s) := by
  refine (Reach.write .dataCmd w s (by decide)).trans (.mapBlk _ ?_)
  exact .issue _ (by simpa using h)

theorem issueWords_reach (limit : Nat) (s : State) : FlowReach P s (issueWords limit s) := by
  induction limit generalizing s with
  | zero => exact .next (.refl s)
  | succ n ih =>
    simp only [issueWords]
    split
    · exact .next (.refl s)
    · next hlt =>
      split
      · split
        · exact .next (.refl s)
        · exact .of (issueWord_reach _ _ s (by simpa using hlt)) (ih _)
      · split
        · exact .fault _
        · exact .of (issueWord_reach _ _ s (by simpa using hlt)) (ih _)

/-- The inner loop keeps the write cursor's message and the message count. -/
theorem issueWords_cursor (limit : Nat) (s t : State) (h : issueWords limit s = .next t) :
    t.blk.msgWriteIdx = s.blk.msgWriteIdx ∧ t.blk.msgsNum = s.blk.msgsNum := by
  induction limit generalizing s with
  | zero => cases h; exact ⟨rfl, rfl⟩
  | succ n ih =>
    simp only [issueWords] at h
    split at h
    · cases h; exact ⟨rfl, rfl⟩
    · split at h
      · split at h
        · cases h; exact ⟨rfl, rfl⟩
        · simpa [issueWord] using ih _ h
      · split at h
        · cases h
        · simpa [issueWord] using ih _ h

theorem refillLoop_reach (n : Nat) (s : State) : FlowReach P s (refillLoop n s) := by
  induction n generalizing s with
  | zero => exact .next (.refl s)
  | succ n ih =>
    simp only [refillLoop]
    split
    · exact .next (.refl s)
    · next hc =>
      have h0 : Reach P s (regRead .txflr (s.mapBlk fun b =>
          { b with status := (msgAt s.blk.msgs s.blk.msgWriteIdx).dir })).2 :=
        (Reach.mapOther s (by constructor <;> simp)).trans (.read _ _)
      refine .of h0 ?_
      intro u e
      obtain ⟨t, h1, h2⟩ := Flow.andThen_eq_next e
      have hi : t.blk.msgWriteIdx = s.blk.msgWriteIdx ∧ t.blk.msgsNum = s.blk.msgsNum := by
        have := issueWords_cursor _ _ _ h1
        simpa using this
      refine (issueWords_reach _ _ t h1).trans ?_
      split at h2
      · cases h2; exact .refl _
      · split at h2
        · cases h2; exact .mapOther _ (by constructor <;> simp)
        · refine Reach.trans (.mapBlk t ?_) (ih _ u h2)
          have := BlkStep.next (P := P) (b := t.blk) (by rw [hi.1, hi.2]; simp at hc; exact hc.1)
          rw [hi.1] at this
          exact this

theorem Reach.maskTxEmpty (s : State) : Reach P s (Machine.maskTxEmpty s) := by
  unfold Machine.maskTxEmpty
  split
  · exact .mask s legalMask_noTxEmpty
  · exact .refl s

theorem txRefill_reach (s : State) : FlowReach P s (txRefill s) :=
  (refillLoop_reach _ s).andThen fun t => .next (.maskTxEmpty t)

/-- One byte of the drain: while no error is found (42_interrupt_fifo.md R300, R302). -/
theorem drainByte_reach (s : State) (he : s.blk.msgErr = .none) : FlowReach P s (drainByte s) := by
  unfold drainByte
  simp only []
  have h0 : Reach P s ((regRead .dataCmd (s.mapBlk skipAtCursor)).2.mapBlk fun k =>
      { k with rxOutstanding := k.rxOutstanding - 1 }) :=
    ((Reach.mapBlk s .skip).trans (.read _ _)).trans (.mapOther _ (by constructor <;> simp))
  have he0 : ((regRead .dataCmd (s.mapBlk skipAtCursor)).2.mapBlk fun k =>
      { k with rxOutstanding := k.rxOutstanding - 1 }).blk.msgErr = .none := by
    simp only [mapBlk_blk, regRead_blk, skipAtCursor]
    split <;> exact he
  generalize (regRead .dataCmd (s.mapBlk skipAtCursor)).1 = w
  generalize ((regRead .dataCmd (s.mapBlk skipAtCursor)).2.mapBlk fun k =>
      { k with rxOutstanding := k.rxOutstanding - 1 }) = t at h0 he0 ⊢
  refine .of h0 ?_
  split
  · exact .next (.msgErr _ t)
  · next hi =>
    split
    · next hr =>
      unfold recvLength
      split
      · exact .next ((Reach.msgErr _ t).trans (by
          rw [passMessage, if_neg]; exact .refl _
          simp [setMsgErr]))
      · next hl =>
        split
        · exact .fault _
        · next m hm =>
          refine .next ?_
          have h1 : Reach P t { t with mem := m } := .memWrite t hm
          have h2 : Reach P { t with mem := m } { t with mem := m, blk := { t.blk with
              rxOff := 1, lens := t.blk.lens.set t.blk.msgReadIdx (1 + (BitVec.setWidth 8 w).toNat),
              recvPending := false, holdForLen := false } } :=
            .one (.blk _ (.length _ hr.2.1 hr.1 (by simpa using hl)))
          refine (h1.trans h2).trans ((Reach.mask _ legalMask_default).trans ?_)
          generalize hv : writeMask defaultMask { t with mem := m, blk := { t.blk with
              rxOff := 1, lens := t.blk.lens.set t.blk.msgReadIdx (1 + (BitVec.setWidth 8 w).toNat),
              recvPending := false, holdForLen := false } } = v
          have hvi : v.blk.msgReadIdx = t.blk.msgReadIdx ∧ v.blk.msgsNum = t.blk.msgsNum := by
            rw [← hv]; simp
          unfold passMessage
          split
          · have := BlkStep.pass (P := P) (b := v.blk) (by rw [hvi.1, hvi.2]; exact hi)
            rw [hvi.1] at this
            exact .mapBlk v this
          · exact .refl _
    · unfold storeByte
      split
      · exact .fault _
      · next m hm =>
        refine .next ?_
        have h1 : Reach P t { t with mem := m } := .memWrite t hm
        refine h1.trans ?_
        unfold passMessage
        by_cases hx : t.blk.rxOff + 1 = t.blk.lens.getD t.blk.msgReadIdx 0
        · rw [if_pos ⟨he0, hx⟩]
          exact .one (.blk _ (.pass hi))
        · rw [if_neg (fun h => hx h.2)]
          exact .one (.blk _ (.store hx))

theorem drainLoop_reach (n : Nat) (s : State) : FlowReach P s (drainLoop n s) := by
  induction n generalizing s with
  | zero => exact .next (.refl s)
  | succ n ih =>
    simp only [drainLoop]
    split
    · exact .next (.refl s)
    · next he => exact (drainByte_reach s (by simpa using he)).andThen ih

theorem rxDrain_reach (s : State) : FlowReach P s (rxDrain s) :=
  .of (.read _ s) (drainLoop_reach _ _)

theorem Reach.endBranch (k : Nat) (s : State) : Reach P s (Machine.endBranch k s) := .nextBranch _ s

theorem execIrqTxAbrt_reach (s : State) : FlowReach P s (execIrqTxAbrt s) :=
  .next ((((Reach.mapOther s (by constructor <;> simp)).trans (.mask _ legalMask_zero)).trans
    (.signal _)).trans (.handler none _))

theorem execIrqRxFull_reach (s : State) : FlowReach P s (execIrqRxFull s) :=
  (rxDrain_reach s).andThen fun t => .next (.endBranch 2 t)

theorem execIrqTxEmpty_reach (s : State) : FlowReach P s (execIrqTxEmpty s) := by
  unfold execIrqTxEmpty
  split
  · exact .next (.endBranch 4 s)
  · exact (txRefill_reach s).andThen fun t => .next (.endBranch 4 t)

theorem Reach.stopDetBranch (s : State) : Reach P s (Machine.stopDetBranch s) := by
  unfold Machine.stopDetBranch
  simp only []
  split
  · exact ((Reach.msgErr _ s).trans (.mask _ legalMask_zero)).trans (.signal _)
  · exact (Reach.mask s legalMask_zero).trans (.signal _)

theorem execIrqStopDet_reach (s : State) : FlowReach P s (execIrqStopDet s) := by
  unfold execIrqStopDet
  split
  · exact .next (.endBranch 9 s)
  · exact .next ((Reach.stopDetBranch s).trans (.endBranch 9 _))

/-! ### Instructions and moves -/

theorem runCont_reach (c : Cont) (s : State) (h : P → c.Checked) : FlowReach P s (runCont a c s) := by
  cases c with
  | xfer msgs count => exact xferStart_reach _ _ s
  | xferGate msgs count => exact xferGated_reach _ _ s h
  | busy msgs count => exact busyPoll_reach _ _ s h
  | disable k u => exact disablePoll_reach _ _ s
  | busEnable => exact busEnableBody_reach s
  | busDisable => exact ctlDisable_reach _ s
  | busConfigure => exact ctlDisable_reach _ s
  | busMask => exact busMaskBody_reach s
  | busClear kind => exact busClearBody_reach kind s
  | power en => exact powerBody_reach en s
  | start prov => exact startBody_reach prov s
  | stop => exact stopBody_reach s
  | gated size rw => exact gatedBody_reach _ _ s
  | setPage dev page => exact setPageBody_reach _ _ s
  | access blk => exact accessBody_reach blk s
  | block blk => exact blockBody_reach blk s
  | probe dev pos found => exact probeBody_reach _ _ _ s
  | f01 dev base todo => exact f01Body_reach _ _ _ s

/-! ### One lemma per instruction that is not one shared operation -/

theorem execBusEnable_reach (s : State) : FlowReach P s (execBusEnable s) :=
  busRequest_reach .busEnable (fun _ => trivial) busEnableBody (fun _ t => busEnableBody_reach t) s

theorem execBusDisable_reach (s : State) : FlowReach P s (execBusDisable s) :=
  busRequest_reach .busDisable (fun _ => trivial) busDisableBody (fun _ t => ctlDisable_reach .bus t) s

theorem execBusConfigure_reach (s : State) : FlowReach P s (execBusConfigure s) :=
  busRequest_reach .busConfigure (fun _ => trivial) busConfigureBody
    (fun _ t => ctlDisable_reach (.configure .bus) t) s

theorem execBusMaskIntr_reach (s : State) : FlowReach P s (execBusMaskIntr s) :=
  busRequest_reach .busMask (fun _ => trivial) busMaskBody (fun _ t => busMaskBody_reach t) s

theorem execBusClearIntr_reach (s : State) : FlowReach P s (execBusClearIntr s) :=
  busRequest_reach (.busClear _) (fun _ => trivial) (busClearBody _)
    (fun _ t => busClearBody_reach _ t) s

theorem execBusPower_reach (s : State) : FlowReach P s (execBusPower s) :=
  withGate_reach (.power _) (powerBody _ s.cur) s (fun _ => trivial) fun t => powerBody_reach _ t

theorem Caller.checked_ops (c : Caller) (o : Operands) (h : c.point.Checked) :
    Point.Checked ({ c with ops := o } : Caller).point := h

theorem giveTiming_reach (a : Agent) (o : TimingOut) (s : State) : Reach P s (giveTiming a o s) :=
  .caller a _ s fun _ h => Caller.checked_ops (s.agent a) _ h

theorem execTimingCompute_reach (s : State) : FlowReach P s (execTimingCompute s) := by
  show FlowReach P s (match timing s.par (s.opsOf s.cur).timing with
    | none => ret s.cur (Result.fail .configurationError) s
    | some o => ret s.cur (Result.okValue 0#32) (giveTiming s.cur o s))
  cases timing s.par (s.opsOf s.cur).timing with
  | none => exact ret_reach _ s
  | some o => exact .of (giveTiming_reach s.cur o s) (ret_reach _ _)

theorem execXfer_reach (s : State) : FlowReach P s (execXfer s) := xferStart_reach _ _ s

theorem unsupported_reach (s : State) : FlowReach P s (unsupported s) := ret_reach _ s

theorem execRmiSetPage_reach (s : State) : FlowReach P s (execRmiSetPage s) := by
  unfold execRmiSetPage
  exact rmiRequest_reach _ (fun t => withGate_reach (.setPage _ _) _ t (fun _ => trivial)
    fun u => setPageBody_reach _ _ u) s

theorem execRmiReadBlock_reach (s : State) : FlowReach P s (execRmiReadBlock s) := by
  unfold execRmiReadBlock
  exact rmiRequest_reach _ (fun t => blockAccess_reach _ t) s

theorem execRmiWriteBlock_reach (s : State) : FlowReach P s (execRmiWriteBlock s) := by
  unfold execRmiWriteBlock
  exact rmiRequest_reach _ (fun t => blockAccess_reach _ t) s

theorem execRmiProbe_reach (s : State) : FlowReach P s (execRmiProbe s) := by
  unfold execRmiProbe
  exact rmiRequest_reach _ (fun t => withGate_reach (.probe _ _ _) _ t (fun _ => trivial)
    fun u => probeBody_reach _ _ _ u) s

theorem execRmiF01Init_reach (s : State) : FlowReach P s (execRmiF01Init s) := by
  unfold execRmiF01Init
  refine rmiRequest_reach _ (fun t => ?_) s
  split
  · exact ret_reach _ t
  · exact withGate_reach (.f01 _ _ _) _ t (fun _ => trivial) fun u => f01Body_reach _ _ _ u

theorem execLifeStart_reach (s : State) : FlowReach P s (execLifeStart s) := by
  unfold execLifeStart
  simp only []
  split
  · exact ret_reach _ s
  · exact withGate_reach (.start _) _ s (fun _ => trivial) fun t => startBody_reach _ t

theorem execLifeStop_reach (s : State) : FlowReach P s (execLifeStop s) := by
  unfold execLifeStop
  split
  · exact ret_reach _ s
  · exact .of (.blk _ s (by constructor <;> simp))
      (withGate_reach .stop _ _ (fun _ => trivial) fun t => stopBody_reach t)

theorem execEvtIrq_reach (s : State) : FlowReach P s (execEvtIrq s) := by
  unfold execEvtIrq
  split
  · exact .next (.takeIrq s)
  · exact .next (.refl s)

theorem execDcWrite_reach (dat : Byte) (stop restart : Bool) (s : State) :
    FlowReach P s (execDcWrite dat stop restart s) := .next (.one (.sendByte dat stop restart))

theorem execDcRead_reach (stop restart : Bool) (s : State) :
    FlowReach P s (execDcRead stop restart s) := .next (.one (.readByte stop restart))

/-- Every instruction's next state is reached by primitives (00_scope.md R15). -/
theorem exec_reach (i : Instr) (s : State) : FlowReach P s (exec i s) := by
  cases i with
  | busEnable => exact execBusEnable_reach s
  | busDisable => exact execBusDisable_reach s
  | busConfigure => exact execBusConfigure_reach s
  | busMaskIntr => exact execBusMaskIntr_reach s
  | busClearIntr => exact execBusClearIntr_reach s
  | busPower => exact execBusPower_reach s
  | timingCompute => exact execTimingCompute_reach s
  | xfer => exact execXfer_reach s
  | i2cTransfer => exact execI2cTransfer_reach s
  | rmiSetPage => exact execRmiSetPage_reach s
  | rmiReadBlock => exact execRmiReadBlock_reach s
  | rmiWriteBlock => exact execRmiWriteBlock_reach s
  | rmiProbe => exact execRmiProbe_reach s
  | rmiF01Init => exact execRmiF01Init_reach s
  | lifeStart => exact execLifeStart_reach s
  | lifeStop => exact execLifeStop_reach s
  | evtIrq => exact execEvtIrq_reach s
  | evtTimeout => exact execEvtTimeout_reach s
  | irqTxAbrt => exact execIrqTxAbrt_reach s
  | irqRxFull => exact execIrqRxFull_reach s
  | irqTxEmpty => exact execIrqTxEmpty_reach s
  | irqStopDet => exact execIrqStopDet_reach s
  | smbusUnsupported size rw => exact unsupported_reach s
  | gatedUnsupported size rw => exact unsupported_reach s
  | dcWrite dat stop restart => exact execDcWrite_reach dat stop restart s
  | dcRead stop restart => exact execDcRead_reach stop restart s
  | smbusQuickW => exact smbusRequest_reach .quick false s
  | smbusQuickR => exact smbusRequest_reach .quick true s
  | smbusByteW => exact smbusRequest_reach .byte false s
  | smbusByteR => exact smbusRequest_reach .byte true s
  | smbusByteDataW => exact smbusRequest_reach .byteData false s
  | smbusByteDataR => exact smbusRequest_reach .byteData true s
  | smbusWordDataW => exact smbusRequest_reach .wordData false s
  | smbusWordDataR => exact smbusRequest_reach .wordData true s
  | smbusBlockDataW => exact smbusRequest_reach .blockData false s
  | smbusBlockDataR => exact smbusRequest_reach .blockData true s
  | smbusI2cBlockDataW => exact smbusRequest_reach .i2cBlockData false s
  | smbusI2cBlockDataR => exact smbusRequest_reach .i2cBlockData true s
  | gatedQuickW => exact gatedRequest_reach .quick false s
  | gatedQuickR => exact gatedRequest_reach .quick true s
  | gatedByteW => exact gatedRequest_reach .byte false s
  | gatedByteR => exact gatedRequest_reach .byte true s
  | gatedByteDataW => exact gatedRequest_reach .byteData false s
  | gatedByteDataR => exact gatedRequest_reach .byteData true s
  | gatedWordDataW => exact gatedRequest_reach .wordData false s
  | gatedWordDataR => exact gatedRequest_reach .wordData true s
  | gatedBlockDataW => exact gatedRequest_reach .blockData false s
  | gatedBlockDataR => exact gatedRequest_reach .blockData true s
  | gatedI2cBlockDataW => exact gatedRequest_reach .i2cBlockData false s
  | gatedI2cBlockDataR => exact gatedRequest_reach .i2cBlockData true s

/-- What the next step's instruction starts from, or the move's outcome, is reached by primitives. -/
def FetchedReach (P : Prop) (s : State) : Fetched → Prop
  | .instr _ u => Reach P s u
  | .move o => FlowReach P s o

theorem lookupAgent_checked {l : List (Agent × Caller)} (h : ∀ e ∈ l, e.2.point.Checked)
    (a : Agent) : (lookupAgent l a).point.Checked := by
  induction l with
  | nil => exact trivial
  | cons e l ih =>
    obtain ⟨x, c⟩ := e
    simp only [lookupAgent]
    split
    · exact h (x, c) (by simp)
    · exact ih fun e he => h e (by simp [he])

/-- Every requester's place is one its rule can have reached. -/
def State.PointsChecked (s : State) : Prop := ∀ a, (s.agent a).point.Checked

theorem resumeAgent_reach (a : Agent) (s : State) (h : P → s.PointsChecked) :
    FlowReach P s (resumeAgent a s) := by
  have hp : Reach P s (park a .idle s) := .park a _ s fun _ => trivial
  unfold resumeAgent
  split
  · next c e =>
    exact .of hp (runCont_reach c _ fun x => by have := h x a; rw [e] at this; exact this)
  · next c e =>
    exact .of hp (runCont_reach c _ fun x => by have := h x a; rw [e] at this; exact this)
  · exact .of hp (unwind_reach _)
  all_goals exact .next (.refl s)

theorem grantGate_reach (a : Agent) (s : State) (h : P → s.PointsChecked) :
    FlowReach P s (grantGate a s) := by
  unfold grantGate
  split
  · next c g e hg =>
    refine .of ((Reach.one (.gate g ⟨a, .inr (.inr (.inl hg))⟩)).trans
      (.park a .idle _ fun _ => trivial)) (runCont_reach c _ fun x => ?_)
    have := h x a
    rw [e] at this
    exact this
  · exact .next (.refl s)

theorem submit_reach (a : Agent) (w : Word) (ops : Operands) (s : State) :
    FetchedReach P s (submit a w ops s) := by
  unfold submit
  split
  · exact FlowReach.next (.refl s)
  · split
    · exact FlowReach.fault _
    · split
      · next i _ =>
        exact (Reach.caller a (Caller.submitted i ops) s fun _ _ => trivial).trans
          (.one (.book a _ _ _ _))
      · exact FlowReach.next (.post a _ s)

theorem takeMove_reach (m : Move) (s : State) (h : P → s.PointsChecked)
    (hm : ∀ draw, m ≠ .attach draw) : FetchedReach P s (takeMove m s) := by
  cases m with
  | request a w ops => exact submit_reach a w ops s
  | event w =>
    simp only [takeMove]
    split
    · exact Reach.refl s
    · exact FlowReach.refused _
  | wake a => exact FlowReach.next (.wake a s)
  | resume a => exact resumeAgent_reach a s h
  | grant a => exact grantGate_reach a s h
  | ctl m =>
    cases m with
    | take ans =>
      simp only [takeMove, takeWord]
      split
      · split
        · exact Reach.one (.pop ans)
        · exact FlowReach.next (.one (.pop ans))
      · exact FlowReach.next (.refl s)
    | emptyFifo => exact FlowReach.next (.one (.ctl .emptyFifo))
    | arbLost src => exact FlowReach.next (.one (.ctl (.arbLost src)))
    | finishDisable => exact FlowReach.next (.one (.ctl .finishDisable))
    | busy b => exact FlowReach.next (.one (.ctl (.busy b)))
    | latch k => exact FlowReach.next (.one (.ctl (.latch k)))
    | targetReg addr a b => exact FlowReach.next (.one (.ctl (.targetReg addr a b)))
    | targetPage addr page => exact FlowReach.next (.one (.ctl (.targetPage addr page)))
  | store a n off b =>
    simp only [takeMove, storeBuf]
    split
    · exact FlowReach.fault _
    · split
      · exact FlowReach.next (.one (.store _ _))
      · exact FlowReach.fault _
  | relist a msgs =>
    simp only [takeMove, changeList]
    split
    · exact FlowReach.next (.refl s)
    · split
      · exact FlowReach.fault _
      · exact FlowReach.next (.caller a _ s fun _ h => Caller.checked_ops (s.agent a) _ h)
  | newDevice addr => exact FlowReach.next (.devs _ s)
  | newTarget addr page => exact FlowReach.next (.one (.target addr page))
  | powerLoss draw =>
    simp only [takeMove, losePower]
    split
    · exact FlowReach.next (.one (.lose draw))
    · exact FlowReach.next (.refl s)
  | attach draw => exact absurd rfl (hm draw)
  | detach =>
    simp only [takeMove, detachBus]
    split
    · exact FlowReach.fault _
    · exact FlowReach.next (.attached false s)

/-- Everything a step can do: primitives, or the creation of S (45_lifecycle.md R393). `P` may assume that
the requesters' places are ones their rules reach. -/
theorem step_reach (s t : State) (h : P → s.PointsChecked) (e : step s = .next t) :
    Reach P s t ∨ (s.handler = none ∧ s.running = none ∧
      ∃ draw ms, s.sched = .attach draw :: ms ∧ t = attachBus draw { s with sched := ms }) := by
  have main : ∀ f, FetchedReach P s f →
      (match f with | .instr i u => exec i u | .move o => o) = .next t → Reach P s t := by
    intro f hf hx
    cases f with
    | instr i u => exact Reach.trans hf (exec_reach i u t hx)
    | move o => exact hf t hx
  unfold step at e
  generalize hf : fetch s = f at e
  unfold fetch at hf
  split at hf
  · subst hf; cases e
  · split at hf
    · next stat _ =>
      left
      refine main f ?_ e
      subst hf
      split
      · exact Reach.refl s
      · exact FlowReach.next (.endHandler s)
    · next hh =>
      split at hf
      · next a _ =>
        left
        refine main f ?_ e
        subst hf
        exact FlowReach.of (Reach.running none s) (resumeAgent_reach a _ h)
      · next hr =>
        split at hf
        · left; refine main f ?_ e; subst hf; exact FlowReach.next (.refl s)
        · next m ms hs =>
          by_cases hm : ∃ draw, m = .attach draw
          · obtain ⟨draw, rfl⟩ := hm
            right
            refine ⟨hh, hr, draw, ms, hs, ?_⟩
            subst hf
            simp only [takeMove] at e
            cases e
            rfl
          · left
            refine main f ?_ e
            have h1 := takeMove_reach (P := P) m { s with sched := ms } h
              (fun d x => hm ⟨d, x⟩)
            have h2 : Reach P s { s with sched := ms } := .sched ms s
            cases f with
            | instr i u => rw [hf] at h1; exact h2.trans h1
            | move o => rw [hf] at h1; exact FlowReach.of h2 h1

end Sys2Proof.Machine
end

