-- ==== Sys2Proof/Laws/Atomic.lean ====
section
/-!
SUPPORT. The level of 00_scope.md R18: every step of the machine is a run of atomic steps, each one register
access, one buffer access, one internal update or one step of Ctl, and the accesses of a run stand in
`State.io` in their order.
-/

namespace Sys2Proof.Machine

variable {P : Prop} {s t u : State}

theorem AtomicRun.one (p : AtomicStep s t) : AtomicRun s t := (AtomicRun.refl s).tail p

theorem AtomicRun.trans (h : AtomicRun s t) (k : AtomicRun t u) : AtomicRun s u := by
  induction k with
  | refl => exact h
  | tail _ p ih => exact ih.tail p

theorem AtomicRun.moves (ms : List CtlMove) (s : State) :
    AtomicRun s { s with ctl := Ctl.moves s.par ms s.ctl } := by
  induction ms generalizing s with
  | nil => exact .refl s
  | cons m ms ih =>
    exact (AtomicRun.one (.ctl m)).trans (ih { s with ctl := Ctl.move s.par m s.ctl })

/-- Ctl's turn before an access is steps of Ctl. -/
theorem AtomicRun.ctlTurn (s : State) : AtomicRun s (Machine.ctlTurn s) := by
  unfold Machine.ctlTurn
  split
  · exact .refl s
  · next ms rest _ =>
    exact (AtomicRun.moves ms s).tail (.place s.cur s.handler s.running s.sched rest s.attached)

theorem AtomicRun.read (r : Reg) (s : State) : AtomicRun s (regRead r s).2 := by
  refine (AtomicRun.ctlTurn s).trans ?_
  have := AtomicStep.read (s := Machine.ctlTurn s) r
  unfold regRead
  cases h : Ctl.readValue (Machine.ctlTurn s).par r (Machine.ctlTurn s).ctl <;>
    simp only [h] at this ⊢ <;> exact .one this

theorem AtomicRun.write (r : Reg) (v : Word) (s : State) : AtomicRun s (regWrite r v s) :=
  (AtomicRun.ctlTurn s).tail (.write r v)

/-- A primitive update is a run of atomic steps. -/
theorem Prim.run (p : Prim P s t) : AtomicRun s t := by
  cases p with
  | read r => exact .read r s
  | write r v _ => exact .write r v s
  | gate g _ => exact .one (.bus { s.blk with gate := g })
  | blk b _ => exact .one (.bus b)
  | caller a c _ => exact .one (.caller a c)
  | store x b => exact .one (.store x b)
  | devs d => exact .one (.devs d)
  | book cur handler running sched attached =>
    exact .one (.place cur handler running sched s.ctlPlan attached)
  | ctl m => exact .one (.ctl m)
  | pop ans => exact .one (.pop ans)
  | sendByte dat stop restart => exact .one (.sendByte dat stop restart)
  | readByte stop restart => exact .one (.readByte stop restart)
  | target addr page => exact .one (.target addr page)
  | lose draw => exact .one (.lose draw)

theorem Reach.run (h : Reach P s t) : AtomicRun s t := by
  induction h with
  | refl => exact .refl _
  | tail _ p ih => exact ih.trans p.run

/-- A step of the machine is a run of atomic steps (00_scope.md R10, R18). -/
theorem step_run (h : step s = .next t) : AtomicRun s t := by
  rcases step_reach (P := False) s t False.elim h with h | ⟨_, _, draw, ms, _, rfl⟩
  · exact h.run
  · exact (AtomicRun.one (.place s.cur s.handler s.running ms s.ctlPlan s.attached)).tail (.attach draw)

/-- An instruction's effect is a run of atomic steps. -/
theorem exec_run (i : Instr) (h : exec i s = .next t) : AtomicRun s t :=
  (exec_reach (P := False) i s t h).run

/-- An atomic step records at most one access, as the newest. -/
theorem AtomicStep.io (p : AtomicStep s t) : t.io = s.io ∨ ∃ x, t.io = x :: s.io := by
  cases p with
  | read r => exact .inr ⟨_, rfl⟩
  | write r v => exact .inr ⟨_, rfl⟩
  | attach draw => left; unfold attachBus; split <;> rfl
  | _ => exact .inl rfl

/-- What holds at the start of a run and is kept by atomic steps holds at each of its states. -/
theorem AtomicRun.induct {Q : State → Prop} (h : AtomicRun s t) (h0 : Q s)
    (keep : ∀ u v, Q u → AtomicStep u v → Q v) : Q t := by
  induction h with
  | refl => exact h0
  | tail _ p ih => exact keep _ _ ih p

/-- The accesses of a run follow those before it. -/
theorem AtomicRun.io (h : AtomicRun s t) : s.io <:+ t.io :=
  h.induct (Q := fun u => s.io <:+ u.io) (List.suffix_refl _) fun _ _ hu p => by
    rcases p.io with e | ⟨x, e⟩
    · exact e ▸ hu
    · exact e ▸ hu.trans (List.suffix_cons x _)

/-- Every atomic step keeps the buffers' memory in its canonical form, between accesses too. -/
theorem AtomicRun.memWf (h : AtomicRun s t) (h0 : s.mem.wf = true) : t.mem.wf = true :=
  h.induct (Q := fun u => u.mem.wf = true) h0 fun _ _ hu p => by
    cases p with
    | store x b => exact Memory.wf_write _ _ _ hu
    | attach draw => unfold attachBus; split <;> exact hu
    | _ => exact hu

end Sys2Proof.Machine
end

