-- ==== Sys2Proof/Laws/Transfer.lean ====
section
/-!
SUPPORT. The laws of a transfer's beginning and end: what XFER step 1 accepts, what an accepted transfer on a
free bus leaves, and, however a step comes to them, its STATUS poll and its result (41_transfer_engine.md
R242 to R245, R256).
-/

namespace Sys2Proof.Machine

variable {s : State} {a : Agent}

/-! ### Step 1 -/

theorem getLsbD_of_and_not {f : Half} :
    (f &&& ~~~(flagRd ||| flagTen ||| flagRecvLen) = 0#16) ↔
      ¬ ∃ k, f.getLsbD k = true ∧ k ≠ 0 ∧ k ≠ 4 ∧ k ≠ 10 := by
  have hm : ∀ k, (~~~(flagRd ||| flagTen ||| flagRecvLen) : Half).getLsbD k =
      decide (k < 16 ∧ k ≠ 0 ∧ k ≠ 4 ∧ k ≠ 10) := by
    intro k
    by_cases hk : k < 16
    · have : ∀ j : Fin 16, (~~~(flagRd ||| flagTen ||| flagRecvLen) : Half).getLsbD j.val =
          decide (j.val < 16 ∧ j.val ≠ 0 ∧ j.val ≠ 4 ∧ j.val ≠ 10) := by decide
      exact this ⟨k, hk⟩
    · rw [BitVec.getLsbD_of_ge _ _ (by omega)]; simp [hk]
  constructor
  · rintro h ⟨k, hk, h0, h4, h10⟩
    have := congrArg (BitVec.getLsbD · k) h
    simp only [BitVec.getLsbD_and, hk, hm, h0, h4, h10, Bool.true_and, ne_eq, not_false_eq_true,
      and_true, BitVec.getLsbD_zero, decide_eq_false_iff_not, not_lt] at this
    rw [BitVec.getLsbD_of_ge _ _ (by omega)] at hk
    cases hk
  · intro h
    apply BitVec.eq_of_getLsbD_eq
    intro k hk
    simp only [BitVec.getLsbD_and, hm, BitVec.getLsbD_zero]
    by_cases hf : f.getLsbD k = true
    · have : k = 0 ∨ k = 4 ∨ k = 10 := by
        by_contra hc
        exact h ⟨k, hf, by omega, by omega, by omega⟩
      rcases this with rfl | rfl | rfl <;> simp
    · simp [hf]

theorem extract_high_zero {v : Half} {i n : Nat} (hn : i + n = 16) :
    (v.extractLsb' i n = 0#n) ↔ ¬ ∃ k, i ≤ k ∧ v.getLsbD k = true := by
  constructor
  · rintro h ⟨k, hk, hv⟩
    have := congrArg (BitVec.getLsbD · (k - i)) h
    have hk16 : k < 16 := by
      by_contra hc; rw [BitVec.getLsbD_of_ge _ _ (by omega)] at hv; cases hv
    simp only [BitVec.getLsbD_extractLsb', BitVec.getLsbD_zero, Bool.and_eq_false_imp,
      decide_eq_true_eq] at this
    rw [Nat.add_sub_cancel' hk] at this
    rw [this (by omega)] at hv
    cases hv
  · intro h
    apply BitVec.eq_of_getLsbD_eq
    intro k hk
    simp only [BitVec.getLsbD_extractLsb', BitVec.getLsbD_zero, hk, decide_true, Bool.true_and]
    by_cases hv : v.getLsbD (i + k) = true
    · exact absurd ⟨i + k, by omega, hv⟩ h
    · simpa using hv

/-- The checks of one message are those of the rule (41_transfer_engine.md R242). -/
theorem Msg.valid_iff (first m : Msg) : Msg.valid first m = true ↔ ¬ Msg.Bad first m := by
  have hl : m.len ≠ 0#16 ↔ m.len.toNat ≠ 0 := by
    constructor
    · intro h e; exact h (BitVec.eq_of_toNat_eq (by simpa using e))
    · intro h e; rw [e] at h; exact h rfl
  have h1 : m.len = 1#16 ↔ m.len.toNat = 1 := by
    constructor
    · intro h; rw [h]; rfl
    · intro h; exact BitVec.eq_of_toNat_eq (by simpa using h)
  have h7 : (m.addr.extractLsb' 7 3 = 0#3 ∧ ¬ ∃ k, 10 ≤ k ∧ m.addr.getLsbD k = true) ↔
      ¬ ∃ k, 7 ≤ k ∧ m.addr.getLsbD k = true := by
    rw [← extract_high_zero (i := 10) (n := 6) (by decide),
      ← extract_high_zero (i := 7) (n := 9) (by decide)]
    generalize m.addr = v
    have : v.extractLsb' 7 9 = v.extractLsb' 10 6 ++ v.extractLsb' 7 3 := by
      apply BitVec.eq_of_getLsbD_eq
      intro k hk
      simp only [BitVec.getLsbD_append, BitVec.getLsbD_extractLsb', hk, decide_true, Bool.true_and]
      by_cases h3 : k < 3
      · simp [h3]
      · have h6 : k - 3 < 6 := by omega
        simp only [h3, h6, decide_true, decide_false, Bool.true_and, if_false]
        congr 1; omega
    rw [this]
    constructor
    · rintro ⟨h3, h6⟩; rw [h3, h6]; rfl
    · intro h
      have hs : ∀ (x : BitVec 6) (y : BitVec 3), x ++ y = 0#9 → y = 0#3 ∧ x = 0#6 := by decide
      exact hs _ _ h
  unfold Msg.valid Msg.Bad
  simp only [Bool.and_eq_true, Bool.or_eq_true, beq_iff_eq, bne_iff_ne, decide_eq_true_eq,
    Bool.not_eq_true', Msg.ten, Msg.recvLen, Msg.rd]
  rw [getLsbD_of_and_not, extract_high_zero (by decide), hl, h1]
  have hb : Config.blockMax = 32 := rfl
  rw [hb]
  generalize (∃ k, m.flags.getLsbD k = true ∧ k ≠ 0 ∧ k ≠ 4 ∧ k ≠ 10) = A
  generalize m.flags.getLsbD 4 = ten at *
  generalize m.flags.getLsbD 10 = rl
  generalize m.flags.getLsbD 0 = rd
  generalize (∃ k, 7 ≤ k ∧ m.addr.getLsbD k = true) = B7 at *
  generalize (∃ k, 10 ≤ k ∧ m.addr.getLsbD k = true) = B10 at *
  by_cases hB : B10
  · simp [hB]
  · have h7' : m.addr.extractLsb' 7 3 = 0#3 ↔ ¬ B7 := by simpa [hB] using h7
    rw [h7']
    clear h7 h7' hl h1 hb
    generalize m.len.toNat = l
    generalize m.buf.cap.toNat = c
    by_cases hA : A
    · simp [hA]
    · cases ten <;> cases rl <;> cases rd <;> simp [hA, hB] <;> grind

/-- The list checks are those of the rule (41_transfer_engine.md R242). -/
theorem msgsValid_iff (msgs : List Msg) : msgsValid msgs = true ↔ GoodMsgs msgs := by
  simp only [msgsValid, Bool.and_eq_true, List.all_eq_true, decide_eq_true_eq, GoodMsgs,
    Msg.valid_iff]

/-- Step 1 passes (41_transfer_engine.md R242). -/
theorem validate_none {b : Bus} {msgs : List Msg} {count : Half} (hb : b.Accepts)
    (h0 : count.toNat ≠ 0) (hc : count.toNat = msgs.length) (hm : GoodMsgs msgs) :
    validate b msgs count = none := by
  obtain ⟨h1, h2, h3⟩ := hb
  have hc0 : count ≠ 0#16 := fun e => h0 (by rw [e]; rfl)
  have hmax : ¬ Config.maxMsgs < count.toNat := by
    have := count.isLt
    unfold Config.maxMsgs; omega
  have hv := (msgsValid_iff msgs).2 hm
  have hmax' : ¬ Config.maxMsgs < msgs.length := hc ▸ hmax
  simp [validate, h1, h2, h3, hc0, hc, hmax', hv]

/-! ### The beginning -/

/-- CON with bit 4 set to the TEN flag, bit by bit (41_transfer_engine.md R245). -/
theorem withTen_getLsbD (con : Word) (ten : Bool) (k : Nat) :
    (withTen con ten).getLsbD k = if k = 4 then ten else con.getLsbD k := by
  by_cases hk : k < 32
  · have h : ∀ j : Fin 32, (0x10#32 : Word).getLsbD j.val = decide (j.val = 4) := by decide
    have hb : (bitIf 4 ten).getLsbD k = (ten && decide (k = 4)) := by
      by_cases h4 : k = 4
      · subst h4; cases ten <;> simp [bitIf]
      · cases ten <;> simp [bitIf, BitVec.getLsbD_twoPow, h4, Ne.symm h4]
    have h10 := h ⟨k, hk⟩
    simp only at h10
    simp only [withTen, BitVec.getLsbD_or, BitVec.getLsbD_and, BitVec.getLsbD_not, h10, hk, hb,
      decide_true, Bool.true_and]
    by_cases h4 : k = 4
    · subst h4; simp
    · simp [h4]
  · rw [BitVec.getLsbD_of_ge _ _ (by omega), if_neg (by omega), BitVec.getLsbD_of_ge _ _ (by omega)]

/-- The registers that stand between the two ends of a beginning. -/
theorem ctlTurn_icEn_of_enable (s : State) (h : s.ctl.enable = true) :
    (ctlTurn s).ctl.icEn = s.ctl.icEn := by
  rw [ctlTurn_eq]; exact Ctl.moves_icEn _ _ _ h

theorem ctlTurn_icEn_false (s : State) (h : s.ctl.icEn = false) : (ctlTurn s).ctl.icEn = false := by
  cases e : (ctlTurn s).ctl.icEn
  · rfl
  · have := (ctlTurn_keeps s).icEn e
    rw [h] at this; cases this

/-- The arming of an accepted transfer (41_transfer_engine.md R245), from a disabled controller. -/
theorem xferArm_began (s : State) (msgs : List Msg) (hd : s.ctl.icEn = false) :
    let t := xferArm a msgs s
    let m := msgAt msgs 0
    t.blk = { s.blk with status := m.dir, xphase := .transferActive } ∧
    t.ctl.tar = m.addr.extractLsb' 0 10 ∧ t.ctl.con = withTen s.ctl.con m.ten ∧
    t.ctl.enable = true ∧ t.ctl.icEn = true ∧ t.ctl.intrMask = 0x00000254#32 ∧
    s.ctl.SameCounts t.ctl ∧
    t.io = [.write .intrMask 0x00000254#32, .read .clrIntr none, .write .enable 1#32,
      .write .con t.ctl.con, .read .con (some s.ctl.con),
      .write .tar ((m.addr.extractLsb' 0 10).setWidth 32)] ++ s.io ∧
    t.agent a = { s.agent a with waiting := true, point := .await } ∧
    (∀ b, b ≠ a → t.agent b = s.agent b) ∧ t.mem = s.mem ∧ t.devs = s.devs ∧ SameRest s t := by
  intro t m
  -- the chain of accesses, each state named
  obtain ⟨s1, h1⟩ : ∃ x, x = regWrite .tar (tarValue m.addr) s := ⟨_, rfl⟩
  obtain ⟨s2, h2⟩ : ∃ x, x = (regRead .con s1).2 := ⟨_, rfl⟩
  obtain ⟨s3, h3⟩ : ∃ x, x = regWrite .con (withTen (regRead .con s1).1 m.ten) s2 := ⟨_, rfl⟩
  obtain ⟨s4, h4⟩ : ∃ x, x = ctlEnable s3 := ⟨_, rfl⟩
  obtain ⟨s5, h5⟩ : ∃ x, x = regTouch .clrIntr s4 := ⟨_, rfl⟩
  obtain ⟨s6, h6⟩ : ∃ x : State, x = { s5 with
    blk := { s5.blk with status := m.dir, xphase := .transferActive } } := ⟨_, rfl⟩
  obtain ⟨s7, h7⟩ : ∃ x, x = writeMask defaultMask s6 := ⟨_, rfl⟩
  have e : t = s7.setAgent a { s7.agent a with waiting := true, point := .await } := by
    rw [h7, h6, h5, h4, h3, h2, h1]; rfl
  have ag : s7.agents = s.agents := by simp [h7, h6, h5, h4, ctlEnable, h3, h2, h1]
  -- the controller after each
  have d0 : (ctlTurn s).ctl.icEn = false := ctlTurn_icEn_false s hd
  have c1 : s1.ctl = { (ctlTurn s).ctl with tar := m.addr.extractLsb' 0 10 } := by
    have : (tarValue m.addr).setWidth 10 = m.addr.extractLsb' 0 10 := by
      apply BitVec.eq_of_getLsbD_eq
      intro i hi
      simp [tarValue, hi]
    rw [h1, regWrite_ctl]
    simp only [Ctl.writeReg, d0, Bool.false_eq_true, if_false, this]
  have c2 : s2.ctl = (ctlTurn s1).ctl := by rw [h2, regRead_ctl]; rfl
  have d2 : (ctlTurn s2).ctl.icEn = false := by
    refine ctlTurn_icEn_false s2 ?_
    rw [c2]; refine ctlTurn_icEn_false s1 ?_
    rw [c1]; exact d0
  have c3 : s3.ctl = { (ctlTurn s2).ctl with con := withTen (regRead .con s1).1 m.ten } := by
    rw [h3, regWrite_ctl]
    simp only [Ctl.writeReg, d2, Bool.false_eq_true, if_false]
  have c4 : s4.ctl = { (ctlTurn s3).ctl with enable := true, icEn := true } := by
    rw [h4, ctlEnable, regWrite_ctl]; simp [Ctl.writeReg]
  have c5 : s5.ctl = { (ctlTurn s4).ctl with latched := 0#32, abrtSrc := 0#32 } := by
    rw [h5, regTouch_ctl]; rfl
  have c6 : s6.ctl = s5.ctl := by rw [h6]
  have c7 : s7.ctl = { (ctlTurn s6).ctl with intrMask := 0x00000254#32 } := by
    rw [h7, writeMask_ctl]; rfl
  have k0 := ctlTurn_keeps s
  have k1 := ctlTurn_keeps s1
  have k2 := ctlTurn_keeps s2
  have k3 := ctlTurn_keeps s3
  have k4 := ctlTurn_keeps s4
  have k6 := ctlTurn_keeps s6
  have v : (regRead .con s1).1 = s.ctl.con := by
    rw [regRead_fst]
    simp only [Ctl.readValue, Option.getD_some, k1.con, c1, k0.con]
  have en4 : (ctlTurn s4).ctl.enable = true := by rw [k4.enable, c4]
  have en6 : (ctlTurn s6).ctl.enable = true := by rw [k6.enable, c6, c5]; exact en4
  have ic4 : (ctlTurn s4).ctl.icEn = true := by
    rw [ctlTurn_icEn_of_enable s4 (by rw [c4]), c4]
  have ic6 : (ctlTurn s6).ctl.icEn = true := by
    rw [ctlTurn_icEn_of_enable s6 (by rw [c6, c5]; exact en4), c6, c5]; exact ic4
  have tctl : t.ctl = s7.ctl := by rw [e]; rfl
  have con : t.ctl.con = withTen s.ctl.con m.ten := by
    rw [tctl, c7]; simp only []
    rw [k6.con, c6, c5]; simp only []
    rw [k4.con, c4]; simp only []
    rw [k3.con, c3, v]
  refine ⟨?_, ?_, con, ?_, ?_, ?_, ?_, ?_, ?_, ?_, ?_, ?_, ?_⟩
  · rw [e]; simp [h7, h6, h5, h4, ctlEnable, h3, h2, h1]
  · rw [tctl, c7]; simp only []
    rw [k6.tar, c6, c5]; simp only []
    rw [k4.tar, c4]; simp only []
    rw [k3.tar, c3]; simp only []
    rw [k2.tar, c2, k1.tar, c1]
  · rw [tctl, c7]; exact en6
  · rw [tctl, c7]; exact ic6
  · rw [tctl, c7]
  · rw [tctl, c7]
    constructor <;> simp only [k6.ssHcnt, k6.ssLcnt, k6.fsHcnt, k6.fsLcnt, k6.sdaHold, k6.rxTl,
      k6.txTl, c6, c5, k4.ssHcnt, k4.ssLcnt, k4.fsHcnt, k4.fsLcnt, k4.sdaHold, k4.rxTl, k4.txTl, c4,
      k3.ssHcnt, k3.ssLcnt, k3.fsHcnt, k3.fsLcnt, k3.sdaHold, k3.rxTl, k3.txTl, c3,
      k2.ssHcnt, k2.ssLcnt, k2.fsHcnt, k2.fsLcnt, k2.sdaHold, k2.rxTl, k2.txTl, c2,
      k1.ssHcnt, k1.ssLcnt, k1.fsHcnt, k1.fsLcnt, k1.sdaHold, k1.rxTl, k1.txTl, c1,
      k0.ssHcnt, k0.ssLcnt, k0.fsHcnt, k0.fsLcnt, k0.sdaHold, k0.rxTl, k0.txTl, and_self]
  · rw [con, e]
    simp only [setAgent_io, h7, writeMask_io, h6, h5, regTouch_io, h4, ctlEnable, regWrite_io, h3, h2,
      regRead_io, v]
    rw [h1, regWrite_io]
    have r : Ctl.readValue (regWrite .tar (tarValue m.addr) s).par .con
        (ctlTurn (regWrite .tar (tarValue m.addr) s)).ctl = some s.ctl.con := by
      rw [← h1]; simp only [Ctl.readValue, k1.con, c1, k0.con]
    rw [r]
    rfl
  · rw [e, agent_setAgent_self, agent_congr ag]
  · intro b hb; rw [e, agent_setAgent_ne _ _ _ _ hb, agent_congr ag]
  · rw [e]; simp [h7, h6, h5, h4, ctlEnable, h3, h2, h1]
  · rw [e]; simp [h7, h6, h5, h4, ctlEnable, h3, h2, h1]
  · rw [e]; constructor <;> simp [h7, h6, h5, h4, ctlEnable, h3, h2, h1]

/-- The same from an agent's place, as one fact (41_transfer_engine.md R245, R250). -/
theorem xferArm_armed (s : State) (msgs : List Msg) (hd : s.ctl.icEn = false) :
    Armed a msgs (s.agent a).stack [] s (xferArm a msgs s) := by
  obtain ⟨_, b2, b3, b4, b5, b6, b7, b8, b9, b10, _, b12, b13⟩ := xferArm_began (a := a) s msgs hd
  exact ⟨b2, fun k => by rw [b3, withTen_getLsbD]; rfl, ⟨b4, b5⟩, b6, b7, b8, b9, b10, b12, b13⟩

theorem Ctl.SameCounts.trans {c d e : Ctl} (h : c.SameCounts d) (k : d.SameCounts e) :
    c.SameCounts e := by
  refine ⟨?_, ?_⟩
  · simp only [k.counts, h.counts, and_self]
  · simp only [k.levels, h.levels, and_self]

theorem SameRest.trans {s u t : State} (h : SameRest s u) (k : SameRest u t) : SameRest s t :=
  ⟨k.par.trans h.par, k.cur.trans h.cur, k.handler.trans h.handler, k.running.trans h.running,
    k.sched.trans h.sched, k.attached.trans h.attached⟩

/-- What an arming says of a state, it says of an earlier one from which the accesses `io` lead to it with
CON and the counts kept. -/
theorem Armed.of {s u t : State} {msgs : List Msg} {fs : List Frame} {first io : List Access}
    (h : Armed a msgs fs first u t) (hc : u.ctl.con = s.ctl.con) (hk : s.ctl.SameCounts u.ctl)
    (hi : u.io = io ++ s.io) (ha : ∃ p st, u.agent a = { s.agent a with point := p, stack := st })
    (ho : OnlyAgent a s u) (hd : u.devs = s.devs) (hr : SameRest s u) :
    Armed a msgs fs (first ++ io) s t := by
  obtain ⟨p, st, ha⟩ := ha
  refine ⟨h.tar, fun k => by rw [h.con k, hc], h.enable, h.mask, hk.trans h.kept, ?_, ?_,
    fun b hb => by rw [h.others b hb, ho b hb], h.devs.trans hd, hr.trans h.rest⟩
  · rw [h.io, hi, hc]; simp only [List.append_assoc]
  · rw [h.caller, ha]

/-- A poll that finds the bus free begins the transfer (41_transfer_engine.md R244, R245). -/
theorem busyPoll_began (s : State) (msgs : List Msg) (count : Half)
    (hc : count.toNat = msgs.length) (hf : s.BusFree) :
    ∃ t, busyPoll a msgs count s = .next t ∧ t.mem = s.mem ∧
      Began a msgs (s.agent a).stack s.blk.gate s t s.blk.pollCount := by
  obtain ⟨s2, h2⟩ : ∃ x, x = (regRead .status s).2 := ⟨_, rfl⟩
  obtain ⟨s3, h3⟩ : ∃ x, x = xferReset msgs count s2 := ⟨_, rfl⟩
  obtain ⟨s4, h4⟩ : ∃ x, x = regWrite .enable 0#32 s3 := ⟨_, rfl⟩
  obtain ⟨s5, h5⟩ : ∃ x, x = (regRead .enableStatus s4).2 := ⟨_, rfl⟩
  obtain ⟨s6, h6⟩ : ∃ x, x = setUnacked false s5 := ⟨_, rfl⟩
  have act : (regRead .status s).1.getLsbD 0 = false := by
    rw [regRead_status_activity]; exact hf.1
  have x2 : s2.ctl = (regTouch .status s).ctl ∧ s2.ctlPlan = (regTouch .status s).ctlPlan ∧
      s2.par = s.par := by
    rw [h2]; exact ⟨rfl, rfl, regRead_par s .status⟩
  -- the controller's turns do not see the bus record
  have x4 : s4.ctl = (regWrite .enable 0#32 (regTouch .status s)).ctl ∧
      s4.ctlPlan = (regWrite .enable 0#32 (regTouch .status s)).ctlPlan ∧ s4.par = s.par := by
    have p3 : s3.ctl = (regTouch .status s).ctl ∧ s3.ctlPlan = (regTouch .status s).ctlPlan ∧
        s3.par = s.par := by rw [h3]; exact x2
    have q : (ctlTurn s3).ctl = (ctlTurn (regTouch .status s)).ctl ∧
        (ctlTurn s3).ctlPlan = (ctlTurn (regTouch .status s)).ctlPlan :=
      ctlTurn_congr (by rw [p3.2.2, regTouch_par]) p3.1 p3.2.1
    rw [h4]
    refine ⟨by simp [q, p3.2.2], by simp [q], by simp [p3.2.2]⟩
  have off : (ctlTurn s4).ctl.icEn = false := by
    rw [(ctlTurn_congr (s := regWrite .enable 0#32 (regTouch .status s))
      (by rw [x4.2.2, regWrite_par, regTouch_par]) x4.1 x4.2.1).1]
    exact hf.2
  have run : busyPoll a msgs count s = .next (xferArm a msgs s6) := by
    have e2 : busyPoll a msgs count s = disablePoll a 0 (.xfer msgs) s4 := by
      rw [h4, h3, h2]; simp only [busyPoll, act, if_true, xferInit, ctlDisable]
    rw [e2, disablePoll_acked a 0 _ off, h6, h5]
    rfl
  have i6 : s6.ctl.icEn = false := by
    rw [h6, h5]; simp only [setUnacked, regRead_ctl]; exact off
  have k0 := ctlTurn_keeps s
  have k3 := ctlTurn_keeps (regTouch .status s)
  have k4 := ctlTurn_keeps s4
  have c6 : s6.ctl = (ctlTurn s4).ctl := by
    rw [h6, h5]; simp only [setUnacked, regRead_ctl]; rfl
  have keep : s6.ctl.con = s.ctl.con ∧ s.ctl.SameCounts s6.ctl := by
    have c2 : (regTouch .status s).ctl = (ctlTurn s).ctl := by simp [Ctl.afterRead]
    have c4 : s4.ctl = { (ctlTurn (regTouch .status s)).ctl with
        enable := false, icEn := (ctlTurn (regTouch .status s)).ctl.icEn } := by
      rw [x4.1]; simp [Ctl.writeReg]
    refine ⟨?_, ?_, ?_⟩
    · rw [c6, k4.con, c4]; simp only []; rw [k3.con, c2, k0.con]
    · rw [c6]
      simp only [k4.ssHcnt, k4.ssLcnt, k4.fsHcnt, k4.fsLcnt, k4.sdaHold, c4, k3.ssHcnt, k3.ssLcnt,
        k3.fsHcnt, k3.fsLcnt, k3.sdaHold, c2, k0.ssHcnt, k0.ssLcnt, k0.fsHcnt, k0.fsLcnt, k0.sdaHold,
        and_self]
    · rw [c6]; simp only [k4.rxTl, k4.txTl, c4, k3.rxTl, k3.txTl, c2, k0.rxTl, k0.txTl, and_self]
  have io6 : ∃ v, v.getLsbD 0 = false ∧ s6.io = (ackedAtOnce ++ [.read .status (some v)]) ++ s.io := by
    refine ⟨(ctlTurn s).ctl.statusWord s.par, ?_, ?_⟩
    · rw [regRead_fst] at act
      simp only [Ctl.readValue, Option.getD_some] at act
      exact act
    · have i2 : s2.io = .read .status (some ((ctlTurn s).ctl.statusWord s.par)) :: s.io := by
        rw [h2, regRead_io]; rfl
      have i3 : s3.io = s2.io := by rw [h3]; rfl
      have i4 : s4.io = .write .enable 0#32 :: s3.io := by rw [h4, regWrite_io]
      have i5 : s5.io = .read .enableStatus (some 0#32) :: s4.io := by
        rw [h5, regRead_io]; simp [Ctl.readValue, off, bitIf]
      have i6 : s6.io = s5.io := by rw [h6]; rfl
      rw [i6, i5, i4, i3, i2]
      rfl
  have ag6 : s6.agents = s.agents := by
    rw [h6, h5, h4, h3, h2]; simp [setUnacked, xferReset]
  have r6 : SameRest s s6 := by
    rw [h6, h5, h4, h3, h2]; constructor <;> simp [setUnacked, xferReset]
  have d6 : s6.devs = s.devs := by rw [h6, h5, h4, h3, h2]; simp [setUnacked, xferReset]
  have b1 := (xferArm_began (a := a) s6 msgs i6).1
  have b11 := (xferArm_began (a := a) s6 msgs i6).2.2.2.2.2.2.2.2.2.2.1
  refine ⟨_, run, ?_, ?_, ?_⟩
  · rw [b11, h6, h5, h4, h3, h2]; simp [setUnacked, xferReset]
  · rw [b1, h6, h5, h4, h3, h2]
    simp [setUnacked, xferReset, begunBus, hc]
  · obtain ⟨v, hv, hio⟩ := io6
    have A := (xferArm_armed (a := a) s6 msgs i6).of keep.1 keep.2 hio
      ⟨_, _, agent_congr ag6 a⟩ (fun b _ => agent_congr ag6 b) d6 r6
    rw [agent_congr ag6] at A
    exact ⟨v, hv, A⟩

/-- A free bus is a matter of the parameters, the controller and the plan. -/
theorem BusFree.congr {s u : State} (hp : u.par = s.par) (hc : u.ctl = s.ctl)
    (hl : u.ctlPlan = s.ctlPlan) (h : s.BusFree) : u.BusFree := by
  have e := ctlTurn_congr hp hc hl
  have ep : (regTouch .status u).par = (regTouch .status s).par := by simp [hp]
  have ec : (regTouch .status u).ctl = (regTouch .status s).ctl := by simp [e]
  have el : (regTouch .status u).ctlPlan = (regTouch .status s).ctlPlan := by
    simp [regTouch, e]
  have e2 := ctlTurn_congr ep ec el
  refine ⟨by rw [e.1]; exact h.1, ?_⟩
  rw [(ctlTurn_congr (s := regWrite .enable 0#32 (regTouch .status s)) (by simp [hp])
    (by simp [e2, hp]) (by simp [e2])).1]
  exact h.2

/-- What a beginning says of a state, it says of one that differs from it before in the gate, in memory
and in the requester's place and stack alone. -/
theorem Began.of {s u t : State} {msgs : List Msg} {fs : List Frame} {g : Gate} {n : Nat}
    (h : Began a msgs fs g u t n)
    (hb : { begunBus u.blk msgs g with pollCount := n } = { begunBus s.blk msgs g with pollCount := n })
    (hc : u.ctl = s.ctl) (hi : u.io = s.io)
    (ha : ∃ p st, u.agent a = { s.agent a with point := p, stack := st }) (ho : OnlyAgent a s u)
    (hd : u.devs = s.devs) (hr : SameRest s u) : Began a msgs fs g s t n := by
  obtain ⟨v, hv, A⟩ := h.armed
  refine ⟨h.blk.trans hb, v, hv, ?_⟩
  have := A.of (s := s) (io := []) (by rw [hc]) (by rw [hc]; exact ⟨⟨rfl, rfl, rfl, rfl, rfl⟩, rfl, rfl⟩)
    (by rw [hi]; rfl) ha ho hd hr
  simpa using this

/-- An accepted transfer on a free bus begins, its gate entered (41_transfer_engine.md R243 to R245). -/
theorem xferGated_began (s : State) (msgs : List Msg) (count : Half)
    (hr : s.blk.ready = true) (hp : s.blk.powered = true)
    (hc : count.toNat = msgs.length) (hf : s.BusFree) :
    ∃ t, xferGated a msgs count s = .next t ∧ t.mem = s.mem ∧
      Began a msgs (s.agent a).stack s.blk.gate s t := by
  obtain ⟨s1, h1⟩ : ∃ x : State, x = { s with
    blk := { s.blk with xphase := .busyWait, pollCount := 0 } } := ⟨_, rfl⟩
  have e1 : xferGated a msgs count s = busyPoll a msgs count s1 := by
    rw [h1]; simp [xferGated, hr, hp]
  obtain ⟨t, r, m, b⟩ := busyPoll_began (a := a) s1 msgs count hc
    (BusFree.congr (by rw [h1]) (by rw [h1]) (by rw [h1]) hf)
  refine ⟨t, e1.trans r, by rw [m, h1], ?_⟩
  subst h1
  exact b.of rfl rfl rfl ⟨_, _, rfl⟩ (fun _ _ => rfl) rfl ⟨rfl, rfl, rfl, rfl, rfl, rfl⟩

/-- An accepted transfer whose gate is entered without waiting begins (41_transfer_engine.md R240). -/
theorem xferStart_began (s : State) (msgs : List Msg) (count : Half) {g : Gate} (hb : s.blk.Accepts)
    (hg : s.blk.gate.acquire a = some g) (h0 : count.toNat ≠ 0) (hc : count.toNat = msgs.length)
    (hm : GoodMsgs msgs) (hf : s.BusFree) :
    ∃ t, xferStart a msgs count s = .next t ∧ t.mem = s.mem ∧
      Began a msgs (s.agent a).stack g s t := by
  obtain ⟨t, h1, h2, h3⟩ := xferGated_began (a := a) (s.setGate g) msgs count hb.1 hb.2.1 hc
    (BusFree.congr (s := s) (u := s.setGate g) rfl rfl rfl hf)
  refine ⟨t, ?_, h2, ?_⟩
  · unfold xferStart
    rw [validate_none hb h0 hc hm]
    simp only [withGate, hg]
    exact h1
  · exact h3.of rfl rfl rfl ⟨_, _, rfl⟩ (fun _ _ => rfl) rfl ⟨rfl, rfl, rfl, rfl, rfl, rfl⟩

/-! ### A transfer's polls and its end, however the step comes to them -/

section

variable {s u v : State} {a : Agent} {fs : List Frame} {run : Flow} {g : Gate} {r : Result}

/-- Seq acts for `a` at `v`, inside the operations `fs`, in a step from `s` whose bookkeeping is then `u`'s. -/
structure ActsAt (a : Agent) (fs : List Frame) (s u v : State) : Prop where
  mem    : v.mem = s.mem
  devs   : v.devs = s.devs
  caller : ∃ p, v.agent a = { u.agent a with point := p, stack := fs }
  base   : u.agents = s.agents
  others : OnlyAgent a s v
  rest   : SameRest u v

/-- No register was accessed yet. -/
def Untouched (s v : State) : Prop :=
  v.ctl = s.ctl ∧ v.ctlPlan = s.ctlPlan ∧ v.par = s.par ∧ v.io = s.io ∧ v.fresh = s.fresh

/-- A request that goes on runs its rule inside its operations, no register accessed and the gate as said. -/
theorem GoesOn.acts {c : Cont} (h : GoesOn a c s u g) :
    ActsAt a (s.agent a).stack s u (park a .idle (u.setGate g)) ∧
      Untouched s (park a .idle (u.setGate g)) ∧
      (park a .idle (u.setGate g)).blk = { s.blk with gate := g } := by
  have key : ∀ u' : State, u'.agents = s.agents → u'.mem = s.mem → u'.devs = s.devs → u'.blk = s.blk →
      Untouched s u' → ActsAt a (s.agent a).stack s u' (park a .idle (u'.setGate g)) ∧
      Untouched s (park a .idle (u'.setGate g)) ∧
      (park a .idle (u'.setGate g)).blk = { s.blk with gate := g } := by
    intro u' ha hm hd hb hu
    have e : ∀ b, u'.agent b = s.agent b := fun b => agent_congr ha b
    refine ⟨⟨?_, ?_, ⟨.idle, ?_⟩, ha, fun b hb => ?_, ?_⟩, ?_, ?_⟩
    · simpa using hm
    · simpa using hd
    · rw [agent_park_self, agent_setGate, e]
    · rw [agent_park_ne _ _ _ _ hb, agent_setGate, e]
    · constructor <;> simp
    · simpa [Untouched] using hu
    · simp [State.setGate, hb]
  cases h <;> exact key _ rfl rfl rfl rfl ⟨rfl, rfl, rfl, rfl, rfl⟩

/-- A list that may enter is validated and its gate entered (41_transfer_engine.md R242, R243). -/
theorem MayEnter.start {msgs : List Msg} {count : Half} (h : MayEnter a msgs count g s) (hb : v.blk = { s.blk with gate := g }) :
    xferStart a msgs count v = busyPoll a msgs count { v with
      blk := { s.blk with xphase := .busyWait, pollCount := 0, gate := g.entered a 1 } } := by
  obtain ⟨⟨h1, h2, h3⟩, ⟨h4, h5⟩, h6, h7, h8⟩ := h
  have hv : validate v.blk msgs count = none := by
    rw [hb]; exact validate_none ⟨h1, h2, h3⟩ h4 h5 h6
  have hg : v.blk.gate.acquire a = some (g.entered a 1) := by rw [hb]; exact Gate.acquire_open h7 h8
  unfold xferStart
  rw [hv]
  simp only [withGate, hg]
  simp [xferGated, State.setGate, hb, h1, h2]

/-- A list that may enter comes to its STATUS poll in `xferStart`. -/
theorem MayEnter.acts {msgs : List Msg} {count : Half} (h : MayEnter a msgs count g s)
    (hb : v.blk = { s.blk with gate := g }) (hv : ActsAt a fs s u v) (hu : Untouched s v) :
    ∃ w, xferStart a msgs count v = busyPoll a msgs count w ∧ ActsAt a fs s u w ∧ Untouched s w ∧
      w.blk = { s.blk with xphase := .busyWait, pollCount := 0, gate := g.entered a 1 } :=
  ⟨_, h.start hb, ⟨hv.mem, hv.devs, hv.caller, hv.base, hv.others,
    ⟨hv.rest.par, hv.rest.cur, hv.rest.handler, hv.rest.running, hv.rest.sched, hv.rest.attached⟩⟩,
    hu, rfl⟩

/-- A STATUS poll, however its step comes to it (41_transfer_engine.md R244). -/
theorem AtBusyPoll.acts {msgs : List Msg} {count : Half} {b : Bus}
    (h : AtBusyPoll s run u a fs msgs count b) :
    count.toNat = msgs.length ∧
    ∃ v, run = busyPoll a msgs count v ∧ ActsAt a fs s u v ∧ Untouched s v ∧ v.blk = b := by
  have nil : s.AtRequest → ∃ p, s.agent s.cur = { s.agent s.cur with point := p, stack := [] } :=
    fun e => ⟨(s.agent s.cur).point, by rw [← show (s.agent s.cur).stack = [] from e]⟩
  cases h with
  | xfer hr he =>
    exact ⟨he.count.2, he.acts rfl
      ⟨rfl, rfl, nil hr, rfl, fun _ _ => rfl, SameRest.refl s⟩ ⟨rfl, rfl, rfl, rfl, rfl⟩⟩
  | i2cTransfer hr he =>
    refine ⟨he.count.2, he.acts (v := pushFrames s.cur
      [.retry s.blk.retries (s.msgsOf s.cur) (s.agent s.cur).ops.count] s) rfl
      ⟨rfl, rfl, ⟨(s.agent s.cur).point, ?_⟩, rfl, fun b hb => ?_, ⟨rfl, rfl, rfl, rfl, rfl, rfl⟩⟩
      ⟨rfl, rfl, rfl, rfl, rfl⟩⟩
    · simp [pushFrames, setStack, show (s.agent s.cur).stack = [] from hr]
    · simp [pushFrames, setStack, hb]
  | granted u a msgs count g on length rc =>
    obtain ⟨ha, hu, hb⟩ := on.acts
    have e : step s = xferGated a msgs count (park a .idle (u.setGate g)) := step_goesOn on
    revert e ha hu hb
    generalize park a .idle (u.setGate g) = v
    intro ha hu hb e
    refine ⟨length, { v with blk := { s.blk with xphase := .busyWait, pollCount := 0, gate := g } }, ?_,
      ⟨ha.mem, ha.devs, ha.caller, ha.base, ha.others,
        ⟨ha.rest.par, ha.rest.cur, ha.rest.handler, ha.rest.running, ha.rest.sched, ha.rest.attached⟩⟩,
      hu, rfl⟩
    rw [e]
    simp [xferGated, hb, rc.1, rc.2]
  | next u a msgs count g on he =>
    obtain ⟨ha, hu, hb⟩ := on.acts
    rw [step_goesOn on]
    exact ⟨he.count.2, he.acts hb ha hu⟩
  | again u a msgs count g on length =>
    obtain ⟨ha, hu, hb⟩ := on.acts
    exact ⟨length, _, step_goesOn on, ha, hu, hb⟩

/-- The transfer's own entry left, its result goes back to the operations around it. -/
theorem releaseRet_acts {n : Nat} (hv : ActsAt a fs s u v) (hg : v.blk.gate = ⟨some a, n + 1, g.waiters⟩) :
    ∃ w, releaseRet a r v = retFrames a fs r w ∧ ActsAt a fs s u w ∧
      w.blk.gate = ⟨if n = 0 then none else some a, n, g.waiters⟩ := by
  have hr : v.blk.gate.release a = some ⟨if n = 0 then none else some a, n, g.waiters⟩ := by
    rw [hg]; simp [Gate.release]
  obtain ⟨p, hp⟩ := hv.caller
  refine ⟨v.setGate ⟨if n = 0 then none else some a, n, g.waiters⟩, ?_, ⟨hv.mem, hv.devs, ⟨p, ?_⟩, hv.base, fun b hb => ?_,
    ⟨hv.rest.par, hv.rest.cur, hv.rest.handler, hv.rest.running, hv.rest.sched, hv.rest.attached⟩⟩, rfl⟩
  · rw [releaseRet_of r hr, ret, agent_setGate, hp]
  · rw [agent_setGate, hp]
  · rw [agent_setGate, hv.others b hb]

/-- What changes no memory, device record, requester's record or bookkeeping goes on acting. -/
theorem ActsAt.of {w : State} (h : ActsAt a fs s u v) (hm : w.mem = v.mem) (hd : w.devs = v.devs)
    (ha : w.agents = v.agents) (hr : SameRest v w) : ActsAt a fs s u w :=
  ⟨hm.trans h.mem, hd.trans h.devs, h.caller.imp fun _ e => (agent_congr ha a).trans e, h.base,
    fun b hb => (agent_congr ha b).trans (h.others b hb), h.rest.trans hr⟩

/-- Further operations entered around the transfer to come. -/
theorem ActsAt.push (gs : List Frame) (h : ActsAt a fs s u v) :
    ActsAt a (gs ++ fs) s u (pushFrames a gs v) := by
  obtain ⟨p, hp⟩ := h.caller
  refine ⟨h.mem, h.devs, ⟨p, ?_⟩, h.base, fun b hb => ?_, h.rest.trans ⟨rfl, rfl, rfl, rfl, rfl, rfl⟩⟩
  · simp [pushFrames, setStack, hp]
  · rw [show (pushFrames a gs v).agent b = v.agent b by simp [pushFrames, setStack, hb]]
    exact h.others b hb

/-- The gate set, or the bus record otherwise. -/
theorem ActsAt.blk (b : Bus) (h : ActsAt a fs s u v) : ActsAt a fs s u { v with blk := b } :=
  h.of rfl rfl rfl ⟨rfl, rfl, rfl, rfl, rfl, rfl⟩

/-- Memory written by the operation itself. -/
theorem ActsAt.put (m : Memory) (h : ActsAt a fs s u v) :
    ActsAt a fs { s with mem := m } u { v with mem := m } :=
  ⟨rfl, h.devs, h.caller, h.base, h.others,
    ⟨h.rest.par, h.rest.cur, h.rest.handler, h.rest.running, h.rest.sched, h.rest.attached⟩⟩

/-- A request at its start acts outside any operation. -/
theorem State.AtRequest.acts (h : s.AtRequest) : ActsAt s.cur [] s s s :=
  ⟨rfl, rfl, ⟨(s.agent s.cur).point, by rw [← show (s.agent s.cur).stack = [] from h]⟩, rfl,
    fun _ _ => rfl, SameRest.refl s⟩

theorem Untouched.refl (s : State) : Untouched s s := ⟨rfl, rfl, rfl, rfl, rfl⟩

/-- An address over 10 bits, or over 7, has a bit there. -/
theorem wide_address {x : Half} :
    (1024 ≤ x.toNat → (x.extractLsb' 10 6 == 0#6) = false) ∧
    (x.toNat < 1024 → 128 ≤ x.toNat → (x.extractLsb' 7 3 == 0#3) = false) := by
  constructor <;> intro h <;> (try intro k) <;> rw [beq_eq_false_iff_ne] <;> intro e <;>
    have := congrArg BitVec.toNat e <;>
    simp only [BitVec.extractLsb'_toNat, Nat.shiftRight_eq_div_pow, BitVec.toNat_ofNat] at this <;>
    have := x.isLt <;> omega

/-- Where XFER step 1 rejects the first message's address or the bus, that is the transfer's result, and
nothing else happens (41_transfer_engine.md R242). -/
theorem xferStart_rejected {addr flags : Half} {m : Msg} {l : List Msg} {count : Half}
    (hr : s.blk.Rejects addr flags r) (hb : v.blk = { s.blk with gate := g })
    (hc : count.toNat = (m :: l).length) (ha : m.addr = addr)
    (hf : m.flags.getLsbD 4 = flags.getLsbD 4) : xferStart a (m :: l) count v = ret a r v := by
  have h0 : count ≠ 0#16 := fun e => by rw [e] at hc; exact absurd hc.symm (Nat.succ_ne_zero _)
  have hmax : ¬ Config.maxMsgs < count.toNat := by
    have := count.isLt
    unfold Config.maxMsgs; omega
  have key : ∃ c, validate v.blk (m :: l) count = some c ∧ Result.fail c = r := by
    rw [hb]
    unfold validate
    rcases hr with ⟨h, rfl⟩ | ⟨h1, h2, h3, rfl⟩ | ⟨⟨h1, h2, h3⟩, h, rfl⟩
    · exact ⟨_, if_pos h, rfl⟩
    · refine ⟨.disableTimeout, ?_, rfl⟩
      rw [if_neg (by simp [h1, h2]), if_neg (by rintro (h | h | h) <;> contradiction), if_pos h3]
    · refine ⟨.invalidArgument, ?_, rfl⟩
      have hv : msgsValid (m :: l) = false := by
        have : Msg.valid m m = false := by
          unfold Msg.valid
          by_cases hw : 1024 ≤ m.addr.toNat
          · simp [wide_address.1 hw]
          · rcases h with h | ⟨h, k⟩
            · rw [← ha] at h; exact absurd h hw
            · simp [wide_address.2 (Nat.lt_of_not_le hw) (ha ▸ k), show m.ten = false from hf.trans h]
        simp [msgsValid, msgAt, this]
      rw [if_neg (by simp [h1, h2]), if_neg (by rintro (h | h | h) <;> contradiction), if_neg (by simp [h3]),
        if_pos hv]
  obtain ⟨c, h1, rfl⟩ := key
  unfold xferStart
  rw [h1]

/-- A block access of an accepted length enters the gate and comes to its page check
(44_rmi4.md R364, R365). -/
theorem blockAccess_acts {blk : Block} (hf : blk.Fits) (hb : v.blk = { s.blk with gate := g })
    (hg : g.Wf ∧ g.OpenTo a) (hv : ActsAt a fs s u v) (hu : Untouched s v) :
    ∃ w, blockAccess blk a v = accessBody blk a w ∧ ActsAt a fs s u w ∧ Untouched s w ∧
      w.blk = { s.blk with gate := g.entered a 1 } := by
  have hl : blk.lenOk = true := by
    obtain ⟨dev, addr, data⟩ := blk
    cases data <;> simp [Block.Fits] at hf <;>
      simp [Block.lenOk, BlockData.len, BlockData.fits, Config.blockMax, hf]
  refine ⟨v.setGate (g.entered a 1), ?_, hv.blk _, hu, by simp [State.setGate, hb]⟩
  have h2 : v.blk.gate = g := by rw [hb]
  unfold blockAccess
  rw [if_neg (by simp [hl]), withGate_open _ _ (by rw [h2]; exact hg.1) (by rw [h2]; exact hg.2), h2]

/-- An RMI_* request whose checks pass does what follows them. -/
theorem rmiRequest_ready {d : PagedDev} (h : s.RmiReady d) (body : State → Flow) :
    rmiRequest body s = body s := by
  have : rmiChecked s.devOf s = true := by
    have hd : s.dev s.devOf = some d := h.device
    have hw : (d.addr.extractLsb' 7 9 == 0#9) = true := by
      have := h.width
      rw [beq_iff_eq]
      apply BitVec.eq_of_toNat_eq
      simp only [BitVec.extractLsb'_toNat, Nat.shiftRight_eq_div_pow, BitVec.toNat_ofNat]
      omega
    simp [rmiChecked, h.ready, hd, hw]
  simp [rmiRequest, this]

/-- What a request does in the gate it enters at once. -/
theorem AtRequest_gate (h : s.AtRequest) (hg : s.blk.gate.Wf ∧ s.blk.gate.OpenTo s.cur) (c : Cont)
    (body : State → Flow) :
    ∃ v, withGate s.cur c body s = body v ∧ ActsAt s.cur [] s s v ∧ Untouched s v ∧
      v.blk = { s.blk with gate := s.blk.gate.entered s.cur 1 } :=
  ⟨s.setGate (s.blk.gate.entered s.cur 1), withGate_open _ _ hg.1 hg.2, h.acts.blk _, .refl s, rfl⟩

theorem Gate.entered_open (a : Agent) (g : Gate) : (g.entered a 1).Wf ∧ (g.entered a 1).OpenTo a :=
  ⟨⟨nofun, nofun⟩, .inr rfl⟩

/-- A block access, however its step comes to it, stands at its page check (44_rmi4.md R363). -/
theorem AtAccess.acts {blk : Block} (h : AtAccess s run u a fs blk g) (hf : blk.Fits) :
    ∃ v, run = accessBody blk a v ∧ ActsAt a fs s u v ∧ Untouched s v ∧
      v.blk = { s.blk with gate := g } := by
  have twice : ∀ {a : Agent} {g : Gate}, (g.entered a 1).entered a 1 = g.entered a 2 := rfl
  cases h with
  | readBlock d may gate =>
    obtain ⟨w, h1, h2⟩ := blockAccess_acts (u := s) hf rfl gate may.request.acts (.refl s)
    exact ⟨w, (rmiRequest_ready may _).trans h1, h2⟩
  | writeBlock d may gate =>
    obtain ⟨w, h1, h2⟩ := blockAccess_acts (u := s) hf rfl gate may.request.acts (.refl s)
    exact ⟨w, (rmiRequest_ready may _).trans h1, h2⟩
  | access u a blk g on =>
    obtain ⟨hv, hu, hb⟩ := on.acts
    exact ⟨_, step_goesOn on, hv, hu, hb⟩
  | probe d may gate =>
    obtain ⟨v, h1, hv, hu, hb⟩ := AtRequest_gate may.request gate (.probe s.devOf Config.pdtStart [])
      (probeBody s.devOf Config.pdtStart [] s.cur)
    obtain ⟨w, h2, h3, h4, h5⟩ := blockAccess_acts (v := pushFrames s.cur [.probe s.asked.dev 0xE9 []] v) hf hb
      (Gate.entered_open _ _) (hv.push _) hu
    exact ⟨w, ((rmiRequest_ready may _).trans h1).trans h2, h3, h4, h5⟩
  | probeOn u a n pos found g on gate =>
    obtain ⟨hv, hu, hb⟩ := on.acts
    obtain ⟨w, h2, h3⟩ := blockAccess_acts
      (v := pushFrames a [.probe n pos found] (park a .idle (u.setGate g))) hf hb gate (hv.push _) hu
    exact ⟨w, (step_goesOn on).trans h2, h3⟩
  | f01 d may gate f found k bs rest todo =>
    obtain ⟨v, h1, hv, hu, hb⟩ := AtRequest_gate may.request gate (.f01 s.devOf f.controlBase s.par.f01Init)
      (f01Body s.devOf f.controlBase s.par.f01Init s.cur)
    obtain ⟨w, h2, h3, h4, h5⟩ := blockAccess_acts
      (v := pushFrames s.cur [.f01 s.asked.dev f.controlBase rest] v) hf hb
      (Gate.entered_open _ _) (hv.push _) hu
    refine ⟨w, ?_, h3, h4, h5⟩
    have hd : (s.dev s.devOf).bind f01Base = some f.controlBase := by
      rw [show s.dev s.devOf = some d from may.device]
      simp [f01Base, found]
    show execRmiF01Init s = _
    unfold execRmiF01Init
    rw [rmiRequest_ready may]
    simp only [hd]
    rw [h1, todo]
    exact h2
  | f01On u a n base k bs rest g on gate =>
    obtain ⟨hv, hu, hb⟩ := on.acts
    obtain ⟨w, h2, h3⟩ := blockAccess_acts
      (v := pushFrames a [.f01 n base rest] (park a .idle (u.setGate g))) hf hb gate (hv.push _) hu
    exact ⟨w, (step_goesOn on).trans h2, h3⟩

/-- XFER step 1 by a transfer that already stands with its message at hand. -/
theorem step_one_ends {addr flags : Half} {m : Msg} {l : List Msg} {count : Half} {mem : Memory}
    (hr : s.blk.Rejects addr flags r) (hv : ActsAt a fs s u v) (hu : Untouched s v)
    (hb : v.blk = { s.blk with gate := g }) (gs : List Frame) (hc : count.toNat = (m :: l).length)
    (ha : m.addr = addr) (hf : m.flags.getLsbD 4 = flags.getLsbD 4)
    (hm : ∀ x, (x < bufAddr (.t0 a) 0 ∨ bufAddr (.t0 a) 0 + 34 ≤ x) → mem.read x = v.mem.read x) :
    ∃ n w, xferStart a (m :: l) count (pushFrames a gs { v with mem := mem }) = ret a r w ∧
      ActsAt a (gs ++ fs) { s with mem := n } u w ∧ Untouched s w ∧ w.blk = { s.blk with gate := g } ∧
      SameMemBut (bufAddr (.t0 a) 0) 34 s w :=
  ⟨mem, pushFrames a gs { v with mem := mem }, xferStart_rejected hr (g := g) hb hc ha hf, (hv.put mem).push gs, hu, hb,
    fun x hx => (hm x hx).trans (by rw [hv.mem])⟩

/-- Bytes put in a requester's first scratch buffer. -/
theorem scratch_out (m : Memory) (a : Agent) {bs : List Byte} (h : bs.length ≤ 34) :
    ∀ x, (x < bufAddr (.t0 a) 0 ∨ bufAddr (.t0 a) 0 + 34 ≤ x) →
      (m.writeAll (bufAddr (scratch0 a).id 0) bs).read x = m.read x :=
  fun x hx => Memory.read_writeAll_out _ _ _ _ (hx.imp id fun k => Nat.le_trans (by simp [scratch0]; omega) k)

/-- An SMBus transfer that maps comes to XFER step 1 with a first message to its address. -/
theorem smbusMap_head {o : Operands} {size : SizeClass} {rw : Bool} {m : Memory} (hs : size ≠ .quick)
    (hl : rw = false → (size = .blockData ∨ size = .i2cBlockData) →
      1 ≤ (m.read (bufAddr (.user o.data) 0)).toNat ∧ (m.read (bufAddr (.user o.data) 0)).toNat ≤ 32) :
    ∃ bs x l, smbusMap a size rw o m = some ⟨bs, x :: l, if rw then size.view else .none⟩ ∧
      bs.length ≤ 34 ∧ x.addr = o.addr ∧ x.flags.getLsbD 4 = o.flags.getLsbD 4 ∧
      hasEmptyMsg (x :: l) = false ∧ (BitVec.ofNat 16 (x :: l).length).toNat = (x :: l).length := by
  have flag : ∀ f : Half, (f ||| flagRd).getLsbD 4 = f.getLsbD 4 := fun f => by simp [flagRd]
  cases size <;> cases rw <;> simp only [ne_eq, not_true_eq_false, reduceCtorEq, not_false_eq_true] at hs
  case blockData.false | i2cBlockData.false =>
    have h := hl rfl (by simp)
    have hk : blockLenOk (m.read (bufAddr (.user o.data) 0)) = true := by
      simp [blockLenOk, Config.blockMax, h]
    simp only [smbusMap, hk, if_true]
    refine ⟨_, _, _, rfl, ?_, rfl, rfl, ?_, rfl⟩
    · simp [unionPayload]; omega
    · simp only [hasEmptyMsg, List.any_cons, List.any_nil, Bool.or_false, writeMsg, beq_eq_false_iff_ne]
      intro e
      have := congrArg BitVec.toNat e
      simp [unionPayload] at this
      omega
  all_goals
    refine ⟨_, _, _, rfl, by simp, rfl, ?_, ?_, rfl⟩
    · first | rfl | exact flag _
    · rfl

/-- An SMBus transfer comes to XFER step 1 inside its operation. -/
theorem smbusXfer_rejected {size : SizeClass} {rw : Bool} (maps : s.SmbusMaps a size rw)
    (hr : s.blk.Rejects (s.agent a).ops.addr (s.agent a).ops.flags r) (hv : ActsAt a fs s u v)
    (hu : Untouched s v) (hb : v.blk = { s.blk with gate := g }) :
    ∃ n w, smbusXfer size rw a v = ret a r w ∧
      ActsAt a (.smbus (if rw then size.view else .none) :: fs) { s with mem := n } u w ∧ Untouched s w ∧
      w.blk = { s.blk with gate := g } ∧ SameMemBut (bufAddr (.t0 a) 0) 34 s w := by
  have ho : v.opsOf a = (s.agent a).ops := by
    obtain ⟨p, hp⟩ := hv.caller
    show (v.agent a).ops = _
    rw [hp, agent_congr hv.base a]
  obtain ⟨bs, x, l, h1, h2, h3, h4, h5, h6⟩ := smbusMap_head (a := a) (o := (s.agent a).ops) (m := s.mem)
    maps.moves maps.block
  have e : smbusXfer size rw a v = xferStart a (x :: l) (BitVec.ofNat 16 (x :: l).length)
      (pushFrames a [.smbus (if rw then size.view else .none)]
        { v with mem := v.mem.writeAll (bufAddr (scratch0 a).id 0) bs }) := by
    have hf : ¬ ((s.agent a).ops.flags &&& ~~~flagTen ≠ 0#16) := not_not.2 maps.flags
    unfold smbusXfer
    simp only [ho, if_neg hf, hv.mem, h1, h5, Bool.false_eq_true, if_false]
  rw [e]
  exact step_one_ends hr hv hu hb [.smbus (if rw then size.view else .none)] h6 h3 h4 (scratch_out _ a h2)

/-- The instruction of an SMBus class is its request. -/
theorem exec_smbusInstr (size : SizeClass) (rw : Bool) (s : State) :
    exec (smbusInstr false size rw) s = smbusRequest size rw s ∧
      exec (smbusInstr true size rw) s = gatedRequest size rw s := by
  cases size <;> cases rw <;> exact ⟨rfl, rfl⟩

/-- A transfer that XFER step 1 rejects, however its step comes to it: its result goes back to the operations
around it, no register is accessed, and of memory the requester's first scratch buffer alone is written
(41_transfer_engine.md R242). -/
theorem AtStepOne.acts {addr flags : Half} (h : AtStepOne s run u a fs addr flags g)
    (hr : s.blk.Rejects addr flags r) :
    ∃ n w, run = ret a r w ∧ ActsAt a fs { s with mem := n } u w ∧ Untouched s w ∧
      w.blk = { s.blk with gate := g } ∧ SameMemBut (bufAddr (.t0 a) 0) 34 s w := by
  have paged : ∀ {u v : State} {a : Agent} {fs : List Frame} {g : Gate} {n : Nat} {d : PagedDev} (page : Byte),
      ActsAt a fs s u v → Untouched s v → v.blk = { s.blk with gate := g } → s.devs[n]? = some d →
      s.blk.Rejects d.addr 0#16 r →
      ∃ m w, setPageBody n page a v = ret a r w ∧
        ActsAt a (.smbus .none :: .setPage n page :: fs) { s with mem := m } u w ∧ Untouched s w ∧
        w.blk = { s.blk with gate := g } ∧ SameMemBut (bufAddr (.t0 a) 0) 34 s w := by
    intro u v a fs g n d page hv hu hb hd hr
    refine step_one_ends hr hv hu hb [.smbus .none, .setPage n page] rfl ?_ rfl (scratch_out _ a (by simp))
    show v.devAddr n = d.addr
    simp [State.devAddr, hv.devs, hd]
  have moved : ∀ {u v : State} {a : Agent} {fs : List Frame} {g : Gate} {blk : Block} {d : PagedDev},
      ActsAt a fs s u v → Untouched s v → v.blk = { s.blk with gate := g } → blk.Fits →
      s.devs[blk.dev]? = some d → s.blk.Rejects d.addr 0#16 r →
      ∃ m w, blockBody blk a v = ret a r w ∧ ActsAt a (.block :: fs) { s with mem := m } u w ∧
        Untouched s w ∧ w.blk = { s.blk with gate := g } ∧ SameMemBut (bufAddr (.t0 a) 0) 34 s w := by
    intro u v a fs g blk d hv hu hb hf hd hr
    have ha : v.devAddr blk.dev = d.addr := by simp [State.devAddr, hv.devs, hd]
    obtain ⟨dev, addr, data⟩ := blk
    have key : ∀ (x : Msg) (l : List Msg) (count : Half) (bs : List Byte), x.addr = d.addr →
        x.flags = 0#16 → count.toNat = (x :: l).length → bs.length ≤ 33 →
        ∃ m w, xferStart a (x :: l) count (pushFrames a [.block]
            { v with mem := v.mem.writeAll (bufAddr (scratch0 a).id 0) (rmiOff addr :: bs) }) = ret a r w ∧
          ActsAt a (.block :: fs) { s with mem := m } u w ∧ Untouched s w ∧
          w.blk = { s.blk with gate := g } ∧ SameMemBut (bufAddr (.t0 a) 0) 34 s w :=
      fun x l count bs hx hf hc hl =>
        step_one_ends hr hv hu hb [.block] hc hx (by rw [hf]) (scratch_out _ a (Nat.succ_le_succ hl))
    cases data with
    | read buf n => exact key _ _ _ [] ha rfl rfl (Nat.zero_le _)
    | write buf n =>
      refine key _ _ _ _ ha rfl rfl ?_
      rw [Memory.readAll_length]
      exact Nat.le_succ_of_le hf.2.1
    | bytes bs => exact key _ _ _ bs ha rfl rfl (Nat.le_succ_of_le hf.2)
  cases h with
  | smbus size rw request maps =>
    rw [(exec_smbusInstr size rw s).1]
    exact smbusXfer_rejected maps hr request.acts (.refl s) rfl
  | gated size rw request maps gate =>
    obtain ⟨v, h1, hv, hu, hb⟩ := AtRequest_gate request gate (.gated size rw) (gatedBody size rw s.cur)
    rw [(exec_smbusInstr size rw s).2, show gatedRequest size rw s = _ from h1]
    exact smbusXfer_rejected maps hr (hv.push [.gated]) hu hb
  | gatedOn u a size rw g on maps =>
    obtain ⟨hv, hu, hb⟩ := on.acts
    rw [step_goesOn on]
    exact smbusXfer_rejected maps hr (hv.push [.gated]) hu hb
  | setPage d may gate =>
    obtain ⟨v, h1, hv, hu, hb⟩ := AtRequest_gate may.request gate (.setPage s.devOf s.asked.page)
      (setPageBody s.devOf s.asked.page s.cur)
    rw [show exec .rmiSetPage s = _ from (rmiRequest_ready may _).trans h1]
    exact paged _ hv hu hb may.device hr
  | setPageOn u a n page g on d device =>
    obtain ⟨hv, hu, hb⟩ := on.acts
    rw [step_goesOn on]
    exact paged _ hv hu hb device hr
  | select run u a fs blk g acc fits gate d device page =>
    obtain ⟨v, rfl, hv, hu, hb⟩ := acc.acts fits
    have hd : ¬ (v.dev blk.dev).bind (·.currentPage) = some (rmiPage blk.addr) := by
      rw [show v.dev blk.dev = some d by simp [State.dev, hv.devs, device]]
      exact page
    have h2 : (pushFrames a [.selected blk] v).blk.gate = g := by
      rw [show (pushFrames a [.selected blk] v).blk = v.blk by simp, hb]
    unfold accessBody
    rw [if_neg hd, withGate_open _ _ (by rw [h2]; exact gate.1) (by rw [h2]; exact gate.2), h2]
    exact paged _ ((hv.push [.selected blk]).blk _) hu (by simp [State.setGate, hb]) device hr
  | block run u a fs blk g acc fits d device page =>
    obtain ⟨v, rfl, hv, hu, hb⟩ := acc.acts fits
    have hd : (v.dev blk.dev).bind (·.currentPage) = some (rmiPage blk.addr) := by
      rw [show v.dev blk.dev = some d by simp [State.dev, hv.devs, device]]
      exact page
    unfold accessBody
    rw [if_pos hd]
    exact moved hv hu hb fits device hr
  | blockOn u a blk g on fits d device =>
    obtain ⟨hv, hu, hb⟩ := on.acts
    rw [step_goesOn on]
    exact moved hv hu hb fits device hr

/-- However a transfer ends, its result goes back to the operations around it with its own entry of the
gate left, no device record changed, and memory changed only where it ends in step 1, in the requester's
first scratch buffer alone (41_transfer_engine.md R242, R244, R245, R256). -/
theorem XferEnds.acts {n k : Nat} (h : XferEnds s run u a fs g r k) (hg : g = ⟨some a, n + 1, g.waiters⟩) :
    ∃ m w, run = retFrames a fs r w ∧ ActsAt a fs { s with mem := m } u w ∧
      (k = 0 → m = s.mem) ∧ SameMemBut (bufAddr (.t0 a) 0) k s w ∧
      (r.code = .ok → k = 0) ∧
      w.blk.gate = ⟨if n = 0 then none else some a, n, g.waiters⟩ := by
  have kept : ∀ {u : State} {run : Flow} {fs : List Frame} {r : Result} {g : Gate},
      (∃ w, run = retFrames a fs r w ∧ ActsAt a fs s u w ∧
        w.blk.gate = ⟨if n = 0 then none else some a, n, g.waiters⟩) →
      ∃ m w, run = retFrames a fs r w ∧ ActsAt a fs { s with mem := m } u w ∧
        (0 = 0 → m = s.mem) ∧ SameMemBut (bufAddr (.t0 a) 0) 0 s w ∧ (r.code = .ok → 0 = 0) ∧
        w.blk.gate = ⟨if n = 0 then none else some a, n, g.waiters⟩ :=
    fun ⟨w, h1, h2, h3⟩ => ⟨s.mem, w, h1, h2, fun _ => rfl, fun _ _ => by rw [h2.mem], fun _ => rfl, h3⟩
  cases h with
  | rejected run u a fs addr flags g r one gate rejects =>
    obtain ⟨m, w, rfl, hv, -, hb, hm⟩ := one.acts rejects
    have hc : r.code ≠ .ok := by
      rcases rejects with ⟨-, rfl⟩ | ⟨-, -, -, rfl⟩ | ⟨-, -, rfl⟩ <;> nofun
    have hd : g.depth = n := Nat.add_right_cancel (congrArg Gate.depth hg)
    refine ⟨m, w, ?_, hv, nofun, hm, fun e => absurd e hc, ?_⟩
    · obtain ⟨p, hp⟩ := hv.caller
      rw [ret, hp]
    · rw [hb]
      obtain ⟨o, k, l⟩ := g
      subst hd
      obtain ⟨wf, op⟩ := gate
      rcases op with op | op
      · obtain rfl := op
        obtain rfl : k = 0 := wf.1 rfl
        rfl
      · obtain rfl := op
        have hk : k ≠ 0 := fun e => nomatch wf.2 e
        show Gate.mk (some a) k l = ⟨if k = 0 then none else some a, k, l⟩
        rw [if_neg hk]
  | unwound a ms next at_ =>
    refine kept ?_
    have hu : ActsAt a (s.agent a).stack s { s with sched := ms } (park a .idle { s with sched := ms }) :=
      ⟨rfl, rfl, ⟨.idle, by rw [agent_park_self]; rfl⟩, rfl, fun b hb => by rw [agent_park_ne _ _ _ _ hb]; rfl,
        by constructor <;> simp⟩
    rw [step_unwind next at_]
    unfold unwind
    rw [show outcome (park a .idle { s with sched := ms }).blk = transferResult s.blk from outcome_eq _]
    refine releaseRet_acts (hu.of ?_ ?_ ?_ ?_) ?_
    · simp [unwindFields]
    · simp [unwindFields]
    · simp [unwindFields]
    · constructor <;> simp [unwindFields]
    · simpa [unwindFields] using hg
  | busy run u a fs msgs count b poll active bound =>
    refine kept ?_
    obtain ⟨-, v, rfl, hv, hu, hb⟩ := poll.acts
    have act : (regRead .status v).1.getLsbD 0 = true := by
      rw [regRead_status_activity, (ctlTurn_congr hu.2.2.1 hu.1 hu.2.1).1]; exact active
    have hl : (regRead .status v).2.blk.pollCount = (regRead .status v).2.par.busyPollLimit := by
      simp [hb, hu.2.2.1, bound]
    simp only [busyPoll, act, Bool.true_eq_false, if_false, hl, if_true]
    refine releaseRet_acts (hv.of ?_ ?_ ?_ ?_) ?_
    · simp [setPhase]
    · simp [setPhase]
    · simp [setPhase]
    · constructor <;> simp [setPhase]
    · simpa [setPhase, hb] using hg
  | unacked run u a fs msgs count b poll free enabled bound =>
    refine kept ?_
    obtain ⟨-, v, rfl, hv, hu, hb⟩ := poll.acts
    have act : (regRead .status v).1.getLsbD 0 = false := by
      rw [regRead_status_activity, (ctlTurn_congr hu.2.2.1 hu.1 hu.2.1).1]; exact free
    have e0 := ctlTurn_congr hu.2.2.1 hu.1 hu.2.1
    obtain ⟨w, hw⟩ : ∃ w, w = regWrite .enable 0#32 (xferReset msgs count (regRead .status v).2) :=
      ⟨_, rfl⟩
    have e1 := ctlTurn_congr (s := regTouch .status s) (u := xferReset msgs count (regRead .status v).2)
      (by rw [regTouch_par]; exact (regRead_par v .status).trans hu.2.2.1)
      (by rw [regTouch_ctl]; exact (regRead_ctl v .status).trans (congrArg _ e0.1))
      (by rw [show (regTouch .status s).ctlPlan = (ctlTurn s).ctlPlan from regRead_ctlPlan s .status]
          exact (regRead_ctlPlan v .status).trans e0.2)
    have pw : w.par = (regTouch .status s).par := by
      rw [hw, regWrite_par, regTouch_par]; exact (regRead_par v .status).trans hu.2.2.1
    have e2 := ctlTurn_congr (s := regWrite .enable 0#32 (regTouch .status s)) (u := w)
      (by rw [pw, regWrite_par])
      (by rw [hw, regWrite_par] at pw; rw [hw, regWrite_ctl, regWrite_ctl, e1.1, pw])
      (by rw [hw, regWrite_ctlPlan, regWrite_ctlPlan, e1.2])
    have on : (ctlTurn w).ctl.icEn = true := by rw [e2.1]; exact enabled
    have run : busyPoll a msgs count v = disablePoll a 0 (.xfer msgs) w := by
      simp only [busyPoll, act, if_true, xferInit, ctlDisable, hw]
    rw [run, disablePoll_fails a 0 _ on (by simp [hw, xferReset, hu.2.2.1, bound])]
    refine releaseRet_acts (hv.of ?_ ?_ ?_ ?_) ?_
    · simp [setPhase, setUnacked, hw, xferReset]
    · simp [setPhase, setUnacked, hw, xferReset]
    · simp [setPhase, setUnacked, hw, xferReset]
    · constructor <;> simp [setPhase, setUnacked, hw, xferReset]
    · simpa [setPhase, setUnacked, hw, xferReset, hb] using hg
  | unackedLater u a k msgs g on enabled bound =>
    refine kept ?_
    obtain ⟨hv, hu, hb⟩ := on.acts
    have ic : (ctlTurn (park a .idle (u.setGate g))).ctl.icEn = true := by
      rw [(ctlTurn_congr hu.2.2.1 hu.1 hu.2.1).1]; exact enabled
    rw [step_goesOn on]
    show ∃ w, disablePoll a k (.xfer msgs) _ = _ ∧ _
    rw [disablePoll_fails a k _ ic (by rw [hu.2.2.1]; exact bound)]
    refine releaseRet_acts (hv.of ?_ ?_ ?_ ?_) ?_
    · simp [setPhase, setUnacked]
    · simp [setPhase, setUnacked]
    · simp [setPhase, setUnacked]
    · constructor <;> simp [setPhase, setUnacked]
    · simpa [setPhase, setUnacked, hb] using hg
  | recheck u a msgs count g on fails =>
    refine kept ?_
    obtain ⟨hv, hu, hb⟩ := on.acts
    rw [step_goesOn on]
    have hf : (park a .idle (u.setGate g)).blk.ready = false ∨
        (park a .idle (u.setGate g)).blk.powered = false := by rw [hb]; exact fails
    show ∃ w, xferGated a msgs count _ = _ ∧ _
    unfold xferGated
    rw [if_pos hf]
    refine releaseRet_acts (hv.of rfl rfl rfl ⟨rfl, rfl, rfl, rfl, rfl, rfl⟩) ?_
    rw [setPhase, hb]
    exact hg

end

end Sys2Proof.Machine
end

