-- ==== Sys2Proof/Laws/Control.lean ====
section
/-!
SUPPORT. What an activity of a requester can do to what `State.Control` ties together, once for each
operation: it answers, and leaves a controlled state, having touched phase and completion only while the
requester had or could take the gate.
-/

namespace Sys2Proof.Machine

/-- How many times the operations around a request have entered the gate. -/
def stackHolds (fs : List Frame) : Nat := (fs.map Frame.holds).sum

/-- In the middle of an activity of `a`, which has entered the gate `m` times and has the engine at phase
`ph` where it can act on it; `x` and `k` are the phase and the completion flag the activity began with. -/
structure Activity (a : Agent) (x : Phase) (k : Bool) (m : Nat) (ph : Phase) (s : State) : Prop where
  gate    : s.blk.gate.Wf
  mine    : m = if s.blk.gate.owner = some a then s.blk.gate.depth else 0
  quiet   : (s.blk.gate.owner = none ∨ s.blk.gate.owner = some a) →
              s.blk.xphase = ph ∧ s.blk.status = .idle
  start   : (s.blk.gate.owner = none ∨ s.blk.gate.owner = some a) → x = .idle ∨ x = .busyWait
  other   : (s.blk.gate.owner ≠ none ∧ s.blk.gate.owner ≠ some a) →
              s.blk.xphase = x ∧ s.blk.completion = k
  holds   : ∀ b, b ≠ a → (s.agent b).holds = if s.blk.gate.owner = some b then s.blk.gate.depth else 0
  owned   : ∀ b, b ≠ a → s.blk.gate.owner = some b → (s.agent b).point.Engine s.blk
  placed  : ∀ b, b ≠ a → (s.agent b).point.Placed
  waiting : ∀ b, b ≠ a → ((s.agent b).waiting = true ↔ (s.agent b).point = .await)
  atRest  : ∀ b, b ≠ a → (s.agent b).req = none → (s.agent b).point = .idle ∧ (s.agent b).stack = []
  live    : (s.agent a).req ≠ none
  awake   : (s.agent a).waiting = false
  handler : s.handler = none
  att     : s.attached = true
  comp    : s.blk.completion = k ∨ s.blk.completion = false

/-- The end of the activity: a controlled state, the phase and the completion flag as they were, or moved on
from IDLE or BUSY_WAIT. -/
def Ended (x : Phase) (k : Bool) (t : State) : Prop :=
  t.Control ∧ ((t.blk.xphase = x ∧ t.blk.completion = k) ∨
    ((t.blk.completion = k ∨ t.blk.completion = false) ∧ (x = .idle ∨ x = .busyWait) ∧
      (t.blk.xphase = .idle ∨ t.blk.xphase = .busyWait ∨
      (t.blk.xphase = .transferActive ∧ t.blk.completion = false))))

/-- The activity answers, and has ended so. -/
def FlowEnds (x : Phase) (k : Bool) (o : Flow) : Prop := ∃ t, o = .next t ∧ Ended x k t

variable {a : Agent} {x ph : Phase} {k : Bool} {m n : Nat} {s t : State}

/-- What a place says of the engine depends on these four fields alone. -/
theorem Point.Engine.congr {b c : Bus} (p : Point) (hx : c.xphase = b.xphase) (hs : c.status = b.status)
    (hc : c.completion = b.completion) (ht : c.timedOut = b.timedOut) (h : p.Engine b) : p.Engine c := by
  unfold Point.Engine at *
  split at h <;> simp_all

/-- An activity goes on over any change of registers, memory, devices and the other fields of S. -/
theorem Activity.congr (h : Activity a x k m ph s) (ha : t.agents = s.agents) (hg : t.blk.gate = s.blk.gate)
    (hx : t.blk.xphase = s.blk.xphase) (hs : t.blk.status = s.blk.status)
    (hc : t.blk.completion = s.blk.completion) (ht : t.blk.timedOut = s.blk.timedOut)
    (hh : t.handler = s.handler) (hd : t.attached = s.attached) : Activity a x k m ph t := by
  have e : ∀ b, t.agent b = s.agent b := fun b => agent_congr ha b
  obtain ⟨h1, h2, h3, h4, h5, h6, h7, h8, h9, h10, h11, h12, h13, h14, h15⟩ := h
  refine ⟨by rw [hg]; exact h1, by rw [hg]; exact h2, by rw [hg, hx, hs]; exact h3, by rw [hg]; exact h4,
    by rw [hg, hx, hc]; exact h5, by simpa only [hg, e] using h6, ?_, by simpa only [e] using h8,
    by simpa only [e] using h9, by simpa only [e] using h10, by rw [e]; exact h11, by rw [e]; exact h12,
    by rw [hh]; exact h13, by rw [hd]; exact h14, by rw [hc]; exact h15⟩
  intro b hb ho
  rw [hg] at ho
  rw [e]
  exact Point.Engine.congr _ hx hs hc ht (h7 b hb ho)

/-- The owner's entries through the operations around it stand in its record alone. -/
theorem stack_congr (e : t.agents = s.agents)
    (hm : stackHolds (s.agent a).stack = m) : stackHolds (t.agent a).stack = m := by
  rw [agent_congr e]; exact hm

/-- An activity that has entered the gate owns it. -/
theorem Activity.owner (h : Activity a x k m ph s) (hm : m ≠ 0) : s.blk.gate.owner = some a := by
  have := h.mine
  by_contra hc
  rw [if_neg hc] at this
  exact hm this

/-- While `a` owns the gate the phase, the status and the completion flag may be written. -/
theorem Activity.set (h : Activity a x k m ph s) (hm : m ≠ 0) {ph' : Phase} (ha : t.agents = s.agents)
    (hg : t.blk.gate = s.blk.gate) (hx : t.blk.xphase = ph') (hs : t.blk.status = .idle)
    (hh : t.handler = s.handler) (hd : t.attached = s.attached)
    (hc : t.blk.completion = s.blk.completion ∨ t.blk.completion = false := by exact .inl rfl) : Activity a
      x k m ph' t := by
  have ho := h.owner hm
  have e : ∀ b, t.agent b = s.agent b := fun b => agent_congr ha b
  obtain ⟨h1, h2, h3, h4, h5, h6, h7, h8, h9, h10, h11, h12, h13, h14, h15⟩ := h
  refine ⟨by rw [hg]; exact h1, by rw [hg]; exact h2, fun _ => ⟨hx, hs⟩, by rw [hg]; exact h4,
    by rw [hg, ho]; simp, by simpa only [hg, e] using h6, ?_, by simpa only [e] using h8,
    by simpa only [e] using h9, by simpa only [e] using h10, by rw [e]; exact h11, by rw [e]; exact h12,
    by rw [hh]; exact h13, by rw [hd]; exact h14,
      by rcases hc with hc | hc <;> rw [hc]; exacts [h15, .inr rfl]⟩
  intro b hb hob
  rw [hg, ho] at hob
  cases hob; exact absurd rfl hb

/-- `a`'s own record may change while it stays alive and awake. -/
theorem Activity.agent (h : Activity a x k m ph s) (c : Caller) (hr : c.req ≠ none) (hw : c.waiting = false)
    :
    Activity a x k m ph (s.setAgent a c) := by
  obtain ⟨h1, h2, h3, h4, h5, h6, h7, h8, h9, h10, h11, h12, h13, h14, h15⟩ := h
  have e : ∀ b, b ≠ a → (s.setAgent a c).agent b = s.agent b := fun b hb => agent_setAgent_ne _ _ _ _ hb
  refine ⟨h1, h2, h3, h4, h5, fun b hb => by rw [e b hb]; exact h6 b hb,
    fun b hb ho => by rw [e b hb]; exact h7 b hb ho,
    fun b hb => by rw [e b hb]; exact h8 b hb, fun b hb => by rw [e b hb]; exact h9 b hb,
    fun b hb => by rw [e b hb]; exact h10 b hb, by rw [agent_setAgent_self]; exact hr,
    by rw [agent_setAgent_self]; exact hw, h13, h14, h15⟩

/-- Entering the gate once more. -/
theorem Activity.acquire (h : Activity a x k m ph s) {g : Gate} (hg : s.blk.gate.acquire a = some g) :
    Activity a x k (m + 1) ph (s.setGate g) := by
  obtain ⟨h1, h2, h3, h4, h5, h6, h7, h8, h9, h10, h11, h12, h13, h14, h15⟩ := h
  have hgo : g.owner = some a ∧ (s.blk.gate.owner = none ∨ s.blk.gate.owner = some a) ∧
    g.depth = m + 1 := by
    unfold Gate.acquire at hg
    split at hg
    · next ho => cases hg; rw [if_neg (by simp [ho])] at h2; exact ⟨rfl, .inl ho, by simp [h2]⟩
    · split at hg
      · next o ho he => cases hg; subst he; rw [if_pos ho] at h2; exact ⟨ho, .inr ho, by simp [h2]⟩
      · cases hg
  obtain ⟨g1, g2, g3⟩ := hgo
  refine ⟨Gate.Wf.acquire h1 hg, ?_, fun _ => h3 g2, fun _ => h4 g2, ?_, fun b hb => ?_, ?_, h8, h9, h10,
    h11, h12, h13, h14, h15⟩
  · show m + 1 = if g.owner = some a then g.depth else 0
    rw [g1, if_pos rfl, g3]
  · intro hc; exact absurd g1 hc.2
  · show (s.agent b).holds = if g.owner = some b then g.depth else 0
    rw [g1, if_neg (fun e => hb (by cases e; rfl))]
    rw [h6 b hb, if_neg]
    rintro ho
    rcases g2 with g2 | g2 <;> rw [g2] at ho <;> cases ho
    exact hb rfl
  · intro b hb ho
    have : g.owner = some b := ho
    rw [g1] at this; cases this; exact absurd rfl hb

/-- Leaving the gate once: the release answers. -/
theorem Activity.release (h : Activity a x k (m + 1) ph s) :
    ∃ g, s.blk.gate.release a = some g ∧ Activity a x k m ph (s.setGate g) := by
  have ho := h.owner (by omega)
  obtain ⟨h1, h2, h3, h4, h5, h6, h7, h8, h9, h10, h11, h12, h13, h14, h15⟩ := h
  rw [if_pos ho] at h2
  have hr : s.blk.gate.release a = some { s.blk.gate with
      depth := s.blk.gate.depth - 1,
        owner := if s.blk.gate.depth = 1 then none else s.blk.gate.owner } := by
    simp [Gate.release, ho]; omega
  refine ⟨_, hr, Gate.Wf.release hr, ?_, fun _ => h3 (.inr ho), fun _ => h4 (.inr ho), ?_, fun b hb => ?_,
    ?_,
    h8, h9, h10, h11, h12, h13, h14, h15⟩
  · simp only [setGate_blk, ho, ← h2]
    by_cases hm : m = 0 <;> simp [hm]
  · simp only [setGate_blk, ho]
    by_cases hm : s.blk.gate.depth = 1 <;> simp [hm]
  · have := h6 b hb
    rw [ho, if_neg (fun e => hb (by cases e; rfl))] at this
    show (s.agent b).holds = _
    rw [this]
    simp only [setGate_blk, ho]
    by_cases hm : s.blk.gate.depth = 1 <;> simp [hm, Ne.symm hb]
  · intro b hb hob
    simp only [setGate_blk, ho] at hob
    by_cases hm : s.blk.gate.depth = 1 <;> simp [hm, Ne.symm hb] at hob

/-- The activity ends with `a`'s record set so that it accounts for its entries. -/
theorem Activity.close (h : Activity a x k m ph s) (c : Caller) (hc : c.holds = m)
    (he : s.blk.gate.owner = some a → c.point.Engine s.blk)
    (hn : s.blk.gate.owner = none → ph = .idle) (hp : c.point.Placed)
    (hw : c.waiting = true ↔ c.point = .await) (hr : c.req = none → c.point = .idle ∧ c.stack = [])
    (hph : ph = .idle ∨ ph = .busyWait ∨ (ph = .transferActive ∧ s.blk.completion = false)) :
    Ended x k (s.setAgent a c) := by
  obtain ⟨h1, h2, h3, h4, h5, h6, h7, h8, h9, h10, h11, h12, h13, h14, h15⟩ := h
  have e : ∀ b, b ≠ a → (s.setAgent a c).agent b = s.agent b := fun b hb => agent_setAgent_ne _ _ _ _ hb
  have es : (s.setAgent a c).agent a = c := agent_setAgent_self _ _ _
  refine ⟨⟨h1, fun b => ?_, fun b ho => ?_, fun ho => ?_, fun b => ?_, fun b => ?_, fun b => ?_,
    fun hh => absurd h13 hh, fun hd => ?_⟩, ?_⟩
  · by_cases hb : b = a
    · subst hb; rw [es, hc]; exact h2
    · rw [e b hb]; exact h6 b hb
  · by_cases hb : b = a
    · subst hb; rw [es]; exact he ho
    · rw [e b hb]; exact h7 b hb ho
  · have := h3 (.inl ho); rw [hn ho] at this; exact this
  · by_cases hb : b = a
    · subst hb; rw [es]; exact hp
    · rw [e b hb]; exact h8 b hb
  · by_cases hb : b = a
    · subst hb; rw [es]; exact hw
    · rw [e b hb]; exact h9 b hb
  · by_cases hb : b = a
    · subst hb; rw [es]; exact hr
    · rw [e b hb]; exact h10 b hb
  · have : s.attached = false := hd
    rw [h14] at this; cases this
  · by_cases hc : s.blk.gate.owner = none ∨ s.blk.gate.owner = some a
    · right
      refine ⟨h15, h4 hc, ?_⟩
      show s.blk.xphase = _ ∨ s.blk.xphase = _ ∨ (s.blk.xphase = _ ∧ s.blk.completion = _)
      rw [(h3 hc).1]; exact hph
    · left
      simp only [not_or] at hc
      exact h5 hc

/-- The activity ends with its result posted. -/
theorem Activity.post (h : Activity a x k 0 .idle s) (r : Result) : Ended x k (post a r s) := by
  refine h.close _ ?_ ?_ (fun _ => rfl) trivial ?_ (fun _ => ⟨rfl, rfl⟩) (.inl rfl)
  · simp [Caller.holds, Point.holds]
  · intro ho
    exact h.quiet (.inr ho)
  · simp

/-- Parking at a place outside XFER. -/
theorem Activity.park (h : Activity a x k m .idle s) (p : Point)
    (hc : p.holds + stackHolds (s.agent a).stack = m)
    (he : ∀ b : Bus, b.xphase = .idle → b.status = .idle → p.Engine b) (hp : p.Placed) (hw : p ≠ .await) :
    Ended x k (Machine.park a p s) := by
  refine h.close _ hc ?_ (fun _ => rfl) hp ?_ (fun hr => absurd hr h.live) (.inl rfl)
  · intro ho; exact he _ (h.quiet (.inr ho)).1 (h.quiet (.inr ho)).2
  · simp [h.awake, hw]

/-- Whose activity is unfinished is no part of the control state. -/
theorem Ended.running (h : Ended x k s) (r : Option Agent) : Ended x k { s with running := r } :=
  ⟨⟨h.1.1, h.1.2, h.1.3, h.1.4, h.1.5, h.1.6, h.1.7, h.1.8, h.1.9⟩, h.2⟩

/-- The activity ends at its request's next part. -/
theorem Activity.goOn (h : Activity a x k m .idle s) (c : Cont) (fs : List Frame)
    (hc : (Point.go c).holds + stackHolds fs = m) (hp : (Point.go c).Placed) :
    Ended x k (Machine.goOn a c fs s) := by
  refine Ended.running (Activity.park (m := m) (h.agent _ ?_ ?_) (.go c) ?_ (fun b h1 h2 => ⟨h1,
    h2⟩) hp (by simp)) _
  · exact h.live
  · exact h.awake
  · simpa [setStack] using hc

/-- A release of the gate, and what follows it. -/
theorem Flow.end_release {f : State → Flow} (h : Activity a x k (m + 1) ph s)
    (kf : ∀ t, Activity a x k m ph t → t.agents = s.agents → FlowEnds x k (f t)) :
    FlowEnds x k (Flow.andThen (gateRelease a s) f) := by
  obtain ⟨g, hg, hm⟩ := h.release
  rw [gateRelease_of hg]
  exact kf _ hm rfl

/-- A result goes out through the operations around a transfer. -/
theorem retFrames_end (fs : List Frame) (r : Result) (s : State)
    (h : Activity a x k (stackHolds fs) .idle s) :
    FlowEnds x k (retFrames a fs r s) := by
  induction fs generalizing r s with
  | nil => exact ⟨_, rfl, h.post r⟩
  | cons f fs ih =>
    have rel : ∀ r s, Activity a x k (stackHolds fs + 1) .idle s →
        FlowEnds x k (Flow.andThen (gateRelease a s) (retFrames a fs r)) :=
      fun r s hm => Flow.end_release hm fun t ht _ => ih r t ht
    have cons1 : f.holds = 1 → stackHolds (f :: fs) = stackHolds fs + 1 := by
      intro e; simp [stackHolds, e, Nat.add_comm]
    have cons0 : f.holds = 0 → stackHolds (f :: fs) = stackHolds fs := by
      intro e; simp [stackHolds, e]
    cases f with
    | retry left msgs count =>
      rw [cons0 rfl] at h
      simp only [retFrames]
      split
      · have h' : Activity a x k (stackHolds fs) .idle
          (setStack a (.retry (left - 1) msgs count :: fs) s) :=
          h.agent _ h.live h.awake
        refine ⟨_, rfl, h'.park (.go (.xfer msgs count)) ?_ (fun b h1 h2 => ⟨h1, h2⟩) trivial (by simp)⟩
        simp [Point.holds, stackHolds, Frame.holds, setStack]
      · exact ih r s h
    | smbus cb =>
      rw [cons0 rfl] at h
      simp only [retFrames]
      split
      · exact ih _ _ (h.congr rfl rfl rfl rfl rfl rfl rfl rfl)
      · exact ih r s h
    | gated => rw [cons1 rfl] at h; exact rel r s h
    | setPage dev page =>
      rw [cons1 rfl] at h
      exact rel _ _ (h.congr rfl rfl rfl rfl rfl rfl rfl rfl)
    | selected blk =>
      rw [cons1 rfl] at h
      simp only [retFrames]
      split
      · exact ⟨_, rfl, h.goOn _ _ (by simp [Point.holds, Nat.add_comm]) trivial⟩
      · exact rel r s h
    | block => rw [cons1 rfl] at h; exact rel _ s h
    | probe dev pos found =>
      rw [cons1 rfl] at h
      have pro : ∀ fns r s, Activity a x k (stackHolds fs + 1) .idle s →
          FlowEnds x k (Flow.andThen (endProbe a dev fns s) (retFrames a fs r)) :=
        fun fns r s hm => rel r _ (hm.congr rfl rfl rfl rfl rfl rfl rfl rfl)
      simp only [retFrames]
      split
      · exact pro _ _ s h
      · split
        · exact pro _ _ s h
        · split
          · exact ⟨_, rfl, h.goOn _ _ (by simp [Point.holds, Nat.add_comm]) trivial⟩
          · exact pro _ _ s h
    | f01 dev base todo =>
      rw [cons1 rfl] at h
      simp only [retFrames]
      split
      · exact rel _ s h
      · split
        · exact rel _ s h
        · exact ⟨_, rfl, h.goOn _ _ (by simp [Point.holds, Nat.add_comm]) trivial⟩

/-- The operation of an activity ends with a result. -/
theorem ret_end (r : Result) (h : Activity a x k m .idle s) (hm : stackHolds (s.agent a).stack = m) :
    FlowEnds x k (ret a r s) := by
  subst hm; exact retFrames_end _ r s h

/-- The same with the gate released first. -/
theorem releaseRet_end (r : Result) (h : Activity a x k (m + 1) .idle s)
    (hm : stackHolds (s.agent a).stack = m) :
    FlowEnds x k (releaseRet a r s) :=
  Flow.end_release h fun t ht e => ret_end r ht (by rw [agent_congr e]; exact hm)

/-- The gate is entered, or waited for. -/
theorem withGate_end (c : Cont) (body : State → Flow) (h : Activity a x k m .idle s)
    (hm : stackHolds (s.agent a).stack = m) (hp : (Point.gate c).Placed)
    (hb : ∀ g, Activity a x k (m + 1) .idle (s.setGate g) → FlowEnds x k (body (s.setGate g))) :
    FlowEnds x k (withGate a c body s) := by
  unfold withGate
  split
  · next g hg => exact hb g (h.acquire hg)
  · next hg =>
    refine ⟨_, rfl, ?_⟩
    have hw : Activity a x k m .idle (s.setGate (s.blk.gate.wait a)) := by
      have : ∀ g : Gate, g.owner = s.blk.gate.owner → g.depth = s.blk.gate.depth →
        Activity a x k m .idle (s.setGate g) := by
        intro g g1 g2
        obtain ⟨h1, h2, h3, h4, h5, h6, h7, h8, h9, h10, h11, h12, h13, h14, h15⟩ := h
        exact ⟨by simpa [Gate.Wf, g1, g2] using h1, by simpa [g1, g2] using h2, by simpa [g1, g2] using h3,
          by simpa [g1, g2] using h4,
          by simpa [g1, g2] using h5, by simpa [g1, g2] using h6, fun b hb ho => by
            have : g.owner = some b := ho
            rw [g1] at this
            exact Point.Engine.congr _ rfl rfl rfl rfl (h7 b hb this), h8, h9, h10, h11, h12, h13, h14, h15⟩
      refine this _ ?_ ?_ <;> (unfold Gate.wait; split <;> rfl)
    exact hw.park _ (by simpa [Point.holds] using hm) (fun b h1 h2 => ⟨h1, h2⟩) hp (by simp)

/-! ### The disable and what uses it -/

/-- What a disable is run for, and where the engine stands meanwhile. -/
def Disabling (a : Agent) (x : Phase) (k : Bool) (m : Nat) (u : DisableUse) (s : State) : Prop :=
  match u with
  | .xfer _ => Activity a x k m .busyWait s ∧ s.blk.completion = false ∧ s.blk.timedOut = false
  | _ => Activity a x k m .idle s

/-- It holds over any change of registers and of the other fields of S. -/
theorem Disabling.congr {u : DisableUse} (h : Disabling a x k m u s) (ha : t.agents = s.agents)
    (hg : t.blk.gate = s.blk.gate)
    (hx : t.blk.xphase = s.blk.xphase) (hs : t.blk.status = s.blk.status)
    (hc : t.blk.completion = s.blk.completion) (ht : t.blk.timedOut = s.blk.timedOut)
    (hh : t.handler = s.handler) (hd : t.attached = s.attached) : Disabling a x k m u t := by
  cases u with
  | xfer msgs => exact ⟨h.1.congr ha hg hx hs hc ht hh hd, by rw [hc]; exact h.2.1, by rw [ht]; exact h.2.2⟩
  | bus => exact Activity.congr h ha hg hx hs hc ht hh hd
  | stop => exact Activity.congr h ha hg hx hs hc ht hh hd
  | configure _ => exact Activity.congr h ha hg hx hs hc ht hh hd

/-- `xfer_init` ends in the wait. -/
theorem xferArm_end (msgs : List Msg) (h : Disabling a x k m (.xfer msgs) s)
    (hm : stackHolds (s.agent a).stack + 1 = m) :
    Ended x k (xferArm a msgs s) := by
  obtain ⟨h, hc, ht⟩ := h
  have ho := h.owner (by omega)
  have mid : ∀ t : State, t.agents = s.agents → t.blk.gate = s.blk.gate → t.handler = s.handler →
    t.attached = s.attached →
      t.blk.xphase = .transferActive → t.blk.status ≠ .idle → t.blk.completion = false →
        t.blk.timedOut = false →
      Ended x k (t.setAgent a { t.agent a with waiting := true, point := .await }) := by
    intro t e1 e2 e3 e4 e5 e6 e7 e8
    have e : ∀ b, t.agent b = s.agent b := fun b => agent_congr e1 b
    have es : ∀ c, (t.setAgent a c).agent a = c := fun c => agent_setAgent_self _ _ _
    have en : ∀ c b, b ≠ a → (t.setAgent a c).agent b = s.agent b := fun c b hb => by
      rw [agent_setAgent_ne _ _ _ _ hb, e]
    obtain ⟨h1, h2, h3, h4, h5, h6, h7, h8, h9, h10, h11, h12, h13, h14, h15⟩ := h
    rw [if_pos ho] at h2
    have hoT : t.blk.gate.owner = some a := by rw [e2]; exact ho
    refine ⟨⟨by show t.blk.gate.Wf; rw [e2]; exact h1, fun b => ?_, fun b hb => ?_, fun hb => ?_,
      fun b => ?_, fun b => ?_, fun b => ?_, fun hh => ?_, fun hd => ?_⟩, ?_⟩
    · by_cases hb : b = a
      · subst hb; rw [es]
        show _ = if t.blk.gate.owner = some b then t.blk.gate.depth else 0
        rw [if_pos hoT, e2, ← h2, ← hm]
        rw [Caller.holds]
        show 1 + ((t.agent b).stack.map Frame.holds).sum = _
        rw [e, stackHolds]; omega
      · rw [en _ b hb]
        show _ = if t.blk.gate.owner = some b then t.blk.gate.depth else 0
        rw [e2]; exact h6 b hb
    · have hb' : t.blk.gate.owner = some b := hb
      rw [hoT] at hb'; cases hb'
      rw [es]; exact ⟨e5, e6, e8⟩
    · have hb' : t.blk.gate.owner = none := hb
      rw [hoT] at hb'; cases hb'
    · by_cases hb : b = a
      · subst hb; rw [es]; trivial
      · rw [en _ b hb]; exact h8 b hb
    · by_cases hb : b = a
      · subst hb; rw [es]; simp
      · rw [en _ b hb]; exact h9 b hb
    · by_cases hb : b = a
      · subst hb; rw [es]; intro hr
        have hr' : (t.agent b).req = none := hr
        rw [e] at hr'; exact absurd hr' h11
      · rw [en _ b hb]; exact h10 b hb
    · have hh' : t.handler ≠ none := hh
      rw [e3] at hh'; exact absurd h13 hh'
    · have hd' : t.attached = false := hd
      rw [e4, h14] at hd'; cases hd'
    · exact .inr ⟨.inr e7, h4 (.inr ho), .inr (.inr ⟨e5, e7⟩)⟩
  unfold xferArm
  simp only []
  refine mid _ ?_ ?_ ?_ ?_ ?_ ?_ ?_ ?_
  · simp [ctlEnable]
  · simp [ctlEnable]
  · simp [ctlEnable]
  · simp [ctlEnable]
  · simp
  · simp [Msg.dir]; split <;> simp
  · simpa [ctlEnable] using hc
  · simpa [ctlEnable] using ht

/-- LIFE_START after its configure. -/
theorem startConfigured_end (prov : Provider) (ok : Bool) (h : Activity a x k (m + 1) .idle s)
    (hm : stackHolds (s.agent a).stack = m) :
    FlowEnds x k (startConfigured a prov ok s) := by
  unfold startConfigured
  split
  · exact releaseRet_end _ (h.congr rfl rfl rfl rfl rfl rfl rfl rfl) hm
  · split
    · refine releaseRet_end _ (h.congr ?_ ?_ ?_ ?_ ?_ ?_ ?_ ?_)
        (stack_congr (by simp [unmap, unconfigure]) hm) <;> simp [unmap, unconfigure]
    · exact releaseRet_end _ (h.congr rfl rfl rfl rfl rfl rfl rfl rfl) hm

/-- What follows `configure_proc`. -/
theorem afterConfigure_end (u : ConfigUse) (ok : Bool) (h : Activity a x k (m + 1) .idle s)
    (hm : stackHolds (s.agent a).stack = m) :
    FlowEnds x k (afterConfigure a u ok s) := by
  cases u with
  | bus => exact releaseRet_end _ h hm
  | power => exact releaseRet_end _ h hm
  | start prov => exact startConfigured_end prov ok h hm

/-- LIFE_STOP after its disable. -/
theorem stopTail_end (ok : Bool) (h : Activity a x k (m + 1) .idle s)
    (hm : stackHolds (s.agent a).stack = m) :
    FlowEnds x k (stopTail a ok s) :=
  releaseRet_end _ (h.congr rfl rfl rfl rfl rfl rfl rfl rfl) hm

/-- What follows an acknowledged disable. -/
theorem disabled_end (u : DisableUse) (h : Disabling a x k (m + 1) u s)
    (hm : stackHolds (s.agent a).stack = m) :
    FlowEnds x k (disabled a u s) := by
  cases u with
  | bus => exact releaseRet_end _ h hm
  | stop => exact stopTail_end _ h hm
  | configure c =>
    refine afterConfigure_end c true (Activity.congr h ?_ ?_ ?_ ?_ ?_ ?_ ?_ ?_)
      (stack_congr ?_ hm) <;> simp [configureWrites]
  | xfer msgs => exact ⟨_, rfl, xferArm_end msgs h (by omega)⟩

/-- What follows a disable that timed out. -/
theorem disableFailed_end (u : DisableUse) (h : Disabling a x k (m + 1) u s)
    (hm : stackHolds (s.agent a).stack = m) :
    FlowEnds x k (disableFailed a u s) := by
  cases u with
  | bus => exact releaseRet_end _ h hm
  | stop => exact stopTail_end _ h hm
  | configure c => exact afterConfigure_end c false h hm
  | xfer msgs =>
    exact releaseRet_end _
      (h.1.set (t := setPhase .idle s) (by omega) rfl rfl rfl (h.1.quiet (.inr (h.1.owner (by omega)))).2
        rfl rfl) hm

/-- One poll of `ctl_disable`. -/
theorem disablePoll_end (i : Nat) (u : DisableUse) (h : Disabling a x k (m + 1) u s)
    (hm : stackHolds (s.agent a).stack = m) :
    FlowEnds x k (disablePoll a i u s) := by
  unfold disablePoll
  simp only []
  have h1 : Disabling a x k (m + 1) u (regRead .enableStatus s).2 := by
    refine h.congr ?_ ?_ ?_ ?_ ?_ ?_ ?_ ?_ <;> simp
  split
  · exact disabled_end u (h1.congr rfl rfl rfl rfl rfl rfl rfl rfl) (stack_congr (by simp [setUnacked]) hm)
  · split
    · refine ⟨_, rfl, ?_⟩
      cases u with
      | xfer msgs =>
        have ho := h1.1.owner (by omega)
        have hq := h1.1.quiet (.inr ho)
        refine h1.1.close _ ?_ (fun _ => ⟨hq.1, hq.2, h1.2.1, h1.2.2⟩) (fun hn => ?_) trivial ?_
          (fun hr => absurd hr h1.1.live) (.inr (.inl rfl))
        · simp [Caller.holds, Point.holds, stackHolds] at hm ⊢; omega
        · rw [ho] at hn; cases hn
        · simp [h.1.awake]
      | bus =>
        exact Activity.park h1 _ (by rw [stack_congr (by simp) hm, Nat.add_comm]; rfl) (fun b h1 h2 => ⟨h1,
          h2⟩) trivial (by simp)
      | stop =>
        exact Activity.park h1 _ (by rw [stack_congr (by simp) hm, Nat.add_comm]; rfl) (fun b h1 h2 => ⟨h1,
          h2⟩) trivial (by simp)
      | configure c =>
        exact Activity.park h1 _ (by rw [stack_congr (by simp) hm, Nat.add_comm]; rfl) (fun b h1 h2 => ⟨h1,
          h2⟩) trivial (by simp)
    · exact disableFailed_end u (h1.congr rfl rfl rfl rfl rfl rfl rfl rfl)
        (stack_congr (by simp [setUnacked]) hm)

/-- `ctl_disable` and what follows it. -/
theorem ctlDisable_end (u : DisableUse) (h : Disabling a x k (m + 1) u s)
    (hm : stackHolds (s.agent a).stack = m) :
    FlowEnds x k (ctlDisable a u s) := by
  refine disablePoll_end 0 u (h.congr ?_ ?_ ?_ ?_ ?_ ?_ ?_ ?_) (stack_congr ?_ hm) <;> simp

/-! ### Transfers and the operations around them -/

/-- One poll of the bus-not-busy loop. -/
theorem busyPoll_end (msgs : List Msg) (count : Half) (h : Activity a x k (m + 1) .busyWait s)
    (hm : stackHolds (s.agent a).stack = m) :
    FlowEnds x k (busyPoll a msgs count s) := by
  unfold busyPoll
  simp only []
  have h1 : Activity a x k (m + 1) .busyWait (regRead .status s).2 := by
    refine h.congr ?_ ?_ ?_ ?_ ?_ ?_ ?_ ?_ <;> simp
  have ho := h1.owner (by omega)
  have hq := h1.quiet (.inr ho)
  split
  · refine ctlDisable_end _ ⟨h1.set (by omega) rfl rfl hq.1 hq.2 rfl rfl (.inr rfl), rfl,
      rfl⟩ (stack_congr (by simp [xferReset]) hm)
  · split
    · exact releaseRet_end _ (h1.set (t := setPhase .idle _) (by omega) rfl rfl rfl hq.2 rfl rfl)
        (stack_congr (by simp [setPhase]) hm)
    · refine ⟨_, rfl, ?_⟩
      have h2 : Activity a x k (m + 1) .busyWait
        { (regRead .status s).2 with blk := { (regRead .status s).2.blk with
          pollCount := (regRead .status s).2.blk.pollCount + 1 } } := h1.congr rfl rfl rfl rfl rfl rfl rfl
            rfl
      refine h2.close _ ?_ (fun _ => ⟨hq.1, hq.2⟩) (fun hn => ?_) trivial ?_ (fun hr => absurd hr h2.live)
        (.inr (.inl rfl))
      · show 1 + stackHolds _ = _
        rw [stack_congr (s := s) (by simp) hm, Nat.add_comm]
      · have hn' : (regRead .status s).2.blk.gate.owner = none := hn
        rw [ho] at hn'; cases hn'
      · have := h2.awake
        simp only [this]; simp

/-- XFER with the gate taken. -/
theorem xferGated_end (msgs : List Msg) (count : Half) (h : Activity a x k (m + 1) .idle s)
    (hm : stackHolds (s.agent a).stack = m) :
    FlowEnds x k (xferGated a msgs count s) := by
  have ho := h.owner (by omega)
  have hq := h.quiet (.inr ho)
  unfold xferGated
  split
  · exact releaseRet_end _ (h.set (t := setPhase .idle s) (by omega) rfl rfl rfl hq.2 rfl rfl)
      (stack_congr (by simp [setPhase]) hm)
  · exact busyPoll_end _ _ (h.set (by omega) rfl rfl rfl hq.2 rfl rfl) hm

/-- XFER from its first step. -/
theorem xferStart_end (msgs : List Msg) (count : Half) (h : Activity a x k m .idle s)
    (hm : stackHolds (s.agent a).stack = m) :
    FlowEnds x k (xferStart a msgs count s) := by
  unfold xferStart
  split
  · exact ret_end _ h hm
  · exact withGate_end _ _ h hm trivial fun g hg => xferGated_end _ _ hg hm

/-- pushing frames, `c` the holds they account for -/
theorem push_stack (fs : List Frame)
    (s : State) : stackHolds ((pushFrames a fs s).agent a).stack = stackHolds fs + stackHolds
      (s.agent a).stack := by
  simp [pushFrames, setStack, stackHolds]

/-- The same against a count. -/
theorem push_stack_eq (fs : List Frame) {u : State} (h : stackHolds (u.agent a).stack = m) :
    stackHolds ((pushFrames a fs u).agent a).stack = stackHolds fs + m := by rw [push_stack, h]

/-- Operations may be entered. -/
theorem Activity.push (h : Activity a x k m ph s)
    (fs : List Frame) : Activity a x k m ph (pushFrames a fs s) := h.agent _ h.live h.awake

/-- Memory may change. -/
theorem Activity.mem (h : Activity a x k m ph s)
    (mm : Memory) : Activity a x k m ph { s with mem := mm } := h.congr rfl rfl rfl rfl rfl rfl rfl rfl

/-- SMBUS_XFER. -/
theorem smbusXfer_end (size : SizeClass) (rw : Bool) (h : Activity a x k m .idle s)
    (hm : stackHolds (s.agent a).stack = m) :
    FlowEnds x k (smbusXfer size rw a s) := by
  unfold smbusXfer
  simp only []
  split
  · exact ret_end _ h hm
  · split
    · exact ret_end _ h hm
    · split
      · exact ret_end _ h hm
      · refine xferStart_end _ _ ((h.mem _).push _) ?_
        refine (push_stack_eq _ (stack_congr (s := s) rfl hm)).trans ?_; simp [stackHolds, Frame.holds]

/-- SMBUS_XFER_GATED with the gate taken. -/
theorem gatedBody_end (size : SizeClass) (rw : Bool) (h : Activity a x k (m + 1) .idle s)
    (hm : stackHolds (s.agent a).stack = m) :
    FlowEnds x k (gatedBody size rw a s) := by
  refine smbusXfer_end _ _ (h.push _) ?_
  refine (push_stack_eq _ (stack_congr (s := s) rfl hm)).trans ?_; simp [stackHolds, Frame.holds,
    Nat.add_comm]

/-- RMI_SET_PAGE with the gate taken. -/
theorem setPageBody_end (dev : Nat) (page : Byte) (h : Activity a x k (m + 1) .idle s)
    (hm : stackHolds (s.agent a).stack = m) :
    FlowEnds x k (setPageBody dev page a s) := by
  refine xferStart_end _ _ ((h.mem _).push _) ?_
  refine (push_stack_eq _ (stack_congr (s := s) rfl hm)).trans ?_; simp [stackHolds, Frame.holds,
    Nat.add_comm]

/-- A block transfer, its page selected. -/
theorem blockBody_end (blk : Block) (h : Activity a x k (m + 1) .idle s)
    (hm : stackHolds (s.agent a).stack = m) :
    FlowEnds x k (blockBody blk a s) := by
  unfold blockBody
  simp only []
  have e : stackHolds ((pushFrames a [.block] s).agent a).stack = m + 1 := by
    refine (push_stack_eq _ (stack_congr (s := s) rfl hm)).trans ?_; simp [stackHolds, Frame.holds,
      Nat.add_comm]
  split
  all_goals exact xferStart_end _ _ ((h.push _).mem _) e

/-- A block access with the gate taken. -/
theorem accessBody_end (blk : Block) (h : Activity a x k (m + 1) .idle s)
    (hm : stackHolds (s.agent a).stack = m) :
    FlowEnds x k (accessBody blk a s) := by
  unfold accessBody
  simp only []
  split
  · exact blockBody_end blk h hm
  · have e : stackHolds ((pushFrames a [.selected blk] s).agent a).stack = m + 1 := by
      refine (push_stack_eq _ (stack_congr (s := s) rfl hm)).trans ?_; simp [stackHolds, Frame.holds,
        Nat.add_comm]
    exact withGate_end _ _ (h.push _) e trivial fun g hg => setPageBody_end _ _ hg e

/-- A block access. -/
theorem blockAccess_end (blk : Block) (h : Activity a x k m .idle s) (hm : stackHolds (s.agent a).stack = m)
    :
    FlowEnds x k (blockAccess blk a s) := by
  unfold blockAccess
  split
  · exact ret_end _ h hm
  · exact withGate_end _ _ h hm trivial fun g hg => accessBody_end blk hg hm

/-- The scan from an entry on. -/
theorem probeBody_end (dev pos : Nat) (found : List FnDesc) (h : Activity a x k (m + 1) .idle s)
    (hm : stackHolds (s.agent a).stack = m) :
    FlowEnds x k (probeBody dev pos found a s) := by
  refine blockAccess_end _ (h.push _) ?_
  refine (push_stack_eq _ (stack_congr (s := s) rfl hm)).trans ?_; simp [stackHolds, Frame.holds,
    Nat.add_comm]

/-- The init sequence from a write on. -/
theorem f01Body_end (dev : Nat) (base : Half) (todo : List (Half × List Byte))
    (h : Activity a x k (m + 1) .idle s) (hm : stackHolds (s.agent a).stack = m) :
    FlowEnds x k (f01Body dev base todo a s) := by
  unfold f01Body
  split
  · exact releaseRet_end _ h hm
  · refine blockAccess_end _ (h.push _) ?_
    refine (push_stack_eq _ (stack_congr (s := s) rfl hm)).trans ?_; simp [stackHolds, Frame.holds,
      Nat.add_comm]

/-- LIFE_START with the gate taken. -/
theorem startBody_end (prov : Provider) (h : Activity a x k (m + 1) .idle s)
    (hm : stackHolds (s.agent a).stack = m) :
    FlowEnds x k (startBody prov a s) := by
  unfold startBody
  split
  · exact releaseRet_end _ h hm
  · simp only []
    split
    · exact releaseRet_end _ (h.congr rfl rfl rfl rfl rfl rfl rfl rfl) hm
    · exact ctlDisable_end (.configure _) (Activity.congr h rfl rfl rfl rfl rfl rfl rfl rfl) hm

/-- LIFE_STOP with the gate taken. -/
theorem stopBody_end (h : Activity a x k (m + 1) .idle s) (hm : stackHolds (s.agent a).stack = m) :
    FlowEnds x k (stopBody a s) := by
  unfold stopBody
  split
  · refine ctlDisable_end .stop (Activity.congr h ?_ ?_ ?_ ?_ ?_ ?_ ?_ ?_) (stack_congr ?_ hm) <;> simp
  · exact stopTail_end _ h hm

/-- BUS_POWER with the gate taken. -/
theorem powerBody_end (en : Bool) (h : Activity a x k (m + 1) .idle s)
    (hm : stackHolds (s.agent a).stack = m) :
    FlowEnds x k (powerBody en a s) := by
  unfold powerBody
  split
  · exact releaseRet_end _ (h.congr rfl rfl rfl rfl rfl rfl rfl rfl) hm
  · simp only []
    split
    · exact ctlDisable_end (.configure _) (Activity.congr h rfl rfl rfl rfl rfl rfl rfl rfl) hm
    · exact releaseRet_end _ (h.congr rfl rfl rfl rfl rfl rfl rfl rfl) hm

/-- BUS_CLEAR_INTR with the gate taken. -/
theorem busClearBody_end (kind : Byte) (h : Activity a x k (m + 1) .idle s)
    (hm : stackHolds (s.agent a).stack = m) :
    FlowEnds x k (busClearBody kind a s) := by
  unfold busClearBody
  split
  · refine releaseRet_end _ (h.congr ?_ ?_ ?_ ?_ ?_ ?_ ?_ ?_) (stack_congr ?_ hm) <;> simp
  · exact releaseRet_end _ h hm

/-- BUS_ENABLE with the gate taken. -/
theorem busEnableBody_end (h : Activity a x k (m + 1) .idle s)
    (hm : stackHolds (s.agent a).stack = m) : FlowEnds x k (busEnableBody a s) := by
  refine releaseRet_end _ (h.congr ?_ ?_ ?_ ?_ ?_ ?_ ?_ ?_) (stack_congr ?_ hm) <;> simp [ctlEnable]

/-- BUS_MASK_INTR with the gate taken. -/
theorem busMaskBody_end (h : Activity a x k (m + 1) .idle s)
    (hm : stackHolds (s.agent a).stack = m) : FlowEnds x k (busMaskBody a s) := by
  refine releaseRet_end _ (h.congr ?_ ?_ ?_ ?_ ?_ ?_ ?_ ?_) (stack_congr ?_ hm) <;> simp

/-! ### Requests -/

/-- A bus-controller request. -/
theorem busRequest_end (c : Cont) (body : Agent → State → Flow) (h : Activity s.cur x k 0 .idle s)
    (hm : (s.agent s.cur).stack = [])
    (hp : (Point.gate c).Placed)
    (hb : ∀ g, Activity s.cur x k 1 .idle (s.setGate g) → FlowEnds x k (body s.cur (s.setGate g))) :
    FlowEnds x k (busRequest c body s) := by
  unfold busRequest
  have e : stackHolds (s.agent s.cur).stack = 0 := by simp [hm, stackHolds]
  split
  · exact ret_end _ h e
  · exact withGate_end _ _ h e hp hb

/-- An RMI_* request. -/
theorem rmiRequest_end (body : State → Flow) (h : Activity s.cur x k 0 .idle s)
    (hm : (s.agent s.cur).stack = [])
    (hb : FlowEnds x k (body s)) : FlowEnds x k (rmiRequest body s) := by
  unfold rmiRequest
  split
  · exact ret_end _ h (by simp [hm, stackHolds])
  · exact hb

/-- Every request. -/
theorem exec_end (i : Instr) (hi : IsRequest i) (h : Activity s.cur x k 0 .idle s)
    (hm : (s.agent s.cur).stack = []) :
    FlowEnds x k (exec i s) := by
  have e : stackHolds (s.agent s.cur).stack = 0 := by simp [hm, stackHolds]
  have smb : ∀ size rw, FlowEnds x k (smbusRequest size rw s) := fun size rw => smbusXfer_end size rw h e
  have gat : ∀ size rw, FlowEnds x k (gatedRequest size rw s) := fun size rw =>
    withGate_end _ _ h e trivial fun g hg => gatedBody_end size rw hg e
  cases i with
  | busEnable => exact busRequest_end _ _ h hm trivial fun g hg => busEnableBody_end hg e
  | busDisable => exact busRequest_end _ _ h hm trivial fun g hg => ctlDisable_end .bus hg e
  | busConfigure => exact busRequest_end _ _ h hm trivial fun g hg => ctlDisable_end (.configure .bus) hg e
  | busMaskIntr => exact busRequest_end _ _ h hm trivial fun g hg => busMaskBody_end hg e
  | busClearIntr => exact busRequest_end _ _ h hm trivial fun g hg => busClearBody_end _ hg e
  | busPower => exact withGate_end _ _ h e trivial fun g hg => powerBody_end _ hg e
  | timingCompute =>
    show FlowEnds x k (match timing s.par (s.opsOf s.cur).timing with
      | none => ret s.cur (Result.fail .configurationError) s
      | some o => ret s.cur (Result.okValue 0#32) (giveTiming s.cur o s))
    cases timing s.par (s.opsOf s.cur).timing with
    | none => exact ret_end _ h e
    | some o =>
      exact ret_end _ (h.agent _ h.live h.awake) (by rw [giveTiming, agent_setAgent_self]; exact e)
  | xfer => exact xferStart_end _ _ h e
  | i2cTransfer =>
    exact xferStart_end _ _ (h.push _) (by rw [push_stack]; simpa [stackHolds, Frame.holds] using e)
  | rmiSetPage =>
    exact rmiRequest_end _ h hm (withGate_end _ _ h e trivial fun g hg => setPageBody_end _ _ hg e)
  | rmiReadBlock => exact rmiRequest_end _ h hm (blockAccess_end _ h e)
  | rmiWriteBlock => exact rmiRequest_end _ h hm (blockAccess_end _ h e)
  | rmiProbe =>
    exact rmiRequest_end _ h hm (withGate_end _ _ h e trivial fun g hg => probeBody_end _ _ _ hg e)
  | rmiF01Init =>
    show FlowEnds x k (execRmiF01Init s)
    refine rmiRequest_end _ h hm ?_
    show FlowEnds x k (match (s.dev s.devOf).bind f01Base with | none => _ | some base => _)
    split
    · exact ret_end _ h e
    · exact withGate_end _ _ h e trivial fun g hg => f01Body_end _ _ _ hg e
  | lifeStart =>
    show FlowEnds x k (execLifeStart s)
    unfold execLifeStart
    simp only []
    split
    · exact ret_end _ h e
    · exact withGate_end _ _ h e trivial fun g hg => startBody_end _ hg e
  | lifeStop =>
    show FlowEnds x k (execLifeStop s)
    unfold execLifeStop
    split
    · exact ret_end _ h e
    · exact withGate_end (s := { s with blk := { s.blk with ready := false } }) _ _
        (h.congr rfl rfl rfl rfl rfl rfl rfl rfl) e trivial fun g hg => stopBody_end hg e
  | smbusUnsupported size rw => exact ret_end (Result.fail .unsupportedTransactionType) h e
  | gatedUnsupported size rw => exact ret_end (Result.fail .unsupportedTransactionType) h e
  | evtIrq => cases hi
  | evtTimeout => cases hi
  | irqTxAbrt => cases hi
  | irqRxFull => cases hi
  | irqTxEmpty => cases hi
  | irqStopDet => cases hi
  | dcWrite dat stop restart => cases hi
  | dcRead stop restart => cases hi
  | smbusQuickW => exact smb .quick false
  | smbusQuickR => exact smb .quick true
  | smbusByteW => exact smb .byte false
  | smbusByteR => exact smb .byte true
  | smbusByteDataW => exact smb .byteData false
  | smbusByteDataR => exact smb .byteData true
  | smbusWordDataW => exact smb .wordData false
  | smbusWordDataR => exact smb .wordData true
  | smbusBlockDataW => exact smb .blockData false
  | smbusBlockDataR => exact smb .blockData true
  | smbusI2cBlockDataW => exact smb .i2cBlockData false
  | smbusI2cBlockDataR => exact smb .i2cBlockData true
  | gatedQuickW => exact gat .quick false
  | gatedQuickR => exact gat .quick true
  | gatedByteW => exact gat .byte false
  | gatedByteR => exact gat .byte true
  | gatedByteDataW => exact gat .byteData false
  | gatedByteDataR => exact gat .byteData true
  | gatedWordDataW => exact gat .wordData false
  | gatedWordDataR => exact gat .wordData true
  | gatedBlockDataW => exact gat .blockData false
  | gatedBlockDataR => exact gat .blockData true
  | gatedI2cBlockDataW => exact gat .i2cBlockData false
  | gatedI2cBlockDataR => exact gat .i2cBlockData true

/-! ### Suspended requests -/

/-- From a controlled state, `a` at a place outside XFER begins its activity. -/
theorem State.Control.mid (h : s.Control) (hh : s.handler = none) (ha : s.attached = true)
    (hr : (s.agent a).req ≠ none)
    (hw : (s.agent a).point ≠ .await)
    (hq : s.blk.gate.owner = some a → (s.blk.xphase = .idle ∨ s.blk.xphase = .busyWait) ∧
      s.blk.xphase = ph ∧ s.blk.status = .idle)
    (hn : s.blk.gate.owner = none → ph = .idle) :
    Activity a s.blk.xphase s.blk.completion (s.agent a).holds ph s := by
  refine ⟨h.gate, h.holds a, fun hc => ?_, fun hc => ?_, fun _ => ⟨rfl, rfl⟩, fun b _ => h.holds b,
    fun b _ => h.owned b, fun b _ => h.placed b,
    fun b _ => h.waiting b, fun b _ => h.atRest b, hr, ?_, hh, ha, .inl rfl⟩
  · rcases hc with hc | hc
    · rw [hn hc]; exact h.free hc
    · exact (hq hc).2
  · rcases hc with hc | hc
    · exact .inl (h.free hc).1
    · exact (hq hc).1
  · by_contra hc
    simp at hc
    exact hw ((h.waiting a).1 hc)

/-- A requester away from rest has a request, and S exists. -/
theorem State.Control.live (h : s.Control)
    (hp : (s.agent a).point ≠ .idle) : (s.agent a).req ≠ none ∧ s.attached = true := by
  have : (s.agent a).req ≠ none := fun e => hp (h.atRest a e).1
  refine ⟨this, ?_⟩
  cases e : s.attached
  · exact absurd (h.detached e a) this
  · rfl

/-- The place may be cleared. -/
theorem Activity.parkIdle (h : Activity a x k m ph s) :
    Activity a x k m ph (Machine.park a .idle s) := h.agent _ h.live h.awake

/-- Parking keeps the operations around. -/
theorem park_stack (p : Point)
    (s : State) : stackHolds ((Machine.park a p s).agent a).stack = stackHolds (s.agent a).stack := by
  simp

/-- A release touches neither phase nor completion. -/
theorem gateRelease_phase (h : gateRelease a s = .next t) :
    t.blk.xphase = s.blk.xphase ∧ t.blk.completion = s.blk.completion := by
  unfold gateRelease at h
  split at h
  · cases h; exact ⟨rfl, rfl⟩
  · cases h

/-- A result on its way out touches neither phase nor completion. -/
theorem retFrames_phase (fs : List Frame) (r : Result) (s t : State) (h : retFrames a fs r s = .next t) :
    t.blk.xphase = s.blk.xphase ∧ t.blk.completion = s.blk.completion := by
  induction fs generalizing r s with
  | nil => cases h; exact ⟨rfl, rfl⟩
  | cons f fs ih =>
    have rel : ∀ (r : Result) (u : State), Flow.andThen (gateRelease a u) (retFrames a fs r) = .next t →
        t.blk.xphase = u.blk.xphase ∧ t.blk.completion = u.blk.completion := by
      intro r u hu
      obtain ⟨v, h1, h2⟩ := Flow.andThen_eq_next hu
      have e1 := gateRelease_phase h1
      have e2 := ih r v h2
      exact ⟨e2.1.trans e1.1, e2.2.trans e1.2⟩
    cases f with
    | retry left msgs count =>
      simp only [retFrames] at h
      split at h
      · cases h; exact ⟨rfl, rfl⟩
      · exact ih r s h
    | smbus cb =>
      simp only [retFrames] at h
      split at h
      · exact ih _ { s with mem := copyBack a cb (s.opsOf a).data s.mem } h
      · exact ih r s h
    | gated => exact rel r s h
    | setPage dev page => exact rel _ (updateDev _ _ s) h
    | selected blk =>
      simp only [retFrames] at h
      split at h
      · cases h; exact ⟨rfl, rfl⟩
      · exact rel r s h
    | block => exact rel _ s h
    | probe dev pos found =>
      simp only [retFrames] at h
      split at h
      · exact rel _ (updateDev _ _ s) h
      · split at h
        · exact rel _ (updateDev _ _ s) h
        · split at h
          · cases h; exact ⟨rfl, rfl⟩
          · exact rel _ (updateDev _ _ s) h
    | f01 dev base todo =>
      simp only [retFrames] at h
      split at h
      · exact rel _ s h
      · split at h
        · exact rel _ s h
        · cases h; exact ⟨rfl, rfl⟩

/-- The unwind of a finished wait. -/
theorem unwind_end (s : State) (h : s.Control) (hh : s.handler = none) (hp : (s.agent a).point = .unwind) :
    ∃ t, unwind a (Machine.park a .idle s) = .next t ∧ t.Control ∧ t.blk.xphase = .idle ∧
      t.blk.completion = s.blk.completion ∧
      s.blk.xphase ∈ [.completed, .aborted, .failed, .timedOut] := by
  have hl := State.Control.live (a := a) h (by rw [hp]; simp)
  have hho := h.holds a
  have ho : s.blk.gate.owner = some a := by
    by_contra hc; rw [if_neg hc, Caller.holds, hp] at hho; simp [Point.holds] at hho
  have he := h.owned a ho
  rw [hp] at he
  have hm : stackHolds (s.agent a).stack + 1 = s.blk.gate.depth := by
    rw [if_pos ho, Caller.holds, hp] at hho; simp [Point.holds] at hho; simp [stackHolds]; omega
  have hw : (s.agent a).waiting = false := by
    by_contra hc; simp at hc; have := (h.waiting a).1 hc; rw [hp] at this; cases this
  have mid : ∀ t : State, t.agents = (Machine.park a .idle s).agents → t.blk.gate = s.blk.gate →
    t.blk.xphase = .idle → t.blk.status = .idle →
      t.blk.completion = s.blk.completion →
      t.handler = s.handler → t.attached = s.attached →
        Activity a .idle s.blk.completion (stackHolds (s.agent a).stack + 1) .idle t := by
    intro t e1 e2 e3 e4 e5 e6 e7
    have e : ∀ b, b ≠ a → t.agent b = s.agent b := fun b hb => by rw [agent_congr e1 b,
      agent_park_ne _ _ _ _ hb]
    have ea : t.agent a = { s.agent a with point := .idle } := by rw [agent_congr e1 a, agent_park_self]
    refine ⟨by rw [e2]; exact h.gate, by rw [e2, if_pos ho]; exact hm, fun _ => ⟨e3, e4⟩, fun _ => .inl rfl,
      fun hc => ⟨e3, e5⟩,
      fun b hb => by rw [e2, e b hb]; exact h.holds b, fun b hb hob => ?_,
        fun b hb => by rw [e b hb]; exact h.placed b, fun b hb => by rw [e b hb]; exact h.waiting b,
      fun b hb => by rw [e b hb]; exact h.atRest b, by rw [ea]; exact hl.1, by rw [ea]; exact hw,
        by rw [e6]; exact hh, by rw [e7]; exact hl.2, .inl e5⟩
    rw [e2, ho] at hob; cases hob; exact absurd rfl hb
  have hmid := mid (unwindFields (writeMask 0#32 (Machine.park a .idle s))) (by simp [unwindFields])
    (by simp [unwindFields]) rfl rfl (by simp [unwindFields]) (by simp [unwindFields])
      (by simp [unwindFields])
  have hs : stackHolds ((unwindFields (writeMask 0#32 (Machine.park a .idle s))).agent a).stack = stackHolds
    (s.agent a).stack := by
    rw [agent_congr (s := Machine.park a .idle s) (by simp [unwindFields]), agent_park_self]
  obtain ⟨t, ht, hend⟩ := releaseRet_end (outcome (Machine.park a .idle s).blk) hmid hs
  refine ⟨t, ht, hend.1, ?_⟩
  obtain ⟨g, hg, _⟩ := hmid.release
  rw [releaseRet_of _ hg] at ht
  have := retFrames_phase _ _ _ _ ht
  refine ⟨this.1.trans rfl, this.2.trans (by simp [unwindFields]), he.1⟩

/-- A sleep that ends, or the next part of a request. -/
theorem runCont_go (s : State) (c : Cont) (h : s.Control) (hh : s.handler = none)
    (hp : (s.agent a).point = .sleep c ∨ (s.agent a).point = .go c) :
    FlowEnds s.blk.xphase s.blk.completion (runCont a c (Machine.park a .idle s)) := by
  have hl := State.Control.live (a := a) h (by rcases hp with hp | hp <;> rw [hp] <;> simp)
  have hpl := h.placed a
  have hho := h.holds a
  have hnn : (s.agent a).holds ≠ 0 → s.blk.gate.owner = some a := by
    intro hz; by_contra hc; rw [if_neg hc] at hho; exact hz hho
  have hnw : (s.agent a).point ≠ .await := by rcases hp with hp | hp <;> rw [hp] <;> simp
  -- places outside XFER with one entry of their own
  have quiet1 : ∀ q : Point,
    (s.agent a).point = q → q.holds = 1 → (∀ b : Bus, q.Engine b → b.xphase = .idle ∧ b.status = .idle) →
      Activity a s.blk.xphase s.blk.completion (stackHolds (s.agent a).stack + 1) .idle
        (Machine.park a .idle s) ∧
      stackHolds ((Machine.park a .idle s).agent a).stack = stackHolds (s.agent a).stack := by
    intro q hq h1 he
    have := State.Control.mid (ph := .idle) h hh hl.2 hl.1 hnw (fun ho => by
      have := h.owned a ho; rw [hq] at this; have := he _ this; exact ⟨.inl this.1, this.1,
        this.2⟩) (fun _ => rfl)
    rw [Caller.holds, hq, h1, Nat.add_comm] at this
    exact ⟨this.parkIdle, park_stack _ s⟩
  rcases hp with hp | hp
  · rw [hp] at hpl
    cases c with
    | busy msgs count =>
      have ho := hnn (by rw [Caller.holds, hp]; simp [Point.holds])
      have he := h.owned a ho; rw [hp] at he
      have := State.Control.mid (ph := .busyWait) h hh hl.2 hl.1 hnw (fun ho => ⟨.inr he.1, he.1,
        he.2⟩) (fun hn => by rw [ho] at hn; cases hn)
      rw [Caller.holds, hp, Nat.add_comm] at this
      exact busyPoll_end _ _ this.parkIdle (park_stack _ s)
    | disable i u =>
      cases u with
      | xfer msgs =>
        have ho := hnn (by rw [Caller.holds, hp]; simp [Point.holds])
        have he := h.owned a ho; rw [hp] at he
        have := State.Control.mid (ph := .busyWait) h hh hl.2 hl.1 hnw (fun ho => ⟨.inr he.1, he.1,
          he.2.1⟩) (fun hn => by rw [ho] at hn; cases hn)
        rw [Caller.holds, hp, Nat.add_comm] at this
        exact disablePoll_end i (.xfer msgs) ⟨this.parkIdle, he.2.2.1, he.2.2.2⟩ (park_stack _ s)
      | bus => have q := quiet1 _ hp rfl (fun b hb => hb); exact disablePoll_end i .bus q.1 q.2
      | stop => have q := quiet1 _ hp rfl (fun b hb => hb); exact disablePoll_end i .stop q.1 q.2
      | configure cu =>
        have q := quiet1 _ hp rfl (fun b hb => hb); exact disablePoll_end i (.configure cu) q.1 q.2
    | _ => cases hpl
  · rw [hp] at hpl
    cases c with
    | xfer msgs count =>
      have := State.Control.mid (ph := .idle) h hh hl.2 hl.1 hnw (fun ho => by
        have := h.owned a ho; rw [hp] at this; exact ⟨.inl this.1, this.1, this.2⟩) (fun _ => rfl)
      rw [Caller.holds, hp] at this
      have t2 : Activity a s.blk.xphase s.blk.completion (stackHolds (s.agent a).stack) .idle
        (Machine.park a .idle s) := by
        have e : (Point.go (.xfer msgs count)).holds + (List.map Frame.holds (s.agent a).stack).sum =
          stackHolds (s.agent a).stack := by simp [Point.holds, stackHolds]
        rw [e] at this; exact this.parkIdle
      exact xferStart_end _ _ t2 (park_stack _ s)
    | block blk => have q := quiet1 _ hp rfl (fun b hb => hb); exact blockBody_end blk q.1 q.2
    | probe dev pos found => have q := quiet1 _ hp rfl (fun b hb => hb); exact probeBody_end _ _ _ q.1 q.2
    | f01 dev base todo => have q := quiet1 _ hp rfl (fun b hb => hb); exact f01Body_end _ _ _ q.1 q.2
    | _ => cases hpl

/-- The free gate granted to a waiter. -/
theorem runCont_gate (s : State) (c : Cont) (g : Gate) (h : s.Control) (hh : s.handler = none)
    (hp : (s.agent a).point = .gate c) (hg : s.blk.gate.grant a = some g) :
    FlowEnds s.blk.xphase s.blk.completion (runCont a c (Machine.park a .idle (s.setGate g))) := by
  have hl := State.Control.live (a := a) h (by rw [hp]; simp)
  have hpl := h.placed a
  rw [hp] at hpl
  have hgr : s.blk.gate.owner = none ∧ g.owner = some a ∧ g.depth = 1 := by
    unfold Gate.grant at hg; split at hg
    · next hc => cases hg; exact ⟨hc.1, rfl, rfl⟩
    · cases hg
  obtain ⟨ho, g1, g2⟩ := hgr
  have hho := h.holds a
  rw [ho, if_neg (by simp), Caller.holds, hp] at hho
  have hst : stackHolds (s.agent a).stack = 0 := by simp [Point.holds] at hho; simp [stackHolds]; exact hho
  have hw : (s.agent a).waiting = false := by
    by_contra hc; simp at hc; have := (h.waiting a).1 hc; rw [hp] at this; cases this
  have hm : Activity a s.blk.xphase s.blk.completion 1 .idle (s.setGate g) := by
    refine ⟨Gate.Wf.grant hg, by show 1 = if g.owner = some a then g.depth else 0; rw [g1, if_pos rfl, g2],
      fun _ => h.free ho, fun _ => .inl (h.free ho).1,
      fun hc => absurd g1 hc.2, fun b hb => ?_, fun b hb hob => ?_, fun b _ => h.placed b,
        fun b _ => h.waiting b, fun b _ => h.atRest b, hl.1, hw, hh, hl.2, .inl rfl⟩
    · show (s.agent b).holds = if g.owner = some b then g.depth else 0
      rw [g1, if_neg (by simpa using Ne.symm hb), h.holds b, ho, if_neg (by simp)]
    · have : g.owner = some b := hob
      rw [g1] at this; cases this; exact absurd rfl hb
  have hs : stackHolds ((Machine.park a .idle (s.setGate g)).agent a).stack = 0 := (park_stack _ _).trans
    hst
  have hm := hm.parkIdle
  cases c with
  | xfer msgs count => cases hpl
  | busy msgs count => cases hpl
  | disable i u => cases hpl
  | xferGate msgs count => exact xferGated_end _ _ hm hs
  | busEnable => exact busEnableBody_end hm hs
  | busDisable => exact ctlDisable_end .bus hm hs
  | busConfigure => exact ctlDisable_end (.configure .bus) hm hs
  | busMask => exact busMaskBody_end hm hs
  | busClear kind => exact busClearBody_end kind hm hs
  | power en => exact powerBody_end en hm hs
  | start prov => exact startBody_end prov hm hs
  | stop => exact stopBody_end hm hs
  | gated size rw => exact gatedBody_end _ _ hm hs
  | setPage dev page => exact setPageBody_end _ _ hm hs
  | access blk => exact accessBody_end blk hm hs
  | block blk => exact blockBody_end blk hm hs
  | probe dev pos found => exact probeBody_end _ _ _ hm hs
  | f01 dev base todo => exact f01Body_end _ _ _ hm hs

end Sys2Proof.Machine
end

