-- ==== Sys2Proof/Laws/Handler.lean ====
section
/-!
SUPPORT. What a handler run's operations leave alone: the requesters, the gate, the phase and the signal,
once for each operation.
-/

namespace Sys2Proof.Machine

variable {s t u : State}

/-- What the handler's operations leave alone. -/
structure RunKeeps (s t : State) : Prop where
  agents     : t.agents = s.agents
  gate       : t.blk.gate = s.blk.gate
  phase      : t.blk.xphase = s.blk.xphase
  timedOut   : t.blk.timedOut = s.blk.timedOut
  attached   : t.attached = s.attached
  active     : s.blk.status ≠ .idle → t.blk.status ≠ .idle
  completion : t.blk.completion = s.blk.completion

/-- Nothing changed. -/
theorem RunKeeps.refl (s : State) : RunKeeps s s := ⟨rfl, rfl, rfl, rfl, rfl, id, rfl⟩

/-- One after another. -/
theorem RunKeeps.trans (h : RunKeeps s t) (k : RunKeeps t u) : RunKeeps s u :=
  ⟨k.agents.trans h.agents, k.gate.trans h.gate, k.phase.trans h.phase, k.timedOut.trans h.timedOut,
    k.attached.trans h.attached, fun x => k.active (h.active x), k.completion.trans h.completion⟩

/-- A register write. -/
theorem regWrite_runKeeps (r v) (s : State) : RunKeeps s (regWrite r v s) := by
  constructor <;> simp

/-- A register read. -/
theorem regRead_runKeeps (r) (s : State) : RunKeeps s (regRead r s).2 := by
  constructor <;> simp

/-- The same of an operation that may fault. -/
def FlowKeeps (s : State) (o : Flow) : Prop := ∀ t, o = .next t → RunKeeps s t

/-- One after another. -/
theorem FlowKeeps.andThen {o : Flow} {f : State → Flow} (h : FlowKeeps s o)
    (k : ∀ t, RunKeeps s t → FlowKeeps t (f t)) : FlowKeeps s (Flow.andThen o f) := by
  intro t ht
  obtain ⟨u, h1, h2⟩ := Flow.andThen_eq_next ht
  exact (h u h1).trans (k u (h u h1) t h2)

/-- An operation that answers. -/
theorem FlowKeeps.next (h : RunKeeps s t) : FlowKeeps s (.next t) := by intro u hu; cases hu; exact h

/-- An operation after a step. -/
theorem FlowKeeps.of (h : RunKeeps s u)
    {o : Flow} (k : FlowKeeps u o) : FlowKeeps s o := fun t ht => h.trans (k t ht)

/-- One command word. -/
theorem issueWord_runKeeps (w rd) (s : State) : RunKeeps s (issueWord w rd s) :=
  (regWrite_runKeeps _ _ s).trans ⟨rfl, rfl, rfl, rfl, rfl, id, rfl⟩

/-- The words of one message. -/
theorem issueWords_runKeeps (n : Nat) (s : State) : FlowKeeps s (issueWords n s) := by
  induction n generalizing s with
  | zero => exact .next (.refl s)
  | succ n ih =>
    unfold issueWords
    simp only []
    split
    · exact .next (.refl s)
    · split
      · split
        · exact .next (.refl s)
        · exact .of (issueWord_runKeeps _ _ s) (ih _)
      · split
        · intro t h; cases h
        · exact .of (issueWord_runKeeps _ _ s) (ih _)

/-- The refill over the messages. -/
theorem refill_runKeeps (n : Nat) (s : State) : FlowKeeps s (refillLoop n s) := by
  induction n generalizing s with
  | zero => exact .next (.refl s)
  | succ n ih =>
    unfold refillLoop
    simp only []
    split
    · exact .next (.refl s)
    · have h1 : RunKeeps s (s.mapBlk fun b => { b with status := (msgAt b.msgs b.msgWriteIdx).dir }) :=
        ⟨rfl, rfl, rfl, rfl, rfl, fun _ => by show Msg.dir _ ≠ _; unfold Msg.dir; split <;> simp, rfl⟩
      refine .of (h1.trans (regRead_runKeeps .txflr _)) ((issueWords_runKeeps _ _).andThen fun t _ => ?_)
      split
      · exact .next (.refl t)
      · split
        · exact .next ⟨rfl, rfl, rfl, rfl, rfl, id, rfl⟩
        · intro v hv
          have k := ih _ v hv
          exact ⟨k.agents, k.gate, k.phase, k.timedOut, k.attached, k.active, k.completion⟩

/-- The TX refill. -/
theorem txRefill_runKeeps (s : State) : FlowKeeps s (txRefill s) := by
  refine (refill_runKeeps _ s).andThen fun t _ => .next ?_
  unfold maskTxEmpty
  split
  · exact regWrite_runKeeps _ _ t
  · exact .refl t

/-- One received byte. -/
theorem drainByte_runKeeps (s : State) : FlowKeeps s (drainByte s) := by
  unfold drainByte
  simp only []
  have h1 : RunKeeps s (s.mapBlk skipAtCursor) := by
    constructor <;> simp only [mapBlk_blk, mapBlk_agents,
      mapBlk_attached] <;> (try (unfold skipAtCursor; simp only []; split <;> first | rfl | exact id))
  have h0 := (h1.trans (regRead_runKeeps .dataCmd _)).trans
    (u := (regRead .dataCmd (s.mapBlk skipAtCursor)).2.mapBlk fun
      k => { k with rxOutstanding := k.rxOutstanding - 1 }) ⟨rfl, rfl, rfl, rfl, rfl, id, rfl⟩
  split
  · exact .next (h0.trans ⟨rfl, rfl, rfl, rfl, rfl, id, rfl⟩)
  · refine .of h0 (FlowKeeps.andThen ?_ fun t _ => .next ?_)
    · split
      · unfold recvLength
        split
        · exact .next ⟨rfl, rfl, rfl, rfl, rfl, id, rfl⟩
        · split
          · intro t h; cases h
          · intro v hv
            cases hv
            refine ⟨?_, ?_, ?_, ?_, ?_, ?_, ?_⟩ <;> simp
      · unfold storeByte
        split
        · intro t h; cases h
        · exact .next ⟨rfl, rfl, rfl, rfl, rfl, id, rfl⟩
    · unfold passMessage
      split
      · exact ⟨rfl, rfl, rfl, rfl, rfl, id, rfl⟩
      · exact .refl t

/-- The RX drain. -/
theorem drain_runKeeps (n : Nat) (s : State) : FlowKeeps s (drainLoop n s) := by
  induction n generalizing s with
  | zero => exact .next (.refl s)
  | succ n ih =>
    unfold drainLoop
    split
    · exact .next (.refl s)
    · exact (drainByte_runKeeps s).andThen fun t _ => ih t

/-- The clears of a snapshot. -/
theorem clearBits_runKeeps (stat : Word) (l : List (Nat × Reg))
    (s : State) : RunKeeps s (clearBits stat l s) := by
  induction l generalizing s with
  | nil => exact .refl s
  | cons e l ih =>
    obtain ⟨k, r⟩ := e
    simp only [clearBits]
    split
    · exact (regRead_runKeeps r s).trans (ih _)
    · exact ih s

/-- `clear_latched`. -/
theorem clearLatched_runKeeps (stat : Word) (s : State) : RunKeeps s (clearLatched stat s) := by
  unfold clearLatched
  simp only []
  have h1 : RunKeeps s (clearAbort stat s) := by
    unfold clearAbort
    split
    · refine ⟨?_, ?_, ?_, ?_, ?_, ?_, ?_⟩ <;> simp
    · exact .refl s
  have h2 := h1.trans (clearBits_runKeeps stat clearRegs _)
  split
  · exact h2.trans (regRead_runKeeps _ _)
  · exact h2

end Sys2Proof.Machine
end

