-- ==== Sys2Proof/Laws/PerInstr.lean ====
section
/-!
SUPPORT. One statement for every instruction: its word is one of its row of spec/opcode_table.json. A lemma
per constructor.
-/

namespace Sys2Proof.Laws

/-- The mask and match of an instruction's row in spec/opcode_table.json. -/
def tableRow : Instr → Word × Word
  | .busEnable => (0xFFFFFFFF#32, 0x00000001#32)
  | .busDisable => (0xFFFFFFFF#32, 0x00000002#32)
  | .busConfigure => (0xFFFFFFFF#32, 0x00000003#32)
  | .busMaskIntr => (0xFFFFFFFF#32, 0x00000004#32)
  | .busClearIntr => (0xFFFFFFFF#32, 0x00000005#32)
  | .busPower => (0xFFFFFFFF#32, 0x00000006#32)
  | .timingCompute => (0xFFFFFFFF#32, 0x00000007#32)
  | .xfer => (0xFFFFFFFF#32, 0x00000010#32)
  | .i2cTransfer => (0xFFFFFFFF#32, 0x00000011#32)
  | .smbusQuickW => (0xFFFFFFFF#32, 0x00000020#32)
  | .smbusQuickR => (0xFFFFFFFF#32, 0x00001020#32)
  | .smbusByteW => (0xFFFFFFFF#32, 0x00000120#32)
  | .smbusByteR => (0xFFFFFFFF#32, 0x00001120#32)
  | .smbusByteDataW => (0xFFFFFFFF#32, 0x00000220#32)
  | .smbusByteDataR => (0xFFFFFFFF#32, 0x00001220#32)
  | .smbusWordDataW => (0xFFFFFFFF#32, 0x00000320#32)
  | .smbusWordDataR => (0xFFFFFFFF#32, 0x00001320#32)
  | .smbusBlockDataW => (0xFFFFFFFF#32, 0x00000520#32)
  | .smbusBlockDataR => (0xFFFFFFFF#32, 0x00001520#32)
  | .smbusI2cBlockDataW => (0xFFFFFFFF#32, 0x00000820#32)
  | .smbusI2cBlockDataR => (0xFFFFFFFF#32, 0x00001820#32)
  | .smbusUnsupported _ _ => (0xFFFFE0FF#32, 0x00000020#32)
  | .gatedQuickW => (0xFFFFFFFF#32, 0x00000021#32)
  | .gatedQuickR => (0xFFFFFFFF#32, 0x00001021#32)
  | .gatedByteW => (0xFFFFFFFF#32, 0x00000121#32)
  | .gatedByteR => (0xFFFFFFFF#32, 0x00001121#32)
  | .gatedByteDataW => (0xFFFFFFFF#32, 0x00000221#32)
  | .gatedByteDataR => (0xFFFFFFFF#32, 0x00001221#32)
  | .gatedWordDataW => (0xFFFFFFFF#32, 0x00000321#32)
  | .gatedWordDataR => (0xFFFFFFFF#32, 0x00001321#32)
  | .gatedBlockDataW => (0xFFFFFFFF#32, 0x00000521#32)
  | .gatedBlockDataR => (0xFFFFFFFF#32, 0x00001521#32)
  | .gatedI2cBlockDataW => (0xFFFFFFFF#32, 0x00000821#32)
  | .gatedI2cBlockDataR => (0xFFFFFFFF#32, 0x00001821#32)
  | .gatedUnsupported _ _ => (0xFFFFE0FF#32, 0x00000021#32)
  | .rmiSetPage => (0xFFFFFFFF#32, 0x00000030#32)
  | .rmiReadBlock => (0xFFFFFFFF#32, 0x00000031#32)
  | .rmiWriteBlock => (0xFFFFFFFF#32, 0x00000032#32)
  | .rmiProbe => (0xFFFFFFFF#32, 0x00000033#32)
  | .rmiF01Init => (0xFFFFFFFF#32, 0x00000034#32)
  | .lifeStart => (0xFFFFFFFF#32, 0x00000040#32)
  | .lifeStop => (0xFFFFFFFF#32, 0x00000041#32)
  | .evtIrq => (0xFFFFFFFF#32, 0x00000080#32)
  | .evtTimeout => (0xFFFFFFFF#32, 0x00000081#32)
  | .irqTxAbrt => (0x00000040#32, 0x00000040#32)
  | .irqRxFull => (0x00000004#32, 0x00000004#32)
  | .irqTxEmpty => (0x00000010#32, 0x00000010#32)
  | .irqStopDet => (0x00000200#32, 0x00000200#32)
  | .dcWrite _ _ _ => (0xFFFFF900#32, 0x00000000#32)
  | .dcRead _ _ => (0xFFFFF9FF#32, 0x00000100#32)

/-- The instruction's word agrees with its row in the bits the row fixes (30_encoding.md R142, R156, R157,
R160, R182). -/
def TableRow.Statement (i : Instr) : Prop := encode i &&& (tableRow i).1 = (tableRow i).2

theorem TableRow.busEnable : TableRow.Statement .busEnable := by unfold TableRow.Statement; decide
theorem TableRow.busDisable : TableRow.Statement .busDisable := by unfold TableRow.Statement; decide
theorem TableRow.busConfigure : TableRow.Statement .busConfigure := by unfold TableRow.Statement; decide
theorem TableRow.busMaskIntr : TableRow.Statement .busMaskIntr := by unfold TableRow.Statement; decide
theorem TableRow.busClearIntr : TableRow.Statement .busClearIntr := by unfold TableRow.Statement; decide
theorem TableRow.busPower : TableRow.Statement .busPower := by unfold TableRow.Statement; decide
theorem TableRow.timingCompute : TableRow.Statement .timingCompute := by unfold TableRow.Statement; decide
theorem TableRow.xfer : TableRow.Statement .xfer := by unfold TableRow.Statement; decide
theorem TableRow.i2cTransfer : TableRow.Statement .i2cTransfer := by unfold TableRow.Statement; decide
theorem TableRow.smbusQuickW : TableRow.Statement .smbusQuickW := by unfold TableRow.Statement; decide
theorem TableRow.smbusQuickR : TableRow.Statement .smbusQuickR := by unfold TableRow.Statement; decide
theorem TableRow.smbusByteW : TableRow.Statement .smbusByteW := by unfold TableRow.Statement; decide
theorem TableRow.smbusByteR : TableRow.Statement .smbusByteR := by unfold TableRow.Statement; decide
theorem TableRow.smbusByteDataW : TableRow.Statement .smbusByteDataW := by unfold TableRow.Statement; decide
theorem TableRow.smbusByteDataR : TableRow.Statement .smbusByteDataR := by unfold TableRow.Statement; decide
theorem TableRow.smbusWordDataW : TableRow.Statement .smbusWordDataW := by unfold TableRow.Statement; decide
theorem TableRow.smbusWordDataR : TableRow.Statement .smbusWordDataR := by unfold TableRow.Statement; decide
theorem TableRow.smbusBlockDataW : TableRow.Statement .smbusBlockDataW := by unfold TableRow.Statement; decide
theorem TableRow.smbusBlockDataR : TableRow.Statement .smbusBlockDataR := by unfold TableRow.Statement; decide
theorem TableRow.smbusI2cBlockDataW : TableRow.Statement .smbusI2cBlockDataW := by unfold TableRow.Statement; decide
theorem TableRow.smbusI2cBlockDataR : TableRow.Statement .smbusI2cBlockDataR := by unfold TableRow.Statement; decide
theorem TableRow.smbusUnsupported (size : BitVec 4) (rw : Bool) : TableRow.Statement (.smbusUnsupported size rw) := by
  revert size rw; unfold TableRow.Statement; decide
theorem TableRow.gatedQuickW : TableRow.Statement .gatedQuickW := by unfold TableRow.Statement; decide
theorem TableRow.gatedQuickR : TableRow.Statement .gatedQuickR := by unfold TableRow.Statement; decide
theorem TableRow.gatedByteW : TableRow.Statement .gatedByteW := by unfold TableRow.Statement; decide
theorem TableRow.gatedByteR : TableRow.Statement .gatedByteR := by unfold TableRow.Statement; decide
theorem TableRow.gatedByteDataW : TableRow.Statement .gatedByteDataW := by unfold TableRow.Statement; decide
theorem TableRow.gatedByteDataR : TableRow.Statement .gatedByteDataR := by unfold TableRow.Statement; decide
theorem TableRow.gatedWordDataW : TableRow.Statement .gatedWordDataW := by unfold TableRow.Statement; decide
theorem TableRow.gatedWordDataR : TableRow.Statement .gatedWordDataR := by unfold TableRow.Statement; decide
theorem TableRow.gatedBlockDataW : TableRow.Statement .gatedBlockDataW := by unfold TableRow.Statement; decide
theorem TableRow.gatedBlockDataR : TableRow.Statement .gatedBlockDataR := by unfold TableRow.Statement; decide
theorem TableRow.gatedI2cBlockDataW : TableRow.Statement .gatedI2cBlockDataW := by unfold TableRow.Statement; decide
theorem TableRow.gatedI2cBlockDataR : TableRow.Statement .gatedI2cBlockDataR := by unfold TableRow.Statement; decide
theorem TableRow.gatedUnsupported (size : BitVec 4) (rw : Bool) : TableRow.Statement (.gatedUnsupported size rw) := by
  revert size rw; unfold TableRow.Statement; decide
theorem TableRow.rmiSetPage : TableRow.Statement .rmiSetPage := by unfold TableRow.Statement; decide
theorem TableRow.rmiReadBlock : TableRow.Statement .rmiReadBlock := by unfold TableRow.Statement; decide
theorem TableRow.rmiWriteBlock : TableRow.Statement .rmiWriteBlock := by unfold TableRow.Statement; decide
theorem TableRow.rmiProbe : TableRow.Statement .rmiProbe := by unfold TableRow.Statement; decide
theorem TableRow.rmiF01Init : TableRow.Statement .rmiF01Init := by unfold TableRow.Statement; decide
theorem TableRow.lifeStart : TableRow.Statement .lifeStart := by unfold TableRow.Statement; decide
theorem TableRow.lifeStop : TableRow.Statement .lifeStop := by unfold TableRow.Statement; decide
theorem TableRow.evtIrq : TableRow.Statement .evtIrq := by unfold TableRow.Statement; decide
theorem TableRow.evtTimeout : TableRow.Statement .evtTimeout := by unfold TableRow.Statement; decide
theorem TableRow.irqTxAbrt : TableRow.Statement .irqTxAbrt := by unfold TableRow.Statement; decide
theorem TableRow.irqRxFull : TableRow.Statement .irqRxFull := by unfold TableRow.Statement; decide
theorem TableRow.irqTxEmpty : TableRow.Statement .irqTxEmpty := by unfold TableRow.Statement; decide
theorem TableRow.irqStopDet : TableRow.Statement .irqStopDet := by unfold TableRow.Statement; decide
theorem TableRow.dcWrite (dat : Byte) (stop restart : Bool) : TableRow.Statement (.dcWrite dat stop restart) := by
  cases stop <;> cases restart <;> revert dat <;> unfold TableRow.Statement <;> decide
theorem TableRow.dcRead (stop restart : Bool) : TableRow.Statement (.dcRead stop restart) := by
  cases stop <;> cases restart <;> unfold TableRow.Statement <;> decide

end Sys2Proof.Laws
end

