-- ==== Sys2Proof/Laws/RegMap.lean ====
section
/-!
SUPPORT. The parameter RegMap (00_scope.md R11): a register's word and its word on the register window
carry the same bits, under every RegMap that is not corrupt.
-/

namespace Sys2Proof

theorem lookup_mem {α β : Type} [DecidableEq α] {l : List (α × β)} {k : α} {j : β}
    (h : l.lookup k = some j) : (k, j) ∈ l := by
  obtain ⟨l₁, l₂, rfl, -⟩ := List.lookup_eq_some_iff.mp h
  simp

theorem lookup_none {α β : Type} [DecidableEq α] {l : List (α × β)} {k : α}
    (h : l.lookup k = none) (j : β) : (k, j) ∉ l := fun hm => by
  have := List.lookup_eq_none_iff.mp h _ hm
  simp at this

/-- In a list with no two of one key, a member is what its key is looked up to. -/
theorem lookup_of_mem {α β : Type} [DecidableEq α] {l : List (α × β)} {k : α} {j : β}
    (hn : (l.map (·.1)).Nodup) (h : (k, j) ∈ l) : l.lookup k = some j := by
  induction l with
  | nil => cases h
  | cons e l ih =>
    rw [List.map_cons, List.nodup_cons] at hn
    rcases List.mem_cons.mp h with rfl | h
    · simp [List.lookup]
    · have hk : (k == e.1) = false := by
        rw [beq_eq_false_iff_ne]
        rintro rfl
        exact hn.1 (List.mem_map.mpr ⟨_, h, rfl⟩)
      rw [List.lookup_cons, hk]
      exact ih hn.2 h

/-- The moved bits' places go back where they came from. -/
theorem movedBit_swap {l : List (Fin 32 × Fin 32)} (h : movedOk l = true) (k : Fin 32) :
    movedBit (l.map fun e => (e.2, e.1)) (movedBit l k) = k := by
  simp only [movedOk, Bool.and_eq_true, decide_eq_true_eq, List.all_eq_true, List.contains_iff_mem] at h
  obtain ⟨⟨h1, h2⟩, h3⟩ := h
  have h2' : ((l.map fun e => (e.2, e.1)).map (·.1)).Nodup := by
    rw [List.map_map]
    exact h2
  have hm : ∀ i j, (i, j) ∈ (l.map fun e => (e.2, e.1)) ↔ (j, i) ∈ l := by simp
  unfold movedBit
  cases hk : l.lookup k with
  | some j => rw [Option.getD_some, lookup_of_mem h2' ((hm _ _).mpr (lookup_mem hk))]; rfl
  | none =>
    rw [Option.getD_none]
    cases hs : (l.map fun e => (e.2, e.1)).lookup k with
    | none => rfl
    | some i =>
      obtain ⟨e, he, hek⟩ := List.mem_map.mp (h3 _ ((hm _ _).mp (lookup_mem hs))).1
      have he' : (k, e.2) ∈ l := by
        have : e = (k, e.2) := Prod.ext hek rfl
        exact this ▸ he
      exact absurd he' (lookup_none hk e.2)

@[simp] theorem takeBits_getLsbD (f : Fin 32 → Fin 32) (w : Word) (k : Fin 32) :
    (takeBits f w).getLsbD k.val = w.getLsbD (f k).val := by
  simp [takeBits]

theorem RegMap.ok_moved {m : RegMap} {n : Nat} (h : m.ok n = true) (r : Reg) :
    movedOk (m.moved r) = true := by
  simp only [RegMap.ok, Bool.and_eq_true, List.all_eq_true] at h
  exact h.1.2 r (by cases r <;> decide)

/-- A word read back from the register window is the word put there, whatever RegMap the machine has
(00_scope.md R11): no bit of a register is lost or doubled. -/
theorem RegMap.ofWindow_toWindow {m : RegMap} {n : Nat} (h : m.ok n = true) (r : Reg) (w : Word) :
    m.ofWindow r (m.toWindow r w) = w := by
  have h := RegMap.ok_moved h r
  apply BitVec.eq_of_getLsbD_eq
  intro k hk
  have := takeBits_getLsbD (movedBit (m.moved r)) (m.toWindow r w) ⟨k, hk⟩
  simp only at this
  rw [RegMap.ofWindow, this, RegMap.toWindow, takeBits_getLsbD, movedBit_swap h]

@[simp] theorem RegMap.designWare_moved (r : Reg) : RegMap.designWare.moved r = [] := by cases r <;> rfl

/-- The default layout leaves every bit where the rules put it (10_state.md R60 to R69). -/
@[simp] theorem RegMap.designWare_toWindow (r : Reg) (w : Word) : RegMap.designWare.toWindow r w = w := by
  apply BitVec.eq_of_getLsbD_eq
  intro k hk
  have := takeBits_getLsbD (movedBit []) w ⟨k, hk⟩
  simpa [RegMap.toWindow, movedBit] using this

namespace Machine

/-- A register write is one access of the window, at the register's offset and in its layout. -/
theorem windowIo_regWrite (r : Reg) (v : Word) (s : State) {o : Nat} (h : s.par.regMap.offset r = some o) :
    (regWrite r v s).windowIo = .write o (s.par.regMap.toWindow r v) :: s.windowIo := by
  simp [State.windowIo, Access.onWindow, h]

/-- A register read is one access of the window, at the register's offset and in its layout. -/
theorem windowIo_regRead (r : Reg) (s : State) {o : Nat} (h : s.par.regMap.offset r = some o) :
    (regRead r s).2.windowIo =
      .read o ((Ctl.readValue s.par r (ctlTurn s).ctl).map (s.par.regMap.toWindow r)) :: s.windowIo := by
  simp [State.windowIo, Access.onWindow, h]

end Machine

end Sys2Proof
end

