-- ==== Sys2Proof/Tests/Slice0.lean ====
section
/-!
SUPPORT. The model's own tests. Expected values come from spec/95_test_vectors.md (the vector is named at
each test) or from the encoding tables of 30_encoding.md. Part 1: well-formedness. Part 2: a written-out
word of every constructor. Part 3: one step each of the instructions. Part 4: a concrete state for the
hypotheses of each statement of Obligations.lean.
-/

namespace Sys2Proof.Tests

open Sys2Proof Sys2Proof.Machine

/-! ### Part 1. Well-formedness -/

/-- A supported SIZE makes an UNSUPPORTED term ill-formed (30_encoding.md R143). -/
theorem test_wf_refuses_supported :
    [0#4, 1#4, 2#4, 3#4, 5#4, 8#4].all (fun z =>
      !(Instr.smbusUnsupported z false).wf && !(Instr.smbusUnsupported z true).wf &&
      !(Instr.gatedUnsupported z false).wf && !(Instr.gatedUnsupported z true).wf) = true := by decide

/-- Every other SIZE is well-formed there. -/
theorem test_wf_accepts_unsupported :
    [4#4, 6#4, 7#4, 9#4, 10#4, 11#4, 12#4, 13#4, 14#4, 15#4].all (fun z =>
      (Instr.smbusUnsupported z true).wf && (Instr.gatedUnsupported z false).wf) = true := by decide

/-! ### Part 2. Decoding (30_encoding.md R141 to R160, R182) -/

/-- Request words as `RSV ++ RW ++ SIZE ++ OPC` (R141). -/
theorem test_decode_bit_by_bit :
    decodeReq .platform 0b00000000000000000000000000000001#32 = .ok .busEnable ∧
    decodeReq .caller 0b00000000000000000000000000010000#32 = .ok .xfer ∧
    decodeReq .caller 0b00000000000000000001010100100000#32 = .ok .smbusBlockDataR ∧
    decodeReq .caller 0b00000000000000000000001100100001#32 = .ok .gatedWordDataW ∧
    decodeReq .caller 0b00000000000000000000000000110011#32 = .ok .rmiProbe ∧
    decodeReq .platform 0b00000000000000000000000001000001#32 = .ok .lifeStop ∧
    decodeEvt 0b00000000000000000000000010000001#32 = .ok .evtTimeout ∧
    decodeStat 0b00000000000000000000000001000000#32 = .ok .irqTxAbrt ∧
    decodeCmd 0b00000000000000000000010110000000#32 = .error .readWithData ∧
    decodeCmd 0b00000000000000000000010010000001#32 = .ok (.dcWrite 0x81#8 false true) ∧
    decodeCmd 0b00000000000000000000001100000000#32 = .ok (.dcRead true false) := by decide

/-- The bus controller and the timing calculator. -/
theorem test_decode_bus :
    [0x01#32, 0x02#32, 0x03#32, 0x04#32, 0x05#32, 0x06#32, 0x07#32].map (decodeReq .platform) =
      [.ok .busEnable, .ok .busDisable, .ok .busConfigure, .ok .busMaskIntr, .ok .busClearIntr,
        .ok .busPower, .ok .timingCompute] := by decide

/-- The transfer engine, the RMI4 sequencer and the lifecycle. -/
theorem test_decode_engine :
    [0x10#32, 0x11#32, 0x30#32, 0x31#32, 0x32#32, 0x33#32, 0x34#32, 0x40#32, 0x41#32].map
        (decodeReq .platform) =
      [.ok .xfer, .ok .i2cTransfer, .ok .rmiSetPage, .ok .rmiReadBlock, .ok .rmiWriteBlock,
        .ok .rmiProbe, .ok .rmiF01Init, .ok .lifeStart, .ok .lifeStop] := by decide

/-- SMBUS_XFER, with the vectors' words of 95_test_vectors.md M1 to M18. -/
theorem test_decode_smbus :
    [0x20#32, 0x1020#32, 0x120#32, 0x1120#32, 0x220#32, 0x1220#32, 0x320#32, 0x1320#32, 0x520#32,
        0x1520#32, 0x820#32, 0x1820#32, 0x420#32, 0x1720#32].map (decodeReq .caller) =
      [.ok .smbusQuickW, .ok .smbusQuickR, .ok .smbusByteW, .ok .smbusByteR, .ok .smbusByteDataW,
        .ok .smbusByteDataR, .ok .smbusWordDataW, .ok .smbusWordDataR, .ok .smbusBlockDataW,
        .ok .smbusBlockDataR, .ok .smbusI2cBlockDataW, .ok .smbusI2cBlockDataR,
        .ok (.smbusUnsupported 4#4 false), .ok (.smbusUnsupported 7#4 true)] := by decide

/-- SMBUS_XFER_GATED, with the words of M22 and M23. -/
theorem test_decode_gated :
    [0x21#32, 0x1021#32, 0x121#32, 0x1121#32, 0x221#32, 0x1221#32, 0x321#32, 0x1321#32, 0x521#32,
        0x1521#32, 0x821#32, 0x1821#32, 0x421#32, 0x1921#32].map (decodeReq .caller) =
      [.ok .gatedQuickW, .ok .gatedQuickR, .ok .gatedByteW, .ok .gatedByteR, .ok .gatedByteDataW,
        .ok .gatedByteDataR, .ok .gatedWordDataW, .ok .gatedWordDataR, .ok .gatedBlockDataW,
        .ok .gatedBlockDataR, .ok .gatedI2cBlockDataW, .ok .gatedI2cBlockDataR,
        .ok (.gatedUnsupported 4#4 false), .ok (.gatedUnsupported 9#4 true)] := by decide

/-- Events (R156), interrupt status words in branch order (R157) and command words (R160). -/
theorem test_decode_others :
    [0x80#32, 0x81#32, 0x82#32, 0x180#32].map decodeEvt =
      [.ok .evtIrq, .ok .evtTimeout, .error .notAnEvent, .error .reservedBits] ∧
    [0x240#32, 0x214#32, 0x210#32, 0x200#32, 0x001#32].map decodeStat =
      [.ok .irqTxAbrt, .ok .irqRxFull, .ok .irqTxEmpty, .ok .irqStopDet, .error .noBranch] ∧
    [0x203#32, 0x4AB#32, 0x100#32, 0x700#32, 0x101#32, 0x800#32].map decodeCmd =
      [.ok (.dcWrite 0x03#8 true false), .ok (.dcWrite 0xAB#8 false true), .ok (.dcRead false false),
        .ok (.dcRead true true), .error .readWithData, .error .reservedBits] := by decide

/-- The illegal request words of 95_test_vectors.md L12. -/
theorem test_decode_illegal :
    [0x2010#32, 0x110#32, 0x01#32, 0x08#32, 0x80#32, 0xFF#32, 0x10020#32, 0x35#32].map
        (decodeReq .caller) =
      [.error .reservedBits, .error .strayFields, .error .wrongPort, .error .reservedOpc,
        .error .eventCode, .error .eventCode, .error .reservedBits, .error .reservedOpc] ∧
    [0x08#32, 0x80#32, 0xFF#32, 0x1001#32].map (decodeReq .platform) =
      [.error .reservedOpc, .error .eventCode, .error .eventCode, .error .strayFields] := by decide

/-- The host's entry: a row is read in the format its bits tell (log 4). -/
theorem test_decodeTableWord :
    [decodeTableWord 32 0x40, decodeTableWord 16 0x40, decodeTableWord 32 0x80, decodeTableWord 32 0x100,
      decodeTableWord 16 0x200] =
    [some .lifeStart, some .irqTxAbrt, some .evtIrq, some (.dcRead false false), some .irqStopDet] := by
  decide

/-! ### Part 3. One step of each instruction -/

/-- What a function sees of a next state. -/
def see {α : Type} (f : State → α) (o : Flow) : Option α :=
  match o with
  | .next t => some (f t)
  | _ => none

/-- The platform's result. -/
def got (t : State) : Option Result := (t.agent .platform).result

/-- OK with a value, and a failure with value 0. -/
def ok (v : Word) : Option Result := some ⟨.ok, v, .ok⟩
def bad (c : Code) : Option Result := some ⟨c, 0#32, .ok⟩

/-- The started bus B0 of 95_test_vectors.md part 2, with a paged device at 0x20. -/
def up : State :=
  { State.reset with
    blk := { State.reset.blk with
      mapped := true, ready := true, irqInstalled := true, regBase := some 0, regSize := some 256,
      ssHcnt := 513#16, ssLcnt := 599#16, fsHcnt := 105#16, fsLcnt := 191#16, sdaHold := 36#16,
      txFifoDepth := 8, rxFifoDepth := 8 },
    ctl := { State.reset.ctl with con := 0x65#32, intrMask := 0x254#32, txTl := 4#8 },
    devs := [⟨0x20#16, none, []⟩] }

/-- The platform has submitted a request with an operand record. -/
def ask (o : Operands) (s : State) : State :=
  { s with agents := [(.platform, { Caller.idle with req := some .xfer, ops := o })] }

/-- Bytes in buffer 7. -/
def buf7 (bs : List Byte) (s : State) : State :=
  { s with mem := Memory.writeAll s.mem (bufAddr (.user 7) 0) bs }

/-- The controller enabled, with given FIFOs. -/
def enabled (tx : List Word) (rx : List Byte) (s : State) : State :=
  { s with ctl := { s.ctl with enable := true, icEn := true, txFifo := tx, rxFifo := rx } }

/-- A transfer of messages in flight, its requester waiting with the gate held. -/
def flying (msgs : List Msg) (s : State) : State :=
  { enabled [] [] s with
    blk := begunBus s.blk msgs ⟨some .platform, 1, []⟩,
    agents := [(.platform, { Caller.idle with req := some .xfer, waiting := true, point := .await })] }

/-- `W 0x2C` and `R 0x2C` in buffer 7. -/
def wMsg (n : Half) : Msg := ⟨0x2C#16, 0#16, n, ⟨.user 7, 34#16⟩⟩
def rMsg (n : Half) : Msg := ⟨0x2C#16, 1#16, n, ⟨.user 7, 34#16⟩⟩
def rlMsg : Msg := ⟨0x2C#16, 0x401#16, 1#16, ⟨.user 7, 34#16⟩⟩
def wRec (n : Half) : MsgRec := ⟨0x2C#16, 0#16, n, 7, 34#16⟩
def rRec (n : Half) : MsgRec := ⟨0x2C#16, 1#16, n, 7, 34#16⟩

/-- The operand record of one write of `n` bytes, and of an SMBus request to 0x2C. -/
def wOps (n : Half) : Operands := { Operands.empty with msgs := [wRec n], count := 1#16 }
def smOps (cmd : Byte) : Operands :=
  { Operands.empty with addr := 0x2C#16, command := cmd, data := 7 }
def rmiOps (addr len : Half) : Operands :=
  { Operands.empty with rmiAddr := addr, len := len, buf := 7, bufCap := 34#16, page := 1#8 }
def provider : Provider := ⟨some (0, 256), some ⟨120000#32, 300#32, 300#32, 300#32⟩, true⟩

/-- `INIT(0x2C, 0)` after the free-bus poll, newest first. -/
def initIo : List Access :=
  [.write .intrMask 0x254#32, .read .clrIntr none, .write .enable 1#32, .write .con 0x65#32,
   .read .con (some 0x65#32), .write .tar 0x2C#32, .read .enableStatus (some 0#32),
   .write .enable 0#32, .read .status (some 6#32)]

/-- The messages a request has begun to transfer: address, flags and length, with the bytes of T0 and the
gate's depth. -/
def begun (n : Nat) (t : State) : List (Half × Half × Half) × List Byte × Nat :=
  (t.blk.msgs.map (fun m => (m.addr, m.flags, m.len)), t.mem.readAll (bufAddr (.t0 .platform) 0) n,
    t.blk.gate.depth)

/-- B5: `W ENABLE=1`. -/
theorem test_busEnable : see (fun t => (t.io, t.ctl.icEn, got t)) (exec .busEnable (ask .empty up)) =
    some ([.write .enable 1#32], true, ok 0#32) := by decide

/-- B3: stuck at 1, DISABLE_POLL_LIMIT = 0. -/
theorem test_busDisable : see (fun t => (t.io, t.blk.disableUnacked, got t)) (exec .busDisable
      { ask .empty (enabled [] [] up) with par := { Params.sample with disablePollLimit := 0 } }) =
    some ([.read .enableStatus (some 1#32), .write .enable 0#32], true, bad .disableTimeout) := by decide

/-- B1. -/
theorem test_busConfigure : see (fun t => (t.io, got t)) (exec .busConfigure (ask .empty up)) =
    some ([.write .intrMask 0x254#32, .write .rxTl 0#32, .write .txTl 4#32, .write .sdaHold 36#32,
      .write .fsSclLcnt 191#32, .write .fsSclHcnt 105#32, .write .ssSclLcnt 599#32,
      .write .ssSclHcnt 513#32, .write .con 0x65#32, .read .enableStatus (some 0#32),
      .write .enable 0#32], ok 0#32) := by decide

/-- B6. -/
theorem test_busMaskIntr : see (fun t => (t.io, t.ctl.intrMask, got t))
      (exec .busMaskIntr (ask .empty up)) =
    some ([.write .intrMask 0#32], 0#32, ok 0#32) := by decide

/-- B8: kind 6 clears TX_ABRT and its source. -/
theorem test_busClearIntr : see (fun t => (t.io, t.ctl.latched, t.ctl.abrtSrc, got t))
      (exec .busClearIntr { ask { Operands.empty with kind := 6#8 } up with
        ctl := { up.ctl with latched := 0x240#32, abrtSrc := 1#32 } }) =
    some ([.read .clrTxAbrt none], 0x200#32, 0#32, ok 0#32) := by decide

/-- B10, B11: a level bit and bit 12. -/
theorem test_busClearIntr_refuses : [2#8, 4#8, 12#8, 13#8, 14#8].map (fun k =>
      see (fun t => (t.io, got t)) (exec .busClearIntr (ask { Operands.empty with kind := k } up))) =
    List.replicate 5 (some ([], bad .invalidArgument)) := by decide

/-- L10: power off touches no register. -/
theorem test_busPower_off : see (fun t => (t.io, t.blk.powered, t.blk.ready, got t))
      (exec .busPower (ask .empty up)) = some ([], false, true, ok 0#32) := by decide

/-- L10: power on makes the pages UNSET and reruns configure_proc. -/
theorem test_busPower_on : see (fun t => (t.io.length, t.devs, got t))
      (exec .busPower { ask { Operands.empty with enabled := true } up with
        devs := [⟨0x20#16, some 2#8, []⟩] }) =
    some (11, [⟨0x20#16, none, []⟩], ok 0#32) := by decide

/-- T3. -/
theorem test_timingCompute : see (fun t => ((t.opsOf .platform).timingOut, got t))
      (exec .timingCompute (ask { Operands.empty with timing := ⟨133000#32, 300#32, 300#32, 300#32⟩ }
        State.reset)) =
    some (⟨569#16, 664#16, 117#16, 212#16, 40#16⟩, ok 0#32) := by decide

/-- T4, T5, T6. -/
theorem test_timingCompute_range : [(1000#32, 300#32), (20000000#32, 300#32), (0#32, 0#32)].map
      (fun p => see got (exec .timingCompute (ask { Operands.empty with
        timing := ⟨p.1, p.2, p.2, p.2⟩ } State.reset))) =
    List.replicate 3 (some (bad .configurationError)) := by decide

/-- X1: the accesses of the initialization. -/
theorem test_xfer : see (fun t => (t.io, t.blk.status, t.blk.xphase)) (exec .xfer (ask (wOps 3#16) up)) =
    some (initIo, .writeInProgress, .transferActive) := by decide

/-- X11: two addresses in one transfer. -/
theorem test_xfer_invalid : see (fun t => (t.io, got t)) (exec .xfer (ask { Operands.empty with
      msgs := [wRec 1#16, { rRec 1#16 with addr := 0x2D#16 }], count := 2#16 } up)) =
    some ([], bad .invalidArgument) := by decide

/-- X10: the budget is S.retries. -/
theorem test_i2cTransfer : see (fun t => (t.io, (t.agent .platform).stack))
      (exec .i2cTransfer (ask (wOps 1#16) up)) =
    some (initIo, [.retry 5 [wMsg 1#16] 1#16]) := by decide

/-- M1, M2 and their gated forms. -/
theorem test_quick : [Instr.smbusQuickW, .smbusQuickR, .gatedQuickW, .gatedQuickR].map (fun i =>
      see (fun t => (t.io, got t, t.blk.gate)) (exec i (ask (smOps 0#8) up))) =
    List.replicate 4 (some ([], bad .invalidArgument, ⟨none, 0, []⟩)) := by decide

/-- M3. -/
theorem test_smbusByteW : see (begun 1) (exec .smbusByteW (ask (smOps 0x5A#8) up)) =
    some ([(0x2C#16, 0#16, 1#16)], [0x5A#8], 1) := by decide

/-- M4. -/
theorem test_smbusByteR : see (begun 0) (exec .smbusByteR (ask (smOps 0#8) up)) =
    some ([(0x2C#16, 1#16, 1#16)], [], 1) := by decide

/-- M5 (E7). -/
theorem test_smbusByteDataW :
    see (begun 2) (exec .smbusByteDataW (ask (smOps 0x10#8) (buf7 [0xAB#8] up))) =
    some ([(0x2C#16, 0#16, 2#16)], [0x10#8, 0xAB#8], 1) := by decide

/-- M6. -/
theorem test_smbusByteDataR : see (begun 1) (exec .smbusByteDataR (ask (smOps 0x10#8) up)) =
    some ([(0x2C#16, 0#16, 1#16), (0x2C#16, 1#16, 1#16)], [0x10#8], 1) := by decide

/-- M7: the low byte of 0x1234 first. -/
theorem test_smbusWordDataW :
    see (begun 3) (exec .smbusWordDataW (ask (smOps 0x20#8) (buf7 [0x34#8, 0x12#8] up))) =
    some ([(0x2C#16, 0#16, 3#16)], [0x20#8, 0x34#8, 0x12#8], 1) := by decide

/-- M8 (E7). -/
theorem test_smbusWordDataR : see (begun 1) (exec .smbusWordDataR (ask (smOps 0x20#8) up)) =
    some ([(0x2C#16, 0#16, 1#16), (0x2C#16, 1#16, 2#16)], [0x20#8], 1) := by decide

/-- M9: the length byte is sent. -/
theorem test_smbusBlockDataW :
    see (begun 4) (exec .smbusBlockDataW (ask (smOps 0x40#8) (buf7 [2#8, 0xAA#8, 0xBB#8] up))) =
    some ([(0x2C#16, 0#16, 4#16)], [0x40#8, 2#8, 0xAA#8, 0xBB#8], 1) := by decide

/-- M13: a length of 33. -/
theorem test_smbusBlockDataW_refuses : see (fun t => (t.io, got t))
      (exec .smbusBlockDataW (ask (smOps 0x40#8) (buf7 [33#8] up))) =
    some ([], bad .invalidArgument) := by decide

/-- M10: a RECV_LEN read. -/
theorem test_smbusBlockDataR : see (begun 1) (exec .smbusBlockDataR (ask (smOps 5#8) up)) =
    some ([(0x2C#16, 0#16, 1#16), (0x2C#16, 0x401#16, 1#16)], [5#8], 1) := by decide

/-- M11: the length byte is not sent. -/
theorem test_smbusI2cBlockDataW :
    see (begun 3) (exec .smbusI2cBlockDataW (ask (smOps 0x40#8) (buf7 [2#8, 0xAA#8, 0xBB#8] up))) =
    some ([(0x2C#16, 0#16, 3#16)], [0x40#8, 0xAA#8, 0xBB#8], 1) := by decide

/-- M12. -/
theorem test_smbusI2cBlockDataR : see (begun 1) (exec .smbusI2cBlockDataR (ask (smOps 0x10#8) up)) =
    some ([(0x2C#16, 0#16, 1#16), (0x2C#16, 1#16, 32#16)], [0x10#8], 1) := by decide

/-- M17, M19, M23: the size is checked first. -/
theorem test_unsupported :
    [exec (.smbusUnsupported 4#4 false) (ask (smOps 0#8) State.reset),
      exec (.gatedUnsupported 4#4 false) (ask (smOps 0#8) up)].map (see fun t => (t.io, got t)) =
    List.replicate 2 (some ([], bad .unsupportedTransactionType)) := by decide

/-- M22 and the other gated writes: as the plain ones, the gate entered twice. -/
theorem test_gatedWrites :
    [(Instr.gatedByteW, 1), (.gatedByteDataW, 2), (.gatedWordDataW, 3), (.gatedBlockDataW, 4),
        (.gatedI2cBlockDataW, 3)].map (fun p =>
      see (begun 4) (exec p.1 (ask (smOps 0x40#8) (buf7 [2#8, 0xAA#8, 0xBB#8] up)))) =
    [some ([(0x2C#16, 0#16, 1#16)], [0x40#8, 0#8, 0#8, 0#8], 2),
     some ([(0x2C#16, 0#16, 2#16)], [0x40#8, 2#8, 0#8, 0#8], 2),
     some ([(0x2C#16, 0#16, 3#16)], [0x40#8, 2#8, 0xAA#8, 0#8], 2),
     some ([(0x2C#16, 0#16, 4#16)], [0x40#8, 2#8, 0xAA#8, 0xBB#8], 2),
     some ([(0x2C#16, 0#16, 3#16)], [0x40#8, 0xAA#8, 0xBB#8, 0#8], 2)] := by decide

/-- The gated reads (R335). -/
theorem test_gatedReads :
    [Instr.gatedByteR, .gatedByteDataR, .gatedWordDataR, .gatedBlockDataR, .gatedI2cBlockDataR].map
        (fun i => see (begun 0) (exec i (ask (smOps 0x40#8) up))) =
    [some ([(0x2C#16, 1#16, 1#16)], [], 2),
     some ([(0x2C#16, 0#16, 1#16), (0x2C#16, 1#16, 1#16)], [], 2),
     some ([(0x2C#16, 0#16, 1#16), (0x2C#16, 1#16, 2#16)], [], 2),
     some ([(0x2C#16, 0#16, 1#16), (0x2C#16, 0x401#16, 1#16)], [], 2),
     some ([(0x2C#16, 0#16, 1#16), (0x2C#16, 1#16, 32#16)], [], 2)] := by decide

/-- R-S1. -/
theorem test_rmiSetPage : see (begun 2) (exec .rmiSetPage (ask (rmiOps 0#16 0#16) up)) =
    some ([(0x20#16, 0#16, 2#16)], [0xFF#8, 1#8], 2) := by decide

/-- S-P2, read 1 and read 2: no page select on the cached page, one at the crossing. -/
theorem test_rmiReadBlock :
    [0x0012#16, 0x0112#16].map (fun x => see (begun 2) (exec .rmiReadBlock
      { ask (rmiOps x 2#16) up with devs := [⟨0x20#16, some 0#8, []⟩] })) =
    [some ([(0x20#16, 0#16, 1#16), (0x20#16, 1#16, 2#16)], [0x12#8, 0#8], 2),
     some ([(0x20#16, 0#16, 2#16)], [0xFF#8, 1#8], 3)] := by decide

/-- R-B3. -/
theorem test_rmiWriteBlock : see (begun 2) (exec .rmiWriteBlock
      { ask (rmiOps 0x0050#16 1#16) (buf7 [0x80#8] up) with devs := [⟨0x20#16, some 0#8, []⟩] }) =
    some ([(0x20#16, 0#16, 2#16)], [0x50#8, 0x80#8], 2) := by decide

/-- R-B5: lengths 0 and 33. -/
theorem test_rmiBlock_refuses :
    [exec .rmiReadBlock (ask (rmiOps 0x12#16 0#16) up),
      exec .rmiWriteBlock (ask (rmiOps 0x12#16 33#16) up)].map (see fun t => (t.io, got t)) =
    List.replicate 2 (some ([], bad .invalidArgument)) := by decide

/-- R-P1, read 1: page 0 is selected. -/
theorem test_rmiProbe : see (begun 2) (exec .rmiProbe (ask (rmiOps 0#16 0#16) up)) =
    some ([(0x20#16, 0#16, 2#16)], [0xFF#8, 0#8], 4) := by decide

/-- R-F1, R-F2. -/
theorem test_rmiF01Init :
    see (fun t => (t.io, got t)) (exec .rmiF01Init (ask (rmiOps 0#16 0#16) up)) =
      some ([], bad .invalidArgument) ∧
    see (begun 2) (exec .rmiF01Init { ask (rmiOps 0#16 0#16) up with
        par := { Params.sample with f01Init := [(0#16, [0x80#8])] },
        devs := [⟨0x20#16, some 0#8, [⟨1#8, 0xA#16, 0xB#16, 0xC#16, 0xD#16, 1#3, 1#2⟩]⟩] }) =
      some ([(0x20#16, 0#16, 2#16)], [0x0C#8, 0x80#8], 3) := by decide

/-- P1, step 1. -/
theorem test_lifeStart : see (fun t => (t.io.length, t.blk.ready, t.blk.ssHcnt, t.ctl.txTl, got t))
      (exec .lifeStart (ask { Operands.empty with provider := provider } State.reset)) =
    some (11, true, 513#16, 4#8, ok 0#32) := by decide

/-- L4. -/
theorem test_lifeStart_range : see (fun t => (t.io, t.blk.mapped, got t))
      (exec .lifeStart (ask { Operands.empty with
        provider := { provider with timing := some ⟨1000#32, 300#32, 300#32, 300#32⟩ } } State.reset)) =
    some ([], false, bad .configurationError) := by decide

/-- L7. -/
theorem test_lifeStop : see (fun t => (t.io, t.blk.ready, t.blk.mapped, t.blk.irqInstalled, got t))
      (exec .lifeStop (ask .empty up)) =
    some ([.read .enableStatus (some 0#32), .write .enable 0#32, .write .intrMask 0#32],
      false, false, false, ok 0#32) := by decide

/-- X4, run 2: the snapshot, the source before its clear, then the other clear. -/
theorem test_evtIrq : see (fun t => (t.io, t.handler, t.blk.abortSource)) (exec .evtIrq
      { flying [wMsg 1#16] up with ctl := { (flying [] up).ctl with
        intrMask := 0x244#32, latched := 0x240#32, abrtSrc := 1#32 } }) =
    some ([.read .clrStopDet none, .read .clrTxAbrt none, .read .txAbrtSource (some 1#32),
      .read .intrStat (some 0x240#32)], some 0x240#32, 1#32) := by decide

/-- X19: the idle branch. -/
theorem test_evtIrq_idle : see (fun t => (t.io, t.handler)) (exec .evtIrq (enabled [] [] up)) =
    some ([.write .intrMask 0#32, .read .clrIntr none], none) := by decide

/-- X6: the timer. -/
theorem test_evtTimeout : see (fun t => (t.io, t.blk.timedOut, t.blk.xphase))
      (exec .evtTimeout (flying [wMsg 1#16] up)) = some ([], true, .timedOut) := by decide

/-- X4, run 2: the branch. -/
theorem test_irqTxAbrt : see (fun t => (t.io, t.blk.cmdErr, t.blk.completion, t.handler))
      (exec .irqTxAbrt { flying [wMsg 1#16] up with handler := some 0x240#32 }) =
    some ([.write .intrMask 0#32], 1#8, true, none) := by decide

/-- X2, run 2: both bytes, in order. -/
theorem test_irqRxFull : see (fun t => (t.io, t.mem.readAll (bufAddr (.user 7) 0) 2, t.blk.msgReadIdx))
      (exec .irqRxFull { enabled [] [0x5A#8, 0xA5#8] (flying [rMsg 2#16] up) with
        handler := some 0x204#32 }) =
    some ([.read .dataCmd (some 0xA5#32), .read .dataCmd (some 0x5A#32), .read .rxflr (some 2#32)],
      [0x5A#8, 0xA5#8], 1) := by decide

/-- X17b: a length byte of 0. -/
theorem test_irqRxFull_length : see (fun t => (t.io, t.blk.msgErr, t.blk.completion))
      (exec .irqRxFull { enabled [] [0#8] (flying [rlMsg] up) with handler := some 0x004#32 }) =
    some ([.write .intrMask 0#32, .read .dataCmd (some 0#32), .read .rxflr (some 1#32)],
      .protocolError, true) := by decide

/-- X1, run 1. -/
theorem test_irqTxEmpty : see (fun t => (t.io, t.handler)) (exec .irqTxEmpty
      { flying [wMsg 3#16] (buf7 [1#8, 2#8, 3#8] up) with handler := some 0x010#32 }) =
    some ([.write .intrMask 0x244#32, .write .dataCmd 0x203#32, .write .dataCmd 0x002#32,
      .write .dataCmd 0x001#32, .read .txflr (some 0#32)], none) := by decide

/-- X3, run 1: RESTART on the first word of message 1, STOP on its last. -/
theorem test_irqTxEmpty_restart : see (fun t => (t.io, t.blk.status)) (exec .irqTxEmpty
      { flying [wMsg 1#16, rMsg 2#16] up with handler := some 0x010#32 }) =
    some ([.write .intrMask 0x244#32, .write .dataCmd 0x300#32, .write .dataCmd 0x500#32,
      .read .txflr (some 1#32), .write .dataCmd 0x000#32, .read .txflr (some 0#32)],
      .readInProgress) := by decide

/-- X1, run 2, and X16: a read not complete. -/
theorem test_irqStopDet :
    see (fun t => (t.io, t.blk.msgErr, t.blk.completion)) (exec .irqStopDet
      { flying [wMsg 1#16] up with
        blk := { (flying [wMsg 1#16] up).blk with msgWriteIdx := 1 }, handler := some 0x200#32 }) =
      some ([.write .intrMask 0#32], .none, true) ∧
    see (fun t => (t.blk.msgErr, t.blk.completion)) (exec .irqStopDet
      { flying [rMsg 3#16] up with
        blk := { (flying [rMsg 3#16] up).blk with msgWriteIdx := 1, rxOff := 2 },
        handler := some 0x200#32 }) = some (.protocolError, true) := by decide

/-- X1: the first and last byte on the bus; X4: the address not acknowledged; 60_exceptions.md R431 and R434:
a refused byte is on the bus before the STOP. -/
theorem test_dcWrite :
    see (fun t => t.ctl.wire) (exec (.dcWrite 1#8 true false) { up with
        ctl := { up.ctl with tar := 0x2C#10 } }) =
      some [.stop, .sent 1#8, .start 0x2C#10 false false] ∧
    see (fun t => (t.ctl.wire, t.ctl.latched, t.ctl.abrtSrc)) (exec (.dcWrite 1#8 true false) { up with
        ctl := { up.ctl with tar := 0x2C#10, answer := .nackAddress 1#32 0#8 0#8 } }) =
      some ([.stop, .start 0x2C#10 false false], 0x740#32, 1#32) ∧
    see (fun t => (t.ctl.wire, t.ctl.abrtSrc)) (exec (.dcWrite 1#8 true false) { up with
        ctl := { up.ctl with tar := 0x2C#10, answer := .nackByte 8#32 0#8 0#8 } }) =
      some ([.stop, .sent 1#8, .start 0x2C#10 false false], 8#32) := by decide

/-- X2: a received byte; X3: a repeated START for the change of direction. -/
theorem test_dcRead :
    see (fun t => (t.ctl.wire, t.ctl.rxFifo)) (exec (.dcRead false true) { up with
        ctl := { up.ctl with bus := some ⟨0x50#10, false, false⟩, answer := .ack 0x5A#8 0#8 } }) =
      some ([.received 0x5A#8, .start 0x50#10 false true], [0x5A#8]) := by decide

/-- Step runs a word placed for it, one of each format: BUS_ENABLE fails before `start` (B12), an event
and a branch with no transfer, a command word on the bus. -/
theorem test_withFetchWord :
    see (fun t => (t.io, got t)) (step (State.reset.withFetchWord 32 0x01)) =
      some ([], bad .invalidArgument) ∧
    see (fun t => t.sched) (step (State.reset.withFetchWord 32 0x81)) = some [] ∧
    see (fun t => (t.io, t.blk.cmdErr)) (step (State.reset.withFetchWord 16 0x40)) =
      some ([.write .intrMask 0#32], 1#8) ∧
    see (fun t => t.ctl.wire) (step (State.reset.withFetchWord 32 0x203)) =
      some [.stop, .sent 3#8, .start 0#10 false false] := by decide

/-- A RegMap that moves the interrupt registers up by 0x100 with TX_EMPTY and STOP_DET changed over, and
ENABLE's bit to bit 7 (R11, 92_eei_decisions.md D5). -/
def otherMap : RegMap :=
  RegMap.designWare.map fun e =>
    match e.1 with
    | .enable => (.enable, ⟨0x6C, [(0, 7), (7, 0)]⟩)
    | .intrStat | .rawIntrStat | .intrMask => (e.1, ⟨e.2.offset + 0x100, [(4, 9), (9, 4)]⟩)
    | _ => e

/-- Accesses on the window under that map; it needs the larger window, and INTR_STAT's bits where
INTR_MASK's are (R65). -/
theorem test_regMap :
    otherMap.ok 0x200 = true ∧ otherMap.ok 0x100 = false ∧
    RegMap.ok (otherMap.map fun e => if e.1 = .intrStat then (e.1, ⟨0x12C, []⟩) else e) 0x200 = false ∧
    Access.onWindow otherMap (.write .enable 1#32) = some (.write 0x6C 0x80#32) ∧
    Access.onWindow otherMap (.write .intrMask 0x244#32) = some (.write 0x130 0x54#32) ∧
    otherMap.ofWindow .intrStat 0x10#32 = 0x200#32 := by decide +kernel

/-! ### Part 4. States that meet the hypotheses of the statements -/

theorem regMap_ok : Params.sample.regMap.ok Params.sample.regWindowSize = true := by decide

/-- The common hypotheses: a request at its start that may enter the gate. -/
def Asks (s : State) : Prop := s.AtRequest ∧ s.blk.gate.Wf ∧ s.blk.gate.OpenTo s.cur

/-- A request that may begin a transfer at once. -/
def MayBegin (s : State) : Prop :=
  s.AtRequest ∧ s.mem.wf = true ∧ s.blk.Accepts ∧ s.blk.gate.Wf ∧ s.blk.gate.OpenTo s.cur ∧ s.BusFree

/-- A free gate is well-formed. -/
theorem free_wf (ws : List Agent) : Gate.Wf ⟨none, 0, ws⟩ := ⟨fun _ => rfl, fun _ => rfl⟩

theorem asks_up (o : Operands) : Asks (ask o up) := ⟨rfl, free_wf [], Or.inl rfl⟩

theorem mayBegin_up (o : Operands) : MayBegin (ask o up) :=
  ⟨rfl, rfl, ⟨rfl, rfl, rfl⟩, free_wf [], Or.inl rfl, rfl, rfl⟩

/-- The platform's request stands at a point, inside operations, the gate entered `d` times, and the next
move resumes it. -/
def parked (p : Point) (fs : List Frame) (d : Nat) (s : State) : State :=
  { s with
    blk := { s.blk with gate := ⟨some .platform, d, []⟩ },
    agents := [(.platform, { Caller.idle with req := some .xfer, point := p, stack := fs })],
    sched := [.resume .platform] }

/-- The resumed request is a `NextMove` premise. -/
theorem parked_next (p : Point) (fs : List Frame) (d : Nat) :
    NextMove (.resume .platform) [] (parked p fs d up) := ⟨regMap_ok, rfl, rfl, rfl⟩

/-- The engine fields of a transfer that was aborted. -/
def aborted (s : State) : State := { s with blk := { s.blk with cmdErr := 1#8, abortSource := 1#32 } }

/-- ERR_TX_ABRT is not 0. -/
theorem one_ne : (1#8 : Byte) ≠ 0#8 := by decide

theorem witness_EncodeDecodes :
    (Instr.smbusUnsupported 15#4 true).wf = true ∧ (Instr.gatedUnsupported 4#4 false).wf = true ∧
    (Instr.dcWrite 0xFF#8 true true).wf = true ∧ Instr.lifeStop.wf = true := by decide

theorem witness_DecodedWordIsEncoded :
    Format.dataCmd ≠ .intrStat ∧ decode .dataCmd 0x6FF#32 = .ok (.dcWrite 0xFF#8 true true) ∧
    decode (.req .caller) 0x1F21#32 = .ok (.gatedUnsupported 15#4 true) ∧
    decode .evt 0x81#32 = .ok .evtTimeout := by decide

theorem witness_LegalRequestWords :
    decodeReq .platform 0x41#32 = .ok .lifeStop ∧ decodeReq .caller 0x41#32 = .error .wrongPort ∧
    decodeReq .caller 0x34#32 = .ok .rmiF01Init := by decide

theorem witness_StepRunsDecoded :
    (let s : State := { up with sched := [.request (.caller 1) 0x10#32 .empty] }
     NextMove (.request (.caller 1) 0x10#32 .empty) [] s ∧ s.attached = true ∧
     (Agent.caller 1).known s.par = true ∧ (s.agent (.caller 1)).req = none ∧
     decodeReq (Agent.caller 1).port 0x10#32 = .ok .xfer) ∧
    (NextMove (.event 0x80#32) [] { up with sched := [.event 0x80#32] } ∧
     decodeEvt 0x80#32 = .ok .evtIrq) ∧
    (({ up with handler := some 0x214#32 } : State).handler = some 0x214#32 ∧
     decodeStat 0x214#32 = .ok .irqRxFull) ∧
    (let ans : Answer := .nackAddress 1#32 0#8 0#8
     let s : State := { enabled [0x203#32] [] up with sched := [.ctl (.take ans)] }
     NextMove (.ctl (.take ans)) [] s ∧ s.ctl.txFifo = 0x203#32 :: [] ∧ s.ctl.icEn = true ∧
     s.ctl.latched.getLsbD 6 = false ∧ ans.named = true ∧
     decodeCmd 0x203#32 = .ok (.dcWrite 3#8 true false)) := by
  refine ⟨⟨⟨regMap_ok, rfl, rfl, rfl⟩, ?_⟩, ⟨⟨regMap_ok, rfl, rfl, rfl⟩, ?_⟩, ?_,
    ⟨⟨regMap_ok, rfl, rfl, rfl⟩, ?_⟩⟩ <;> decide

theorem witness_IllegalRequestChangesNothing :
    let s : State := { up with sched := [.request (.caller 0) 0x01#32 .empty] }
    NextMove (.request (.caller 0) 0x01#32 .empty) [] s ∧ s.attached = true ∧
    (Agent.caller 0).known s.par = true ∧ (s.agent (.caller 0)).req = none ∧
    decodeReq (Agent.caller 0).port 0x01#32 = .error .wrongPort :=
  ⟨⟨regMap_ok, rfl, rfl, rfl⟩, by decide⟩

theorem witness_CallerMoves :
    (let s : State := { ask .empty up with sched := [.request .platform 0x01#32 .empty] }
     NextMove (.request .platform 0x01#32 .empty) [] s ∧ s.attached = true ∧
     Agent.platform.known s.par = true ∧ (s.agent .platform).req ≠ none) ∧
    (NextMove .detach [] { up with sched := [.detach] } ∧ up.blk.mapped = true) ∧
    (let s : State := { ask (wOps 1#16) up with sched := [.store (.caller 0) 7 0 1#8] }
     NextMove (.store (.caller 0) 7 0 1#8) [] s ∧ s.bufLent 7 = true) ∧
    (let s : State := { ask (wOps 1#16) up with sched := [.store (.caller 0) 8 65535 1#8] }
     s.mem.wf = true ∧ NextMove (.store (.caller 0) 8 65535 1#8) [] s ∧ s.bufLent 8 = false ∧
     65535 < 65536) ∧
    (let s : State := { ask (wOps 1#16) up with sched := [.relist .platform []] }
     NextMove (.relist .platform []) [] s ∧ Agent.platform.known s.par = true ∧
     (s.agent .platform).req = some .xfer) ∧
    (let s : State := { up with sched := [.relist (.caller 0) [wRec 1#16]] }
     NextMove (.relist (.caller 0) [wRec 1#16]) [] s ∧ (Agent.caller 0).known s.par = true ∧
     (s.agent (.caller 0)).req = none) := by
  refine ⟨⟨⟨regMap_ok, rfl, rfl, rfl⟩, ?_⟩, ⟨⟨regMap_ok, rfl, rfl, rfl⟩, rfl⟩,
    ⟨⟨regMap_ok, rfl, rfl, rfl⟩, ?_⟩, ⟨rfl, ⟨regMap_ok, rfl, rfl, rfl⟩, ?_⟩,
    ⟨⟨regMap_ok, rfl, rfl, rfl⟩, rfl, rfl⟩, ⟨⟨regMap_ok, rfl, rfl, rfl⟩, ?_⟩⟩ <;> decide

/-- A changed list: a race in progress, the list alone otherwise. -/
theorem test_relist :
    step { ask (wOps 1#16) up with sched := [.relist .platform []] } = .fault .bufferRace ∧
    see (fun t => (t.agent (.caller 0)).ops.msgs)
      (step { up with sched := [.relist (.caller 0) [wRec 1#16]] }) = some [wRec 1#16] :=
  ⟨rfl, by decide⟩

theorem witness_ResetRecord :
    NextMove (.newDevice 0x20#16) [] { up with sched := [.newDevice 0x20#16] } ∧
    NextMove (.attach Ctl.created) [] { up with sched := [.attach Ctl.created], attached := false } :=
  ⟨⟨regMap_ok, rfl, rfl, rfl⟩, ⟨regMap_ok, rfl, rfl, rfl⟩⟩

theorem witness_WritesWhileEnabled :
    (ctlTurn (enabled [] [] up)).ctl.icEn = true ∧ (ctlTurn up).ctl.icEn = false := by decide

theorem witness_InterruptRegisters : (enabled [] [] up).ctl.line = true ∧ up.ctl.line = false := by
  decide

theorem witness_FifosAtTheController :
    (enabled (List.replicate 7 0#32) [] up).ctl.txFifo.length < Params.sample.ctlTxDepth ∧
    Params.sample.ctlTxDepth ≤ (enabled (List.replicate 8 0#32) [] up).ctl.txFifo.length ∧
    (enabled [] [1#8] up).ctl.rxFifo = 1#8 :: [] ∧ up.ctl.rxFifo = [] ∧ up.ctl.icEn = false ∧
    (let c := { (enabled [] [1#8] up).ctl with bus := some ⟨0x2C#10, false, true⟩ }
     let p := { Params.sample with holdMaster := true }
     c.bus.isSome = true ∧ c.txFifo = [] ∧ p.holdMaster = true ∧ c.enable = true ∧
     (Ctl.move p (.arbLost 0x1000#32) c).bus = c.bus) ∧
    (let c := { (enabled [] [1#8] up).ctl with enable := false }
     c.icEn = true ∧ c.enable = false) := by decide

theorem witness_GateRules :
    let a := Agent.caller 0
    (Gate.mk none 0 [a]).owner = none ∧ a ∈ (Gate.mk none 0 [a]).waiters ∧
    (Gate.mk (some a) 1 []).owner = some a ∧ 2 ≤ (Gate.mk (some a) 2 []).depth ∧
    (Gate.mk (some .platform) 1 []).owner = some .platform ∧ Agent.platform ≠ a := by decide

/-- A waiter for the free gate, next to be granted it. -/
def waiting (c : Cont) (s : State) (o : Operands := .empty) : State :=
  { s with
    blk := { s.blk with gate := ⟨none, 0, [.platform]⟩ },
    agents := [(.platform, { Caller.idle with req := some .xfer, ops := o, point := .gate c })],
    sched := [.grant .platform] }

/-- The gate held once by the platform's request. -/
def held : Gate := ⟨some .platform, 1, []⟩

theorem held_wf : held.Wf ∧ held.OpenTo .platform ∧ held.owner = some .platform ∧ held.depth = 1 :=
  ⟨⟨nofun, nofun⟩, .inr rfl, rfl, rfl⟩

theorem waits : Agent.platform ∈ [Agent.platform] := List.mem_singleton.mpr rfl

/-- The `GoesOn` premise by each way a request goes on: the gate granted, a sleep's end, the next part begun
by the schedule, and Seq's unfinished activity. -/
theorem waiting_goesOn (c : Cont) (o : Operands) :
    GoesOn .platform c (waiting c up o) { waiting c up o with sched := [] } held :=
  .granted [] ⟨regMap_ok, rfl, rfl, rfl⟩ rfl rfl waits

theorem sleep_goesOn (c : Cont) (fs : List Frame) :
    GoesOn .platform c (parked (.sleep c) fs 1 up)
      { parked (.sleep c) fs 1 up with sched := [] } held :=
  .resumed [] (parked_next _ _ _) (.inl rfl)

theorem go_goesOn (c : Cont) (fs : List Frame) :
    GoesOn .platform c (parked (.go c) fs 1 up) { parked (.go c) fs 1 up with sched := [] } held :=
  .resumed [] (parked_next _ _ _) (.inr rfl)

theorem running_goesOn (c : Cont) (fs : List Frame) :
    GoesOn .platform c { parked (.go c) fs 1 up with running := some .platform }
      { parked (.go c) fs 1 up with running := none } held :=
  .running regMap_ok rfl rfl (.inr rfl)

theorem witness_GateRules_grant :
    let s := waiting .busEnable up
    NextMove (.grant .platform) [] s ∧ (s.agent .platform).point = .gate .busEnable ∧
    s.blk.gate.grant .platform = some ⟨some .platform, 1, []⟩ ∧ s.blk.gate.owner ≠ some .platform :=
  ⟨⟨regMap_ok, rfl, rfl, rfl⟩, rfl, by decide, by decide⟩

theorem witness_GateRules_open :
    Asks (ask .empty up) ∧ up.blk.mapped = true ∧ up.blk.powered = true ∧
    Asks (ask .empty State.reset) ∧ State.reset.blk.mapped = false ∧ State.reset.blk.ready = false ∧
    State.reset.blk.powered = true :=
  ⟨asks_up _, rfl, rfl, ⟨rfl, free_wf [], Or.inl rfl⟩, rfl, rfl, rfl⟩

/-- A request at its start, the gate taken: the premises of the waiting clauses. -/
def shut (o : Operands) : State :=
  { ask o up with blk := { up.blk with gate := ⟨some (.caller 0), 1, []⟩ } }

theorem witness_WaitsForGate :
    let s := shut (wOps 34#16)
    s.AtRequest ∧ s.blk.mapped = true ∧ s.blk.powered = true ∧ s.blk.Accepts ∧
    s.blk.gate.TakenFrom s.cur ∧ (s.agent s.cur).ops.count.toNat = (s.msgsOf s.cur).length ∧
    s.msgsOf s.cur = [wMsg 34#16] :=
  ⟨rfl, rfl, rfl, ⟨rfl, rfl, rfl⟩, ⟨.caller 0, rfl, by decide⟩, rfl, rfl⟩

theorem witness_XferValidation_recheck :
    let s : State := waiting (.xferGate [wMsg 1#16] 1#16) { up with blk := { up.blk with ready := false } }
    NextMove (.grant .platform) [] s ∧
    (s.agent .platform).point = .gate (.xferGate [wMsg 1#16] 1#16) ∧ (s.agent .platform).stack = [] ∧
    s.blk.gate.owner = none ∧ Agent.platform ∈ s.blk.gate.waiters ∧ s.blk.ready = false :=
  ⟨⟨regMap_ok, rfl, rfl, rfl⟩, rfl, rfl, rfl, by decide, rfl⟩

theorem witness_TakenGateHoldsRequests :
    let s : State := { ask .empty up with blk := { up.blk with gate := ⟨some (.caller 0), 1, []⟩ } }
    IsRequest .lifeStop ∧ IsRequest .xfer ∧ IsRequest (.gatedUnsupported 4#4 false) ∧ s.AtRequest ∧
    s.blk.gate.owner = some (.caller 0) ∧ Agent.caller 0 ≠ s.cur ∧ s.blk.mapped = true :=
  ⟨rfl, rfl, rfl, rfl, rfl, by decide, rfl⟩

theorem witness_OneWriteRequests :
    State.reset.AtRequest ∧ State.reset.blk.mapped = false ∧
    Asks (ask .empty up) ∧ (ask .empty up).blk.mapped = true ∧ (ask .empty up).blk.powered = true :=
  ⟨rfl, rfl, asks_up _, rfl, rfl⟩

theorem witness_BusClearReads :
    (∀ k ∈ [0xFF#8, 6#8, 0#8, 11#8, 2#8, 12#8, 0xFE#8],
      Asks (ask { Operands.empty with kind := k } up) ∧
      ((ask { Operands.empty with kind := k } up).agent .platform).ops.kind = k) ∧
    Asks State.reset ∧ State.reset.blk.mapped = false ∧ up.blk.mapped = true ∧ up.blk.powered = true ∧
    (0xFE#8).toNat ∉ [0, 1, 3, 5, 6, 7, 8, 9, 10, 11, 0xFF] :=
  ⟨fun _ _ => ⟨asks_up _, rfl⟩, ⟨rfl, free_wf [], Or.inl rfl⟩, rfl, rfl, rfl, by decide⟩

/-- A started bus whose disable is not acknowledged, and one that makes no second poll. -/
def stuck (o : Operands) : State := enabled [] [] (ask o up)
def stuckNow (o : Operands) : State :=
  { stuck o with par := { Params.sample with disablePollLimit := 0 } }

theorem stuck_asks (o : Operands) : Asks (stuck o) ∧ Asks (stuckNow o) :=
  ⟨⟨rfl, free_wf [], Or.inl rfl⟩, ⟨rfl, free_wf [], Or.inl rfl⟩⟩

theorem stuck_unacked (o : Operands) : ¬ (stuck o).DisableAcked ∧ ¬ (stuckNow o).DisableAcked :=
  ⟨fun h => Bool.noConfusion h, fun h => Bool.noConfusion h⟩

theorem witness_BusDisablePolls :
    (State.reset.AtRequest ∧ State.reset.blk.mapped = false) ∧
    (Asks (ask .empty up) ∧ up.blk.mapped = true ∧ up.blk.powered = true ∧
      (ask .empty up).DisableAcked) ∧
    (Asks (stuck .empty) ∧ ¬ (stuck .empty).DisableAcked ∧ (stuck .empty).par.disablePollLimit ≠ 0) ∧
    (Asks (stuckNow .empty) ∧ ¬ (stuckNow .empty).DisableAcked ∧
      (stuckNow .empty).par.disablePollLimit = 0) ∧
    (∀ k ∈ [1, 99, 100], let s := parked (.sleep (.disable k .bus)) [] 1 up
      NextMove (.resume .platform) [] s ∧ (s.agent .platform).point = .sleep (.disable k .bus) ∧
      (s.agent .platform).stack = [] ∧ s.blk.gate = ⟨some .platform, 1, s.blk.gate.waiters⟩ ∧
      (ctlTurn s).ctl.icEn = false ∧ (ctlTurn (enabled [] [] s)).ctl.icEn = true) ∧
    99 < up.par.disablePollLimit ∧ up.par.disablePollLimit ≤ 100 :=
  ⟨⟨rfl, rfl⟩, ⟨asks_up _, rfl, rfl, rfl⟩, ⟨(stuck_asks _).1, (stuck_unacked _).1, by decide⟩,
    ⟨(stuck_asks _).2, (stuck_unacked _).2, rfl⟩,
    fun _ _ => ⟨parked_next _ _ _, rfl, rfl, rfl, rfl, rfl⟩, by decide, by decide⟩

theorem witness_BusConfigureWrites :
    (State.reset.AtRequest ∧ State.reset.blk.mapped = false) ∧
    (Asks (ask .empty up) ∧ up.blk.mapped = true ∧ up.blk.powered = true ∧
      (ask .empty up).DisableAcked) ∧
    (¬ (stuck .empty).DisableAcked ∧ Asks (stuck .empty) ∧ (stuck .empty).par.disablePollLimit ≠ 0) ∧
    (¬ (stuckNow .empty).DisableAcked ∧ Asks (stuckNow .empty) ∧
      (stuckNow .empty).par.disablePollLimit = 0) :=
  ⟨⟨rfl, rfl⟩, ⟨asks_up _, rfl, rfl, rfl⟩, ⟨(stuck_unacked _).1, (stuck_asks _).1, by decide⟩,
    ⟨(stuck_unacked _).2, (stuck_asks _).2, rfl⟩⟩

theorem witness_BusConfigureWrites_resume :
    ∀ k ∈ [1, 99, 100], ∀ u ∈ [ConfigUse.bus, .power],
      let s := parked (.sleep (.disable k (.configure u))) [] 1 up
      let t : State := { s with ctl := { s.ctl with icEn := true } }
      NextMove (.resume .platform) [] s ∧ NextMove (.resume .platform) [] t ∧
      (s.agent .platform).point = .sleep (.disable k (.configure u)) ∧
      (s.agent .platform).stack = [] ∧ s.blk.gate = ⟨some .platform, 1, s.blk.gate.waiters⟩ ∧
      s.ctl.enable = false ∧ t.ctl.enable = false ∧ (ctlTurn s).ctl.icEn = false ∧
      (ctlTurn t).ctl.icEn = true :=
  fun _ _ _ _ => ⟨parked_next _ _ _, ⟨regMap_ok, rfl, rfl, rfl⟩, rfl, rfl, rfl, rfl, rfl, rfl, rfl⟩

theorem witness_BusPowerEffect :
    let on : Operands := { Operands.empty with enabled := true }
    (Asks (ask .empty up) ∧ ((ask .empty up).agent .platform).ops.enabled = false) ∧
    (Asks (ask on State.reset) ∧ ((ask on State.reset).agent .platform).ops.enabled = true ∧
      State.reset.blk.mapped = false) ∧
    (Asks (ask on up) ∧ up.blk.mapped = true ∧ (ask on up).DisableAcked) ∧
    (Asks (stuck on) ∧ ¬ (stuck on).DisableAcked ∧ (stuck on).par.disablePollLimit ≠ 0) ∧
    (Asks (stuckNow on) ∧ ¬ (stuckNow on).DisableAcked ∧ (stuckNow on).par.disablePollLimit = 0) :=
  ⟨⟨asks_up _, rfl⟩, ⟨⟨rfl, free_wf [], Or.inl rfl⟩, rfl, rfl⟩, ⟨asks_up _, rfl, rfl⟩,
    ⟨(stuck_asks _).1, (stuck_unacked _).1, by decide⟩,
    ⟨(stuck_asks _).2, (stuck_unacked _).2, rfl⟩⟩

/-- T1 is in range, with SDA_HOLD = 36; a clock of 1 kHz is not; a TimingFn with a value of its own at T1,
one count off, is as R203 asks. -/
theorem witness_TimingOutputs :
    (ask { Operands.empty with timing := ⟨120000#32, 300#32, 300#32, 300#32⟩ } up).AtRequest ∧
    (timing Params.sample ⟨120000#32, 300#32, 300#32, 300#32⟩).isSome = true ∧
    (timing Params.sample ⟨1000#32, 300#32, 300#32, 300#32⟩).isSome = false ∧
    (timing Params.sample ⟨5000#32, 0#32, 0#32, 0#32⟩ = some ⟨17#16, 23#16, 0#16, 6#16, 0#16⟩) ∧
    timingFnOk Params.sample = true ∧
    (let t1 : TimingIn := ⟨120000#32, 300#32, 300#32, 300#32⟩
     let p : Params := { Params.sample with timingFn := [(t1, ⟨514, 598, 104, 192, 36⟩)] }
     timingFnOk p = true ∧ timing p t1 = some ⟨514#16, 598#16, 104#16, 192#16, 36#16⟩) := by
  refine ⟨rfl, ?_⟩; decide

/-- A good list, and the lists X11 refuses at their boundary. -/
theorem good_write : GoodMsgs [wMsg 34#16] := (msgsValid_iff _).mp (by decide)

theorem bad_write : ¬ GoodMsgs [wMsg 35#16] :=
  fun h => absurd ((msgsValid_iff _).mpr h) (by decide)

theorem witness_XferValidation :
    let s := ask (wOps 34#16) up
    (s.AtRequest ∧ State.reset.AtRequest ∧ State.reset.blk.ready = false) ∧
    (s.blk.ready = true ∧ s.blk.powered = true ∧
      ¬ ((ask .empty up).agent .platform).ops.count.toNat ≠ 0) ∧
    (((s.agent s.cur).ops.count.toNat ≠ 0 ∧
        (s.agent s.cur).ops.count.toNat = (s.msgsOf s.cur).length) ∧
      ({ s with blk := { s.blk with disableUnacked := true } } : State).blk.disableUnacked = true) ∧
    (s.blk.Accepts ∧ ((ask (wOps 35#16) up).msgsOf .platform) = [wMsg 35#16] ∧
      ¬ GoodMsgs [wMsg 35#16]) :=
  ⟨⟨rfl, rfl, rfl⟩, ⟨rfl, rfl, by decide⟩, ⟨by decide, rfl⟩, ⟨⟨rfl, rfl, rfl⟩, rfl, bad_write⟩⟩

theorem witness_XferBegins :
    let s := ask (wOps 34#16) up
    MayBegin s ∧ (s.agent s.cur).ops.count.toNat ≠ 0 ∧
    (s.agent s.cur).ops.count.toNat = (s.msgsOf s.cur).length ∧ s.msgsOf s.cur = [wMsg 34#16] ∧
    GoodMsgs [wMsg 34#16] :=
  ⟨mayBegin_up _, by decide, rfl, rfl, good_write⟩

theorem witness_XferBegins_goesOn :
    let ms := [wMsg 34#16]
    (1#16).toNat = ms.length ∧ (1#16).toNat ≠ 0 ∧ GoodMsgs ms ∧ held.Wf ∧ held.OpenTo .platform ∧
    (let s := waiting (.xferGate ms 1#16) up
     GoesOn .platform (.xferGate ms 1#16) s { s with sched := [] } held ∧ s.blk.Accepts ∧ s.BusFree) ∧
    (let s := parked (.go (.xfer ms 1#16)) [.retry 5 ms 1#16] 1 up
     GoesOn .platform (.xfer ms 1#16) s { s with sched := [] } held ∧ s.blk.Accepts ∧ s.BusFree) ∧
    (let s := parked (.sleep (.busy ms 1#16)) [] 1 up
     GoesOn .platform (.busy ms 1#16) s { s with sched := [] } held ∧ s.BusFree) ∧
    (let s := parked (.sleep (.disable 100 (.xfer ms))) [.gated] 1 up
     GoesOn .platform (.disable 100 (.xfer ms)) s { s with sched := [] } held ∧
     (ctlTurn s).ctl.icEn = false) :=
  ⟨rfl, by decide, good_write, held_wf.1, held_wf.2.1, ⟨waiting_goesOn _ _, ⟨rfl, rfl, rfl⟩, rfl, rfl⟩,
    ⟨go_goesOn _ _, ⟨rfl, rfl, rfl⟩, rfl, rfl⟩, ⟨sleep_goesOn _ _, rfl, rfl⟩, sleep_goesOn _ _, rfl⟩

/-- The bounds of the two polls of XFER, and the controller's state, set. -/
def polls (i j : Nat) (c : Ctl) (s : State) : State :=
  { s with par := { Params.sample with busyPollLimit := i, disablePollLimit := j }, ctl := c }

/-- The bus kept busy from outside, and an enabled controller on an idle bus. -/
def busyCtl : Ctl := { up.ctl with otherBusy := true }
def onCtl : Ctl := (enabled [] [] up).ctl

/-- A suspended request that sleeps or is about to go on, under any bounds and any controller. -/
theorem polls_goesOn (i j : Nat) (c : Ctl) (k : Cont) (fs : List Frame) (d : Nat) :
    (let s := polls i j c (parked (.sleep k) fs d up)
     GoesOn .platform k s { s with sched := [] } ⟨some .platform, d, []⟩) ∧
    (let s := polls i j c (parked (.go k) fs d up)
     GoesOn .platform k s { s with sched := [] } ⟨some .platform, d, []⟩) :=
  ⟨.resumed [] ⟨regMap_ok, rfl, rfl, rfl⟩ (.inl rfl), .resumed [] ⟨regMap_ok, rfl, rfl, rfl⟩ (.inr rfl)⟩

theorem may_enter (i j : Nat) (c : Ctl) :
    MayEnter .platform [wMsg 34#16] 1#16 ⟨none, 0, []⟩ (polls i j c (ask (wOps 34#16) up)) :=
  ⟨⟨rfl, rfl, rfl⟩, ⟨by decide, rfl⟩, good_write, free_wf [], .inl rfl⟩

/-- The five ways a step comes to a STATUS poll, under any bounds and any controller; the gate is entered
once. -/
theorem witness_AtBusyPoll (i j : Nat) (c : Ctl) :
    let ms := [wMsg 34#16]
    (let s := polls i j c (ask (wOps 34#16) up)
     (∃ b, AtBusyPoll s (exec .xfer s) s .platform [] ms 1#16 b ∧ b.pollCount = 0 ∧ b.gate = held) ∧
     ∃ b, AtBusyPoll s (exec .i2cTransfer s) s .platform [.retry 5 ms 1#16] ms 1#16 b ∧
       b.pollCount = 0 ∧ b.gate = held) ∧
    (let s := polls i j c (waiting (.xferGate ms 1#16) up)
     ∃ b, AtBusyPoll s (step s) { s with sched := [] } .platform [] ms 1#16 b ∧ b.pollCount = 0 ∧
       b.gate = held) ∧
    (∀ left, let s := polls i j c { parked (.go (.xfer ms 1#16)) [.retry left ms 1#16] 0 up with
         blk := { up.blk with gate := ⟨none, 0, []⟩ } }
     ∃ b, AtBusyPoll s (step s) { s with sched := [] } .platform [.retry left ms 1#16] ms 1#16 b ∧
       b.pollCount = 0 ∧ b.gate = held) ∧
    (∀ n fs, let s := { polls i j c (parked (.sleep (.busy ms 1#16)) fs 1 up) with
         blk := { up.blk with gate := held, pollCount := n } }
     ∃ b, AtBusyPoll s (step s) { s with sched := [] } .platform fs ms 1#16 b ∧ b.pollCount = n ∧
       b.gate = held) :=
  ⟨⟨⟨_, .xfer rfl (may_enter i j c), rfl, rfl⟩, ⟨_, .i2cTransfer rfl (may_enter i j c), rfl, rfl⟩⟩,
    ⟨_, .granted _ _ _ _ held (.granted [] ⟨regMap_ok, rfl, rfl, rfl⟩ rfl rfl waits) rfl ⟨rfl, rfl⟩, rfl,
      rfl⟩,
    fun _ => ⟨_, .next _ _ _ _ ⟨none, 0, []⟩ (.resumed [] ⟨regMap_ok, rfl, rfl, rfl⟩ (.inr rfl))
      ⟨⟨rfl, rfl, rfl⟩, ⟨by decide, rfl⟩, good_write, free_wf [], .inl rfl⟩, rfl, rfl⟩,
    fun _ _ => ⟨_, .again _ _ _ _ held (.resumed [] ⟨regMap_ok, rfl, rfl, rfl⟩ (.inl rfl)) rfl, rfl, rfl⟩⟩

/-- What the polls read, whatever else stands in the state: activity; none, and a disable not acknowledged. -/
theorem witness_XferPolls :
    held.owner = some .platform ∧ held.depth = 1 ∧
    (∀ i j, (ctlTurn (polls i j busyCtl (ask (wOps 34#16) up))).ctl.activity = true) ∧
    (∀ i j fs, (ctlTurn (polls i j busyCtl (parked (.sleep (.busy [wMsg 34#16] 1#16)) fs 1 up))).ctl.activity
      = true) ∧
    (∀ i j, let s := polls i j onCtl (ask (wOps 34#16) up)
      (ctlTurn s).ctl.activity = false ∧
      (ctlTurn (regWrite .enable 0#32 (regTouch .status s))).ctl.icEn = true) ∧
    (polls 0 0 busyCtl up).par.busyPollLimit = 0 ∧ (polls 20 1 busyCtl up).par.busyPollLimit ≠ 0 ∧
    (polls 0 0 onCtl up).par.disablePollLimit = 0 ∧ (polls 0 1 onCtl up).par.disablePollLimit ≠ 0 ∧
    (∀ k fs, let s := polls 0 2 onCtl (parked (.sleep (.disable k (.xfer [wMsg 34#16]))) fs 1 up)
      GoesOn .platform (.disable k (.xfer [wMsg 34#16])) s { s with sched := [] } held ∧
      (ctlTurn s).ctl.icEn = true ∧ s.par.disablePollLimit = 2) :=
  ⟨rfl, rfl, fun _ _ => rfl, fun _ _ _ => rfl, fun _ _ => ⟨rfl, rfl⟩, rfl, by decide, rfl, by decide,
    fun _ _ => ⟨(polls_goesOn 0 2 onCtl _ _ 1).1, rfl, rfl⟩⟩

theorem witness_RetryOnlyBusBusy :
    let ms := [wMsg 1#16]
    held.owner = some .platform ∧ held.depth = 1 ∧
    (∀ left ∈ [0, 5],
      let s : State := { polls 20 0 busyCtl (parked (.sleep (.busy ms 1#16)) [.retry left ms 1#16] 1 up) with
        blk := { up.blk with gate := held, pollCount := 20 } }
      (s.agent .platform).stack = [.retry left ms 1#16] ∧
      AtBusyPoll s (step s) { s with sched := [] } .platform [.retry left ms 1#16] ms 1#16
        { s.blk with gate := held } ∧
      (ctlTurn s).ctl.activity = true ∧ s.blk.pollCount = s.par.busyPollLimit) ∧
    (let s := enabled [] [] (parked (.sleep (.disable 100 (.xfer ms))) [.retry 5 ms 1#16] 1 up)
     GoesOn .platform (.disable 100 (.xfer ms)) s { s with sched := [] } held ∧
     (ctlTurn s).ctl.icEn = true ∧ s.par.disablePollLimit ≤ 100) ∧
    (let c : Cont := .xferGate ms 1#16
     let s : State := { waiting c { up with blk := { up.blk with ready := false } } with
       agents := [(.platform, { Caller.idle with point := .gate c, stack := [.retry 5 ms 1#16] })] }
     GoesOn .platform c s { s with sched := [] } held ∧ s.blk.ready = false) ∧
    (let s := parked (.go (.xfer ms 1#16)) [.retry 4 ms 1#16] 1 up
     GoesOn .platform (.xfer ms 1#16) s { s with sched := [] } held ∧ (1#16).toNat = ms.length ∧
     (1#16).toNat ≠ 0) ∧
    (let s := parked .unwind [.retry 5 ms 1#16] 1 up
     NextMove (.resume .platform) [] s ∧ (s.agent .platform).point = .unwind ∧
     s.blk.gate = ⟨some .platform, 1, s.blk.gate.waiters⟩) :=
  ⟨rfl, rfl, fun _ _ => ⟨rfl, .again _ _ _ _ held (.resumed [] ⟨regMap_ok, rfl, rfl, rfl⟩ (.inl rfl)) rfl,
      rfl, rfl⟩,
    ⟨.resumed [] ⟨regMap_ok, rfl, rfl, rfl⟩ (.inl rfl), rfl, by decide⟩,
    ⟨.granted [] ⟨regMap_ok, rfl, rfl, rfl⟩ rfl rfl (by decide), rfl⟩,
    ⟨go_goesOn _ _, rfl, by decide⟩, parked_next _ _ _, rfl, rfl⟩

/-- The failed re-check and the unacknowledged disable of a next attempt. -/
theorem witness_RetryOnlyBusBusy_fails :
    let c : Cont := .xfer [wMsg 1#16] 1#16
    let s := parked (.go c) [.retry 4 [wMsg 1#16] 1#16] 1 up
    let off : State := { s with blk := { s.blk with powered := false } }
    let un : State := { s with blk := { s.blk with disableUnacked := true } }
    GoesOn .platform c off { off with sched := [] } held ∧ off.blk.powered = false ∧
    GoesOn .platform c un { un with sched := [] } held ∧ un.blk.ready = true ∧
    un.blk.powered = true ∧ un.blk.disableUnacked = true :=
  ⟨.resumed [] ⟨regMap_ok, rfl, rfl, rfl⟩ (.inr rfl), rfl,
    .resumed [] ⟨regMap_ok, rfl, rfl, rfl⟩ (.inr rfl), rfl, rfl, rfl⟩

theorem witness_WaitEndings :
    let f := flying [wMsg 1#16] up
    let g : State := { f with sched := [.wake .platform] }
    (f.blk.gate.owner = some .platform ∧ (f.agent .platform).waiting = true ∧
      f.blk.completion = false) ∧
    (up.blk.gate.owner ≠ some .platform ∧ (signalCompletion f).blk.completion = true) ∧
    NextMove (.wake .platform) [] g ∧ NextMove (.wake .platform) [] (signalCompletion g) ∧
    ((signalCompletion g).agent .platform).waiting = true :=
  ⟨⟨rfl, rfl, rfl⟩, ⟨by decide, rfl⟩, ⟨regMap_ok, rfl, rfl, rfl⟩, ⟨regMap_ok, rfl, rfl, rfl⟩, rfl⟩

theorem witness_UnwindPostsOutcome :
    let s := parked .unwind [] 1 up
    NextMove (.resume .platform) [] s ∧ (s.agent .platform).point = .unwind ∧
    (s.agent .platform).stack = [] ∧ s.blk.gate = ⟨some .platform, 1, s.blk.gate.waiters⟩ :=
  ⟨parked_next _ _ _, rfl, rfl, rfl⟩

theorem witness_IdleDelivery :
    up.ctl.raw &&& up.ctl.intrMask = 0#32 ∧
    (let s := enabled [] [] up
     s.ctl.raw &&& s.ctl.intrMask ≠ 0#32 ∧ s.blk.irqInstalled = true ∧ s.blk.powered = true ∧
     s.blk.xphase ≠ .transferActive) ∧
    (let s := signalCompletion (flying [wMsg 1#16] up)
     s.ctl.raw &&& s.ctl.intrMask ≠ 0#32 ∧ s.blk.completion = true) := by decide

theorem witness_SnapshotThenClears :
    let s := flying [wMsg 1#16] up
    let t : State := { s with ctl := { s.ctl with latched := 0x3FEB#32, intrMask := 0x244#32 } }
    (∀ u ∈ [s, t], u.ctl.raw &&& u.ctl.intrMask ≠ 0#32 ∧ u.blk.irqInstalled = true ∧
      u.blk.powered = true ∧ u.blk.xphase = .transferActive ∧ u.blk.completion = false ∧
      u.blk.msgErr = .none) := by
  intro s t u hu
  simp only [List.mem_cons, List.not_mem_nil, or_false] at hu
  rcases hu with rfl | rfl <;> decide

theorem witness_EndingBranches :
    (flying [rMsg 1#16] up).blk.msgErr = .none ∧
    (let b := { (flying [wMsg 1#16] up).blk with msgWriteIdx := 1 }
     b.msgWriteIdx = b.msgsNum ∧ b.rxOutstanding = 0 ∧
     ∀ j, b.msgReadIdx ≤ j → j < b.msgs.length → (msgAt b.msgs j).flags.getLsbD 0 = false) ∧
    (let b := { (flying [rMsg 1#16] up).blk with msgWriteIdx := 1 }
     ¬ ∀ j, b.msgReadIdx ≤ j → j < b.msgs.length → (msgAt b.msgs j).flags.getLsbD 0 = false) := by
  refine ⟨rfl, ⟨rfl, rfl, ?_⟩, fun h => absurd (h 0 (Nat.le_refl _) (by decide)) (by decide)⟩
  intro j _ hj
  obtain rfl : j = 0 := Nat.lt_one_iff.mp hj
  decide

/-- A list's cursor facts for one message, whatever its direction. -/
theorem one_cursors (m : Msg) (h : 1 ≤ m.len.toNat ∧ m.len.toNat ≤ m.buf.cap.toNat)
    (hl : m.recvLen = true → m.len.toNat = 1) : (flying [m] up).blk.CursorsOk := by
  refine ⟨⟨rfl, rfl⟩, Nat.zero_le _, Nat.zero_le _, fun _ => Nat.zero_le _, fun _ => h.1, ?_, ?_⟩
  · intro j hj
    obtain rfl : j = 0 := Nat.lt_one_iff.mp hj
    exact h
  · intro _ j hj
    obtain rfl : j = 0 := Nat.lt_one_iff.mp hj
    exact hl

/-- A refill that goes to the end, one that stops at a full RX FIFO, and one at a RECV_LEN message. -/
theorem witness_RefillIssuesWrite_any :
    (flying [wMsg 34#16] up).blk.CursorsOk ∧ (flying [rMsg 34#16] up).blk.CursorsOk ∧
    (flying [rlMsg] up).blk.CursorsOk ∧
    (let t (m : Msg) : State := { flying [m] up with handler := some 0x10#32 }
     ∀ m ∈ [wMsg 34#16, rMsg 34#16, rlMsg],
       (t m).handler = some 0x10#32 ∧ (t m).blk.msgErr = .none ∧
       (t m).blk.msgWriteIdx < (t m).blk.msgsNum ∧ (t m).blk.holdForLen = false) :=
  ⟨one_cursors _ (by decide) (by decide), one_cursors _ (by decide) (by decide),
    one_cursors _ (by decide) (by decide), fun _ _ => ⟨rfl, rfl, Nat.one_pos, rfl⟩⟩

theorem witness_RefillIssuesWrite :
    let s : State := { flying [wMsg 8#16] up with handler := some 0x10#32 }
    s.handler = some 0x10#32 ∧ s.blk.msgErr = .none ∧ s.blk.msgs = [wMsg 8#16] ∧ s.blk.msgsNum = 1 ∧
    s.blk.msgWriteIdx = 0 ∧ s.blk.txOff = 0 ∧ s.blk.holdForLen = false ∧
    s.blk.lens = [(wMsg 8#16).len.toNat] ∧ (wMsg 8#16).flags.getLsbD 0 = false ∧
    (wMsg 8#16).flags.getLsbD 10 = false ∧ 1 ≤ (wMsg 8#16).len.toNat ∧
    (wMsg 8#16).len.toNat ≤ (wMsg 8#16).buf.cap.toNat ∧ (ctlTurn s).ctl.txFifo.length < 512 ∧
    (wMsg 8#16).len.toNat + (ctlTurn s).ctl.txFifo.length ≤ s.blk.txFifoDepth := by decide

theorem witness_FifosStayInBounds :
    (let s : State := { flying [rMsg 9#16] up with handler := some 0x10#32 }
     let r : State := { enabled [] [1#8] (flying [rMsg 9#16] up) with handler := some 0x04#32 }
     see (fun _ => ()) (exec .irqTxEmpty s) = some () ∧ s.blk.rxOutstanding ≤ s.blk.rxFifoDepth ∧
     s.blk.txFifoDepth ≤ s.par.ctlTxDepth ∧ s.par.ctlTxDepth ≤ 256 ∧
     s.ctl.txFifo.length ≤ s.par.ctlTxDepth ∧
     see (fun _ => ()) (exec .irqRxFull r) = some () ∧ r.ctl.enable = true ∧ r.par.ctlRxDepth ≤ 256 ∧
     r.ctl.rxFifo.length ≤ r.par.ctlRxDepth) ∧
    -- the counter at its bound and covering exactly what is owed; one word popped
    (let s : State := { enabled [0x100#32, 0x100#32, 0x300#32] [1#8, 2#8, 3#8, 4#8, 5#8]
       (flying [rMsg 9#16] up) with handler := some 0x254#32 }
     let s : State := { s with blk := { s.blk with rxOutstanding := 8 } }
     s.blk.rxFifoDepth ≤ s.par.ctlRxDepth ∧ s.ctl.owes = 8 ∧ s.ctl.owes ≤ s.blk.rxOutstanding ∧
     s.blk.rxOutstanding ≤ s.blk.rxFifoDepth ∧
     [Instr.evtIrq, .irqTxAbrt, .irqRxFull, .irqTxEmpty, .irqStopDet].map (fun i =>
       see (fun _ => ()) (exec i s)) = List.replicate 5 (some ()) ∧
     (Ctl.popTx (.ack 0#8 0#8) s.ctl).owes < s.blk.rxOutstanding ∧
     s.ctl.owes ≤ s.par.ctlRxDepth) := by decide

/-- A transfer that begins with nothing owed: on a free bus, and at a later disable poll. -/
theorem witness_FifosStayInBounds_begins :
    (let s := polls 20 100 up.ctl (ask (wOps 34#16) up)
     (∃ b, AtBusyPoll s (exec .xfer s) s .platform [] [wMsg 34#16] 1#16 b) ∧ s.BusFree ∧
     (ctlTurn (regWrite .enable 0#32 (regTouch .status s))).ctl.owes = 0) ∧
    (let c : Cont := .disable 1 (.xfer [wMsg 34#16])
     let s := polls 20 100 up.ctl (parked (.sleep c) [] 1 up)
     GoesOn .platform c s { s with sched := [] } held ∧ (ctlTurn s).ctl.icEn = false ∧
     (ctlTurn s).ctl.owes = 0 ∧ s.blk.rxOutstanding ≤ s.blk.rxFifoDepth) :=
  ⟨⟨(witness_AtBusyPoll 20 100 up.ctl).1.1.imp fun _ h => h.1, ⟨rfl, rfl⟩, rfl⟩,
    (polls_goesOn 20 100 up.ctl _ _ 1).1, rfl, rfl, by decide⟩

/-- Bytes that end no message, bytes that end one, and a write message before the cursor's read. -/
theorem witness_DrainStoresInOrder :
    ∀ e ∈ [(rMsg 3#16, [rMsg 3#16], 0), (rMsg 2#16, [rMsg 2#16], 0),
        (rMsg 2#16, [wMsg 1#16, rMsg 2#16], 1)],
      let m := e.1
      let i := e.2.2
      let s : State := { enabled [] [1#8, 2#8] (flying e.2.1 up) with handler := some 0x04#32 }
      s.handler = some 0x04#32 ∧ s.mem.wf = true ∧ s.blk.msgErr = .none ∧ s.ctl.enable = true ∧
      (ctlTurn s).ctl.rxFifo.length < 512 ∧ (ctlTurn s).ctl.rxFifo ≠ [] ∧ s.blk.msgReadIdx ≤ i ∧
      (∀ j < i, (msgAt s.blk.msgs j).flags.getLsbD 0 = false) ∧ i < s.blk.msgsNum ∧
      i < s.blk.msgs.length ∧ msgAt s.blk.msgs i = m ∧
      m.flags.getLsbD 0 = true ∧ m.flags.getLsbD 10 = false ∧
      s.blk.rxOff = 0 ∧ 0 + (ctlTurn s).ctl.rxFifo.length ≤ s.blk.lens.getD i 0 ∧
      0 < s.blk.lens.getD i 0 ∧ s.blk.lens.getD i 0 ≤ m.buf.cap.toNat := by
  intro e he
  simp only [List.mem_cons, List.not_mem_nil, or_false] at he
  rcases he with rfl | rfl | rfl <;> decide

/-- The length byte at both ends of its range and outside it, the cursor at the RECV_LEN message and at the
write message before it, as in every SMBus BLOCK_DATA read (43_smbus.md R330). -/
theorem witness_DrainEndings :
    (∀ l ∈ [0#8, 1#8, 32#8, 33#8], ∀ e ∈ [([rlMsg], 0), ([wMsg 1#16, rlMsg], 1)],
      let i := e.2
      let s : State := { enabled [] [l] (flying e.1 up) with handler := some 0x04#32 }
      s.handler = some 0x04#32 ∧ s.mem.wf = true ∧ s.blk.msgErr = .none ∧ s.ctl.enable = true ∧
      (ctlTurn s).ctl.rxFifo = [l] ∧ s.blk.msgReadIdx = 0 ∧ s.blk.msgReadIdx ≤ i ∧
      (∀ j < i, (msgAt s.blk.msgs j).flags.getLsbD 0 = false) ∧ i < s.blk.msgsNum ∧
      s.blk.lens.length = s.blk.msgs.length ∧ i < s.blk.msgs.length ∧
      msgAt s.blk.msgs i = rlMsg ∧ rlMsg.flags.getLsbD 0 = true ∧
      rlMsg.flags.getLsbD 10 = true ∧ s.blk.recvPending = true ∧ s.blk.rxOff = 0 ∧
      s.blk.completion = false) ∧
    (let s : State := { enabled [] [1#8] (flying [wMsg 1#16] up) with handler := some 0x04#32 }
     s.handler = some 0x04#32 ∧ s.blk.msgErr = .none ∧ s.ctl.enable = true ∧
     (ctlTurn s).ctl.rxFifo = 1#8 :: [] ∧ [].length (α := Byte) < 511 ∧
     s.blk.msgs.length = s.blk.msgsNum ∧ s.blk.msgReadIdx ≤ s.blk.msgsNum ∧
     (∀ j < 1, s.blk.msgReadIdx ≤ j → (msgAt s.blk.msgs j).flags.getLsbD 0 = false) ∧
     s.blk.msgsNum = 1 ∧ s.blk.completion = false) := by decide

theorem witness_HandlerBranchFrame :
    [Instr.irqTxAbrt, .irqRxFull, .irqTxEmpty, .irqStopDet].map (fun i =>
      see (fun _ => ()) (exec i { enabled [] [1#8] (flying [rMsg 2#16] up) with
        handler := some 0x254#32 })) = List.replicate 4 (some ()) := by decide

theorem witness_CommandWords :
    (∀ ans ∈ [Answer.ack 0#8 0#8, .nackAddress 1#32 0#8 0#8, .nackByte 1#32 0#8 0#8, .arbLost 1#32],
      ({ up.ctl with answer := ans } : Ctl).answer = ans) ∧
    up.ctl.bus = none ∧ up.ctl.targets = [] ∧
    (let c : Ctl := { up.ctl with bus := some ⟨0x2C#10, false, false⟩ }
     c.bus = some ⟨0x2C#10, false, false⟩ ∧ ¬ (false = true ∨ (Txn.mk 0x2C#10 false false).isRead = true)) ∧
    (List.replicate 8 0#8).length = up.par.ctlRxDepth :=
  ⟨fun _ _ => rfl, rfl, rfl, ⟨rfl, by decide⟩, by decide⟩

/-- A START, a repeated START and a word that goes on, in both directions, at the target's address, at
another one and under a 10-bit one. -/
theorem witness_PagedTargetOnBus :
    ∀ o ∈ [none, some 0#8, some 0xFE#8, some 0xFF#8],
      ∀ b ∈ [none, some (Txn.mk 0x20#10 false true), some ⟨0x20#10, false, false⟩, some ⟨0x21#10, false, true⟩,
        some ⟨0x20#10, true, false⟩],
      let g : Target := ⟨0x20#7, 0#8, o, []⟩
      let s : State := { up with ctl := { up.ctl with
        tar := 0x20#10, targets := [g], bus := b, answer := .ack 0#8 1#8 } }
      s.ctl.targets = [g] ∧ s.ctl.answer = .ack 0#8 1#8 ∧ s.ctl.bus = b ∧
      s.ctl.tar = g.addr.setWidth 10 ∧ s.ctl.con.getLsbD 4 = false ∧ g.offset = o ∧
      ((0x20#10 : BitVec 10) = g.addr.setWidth 10 ∧ (0x21#10 : BitVec 10) ≠ g.addr.setWidth 10) :=
  fun _ _ _ _ => ⟨rfl, rfl, rfl, rfl, show (0x65#32 : Word).getLsbD 4 = false by decide, rfl, rfl,
    show (0x21#10 : BitVec 10) ≠ (0x20#7).setWidth 10 by decide⟩

theorem witness_SmbusRejects :
    let s := ask { smOps 0#8 with flags := 0x11#16 } up
    (Asks s ∧ (s.agent s.cur).ops.flags &&& ~~~(0x0010#16) ≠ 0#16) ∧
    (∀ l ∈ [0#8, 33#8], (buf7 [l] (ask (smOps 0#8) up)).AtRequest ∧
      (buf7 [l] (ask (smOps 0#8) up)).mem.read (bufAddr (.user 7) 0) = l) ∧
    Asks (buf7 [33#8] (ask (smOps 0#8) up)) ∧
    -- the gate taken by another
    ((shut { smOps 0#8 with flags := 0x11#16 }).AtRequest ∧
      (shut { smOps 0#8 with flags := 0x11#16 }).blk.gate.owner = some (.caller 0)) := by
  refine ⟨⟨asks_up _, by decide⟩, fun l hl => ⟨rfl, ?_⟩, ⟨rfl, free_wf [], Or.inl rfl⟩, rfl, rfl⟩
  simp only [List.mem_cons, List.not_mem_nil, or_false] at hl
  rcases hl with rfl | rfl <;> decide

/-- A gated request with a bad flag, and one with a bad length, granted the gate. -/
theorem witness_SmbusRejects_granted_length :
    ∀ l ∈ [0#8, 33#8],
      let s := buf7 [l] (waiting (.gated .blockData false) up (smOps 0#8))
      GoesOn .platform (.gated .blockData false) s { s with sched := [] } held ∧
      (s.agent .platform).stack = [] ∧
      s.mem.read (bufAddr (.user (s.agent .platform).ops.data) 0) = l := by
  intro l hl
  refine ⟨.granted [] ⟨regMap_ok, rfl, rfl, rfl⟩ rfl rfl waits, rfl, ?_⟩
  simp only [List.mem_cons, List.not_mem_nil, or_false] at hl
  rcases hl with rfl | rfl <;> decide

theorem witness_SmbusRejects_granted :
    let o : Operands := { smOps 0#8 with flags := 0x11#16 }
    let s := waiting (.gated .byte true) up o
    GoesOn .platform (.gated .byte true) s { s with sched := [] } held ∧
    (s.agent .platform).stack = [] ∧ held.owner = some .platform ∧ held.depth = 1 ∧
    (s.agent .platform).ops.flags &&& ~~~(0x0010#16) ≠ 0#16 :=
  ⟨waiting_goesOn _ _, rfl, rfl, rfl, by decide⟩

/-- An unacknowledged disable is no premise of QUICK's result: this state has one. -/
theorem witness_QuickNeverTransfers :
    let s := ask (smOps 0#8) up
    let t : State := { s with blk := { s.blk with disableUnacked := true } }
    Asks s ∧ Asks t ∧ (shut (smOps 0#8)).AtRequest ∧
    (shut (smOps 0#8)).blk.gate.TakenFrom (shut (smOps 0#8)).cur ∧
    (let u := waiting (.gated .quick true) up (smOps 0#8)
     GoesOn .platform (.gated .quick true) u { u with sched := [] } held ∧
     (u.agent .platform).stack = []) :=
  ⟨asks_up _, ⟨rfl, free_wf [], Or.inl rfl⟩, rfl, ⟨.caller 0, rfl, by decide⟩, waiting_goesOn _ _, rfl⟩

/-- A gated request of every size and direction, granted the gate on a started bus. -/
theorem witness_gated_goesOn (size : SizeClass) (rw : Bool) (l : Byte) :
    let s := buf7 [l] (waiting (.gated size rw) up { smOps 0#8 with addr := 0x7F#16 })
    GoesOn .platform (.gated size rw) s { s with sched := [] } held ∧
    (s.agent .platform).stack = [] ∧ s.blk.Accepts ∧ held.Wf ∧ held.OpenTo .platform ∧ s.BusFree ∧
    (s.agent .platform).ops.flags = 0#16 ∧ (s.agent .platform).ops.addr.toNat < 128 :=
  ⟨.granted [] ⟨regMap_ok, rfl, rfl, rfl⟩ rfl rfl waits, rfl, ⟨rfl, rfl, rfl⟩, held_wf.1,
    held_wf.2.1, ⟨rfl, rfl⟩, rfl, (by decide : (0x7F#16).toNat < 128)⟩

theorem witness_gated_union :
    ∀ l ∈ [1#8, 32#8], (buf7 [l] up).mem.wf = true ∧
      (buf7 [l] up).mem.read (bufAddr (.user 7) 0) = l := by
  intro l hl
  simp only [List.mem_cons, List.not_mem_nil, or_false] at hl
  rcases hl with rfl | rfl <;> decide

/-- A 7-bit and a 10-bit target at the top of their ranges, the union holding a block of 32. -/
theorem witness_SmbusWritesBegin :
    let s := buf7 [32#8] (ask { smOps 0#8 with addr := 0x7F#16 } up)
    let t := buf7 [1#8] (ask { smOps 0#8 with addr := 0x3FF#16, flags := 0x10#16 } up)
    MayBegin s ∧ MayBegin t ∧
    ((s.agent s.cur).ops.flags = 0#16 ∧ (s.agent s.cur).ops.addr.toNat < 128) ∧
    ((t.agent t.cur).ops.flags &&& ~~~(0x0010#16) = 0#16 ∧
      (t.agent t.cur).ops.addr.toNat < 1024 ∧ (t.agent t.cur).ops.flags ≠ 0#16) ∧
    s.mem.read (bufAddr (.user 7) 0) = 32#8 ∧ t.mem.read (bufAddr (.user 7) 0) = 1#8 :=
  ⟨⟨rfl, rfl, ⟨rfl, rfl, rfl⟩, free_wf [], Or.inl rfl, rfl, rfl⟩,
    ⟨rfl, rfl, ⟨rfl, rfl, rfl⟩, free_wf [], Or.inl rfl, rfl, rfl⟩, by decide, by decide, by decide,
    by decide⟩

theorem witness_SmbusReadsBegin :
    let s := ask { smOps 0#8 with addr := 0x7F#16 } up
    let t := ask { smOps 0#8 with addr := 0x3FF#16, flags := 0x10#16 } up
    MayBegin s ∧ MayBegin t ∧
    ((s.agent s.cur).ops.flags = 0#16 ∧ (s.agent s.cur).ops.addr.toNat < 128) ∧
    ((t.agent t.cur).ops.flags &&& ~~~(0x0010#16) = 0#16 ∧
      (t.agent t.cur).ops.addr.toNat < 1024 ∧ (t.agent t.cur).ops.flags ≠ 0#16) :=
  ⟨mayBegin_up _, mayBegin_up _, by decide, by decide⟩

/-- A transfer inside any operations ends: by its unwind, whatever the outcome; at the bound of its polls; by
the re-check. -/
theorem ends_unwound (fs : List Frame) (d : Nat) (f : Bus → Bus) (m : Memory)
    (hg : (f (parked .unwind fs d up).blk).gate = ⟨some .platform, d, []⟩) :
    let s : State := { parked .unwind fs d up with blk := f (parked .unwind fs d up).blk, mem := m }
    XferEnds s (step s) { s with sched := [] } .platform fs ⟨some .platform, d, []⟩
      (transferResult (f (parked .unwind fs d up).blk)) 0 := by
  have h := XferEnds.unwound (s := { parked .unwind fs d up with
    blk := f (parked .unwind fs d up).blk, mem := m }) .platform []
    ⟨regMap_ok, rfl, rfl, rfl⟩ rfl
  have e : ({ parked .unwind fs d up with
    blk := f (parked .unwind fs d up).blk, mem := m } : State).blk.gate = _ := hg
  rw [e] at h
  exact h

theorem witness_XferEnds (fs : List Frame) (d : Nat) :
    let ms := [wMsg 1#16]
    (let s := polls 0 0 busyCtl (parked (.sleep (.busy ms 1#16)) fs d up)
     XferEnds s (step s) { s with sched := [] } .platform fs ⟨some .platform, d, []⟩
       ⟨.busBusyTimeout, 0#32, .ok⟩ 0) ∧
    (let s := polls 0 0 onCtl (parked (.sleep (.busy ms 1#16)) fs d up)
     XferEnds s (step s) { s with sched := [] } .platform fs ⟨some .platform, d, []⟩
       ⟨.disableTimeout, 0#32, .ok⟩ 0) ∧
    (let s := polls 0 0 onCtl (parked (.sleep (.disable 1 (.xfer ms))) fs d up)
     XferEnds s (step s) { s with sched := [] } .platform fs ⟨some .platform, d, []⟩
       ⟨.disableTimeout, 0#32, .ok⟩ 0) ∧
    (let c : Cont := .xferGate ms 1#16
     let s : State := { waiting c { up with blk := { up.blk with ready := false } } with
       agents := [(.platform, { Caller.idle with point := .gate c, stack := fs })] }
     XferEnds s (step s) { s with sched := [] } .platform fs held ⟨.invalidArgument, 0#32, .ok⟩ 0) :=
  ⟨.busy _ _ _ _ _ _ _ (.again _ _ _ _ _ (polls_goesOn 0 0 busyCtl _ fs d).1 rfl) rfl rfl,
    .unacked _ _ _ _ _ _ _ (.again _ _ _ _ _ (polls_goesOn 0 0 onCtl _ fs d).1 rfl) rfl rfl rfl,
    .unackedLater _ _ _ _ _ (polls_goesOn 0 0 onCtl _ fs d).1 rfl (Nat.zero_le _),
    .recheck _ _ _ _ held (.granted [] ⟨regMap_ok, rfl, rfl, rfl⟩ rfl rfl waits) (.inl rfl)⟩

/-- The premises on a transfer's end: it ends with success and with an abort, inside any operations. -/
theorem ends_both (fs : List Frame) (d : Nat) (m : Memory) :
    (let s : State := { parked .unwind fs d up with mem := m }
     XferEnds s (step s) { s with sched := [] } .platform fs ⟨some .platform, d, []⟩ ⟨.ok, 0#32, .ok⟩ 0) ∧
    (let s : State := { aborted (parked .unwind fs d up) with mem := m }
     XferEnds s (step s) { s with sched := [] } .platform fs ⟨some .platform, d, []⟩
       ⟨.abortedTransfer, 1#32, .ok⟩ 0) :=
  ⟨ends_unwound fs d id m rfl,
    ends_unwound fs d (fun b => { b with cmdErr := 1#8, abortSource := 1#32 }) m rfl⟩

/-- The platform's request goes on, inside operations, on a bus whose power is off by now. -/
def lapsed (c : Cont) (fs : List Frame) (d : Nat) (page : Option Byte) : State :=
  { parked (.go c) fs d up with
    blk := { up.blk with powered := false, gate := ⟨some .platform, d, []⟩ }
    agents := [(.platform, { Caller.idle with
      req := some .xfer, ops := smOps 0#8, point := .go c, stack := fs })]
    devs := [⟨0x20#16, page, []⟩]
    running := some .platform }

theorem lapsed_goesOn (c : Cont) (fs : List Frame) (d : Nat) (page : Option Byte) :
    GoesOn .platform c (lapsed c fs d page) { lapsed c fs d page with running := none }
      ⟨some .platform, d, []⟩ := .running regMap_ok rfl rfl (.inr rfl)

theorem lapsed_rejects (c : Cont) (fs : List Frame) (d : Nat) (page : Option Byte) (x y : Half) :
    (lapsed c fs d page).blk.Rejects x y ⟨.invalidArgument, 0#32, .ok⟩ := .inl ⟨.inr rfl, rfl⟩

theorem entered_gate (d : Nat) :
    Gate.Wf ⟨some .platform, d + 1, []⟩ ∧ Gate.OpenTo .platform ⟨some .platform, d + 1, []⟩ :=
  ⟨⟨nofun, nofun⟩, .inr rfl⟩

/-- A transfer that fails in XFER step 1, by each of the operations around it. -/
theorem ends_rejected (blk : Block) (hf : blk.Fits) (hd : blk.dev = 0) (ha : blk.addr = 0x00E9#16)
    (todo : List (Half × List Byte)) :
    let no : Result := ⟨.invalidArgument, 0#32, .ok⟩
    let sel : List Frame := [.smbus .none, .setPage 0 0#8, .selected blk]
    (∃ s u, XferEnds s (step s) u .platform [.smbus .byteT1, .gated] ⟨some .platform, 2, []⟩ no 34 ∧
      s.mem.wf = true) ∧
    (∃ s u, XferEnds s (step s) u .platform [.smbus .none, .setPage 0 2#8] ⟨some .platform, 2, []⟩ no 34 ∧
      s.devs[0]? = some ⟨0x20#16, some 2#8, []⟩) ∧
    (∃ s u, XferEnds s (step s) u .platform sel ⟨some .platform, 3, []⟩ no 34) ∧
    (∃ s u, XferEnds s (step s) u .platform [.block] ⟨some .platform, 2, []⟩ no 34) ∧
    (∃ s u, XferEnds s (step s) u .platform [.block, .f01 0 0xC#16 todo] ⟨some .platform, 3, []⟩ no 34) ∧
    (∃ s u, XferEnds s (step s) u .platform [.block, .probe 0 0xE9 []] ⟨some .platform, 3, []⟩ no 34 ∧
      s.devs[0]? = some ⟨0x20#16, some 0#8, []⟩) := by
  have hp : blk.addr.extractLsb' 8 8 = 0#8 := by rw [ha]; decide
  refine ⟨⟨_, _, .rejected _ _ _ _ _ _ _ _
      (.gatedOn _ _ .byteData true _ (lapsed_goesOn (.gated .byteData true) [] 1 none)
        ⟨nofun, rfl, nofun⟩) (entered_gate 0) (lapsed_rejects ..), rfl⟩,
    ⟨_, _, .rejected _ _ _ _ _ _ _ _
      (.setPageOn _ _ 0 2#8 _ (lapsed_goesOn (.setPage 0 2#8) [] 1 (some 2#8)) _ rfl) (entered_gate 0)
      (lapsed_rejects ..), rfl⟩, ?_,
    ⟨_, _, .rejected _ _ _ _ _ _ _ _
      (.blockOn _ _ blk _ (lapsed_goesOn (.block blk) [] 1 none) hf _ (by rw [hd]; rfl)) (entered_gate 0)
      (lapsed_rejects ..)⟩,
    ⟨_, _, .rejected _ _ _ _ _ _ _ _
      (.blockOn _ _ blk _ (lapsed_goesOn (.block blk) [.f01 0 0xC#16 todo] 2 none) hf _ (by rw [hd]; rfl))
      (entered_gate 1) (lapsed_rejects ..)⟩,
    ⟨_, _, .rejected _ _ _ _ _ _ _ _
      (.block _ _ _ _ _ _ (.probeOn _ _ 0 0xE9 [] _ (lapsed_goesOn (.probe 0 0xE9 []) [] 1 (some 0#8))
        (entered_gate 0)) ⟨by decide, by decide, by decide⟩ _ rfl (by decide)) (entered_gate 1)
      (lapsed_rejects ..), rfl⟩⟩
  refine ⟨lapsed (.access blk) [] 1 none, { lapsed (.access blk) [] 1 none with running := none }, ?_⟩
  have h := XferEnds.rejected _ _ _ _ _ _ _ _
    (.select _ _ _ _ _ _ (.access _ _ blk _ (lapsed_goesOn (.access blk) [] 1 none)) hf (entered_gate 0)
      ⟨0x20#16, none, []⟩ (by rw [hd]; rfl) nofun) (entered_gate 1) (lapsed_rejects ..)
  rw [hp, hd] at h
  exact h

/-- The same at once, for a plain SMBus request: power off, an unacknowledged disable, an address over its
width at both bounds. -/
theorem witness_SmbusCopyBack_rejects :
    (∀ size ∈ [SizeClass.byte, .byteData, .wordData, .blockData, .i2cBlockData], ∀ rw ∈ [false, true],
      let s := buf7 [1#8] (ask (smOps 0#8) up)
      s.AtRequest ∧ s.SmbusMaps s.cur size rw) ∧
    (∀ x y : Half, Bus.Rejects { up.blk with ready := false } x y ⟨.invalidArgument, 0#32, .ok⟩ ∧
      Bus.Rejects { up.blk with disableUnacked := true } x y ⟨.disableTimeout, 0#32, .ok⟩) ∧
    up.blk.Rejects 0x80#16 0#16 ⟨.invalidArgument, 0#32, .ok⟩ ∧
    up.blk.Rejects 0x400#16 0x10#16 ⟨.invalidArgument, 0#32, .ok⟩ := by
  refine ⟨fun size hs rw _ => ⟨rfl, ⟨?_, by decide, fun _ _ => by decide⟩⟩,
    fun x y => ⟨.inl ⟨.inl rfl, rfl⟩, .inr (.inl ⟨rfl, rfl, rfl, rfl⟩)⟩,
    .inr (.inr ⟨⟨rfl, rfl, rfl⟩, .inr ⟨by decide, by decide⟩, rfl⟩),
    .inr (.inr ⟨⟨rfl, rfl, rfl⟩, .inl (by decide), rfl⟩)⟩
  rintro rfl
  simp at hs

theorem witness_SmbusCopyBack :
    ∀ cb ∈ [CopyBack.none, .byteT0, .byteT1, .wordT1, .blockT1, .i2cBlockT1],
      ∀ e ∈ [([Frame.smbus cb], 1), ([.smbus cb, .gated], 2)],
        (let s : State := { parked .unwind e.1 e.2 up with mem := [] }
         XferEnds s (step s) { s with sched := [] } .platform e.1 ⟨some .platform, e.2, []⟩
           ⟨.ok, 0#32, .ok⟩ 0 ∧ s.mem.wf = true) ∧
        (let s : State := { aborted (parked .unwind e.1 e.2 up) with mem := [] }
         XferEnds s (step s) { s with sched := [] } .platform e.1 ⟨some .platform, e.2, []⟩
           ⟨.abortedTransfer, 1#32, .ok⟩ 0 ∧ s.mem.wf = true) :=
  fun _ _ e _ => ⟨⟨(ends_both e.1 e.2 []).1, rfl⟩, ⟨(ends_both e.1 e.2 []).2, rfl⟩⟩

theorem witness_RmiFailsFast :
    State.reset.AtRequest ∧ State.reset.blk.ready = false ∧
    (let s : State := { ask .empty up with devs := [⟨0x80#16, none, []⟩] }
     s.AtRequest ∧ s.devs[(s.agent s.cur).ops.dev]? = some ⟨0x80#16, none, []⟩ ∧
     128 ≤ (0x80#16).toNat) ∧
    (let s : State := { ask .empty up with devs := [] }
     s.AtRequest ∧ s.devs[(s.agent s.cur).ops.dev]? = none) :=
  ⟨rfl, rfl, ⟨rfl, rfl, by decide⟩, rfl, rfl⟩

/-- The device of `up`, its page cached or not. -/
def paged (p : Option Byte) (o : Operands) : State :=
  { ask o up with devs := [⟨0x7F#16, p, []⟩] }

theorem paged_mayBegin (p : Option Byte) (o : Operands) : MayBegin (paged p o) :=
  ⟨rfl, rfl, ⟨rfl, rfl, rfl⟩, free_wf [], Or.inl rfl, rfl, rfl⟩

theorem witness_SetPageWrites :
    MayBegin (paged (some 1#8) (rmiOps 0#16 0#16)) ∧
    (paged (some 1#8) (rmiOps 0#16 0#16)).devs[(rmiOps 0#16 0#16).dev]? =
      some ⟨0x7F#16, some 1#8, []⟩ ∧ (0x7F#16).toNat < 128 :=
  ⟨paged_mayBegin _ _, rfl, by decide⟩

/-- The gate taken, and a request of the RMI4 sequencer that goes on by each way it can. -/
theorem witness_rmi_shut (o : Operands) :
    (shut o).AtRequest ∧ (shut o).blk.ready = true ∧ (shut o).blk.gate.TakenFrom (shut o).cur ∧
    (shut o).devs[0]? = some ⟨0x20#16, none, []⟩ ∧ (0x20#16).toNat < 128 :=
  ⟨rfl, rfl, ⟨.caller 0, rfl, (nofun : Agent.caller 0 ≠ .platform)⟩, rfl, by decide⟩

theorem witness_rmi_goesOn (c : Cont) (fs : List Frame) :
    (let s := waiting c up
     GoesOn .platform c s { s with sched := [] } held ∧ s.mem.wf = true ∧ s.blk.Accepts ∧ s.BusFree ∧
     s.devs[0]? = some ⟨0x20#16, none, []⟩) ∧
    (let s : State := { parked (.go c) fs 1 up with running := some .platform }
     GoesOn .platform c s { s with running := none } held ∧ s.mem.wf = true ∧ s.blk.Accepts ∧
     s.BusFree ∧ s.devs[0]? = some ⟨0x20#16, none, []⟩) ∧
    held.Wf ∧ held.OpenTo .platform ∧ (0x20#16).toNat < 128 :=
  ⟨⟨waiting_goesOn _ _, rfl, ⟨rfl, rfl, rfl⟩, ⟨rfl, rfl⟩, rfl⟩,
    ⟨running_goesOn _ _, rfl, ⟨rfl, rfl, rfl⟩, ⟨rfl, rfl⟩, rfl⟩, held_wf.1, held_wf.2.1, by decide⟩

theorem witness_PageSelectEnds :
    let fs : List Frame := [.smbus .none, .setPage 0 2#8]
    (let s : State := { parked .unwind fs 2 up with mem := [] }
     XferEnds s (step s) { s with sched := [] } .platform fs ⟨some .platform, 2, []⟩ ⟨.ok, 0#32, .ok⟩ 0 ∧
     s.devs[0]? = some ⟨0x20#16, none, []⟩) ∧
    (let s : State := { aborted (parked .unwind fs 2 up) with mem := [] }
     XferEnds s (step s) { s with sched := [] } .platform fs ⟨some .platform, 2, []⟩
       ⟨.abortedTransfer, 1#32, .ok⟩ 0 ∧ s.devs[0]? = some ⟨0x20#16, none, []⟩) :=
  ⟨⟨(ends_both _ _ _).1, rfl⟩, ⟨(ends_both _ _ _).2, rfl⟩⟩

theorem witness_BlockAccessSelectsPage :
    (∀ n ∈ [0#16, 1#16, 32#16, 33#16], ∀ p ∈ [some 1#8, some 2#8, none],
      MayBegin (paged p (rmiOps 0x1FF#16 n)) ∧
      (paged p (rmiOps 0x1FF#16 n)).devs[(rmiOps 0x1FF#16 n).dev]? = some ⟨0x7F#16, p, []⟩) ∧
    (0x7F#16).toNat < 128 ∧ some 1#8 = some ((0x1FF#16).extractLsb' 8 8) ∧
    some 2#8 ≠ some ((0x1FF#16).extractLsb' 8 8) ∧
    (rmiOps 0x1FF#16 32#16).len.toNat ≤ (rmiOps 0x1FF#16 32#16).bufCap.toNat :=
  ⟨fun _ _ _ _ => ⟨paged_mayBegin _ _, rfl⟩, by decide, by decide, by decide, by decide⟩

/-- The block accesses at the ends of their length ranges. -/
theorem witness_BlockAccessSelectsPage_goesOn :
    let rd : Block := ⟨0, 0x1FF#16, .read ⟨.user 7, 34#16⟩ 32⟩
    let wr : Block := ⟨0, 0x1FF#16, .write ⟨.user 7, 1#16⟩ 1⟩
    let bs : Block := ⟨0, 0x1FF#16, .bytes [0x80#8]⟩
    (1 ≤ 32 ∧ 32 ≤ 32 ∧ 32 ≤ (34#16).toNat) ∧ (1 ≤ 1 ∧ 1 ≤ (1#16).toNat) ∧
    (1 ≤ [0x80#8].length ∧ [0x80#8].length ≤ 32) ∧
    (∀ b ∈ [rd, wr, bs], up.devs[b.dev]? = some ⟨0x20#16, none, []⟩ ∧
      none ≠ some (b.addr.extractLsb' 8 8) ∧ some 1#8 = some (b.addr.extractLsb' 8 8)) := by
  refine ⟨by decide, by decide, by decide, fun b hb => ?_⟩
  simp only [List.mem_cons, List.not_mem_nil, or_false] at hb
  rcases hb with rfl | rfl | rfl <;> decide

theorem witness_FailedSelectStopsAccess :
    let blk : Block := ⟨0, 0x212#16, .read ⟨.user 7, 34#16⟩ 1⟩
    ∀ fs ∈ [[], [Frame.f01 0 0xC#16 []], [.probe 0 0xE9 []]],
      let st : List Frame := .smbus .none :: .setPage 0 2#8 :: .selected blk :: fs
      (let s : State := { parked .unwind st (fs.length + 3) up with mem := [] }
       XferEnds s (step s) { s with sched := [] } .platform st ⟨some .platform, fs.length + 3, []⟩
         ⟨.ok, 0#32, .ok⟩ 0 ∧ s.devs[0]? = some ⟨0x20#16, none, []⟩) ∧
      (let s : State := { aborted (parked .unwind st (fs.length + 3) up) with mem := [] }
       XferEnds s (step s) { s with sched := [] } .platform st ⟨some .platform, fs.length + 3, []⟩
         ⟨.abortedTransfer, 1#32, .ok⟩ 0 ∧ s.devs[0]? = some ⟨0x20#16, none, []⟩) :=
  fun _ _ => ⟨⟨(ends_both _ _ _).1, rfl⟩, ⟨(ends_both _ _ _).2, rfl⟩⟩

theorem witness_BlockAccessEnds :
    ∀ e ∈ [([Frame.block], 2), ([.block, .f01 0 0xC#16 []], 3),
        ([.block, .f01 0 0xC#16 [(1#16, [0x80#8])]], 3)],
      (let s : State := { parked .unwind e.1 e.2 up with mem := [] }
       XferEnds s (step s) { s with sched := [] } .platform e.1 ⟨some .platform, e.2, []⟩
         ⟨.ok, 0#32, .ok⟩ 0) ∧
      (let s : State := { aborted (parked .unwind e.1 e.2 up) with mem := [] }
       XferEnds s (step s) { s with sched := [] } .platform e.1 ⟨some .platform, e.2, []⟩
         ⟨.abortedTransfer, 1#32, .ok⟩ 0) :=
  fun _ _ => ends_both _ _ _

theorem witness_ProbeAndInitBegin :
    let f : FnDesc := ⟨1#8, 0xA#16, 0xB#16, 0xC#16, 0xD#16, 1#3, 1#2⟩
    let s := paged (some 0#8) (rmiOps 0#16 0#16)
    let u : State := { s with
      devs := [⟨0x7F#16, some 0#8, [f]⟩]
      par := { Params.sample with f01Init := [(0#16, [0x80#8])] } }
    (MayBegin s ∧ MayBegin (paged none (rmiOps 0#16 0#16)) ∧ MayBegin u) ∧
    s.devs[(rmiOps 0#16 0#16).dev]? = some ⟨0x7F#16, some 0#8, []⟩ ∧ (0x7F#16).toNat < 128 ∧
    (u.devs[(rmiOps 0#16 0#16).dev]? = some ⟨0x7F#16, some 0#8, [f]⟩ ∧
      [f].find? (fun f => f.number == 0x01#8) = some f ∧ s.par.f01Init = [] ∧
      u.par.f01Init = (0#16, [0x80#8]) :: [] ∧ 1 ≤ [0x80#8].length ∧ [0x80#8].length ≤ 32 ∧
      some 0#8 = some ((f.controlBase + 0#16).extractLsb' 8 8) ∧
      some 0#8 ≠ some ((f.controlBase + 0x100#16).extractLsb' 8 8)) :=
  ⟨⟨paged_mayBegin _ _, paged_mayBegin _ _,
      ⟨rfl, rfl, ⟨rfl, rfl, rfl⟩, free_wf [], Or.inl rfl, rfl, rfl⟩⟩, rfl, by decide, rfl, by decide⟩

/-- An init sequence with an entry of 0 and of 33 bytes, at once and going on. -/
theorem witness_ProbeAndInitBegin_badEntry :
    (∀ bs ∈ [[], List.replicate 33 0#8],
      let f : FnDesc := ⟨1#8, 0xA#16, 0xB#16, 0xC#16, 0xD#16, 1#3, 1#2⟩
      let u : State := { paged (some 0#8) (rmiOps 0#16 0#16) with
        devs := [⟨0x7F#16, some 0#8, [f]⟩]
        par := { Params.sample with f01Init := [(0#16, bs)] } }
      u.AtRequest ∧ u.blk.ready = true ∧ u.blk.gate.Wf ∧ u.blk.gate.OpenTo u.cur ∧
      u.devs[(u.agent u.cur).ops.dev]? = some ⟨0x7F#16, some 0#8, [f]⟩ ∧ f.number = 0x01#8 ∧
      u.par.f01Init = (0#16, bs) :: [] ∧ (bs.length = 0 ∨ 32 < bs.length)) ∧
    (∀ todo : List (Half × List Byte),
      GoesOn .platform (.f01 0 0xC#16 todo) (parked (.go (.f01 0 0xC#16 todo)) [] 1 up)
        { parked (.go (.f01 0 0xC#16 todo)) [] 1 up with sched := [] } held ∧
      ((parked (.go (.f01 0 0xC#16 todo)) [] 1 up).agent .platform).stack = []) := by
  refine ⟨fun bs hb => ⟨rfl, rfl, free_wf [], .inl rfl, rfl, rfl, rfl, ?_⟩, fun _ => ⟨go_goesOn _ _, rfl⟩⟩
  simp only [List.mem_cons, List.not_mem_nil, or_false] at hb
  rcases hb with rfl | rfl <;> decide

/-- The scan's entry buffer with a function number. -/
def entry (n : Byte) (s : State) : State :=
  { s with mem := Memory.writeAll s.mem (bufAddr (.pdt .platform) 0) [1#8, 2#8, 3#8, 4#8, 0x21#8, n] }

theorem witness_ProbeTakesEntry :
    (∀ pos ∈ [0xE9, 0x0B, 0x0A, 0x05], ∀ n ∈ [0x00#8, 0x01#8, 0xFF#8],
      let fs : List Frame := [.block, .probe 0 pos []]
      (let s : State := { parked .unwind fs 3 up with mem := (entry n up).mem }
       XferEnds s (step s) { s with sched := [] } .platform fs ⟨some .platform, 3, []⟩
         ⟨.ok, 0#32, .ok⟩ 0 ∧ s.devs[0]? = some ⟨0x20#16, none, []⟩) ∧
      (let s : State := { aborted (parked .unwind fs 3 up) with mem := (entry n up).mem }
       XferEnds s (step s) { s with sched := [] } .platform fs ⟨some .platform, 3, []⟩
         ⟨.abortedTransfer, 1#32, .ok⟩ 0 ∧ s.devs[0]? = some ⟨0x20#16, none, []⟩)) ∧
    (entry 0xFF#8 up).mem.read (bufAddr (.pdt .platform) 5) = 0xFF#8 :=
  ⟨fun _ _ _ _ => ⟨⟨(ends_both _ _ _).1, rfl⟩, ⟨(ends_both _ _ _).2, rfl⟩⟩, by decide⟩

theorem witness_StartSteps :
    let o : Operands := { Operands.empty with provider := provider }
    let s := ask o State.reset
    (Asks (ask o up) ∧ up.blk.mapped = true) ∧
    (Asks s ∧ s.blk.mapped = false ∧ s.blk.ready = false ∧ s.blk.powered = true ∧ s.DisableAcked) ∧
    (Operands.empty.provider.window = none ∧ provider.window = some (0, 256) ∧
      provider.timing.bind (timing s.par) = some ⟨513#16, 599#16, 105#16, 191#16, 36#16⟩ ∧
      provider.irq = true ∧ Operands.empty.provider.timing.bind (timing s.par) = none ∧
      ({ provider with irq := false } : Provider).irq = false) :=
  ⟨⟨asks_up _, rfl⟩, ⟨⟨rfl, free_wf [], Or.inl rfl⟩, rfl, rfl, rfl, rfl⟩, by decide⟩

/-- A bus not started yet whose controller does not acknowledge a disable, and whose gate is taken. -/
theorem witness_StartSteps_unacked :
    let s := ask { Operands.empty with provider := provider } State.reset
    let u := enabled [] [] s
    let n : State := { u with par := { Params.sample with disablePollLimit := 0 } }
    let g : State := { s with blk := { s.blk with gate := ⟨some (.caller 0), 1, []⟩ } }
    (Asks u ∧ u.blk.mapped = false ∧ u.blk.ready = false ∧ u.blk.powered = true ∧ ¬ u.DisableAcked ∧
      u.par.disablePollLimit ≠ 0) ∧
    (Asks n ∧ ¬ n.DisableAcked ∧ n.par.disablePollLimit = 0) ∧
    (g.AtRequest ∧ g.blk.mapped = false ∧ g.blk.ready = false ∧ g.blk.powered = true ∧
      g.blk.gate.TakenFrom g.cur) :=
  ⟨⟨⟨rfl, free_wf [], Or.inl rfl⟩, rfl, rfl, rfl, fun h => Bool.noConfusion h, by decide⟩,
    ⟨⟨rfl, free_wf [], Or.inl rfl⟩, fun h => Bool.noConfusion h, rfl⟩,
    rfl, rfl, rfl, rfl, .caller 0, rfl, by decide⟩

/-- A later poll of LIFE_START's disable and of LIFE_STOP's, acknowledged or not, at the ends of its
range. -/
theorem witness_lifecycle_polls :
    (∀ k ∈ [1, 99, 100], ∀ irq ∈ [true, false],
      let c : Cont := .disable k (.configure (.start { provider with irq := irq }))
      let s := parked (.sleep c) [] 1 up
      let t : State := { s with ctl := { s.ctl with icEn := true } }
      GoesOn .platform c s { s with sched := [] } held ∧ GoesOn .platform c t { t with sched := [] } held ∧
      (s.agent .platform).stack = [] ∧ s.ctl.enable = false ∧ t.ctl.enable = false ∧
      (ctlTurn s).ctl.icEn = false ∧ (ctlTurn t).ctl.icEn = true) ∧
    (∀ k ∈ [1, 99, 100],
      let c : Cont := .disable k .stop
      let s := parked (.sleep c) [] 1 up
      let t := enabled [] [] s
      GoesOn .platform c s { s with sched := [] } held ∧ GoesOn .platform c t { t with sched := [] } held ∧
      (s.agent .platform).stack = [] ∧ (ctlTurn s).ctl.icEn = false ∧ (ctlTurn t).ctl.icEn = true) ∧
    99 < up.par.disablePollLimit ∧ up.par.disablePollLimit ≤ 100 ∧ held.owner = some .platform ∧
    held.depth = 1 :=
  ⟨fun _ _ _ _ => ⟨sleep_goesOn _ _, .resumed [] ⟨regMap_ok, rfl, rfl, rfl⟩ (.inl rfl), rfl, rfl, rfl,
      rfl, rfl⟩,
    fun _ _ => ⟨sleep_goesOn _ _, .resumed [] ⟨regMap_ok, rfl, rfl, rfl⟩ (.inl rfl), rfl, rfl, rfl⟩,
    by decide, by decide, rfl, rfl⟩

theorem witness_StopSteps :
    let off : State := { ask .empty up with blk := { up.blk with powered := false } }
    (State.reset.AtRequest ∧ State.reset.blk.mapped = false) ∧
    ((shut .empty).AtRequest ∧ (shut .empty).blk.mapped = true ∧
      (shut .empty).blk.gate.TakenFrom (shut .empty).cur) ∧
    (Asks off ∧ off.blk.mapped = true ∧ off.blk.powered = false) ∧
    (Asks (ask .empty up) ∧ up.blk.powered = true ∧ (writeMask 0#32 (ask .empty up)).DisableAcked) ∧
    (Asks (stuck .empty) ∧ ¬ (writeMask 0#32 (stuck .empty)).DisableAcked ∧
      (stuck .empty).par.disablePollLimit ≠ 0) ∧
    (Asks (stuckNow .empty) ∧ ¬ (writeMask 0#32 (stuckNow .empty)).DisableAcked ∧
      (stuckNow .empty).par.disablePollLimit = 0) :=
  ⟨⟨rfl, rfl⟩, ⟨rfl, rfl, .caller 0, rfl, by decide⟩, ⟨⟨rfl, free_wf [], Or.inl rfl⟩, rfl, rfl⟩,
    ⟨asks_up _, rfl, rfl⟩, ⟨(stuck_asks _).1, fun h => Bool.noConfusion h, by decide⟩,
    ⟨(stuck_asks _).2, fun h => Bool.noConfusion h, rfl⟩⟩

/-- A state with a transfer in flight and a list of one: the invariants hold and a step goes on. -/
theorem flying_cursors : (flying [rMsg 2#16] up).CursorInv := by
  refine ⟨⟨⟨rfl, rfl⟩, by decide, by decide, by decide, by decide, ?_, ?_⟩, ?_⟩
  · intro j hj
    obtain rfl : j = 0 := Nat.lt_one_iff.mp hj
    decide
  · decide
  · intro e he
    simp only [flying, List.mem_singleton] at he
    subst he
    trivial

theorem witness_StepKeepsMemory :
    (buf7 [1#8] up).MemWf ∧ see (fun _ => ()) (step { buf7 [1#8] up with
      sched := [.store (.caller 0) 7 0 0#8] }) = some () :=
  ⟨⟨by decide, fun d hd => absurd hd List.not_mem_nil⟩, by decide⟩

theorem witness_StepKeepsCursors :
    (flying [rMsg 2#16] up).CursorInv ∧
    see (fun _ => ()) (step { enabled [] [1#8] (flying [rMsg 2#16] up) with handler := some 4#32 }) =
      some () :=
  ⟨flying_cursors, by decide⟩

/-- A handler run of a transfer in flight. -/
theorem flying_control :
    State.Control { flying [wMsg 1#16] up with handler := some 0x40#32 } := by
  have other : ∀ a, a ≠ Agent.platform →
      State.agent { flying [wMsg 1#16] up with handler := some 0x40#32 } a = Caller.idle := by
    intro a ha
    show lookupAgent [(Agent.platform, _)] a = Caller.idle
    simp [lookupAgent, ha]
  refine ⟨⟨nofun, nofun⟩, fun a => ?_, fun a ha => ?_, nofun, fun a => ?_, fun a => ?_, fun a => ?_,
    fun _ => ⟨rfl, rfl⟩, nofun⟩
  · by_cases h : a = .platform
    · subst h; rfl
    · rw [other a h, if_neg (fun e => h (by cases e; rfl))]; rfl
  · obtain rfl : Agent.platform = a := Option.some.inj ha
    exact ⟨rfl, nofun, rfl⟩
  · by_cases h : a = .platform
    · subst h; trivial
    · rw [other a h]; trivial
  · by_cases h : a = .platform
    · subst h; exact ⟨fun _ => rfl, fun _ => rfl⟩
    · rw [other a h]; exact ⟨nofun, nofun⟩
  · by_cases h : a = .platform
    · subst h; exact nofun
    · rw [other a h]; exact fun _ => ⟨rfl, rfl⟩

theorem witness_StepKeepsGate_control :
    State.Control { flying [wMsg 1#16] up with handler := some 0x40#32 } ∧
    see (fun t => (t.blk.xphase, t.blk.completion))
      (step { flying [wMsg 1#16] up with handler := some 0x40#32 }) = some (.transferActive, true) :=
  ⟨flying_control, by decide⟩

theorem witness_StepKeepsGate :
    (parked .unwind [] 1 up).blk.gate.Wf ∧ see (fun _ => ()) (step (parked .unwind [] 1 up)) = some () :=
  ⟨⟨nofun, nofun⟩, by decide⟩

theorem witness_ResetInvariants : Ctl.created.targets = [] := rfl

theorem witness_MaskValues :
    see (fun t => t.ctl.intrMask) (step { up with
      blk := { up.blk with powered := false },
      sched := [.powerLoss { Ctl.created with intrMask := 1#32 }] }) = some 0x254#32 ∧
    see (fun t => t.ctl.intrMask) (step { up with
      attached := false, sched := [.attach { Ctl.created with intrMask := 1#32 }] }) = some 1#32 ∧
    see (fun t => t.ctl.intrMask) (step { up with handler := some 0x40#32 }) = some 0#32 := by decide

theorem witness_WhoWritesConstants :
    (ask { Operands.empty with provider := provider } State.reset).AtRequest ∧
    see (fun t => t.blk.ready) (exec .lifeStart
      (ask { Operands.empty with provider := provider } State.reset)) = some true :=
  ⟨rfl, by decide⟩

/-- A step that is no creation of S, no beginning of a lifecycle request and no poll of a start. -/
theorem witness_WhoWritesConstants_step :
    let s := parked .unwind [] 1 up
    see (fun _ => ()) (step s) = some () ∧ (∀ draw ms, ¬ NextMove (.attach draw) ms s) ∧
    (∀ a w ops ms, ¬ NextMove (.request a w ops) ms s) ∧
    (∀ c, (s.agent .platform).point ≠ .sleep c ∧ (s.agent .platform).point ≠ .go c) :=
  ⟨by decide, fun _ _ h => (by cases h.sched), fun _ _ _ _ h => (by cases h.sched),
    fun _ => ⟨nofun, nofun⟩⟩

theorem witness_CompletionBySignal :
    (flying [wMsg 1#16] up).AtRequest ∧ (flying [wMsg 1#16] up).blk.completion = false ∧
    see (fun t => t.blk.completion) (exec .irqTxAbrt { flying [wMsg 1#16] up with
      handler := some 0x40#32 }) = some true :=
  ⟨rfl, rfl, by decide⟩

theorem witness_CompletionBySignal_step :
    State.Control { flying [wMsg 1#16] up with handler := some 0x40#32 } ∧
    (flying [wMsg 1#16] up).blk.completion = false ∧
    see (fun t => t.blk.completion) (step { flying [wMsg 1#16] up with handler := some 0x40#32 }) =
      some true ∧
    see (fun t => (t.blk.completion, t.blk.xphase)) (exec .xfer (ask (wOps 1#16)
      { up with blk := { up.blk with completion := true } })) = some (false, .transferActive) :=
  ⟨flying_control, rfl, by decide, by decide⟩

theorem witness_BranchesNeverFault : (flying [rMsg 2#16] up).CursorInv := flying_cursors

end Sys2Proof.Tests
end

section
/-!
SUPPORT. A step executes the instruction its word decodes to: one rule per kind of word.
-/

namespace Sys2Proof.Machine

variable {s : State} {ms : List Move} {w : Word} {i : Instr}

/-- A next move that brings an instruction to hand is a step that executes it. -/
theorem step_move_instr {m : Move} {u : State} (h : NextMove m ms s)
    (ht : takeMove m { s with sched := ms } = .instr i u) : step s = exec i u := by
  rw [step_move h, ht]

/-- A legal request word is executed with its operands in its requester's record (30_encoding.md
R147). -/
theorem step_request {a : Agent} {ops : Operands} (h : NextMove (.request a w ops) ms s)
    (ha : s.attached = true) (hk : a.known s.par = true) (hr : (s.agent a).req = none)
    (hd : decodeReq a.port w = .ok i) :
    step s = exec i (submitted a i ops { s with sched := ms }) :=
  step_move_instr h (submit_ok (s := { s with sched := ms }) ha hk hr hd)

/-- An event word is executed where it is delivered (30_encoding.md R156). -/
theorem step_event (h : NextMove (.event w) ms s) (hd : decodeEvt w = .ok i) :
    step s = exec i { s with sched := ms } :=
  step_move_instr h (by simp only [takeMove, hd])

/-- Ctl takes a word off the TX FIFO while it is enabled, no abort is latched and the answer is a named
one (60_exceptions.md R430, R434). -/
theorem Ctl.mayTake_of_head {ans : Answer} {c : Ctl} {ws : List Word} (hf : c.txFifo = w :: ws)
    (he : c.icEn = true) (hl : c.latched.getLsbD 6 = false) (hn : ans.named = true) :
    Ctl.mayTake ans c = true := by
  simp only [Ctl.mayTake, he, hl, hf, hn]
  rfl

/-- The command word at the head of the TX FIFO, once off it, is the instruction executed (60_exceptions.md
R431). -/
theorem takeWord_ok {ans : Answer} {ws : List Word} (hf : s.ctl.txFifo = w :: ws)
    (ht : Ctl.mayTake ans s.ctl = true) (hd : decodeCmd w = .ok i) :
    takeWord ans s = .instr i { s with ctl := { s.ctl with txFifo := ws, answer := ans } } := by
  simp [takeWord, ht, hf, hd, Ctl.popTx]

/-- A command word Ctl may take is executed with the word off the TX FIFO and its answer at hand. -/
theorem step_command {ans : Answer} {ws : List Word} (h : NextMove (.ctl (.take ans)) ms s)
    (hf : s.ctl.txFifo = w :: ws) (ht : Ctl.mayTake ans s.ctl = true) (hd : decodeCmd w = .ok i) :
    step s = exec i { s with
      sched := ms, ctl := { s.ctl with txFifo := ws, answer := ans } } :=
  step_move_instr h (takeWord_ok (s := { s with sched := ms }) hf ht hd)

/-- Settles O5: one rule per kind of word, `step_request`, `step_event`, `step_branch` and
`step_command`. -/
theorem stepRunsDecoded : Obligations.StepRunsDecoded := by
  intro s
  refine ⟨?request, ?event, ?branch, ?command⟩
  case request => exact fun _ _ _ _ _ h ha hk hr hd => (step_request h ha hk hr hd :)
  case event => exact fun _ _ _ h hd => (step_event h hd :)
  case branch => exact fun _ _ hm hs hd => step_branch hm hs hd
  case command =>
    intro ans w ws ms i h hf he hl hn hd
    exact (step_command h hf (Ctl.mayTake_of_head hf he hl hn) hd :)

end Sys2Proof.Machine
end

section
/-!
SUPPORT. The cursor invariant (10_state.md R34, 42_interrupt_fifo.md R304) is one of the primitive updates that
every step is made of: each change of the bus record keeps the cursors within the list, and each change of a
requester's record keeps the list it carries one that XFER step 1 accepts.
-/

namespace Sys2Proof.Machine

variable {P : Prop} {b c : Bus} {s t : State} {a : Agent}

/-- The cursor invariant speaks of the list, the lengths and the cursors alone. -/
theorem Bus.CursorsOk.congr (h : b.CursorsOk)
    (list : c.msgs = b.msgs ∧ c.msgsNum = b.msgsNum ∧ c.lens = b.lens ∧ c.recvPending = b.recvPending)
    (tx : c.msgWriteIdx = b.msgWriteIdx ∧ c.txOff = b.txOff)
    (rx : c.msgReadIdx = b.msgReadIdx ∧ c.rxOff = b.rxOff) : c.CursorsOk := by
  obtain ⟨hm, hn, hl, hp⟩ := list
  obtain ⟨hw, ht⟩ := tx
  obtain ⟨hr, hx⟩ := rx
  constructor <;> simp only [hm, hn, hl, hp, hw, ht, hr, hx]
  exacts [h.num, h.wIdx, h.rIdx, h.txOff, h.rxOff, h.lens, h.pending]

/-- A message XFER step 1 accepts has a byte at least, fits its buffer, and has one byte if its length is
to be received (41_transfer_engine.md R242). -/
theorem Msg.len_of_valid {first m : Msg} (h : Msg.valid first m = true) :
    1 ≤ m.len.toNat ∧ m.len.toNat ≤ m.buf.cap.toNat ∧ (m.recvLen = true → m.len.toNat = 1) := by
  simp only [Msg.valid, Bool.and_eq_true, bne_iff_ne, decide_eq_true_eq, Bool.or_eq_true, Bool.not_eq_true',
    beq_iff_eq] at h
  obtain ⟨⟨⟨-, hne⟩, hcap⟩, hrecv⟩ := h
  refine ⟨?_, hcap, fun e => ?_⟩
  · have : m.len.toNat ≠ 0 := fun e => hne (BitVec.eq_of_toNat_eq e)
    omega
  · rcases hrecv with hrecv | ⟨⟨-, hone⟩, -⟩
    · simp [hrecv] at e
    · rw [hone]; rfl

/-- Every message of an accepted list is so. -/
theorem Msg.len_of_msgsValid {msgs : List Msg} (h : msgsValid msgs = true) {i : Nat} (hi : i < msgs.length) :
    1 ≤ (msgAt msgs i).len.toNat ∧ (msgAt msgs i).len.toNat ≤ (msgAt msgs i).buf.cap.toNat ∧
      ((msgAt msgs i).recvLen = true → (msgAt msgs i).len.toNat = 1) := by
  simp only [msgsValid, Bool.and_eq_true, List.all_eq_true] at h
  have hm : msgAt msgs i ∈ msgs := by rw [msgAt, List.getD_eq_getElem _ _ hi]; exact List.getElem_mem hi
  exact Msg.len_of_valid (h.1 _ hm)

/-- The length of a message at the beginning of its transfer is its `len` (41_transfer_engine.md R245). -/
theorem lens_getD {msgs : List Msg} {i : Nat} (hi : i < msgs.length) :
    (msgs.map (·.len.toNat)).getD i 0 = (msgAt msgs i).len.toNat := by
  simp [msgAt, hi]

/-- `xfer_init` of an accepted list puts the cursors at its start. -/
theorem Bus.cursorsOk_of_begin (hv : msgsValid c.msgs = true) (hn : c.msgsNum = c.msgs.length)
    (hl : c.lens = c.msgs.map (·.len.toNat)) (tx : c.msgWriteIdx = 0 ∧ c.txOff = 0)
    (rx : c.msgReadIdx = 0 ∧ c.rxOff = 0) : c.CursorsOk := by
  have at_ : ∀ i < c.msgsNum, c.lens.getD i 0 = (msgAt c.msgs i).len.toNat :=
    fun i hi => hl ▸ lens_getD (hn ▸ hi)
  have ok : ∀ i < c.msgsNum, _ := fun i hi => Msg.len_of_msgsValid hv (i := i) (hn ▸ hi)
  refine ⟨⟨hn, by simp [hl]⟩, by simp [tx.1], by simp [rx.1], fun _ => by simp [tx.2], fun hi => ?_,
    fun i hi => ?_, fun _ i hi hr => ?_⟩
  · rw [rx.2, at_ _ hi]; exact (ok _ hi).1
  · rw [at_ i hi]; exact ⟨(ok i hi).1, (ok i hi).2.1⟩
  · rw [at_ i hi]; exact (ok i hi).2.2 hr

/-- With no message the cursors are at the end of the list (41_transfer_engine.md R256). -/
theorem Bus.cursorsOk_of_clear (hl : c.msgs = [] ∧ c.msgsNum = 0 ∧ c.lens = [])
    (hw : c.msgWriteIdx = 0) (hr : c.msgReadIdx = 0) : c.CursorsOk := by
  obtain ⟨hm, hn, hl⟩ := hl
  constructor <;> simp [hm, hn, hl, hw, hr]

/-- The read cursor skips to no place past the end of the list. -/
theorem skipWrites_le {msgs : List Msg} {i : Nat} (h : i ≤ msgs.length) : skipWrites msgs i ≤ msgs.length := by
  have := (List.takeWhile_prefix (fun m : Msg => !m.rd) (l := msgs.drop i)).length_le
  rw [List.length_drop] at this
  unfold skipWrites
  omega

/-- The read cursor skips write messages within the list (42_interrupt_fifo.md R300). -/
theorem Bus.CursorsOk.skip (h : b.CursorsOk) : (skipAtCursor b).CursorsOk := by
  unfold skipAtCursor
  simp only []
  split
  · exact h
  · refine ⟨h.num, h.wIdx, ?_, h.txOff, fun hi => (h.lens _ hi).1, h.lens, h.pending⟩
    show skipWrites b.msgs b.msgReadIdx ≤ b.msgsNum
    exact h.num.1 ▸ skipWrites_le (h.num.1 ▸ h.rIdx)

/-- The accepted length byte stands within the message's buffer (42_interrupt_fifo.md R302). -/
theorem recvLenOk_cap {m : Msg} {l : Byte} (h : recvLenOk m l = true) :
    1 ≤ l.toNat ∧ 1 + l.toNat ≤ m.buf.cap.toNat := by
  simp only [recvLenOk, decide_eq_true_eq] at h
  exact ⟨h.1, h.2.2⟩

/-- An accepted length byte lengthens its message from one byte (42_interrupt_fifo.md R302): no cursor is
past the new length. -/
theorem Bus.CursorsOk.length (h : b.CursorsOk) {l : Byte} (hp : b.recvPending = true)
    (hr : (msgAt b.msgs b.msgReadIdx).recvLen = true)
    (hl : recvLenOk (msgAt b.msgs b.msgReadIdx) l = true) :
    Bus.CursorsOk { b with
      rxOff := 1, lens := b.lens.set b.msgReadIdx (1 + l.toNat), recvPending := false,
      holdForLen := false } := by
  obtain ⟨l1, lcap⟩ := recvLenOk_cap hl
  have inList : ∀ {i}, i < b.msgsNum → i < b.lens.length := fun hi => by rw [h.num.2, ← h.num.1]; exact hi
  have self : b.msgReadIdx < b.msgsNum →
      (b.lens.set b.msgReadIdx (1 + l.toNat)).getD b.msgReadIdx 0 = 1 + l.toNat := fun hi => by
    simp [List.getD_eq_getElem?_getD, inList hi]
  have other : ∀ i, i ≠ b.msgReadIdx →
      (b.lens.set b.msgReadIdx (1 + l.toNat)).getD i 0 = b.lens.getD i 0 := fun i hi => by
    simp [List.getD_eq_getElem?_getD, List.getElem?_set_ne (Ne.symm hi)]
  refine ⟨⟨h.num.1, by simpa using h.num.2⟩, h.wIdx, h.rIdx, fun hi => ?tx, fun hi => ?rx, fun i hi => ?lens, nofun⟩
  case tx =>
    show b.txOff ≤ (b.lens.set b.msgReadIdx (1 + l.toNat)).getD b.msgWriteIdx 0
    have := h.txOff hi
    by_cases e : b.msgWriteIdx = b.msgReadIdx
    · have one := h.pending hp b.msgReadIdx (e ▸ hi) hr
      rw [e] at this hi ⊢
      rw [self hi]
      omega
    · rwa [other _ e]
  case rx =>
    show 1 < (b.lens.set b.msgReadIdx (1 + l.toNat)).getD b.msgReadIdx 0
    rw [self hi]
    omega
  case lens =>
    show 1 ≤ (b.lens.set b.msgReadIdx (1 + l.toNat)).getD i 0 ∧
      (b.lens.set b.msgReadIdx (1 + l.toNat)).getD i 0 ≤ (msgAt b.msgs i).buf.cap.toNat
    by_cases e : i = b.msgReadIdx
    · subst e
      rw [self hi]
      exact ⟨by omega, lcap⟩
    · rw [other i e]
      exact h.lens i hi

/-- Every change of the bus record keeps the cursors within the list (10_state.md R34). -/
theorem BlkStep.cursorsOk (k : BlkStep P b c) (hP : P) (h : b.CursorsOk) : c.CursorsOk := by
  cases k with
  | other _ k => exact h.congr k.list k.tx k.rx
  | begin _ hv hl tx rx _ => exact Bus.cursorsOk_of_begin (hv hP).1 (hv hP).2 hl tx rx
  | clear _ hl tx rx _ => exact Bus.cursorsOk_of_clear hl tx.1 rx.1
  | issue n hlt => exact ⟨h.num, h.wIdx, h.rIdx, fun _ => hlt, h.rxOff, h.lens, h.pending⟩
  | next hne =>
    have := h.wIdx
    exact ⟨h.num, by show b.msgWriteIdx + 1 ≤ b.msgsNum; omega, h.rIdx, fun _ => Nat.zero_le _, h.rxOff,
      h.lens, h.pending⟩
  | skip => exact h.skip
  | store hne =>
    refine ⟨h.num, h.wIdx, h.rIdx, h.txOff, fun hi => ?_, h.lens, h.pending⟩
    have := h.rxOff hi
    show b.rxOff + 1 < b.lens.getD b.msgReadIdx 0
    omega
  | pass hne =>
    have := h.rIdx
    exact ⟨h.num, h.wIdx, by show b.msgReadIdx + 1 ≤ b.msgsNum; omega, h.txOff, fun hi => (h.lens _ hi).1,
      h.lens, h.pending⟩
  | length l hp hr hl => exact h.length hp hr hl

/-- A record in the list after an update is one that was there, or the new one. -/
theorem mem_updateAgent {l : List (Agent × Caller)} {d : Caller} {e : Agent × Caller}
    (h : e ∈ updateAgent l a d) : e ∈ l ∨ e.2 = d := by
  induction l with
  | nil =>
    simp only [updateAgent, List.mem_singleton] at h
    exact .inr (h ▸ rfl)
  | cons x l ih =>
    obtain ⟨y, f⟩ := x
    simp only [updateAgent] at h
    split at h <;> rcases List.mem_cons.mp h with rfl | h
    · exact .inr rfl
    · exact .inl (List.mem_cons_of_mem _ h)
    · exact .inl List.mem_cons_self
    · exact (ih h).imp (List.mem_cons_of_mem _) id

/-- The requesters' places are checked wherever the cursor invariant holds. -/
theorem State.CursorInv.pointsChecked (h : s.CursorInv) : s.PointsChecked := lookupAgent_checked h.2

/-- Every primitive update keeps the cursor invariant. -/
theorem Prim.cursorInv (p : Prim P s t) (hP : P) (h : s.CursorInv) : t.CursorInv := by
  cases p with
  | read r => simpa only [State.CursorInv, regRead_blk, regRead_agents] using h
  | write r v _ => simpa only [State.CursorInv, regWrite_blk, regWrite_agents] using h
  | gate g _ => exact ⟨h.1.congr ⟨rfl, rfl, rfl, rfl⟩ ⟨rfl, rfl⟩ ⟨rfl, rfl⟩, h.2⟩
  | blk b k => exact ⟨k.cursorsOk hP h.1, h.2⟩
  | caller a d hd =>
    refine ⟨h.1, fun e he => ?_⟩
    rcases mem_updateAgent he with he | he
    · exact h.2 e he
    · exact he ▸ hd hP (h.pointsChecked a)
  | store | devs | book | ctl | pop | sendByte | readByte | target | lose => exact h

/-- A sequence of them. -/
theorem Reach.cursorInv (k : Reach P s t) (hP : P) (h : s.CursorInv) : t.CursorInv := by
  induction k with
  | refl => exact h
  | tail _ p ih => exact p.cursorInv hP ih

/-- At its creation S holds no message list (10_state.md R80). -/
theorem Bus.created_cursorsOk (p : Params) : (Bus.created p).CursorsOk :=
  Bus.cursorsOk_of_clear ⟨rfl, rfl, rfl⟩ rfl rfl

/-- The creation of S keeps the cursor invariant: no requester is at a transfer. -/
theorem attachBus_cursorInv (draw : Ctl) (h : s.CursorInv) : (attachBus draw s).CursorInv := by
  unfold attachBus
  split
  · exact h
  · exact ⟨Bus.created_cursorsOk s.par, fun _ he => absurd he List.not_mem_nil⟩

/-- Settles O54: by `step_reach` a step is primitive updates, each of which keeps the invariant, or the
creation of S. -/
theorem stepKeepsCursors : Obligations.StepKeepsCursors := by
  intro s t h e
  rcases step_reach (P := True) s t (fun _ => h.pointsChecked) e with k | ⟨-, -, draw, ms, -, rfl⟩
  · exact k.cursorInv trivial h
  · exact attachBus_cursorInv draw h

end Sys2Proof.Machine
end

section
/-!
SUPPORT. The controller's registers and FIFOs as the rules of 10_state.md name them, and what an RMI_* request
that fails fast leaves.
-/

namespace Sys2Proof.Machine

variable {p : Params} {s : State} {c : Ctl}

/-! ### Registers -/

/-- Settles O9: `regWrite_ctl` gives the controller as the write leaves it after Ctl's turn. -/
theorem writesWhileEnabled : Obligations.WritesWhileEnabled := by
  intro s v
  have low : ∀ n ≤ 32, v.setWidth n = v.extractLsb' 0 n := fun n hn => BitVec.setWidth_eq_extractLsb' hn
  simp only [regWrite_ctl, ← low 8 (by decide), ← low 10 (by decide), ← low 16 (by decide)]
  refine ⟨fun h r hr => ?enabled, fun h => ?disabled, rfl, rfl, rfl, ?enable⟩
  case enabled =>
    simp only [List.mem_cons, List.not_mem_nil, or_false] at hr
    rcases hr with rfl | rfl | rfl | rfl | rfl | rfl | rfl <;> exact if_pos h
  case disabled => simp [Ctl.writeReg, h]
  case enable => simp [Ctl.writeReg]

/-! ### Interrupt bits -/

/-- Bits 31:14 of INTR_MASK read 0 (10_state.md R65). -/
theorem readMask_getLsbD (v : Word) (k : Nat) :
    (v &&& 0x00003FFF#32).getLsbD k = (decide (k < 14) && v.getLsbD k) := by
  have h : ∀ j : Fin 32, (0x00003FFF#32).getLsbD j.val = decide (j.val < 14) := by decide
  rw [BitVec.getLsbD_and, Bool.and_comm]
  by_cases hk : k < 32
  · rw [h ⟨k, hk⟩]
  · rw [BitVec.getLsbD_of_ge v _ (by omega)]; simp

/-- The clear registers but CLR_INTR, by the latched bit each clears (10_state.md R71). -/
def clearBitOf : Reg → Option Nat
  | .clrRxUnder => some 0
  | .clrRxOver => some 1
  | .clrTxOver => some 3
  | .clrRdReq => some 5
  | .clrTxAbrt => some 6
  | .clrRxDone => some 7
  | .clrActivity => some 8
  | .clrStopDet => some 9
  | .clrStartDet => some 10
  | .clrGenCall => some 11
  | _ => none

/-- A read of a clear register clears its latched bit and, of CLR_TX_ABRT, the abort source; nothing else
(10_state.md R71). -/
theorem afterRead_clear {r : Reg} {n : Nat} (h : clearBitOf r = some n) (c : Ctl) :
    Ctl.afterRead r c = Ctl.unlatch n { c with abrtSrc := if n = 6 then 0#32 else c.abrtSrc } ∧
      n ≠ 2 ∧ n ≠ 4 := by
  cases r <;> cases h <;> exact ⟨rfl, by decide, by decide⟩

/-- Clearing a latched bit clears it in RAW_INTR_STAT and leaves every other bit (10_state.md R71). -/
theorem raw_unlatch {n : Nat} (h2 : n ≠ 2) (h4 : n ≠ 4) (c : Ctl) (k : Nat) :
    (Ctl.unlatch n c).raw.getLsbD k = if k = n then false else c.raw.getLsbD k := by
  have level : (Ctl.unlatch n c).rxFull = c.rxFull ∧ (Ctl.unlatch n c).txEmpty = c.txEmpty := ⟨rfl, rfl⟩
  simp only [raw_getLsbD, latched_unlatch, level]
  by_cases hk : k = n
  · subst hk; simp [h2, h4]
  · simp [hk]

/-- The interrupt line is the value of INTR_STAT being nonzero (10_state.md R67). -/
theorem line_iff (c : Ctl) : c.line = true ↔ c.raw &&& c.intrMask ≠ 0#32 := bne_iff_ne

/-- Settles O10: the bits by `raw_getLsbD`, the clears by `afterRead_clear`. -/
theorem interruptRegisters : Obligations.InterruptRegisters := by
  refine ⟨fun p c => ⟨rfl, ⟨_, rfl, readMask_getLsbD _⟩, ?_, ?_, fun k h2 h4 hk => ?_, fun k hk => ?_,
    line_iff c⟩, fun s => ⟨⟨?_, ?_, ?_, ?_⟩, fun e he => ?clear, fun r hr v => ?write⟩⟩
  · rw [raw_getLsbD]; rfl
  · rw [raw_getLsbD]; rfl
  · simp [raw_getLsbD, h2, h4, hk]
  · rw [raw_getLsbD, if_neg (by omega), if_neg (by omega)]
    simp [Nat.not_lt.mpr hk]
  · rw [regTouch_ctl]; rfl
  · rw [regTouch_ctl]; rfl
  · rw [regTouch_ctl, raw_getLsbD, raw_getLsbD]; rfl
  · rw [regTouch_ctl, raw_getLsbD, raw_getLsbD]; rfl
  case clear =>
    have hb : clearBitOf e.2 = some e.1 := by
      revert e; decide
    obtain ⟨hr, h2, h4⟩ := afterRead_clear hb (ctlTurn s).ctl
    simp only [regTouch_ctl, hr]
    exact ⟨raw_unlatch h2 h4 _, rfl⟩
  case write =>
    rw [regWrite_ctl]
    simp only [List.mem_cons, List.not_mem_nil, or_false] at hr
    rcases hr with rfl | rfl | rfl | rfl | rfl | rfl | rfl | rfl | rfl | rfl | rfl <;> rfl

/-! ### FIFOs -/

/-- A bus held on an empty TX FIFO is released by no step of Ctl but a disable's, where
EMPTYFIFO_HOLD_MASTER is true: ENABLE = 1 rules the disable out (70_reset_and_hazards.md R476). -/
theorem Ctl.move_holds (m : CtlMove) (hf : c.txFifo = []) (hh : p.holdMaster = true) (he : c.enable = true) :
    (Ctl.move p m c).bus = c.bus := by
  cases m with
  | take ans => simp [Ctl.move, Ctl.mayTake, hf]
  | emptyFifo => simp [Ctl.move, hh]
  | arbLost src => simp [Ctl.move, hf]
  | finishDisable => simp [Ctl.move, he]
  | latch k => simp only [Ctl.move]; split <;> rfl
  | busy | targetReg | targetPage => rfl

/-- A bus transaction is activity (10_state.md R69). -/
theorem Ctl.activity_of_bus (h : c.bus.isSome = true) : c.activity = true := by simp [Ctl.activity, h]

/-- A disable that takes effect releases the bus and empties both FIFOs (60_exceptions.md R436, R439). -/
theorem Ctl.move_finishDisable (hc : c.icEn = true) (he : c.enable = false) :
    (Ctl.move p .finishDisable c).bus = none ∧ (Ctl.move p .finishDisable c).txFifo = [] ∧
      (Ctl.move p .finishDisable c).rxFifo = [] ∧ (Ctl.move p .finishDisable c).icEn = false := by
  have hm : Ctl.move p .finishDisable c =
      { (if c.bus.isSome then Ctl.stop c else c) with txFifo := [], rxFifo := [], icEn := false } := by
    simp [Ctl.move, hc, he]
  refine ⟨?_, by rw [hm], by rw [hm], by rw [hm]⟩
  rw [hm]
  cases hb : c.bus <;> simp [hb, Ctl.stop, Ctl.latch]

/-- Settles O11: an access touches one FIFO at one end, and a step of Ctl feeds them as `Ctl.move_feeds`
says. -/
theorem fifosAtTheController : Obligations.FifosAtTheController := by
  refine ⟨fun p c w => ⟨fun h => if_pos h, fun h => if_neg (Nat.not_lt.mpr h), fun b bs h => ?pop,
    fun h => ?empty⟩, fun p m c => ?move⟩
  case pop => exact ⟨by simp [Ctl.readValue, h], by simp [Ctl.afterRead, h]⟩
  case empty =>
    exact ⟨by simp [Ctl.readValue, h], (if_pos (by rw [h]; rfl) : Ctl.afterRead .dataCmd c = Ctl.latch 0 c)⟩
  case move =>
    have feeds := Ctl.move_feeds p m c
    refine ⟨feeds.tx, feeds.rx, feeds.off, fun hb hf hh he => ?_, fun hc he hm => ?_⟩
    · have hbus := Ctl.move_holds (c := c) m hf hh he
      exact ⟨hbus, List.suffix_nil.mp (hf ▸ feeds.tx), Ctl.activity_of_bus (hbus ▸ hb)⟩
    · exact hm ▸ Ctl.move_finishDisable hc he

/-! ### RMI_* requests that fail fast -/

/-- An address wider than 7 bits has a bit there (44_rmi4.md, introduction). -/
theorem rmi_width {x : Half} (h : 128 ≤ x.toNat) : (x.extractLsb' 7 9 == 0#9) = false := by
  rw [beq_eq_false_iff_ne]
  intro e
  have := congrArg BitVec.toNat e
  simp only [BitVec.extractLsb'_toNat, Nat.shiftRight_eq_div_pow, BitVec.toNat_ofNat] at this
  have := x.isLt
  omega

/-- The checks of an RMI_* request fail where the bus is not ready, the device address is too wide, or there is
no device record (log 15). -/
theorem rmiChecked_false
    (h : s.blk.ready = false ∨ (∃ d, s.devs[s.asked.dev]? = some d ∧ 128 ≤ d.addr.toNat) ∨
      s.devs[s.asked.dev]? = none) : rmiChecked s.devOf s = false := by
  have dev : s.dev s.devOf = s.devs[s.asked.dev]? := rfl
  rcases h with h | ⟨d, hd, hw⟩ | h
  · simp [rmiChecked, h]
  · simp [rmiChecked, dev, hd, rmi_width hw]
  · simp [rmiChecked, dev, h]

/-- An RMI_* request whose checks fail returns InvalidArgument. -/
theorem rmiRequest_unchecked (h : rmiChecked s.devOf s = false) (body : State → Flow) :
    rmiRequest body s = ret s.cur (Result.fail .invalidArgument) s := if_pos h

/-- The five RMI_* requests make the checks first (44_rmi4.md, introduction). -/
theorem exec_rmi {i : Instr}
    (h : i ∈ [Instr.rmiSetPage, .rmiReadBlock, .rmiWriteBlock, .rmiProbe, .rmiF01Init]) (s : State) :
    ∃ body, exec i s = rmiRequest body s := by
  simp only [List.mem_cons, List.not_mem_nil, or_false] at h
  rcases h with rfl | rfl | rfl | rfl | rfl
  case inr.inr.inr.inr =>
    show ∃ body, execRmiF01Init s = rmiRequest body s
    unfold execRmiF01Init
    exact ⟨_, rfl⟩
  all_goals exact ⟨_, rfl⟩

/-- Settles O43: each of the five is an `rmiRequest`, whose checks fail. -/
theorem rmiFailsFast : Obligations.RmiFailsFast := by
  intro s hs h i hi
  obtain ⟨body, hb⟩ := exec_rmi hi s
  exact endsAtOnce_of_ret (hb.trans (rmiRequest_unchecked (rmiChecked_false h) body)) hs

end Sys2Proof.Machine
end

section
/-!
SUPPORT. What the creation of S leaves (10_state.md R80, R81), and the invariants there.
-/

namespace Sys2Proof.Machine

/-- With no requester listed every requester is idle (10_state.md R80). -/
theorem agent_of_nil {s : State} (h : s.agents = []) (a : Agent) : s.agent a = Caller.idle := by
  simp [State.agent, h, lookupAgent]

/-- A state with the gate free, the engine at rest and no requester listed is a controlled one. -/
theorem control_of_rest {s : State} (ha : s.agents = []) (hg : s.blk.gate = ⟨none, 0, []⟩)
    (hx : s.blk.xphase = .idle) (hs : s.blk.status = .idle) (hh : s.handler = none) : s.Control := by
  have idle := agent_of_nil ha
  constructor <;> simp [Gate.Wf, hg, hx, hs, hh, idle, Caller.idle, Caller.holds, Point.holds, Point.Placed]

/-- Settles O8: the fields of `Bus.created`, `Ctl.drawn` and `attachBus`. -/
theorem resetRecord : Obligations.ResetRecord := by
  intro p c
  refine ⟨?engine, ?record, ⟨rfl, rfl, rfl⟩, fun _ => ⟨rfl, rfl, rfl⟩, nofun, rfl, fun s addr ms h => ?device,
    fun s draw ms h hd => ?attach⟩
  case engine => exact ⟨rfl, rfl, rfl, rfl, rfl, rfl, rfl, rfl, rfl, rfl, rfl, rfl, rfl, rfl, rfl, rfl, rfl, rfl⟩
  case record => exact ⟨rfl, rfl, rfl, rfl, rfl, rfl, rfl, rfl, rfl, rfl⟩
  case device => rw [step_move h]; rfl
  case attach =>
    rw [step_move h]
    exact congrArg Host.Outcome.next (if_neg (by simp [hd]))

/-- Settles O56: memory and lists are empty, the gate free and the engine at rest. -/
theorem resetInvariants : Obligations.ResetInvariants := by
  intro p c h
  refine ⟨⟨rfl, ?_⟩, ⟨Bus.created_cursorsOk p, fun _ he => absurd he List.not_mem_nil⟩, ⟨fun _ => rfl, fun _ => rfl⟩,
    control_of_rest rfl rfl rfl rfl rfl⟩
  show ∀ d ∈ c.targets, Memory.wf d.regs = true
  rw [h]
  exact nofun

end Sys2Proof.Machine
end

section
/-!
SUPPORT. What a step is, inverted once: which instruction it executed at which state, or which move it took
(00_scope.md R9, R10).
-/

namespace Sys2Proof.Machine

variable {s t u : State} {i : Instr} {m : Move}

/-! ### What each format decodes to -/

theorem smbusRow_isRequest (size : BitVec 4) (rw : Bool) :
    IsRequest (smbusRow size rw) ∧ IsRequest (gatedRow size rw) := by
  revert size rw
  unfold IsRequest
  decide

/-- A word that decodes on a port is a request (30_encoding.md R140). -/
theorem decodeReq_isRequest {p : Port} {w : Word} (h : decodeReq p w = .ok i) : IsRequest i := by
  unfold decodeReq at h
  split at h
  · cases h
  · split at h
    · split at h <;> cases h
    · next op _ =>
      split at h
      · cases h
      · split at h
        · cases h
        · cases h
          cases op with
          | smbusXfer => exact (smbusRow_isRequest _ _).1
          | smbusXferGated => exact (smbusRow_isRequest _ _).2
          | _ => rfl

/-- An event word is an interrupt or a timeout (30_encoding.md R156). -/
theorem decodeEvt_cases {w : Word} (h : decodeEvt w = .ok i) : i = .evtIrq ∨ i = .evtTimeout := by
  unfold decodeEvt at h
  split at h
  · cases h
  · split at h
    · cases h; exact .inl rfl
    · split at h <;> cases h
      exact .inr rfl

/-- An interrupt status selects one of four branches (30_encoding.md R157). -/
theorem decodeStat_cases {w : Word} (h : decodeStat w = .ok i) :
    i = .irqTxAbrt ∨ i = .irqRxFull ∨ i = .irqTxEmpty ∨ i = .irqStopDet := by
  unfold decodeStat at h
  split at h
  · cases h; exact .inl rfl
  · split at h
    · cases h; exact .inr (.inl rfl)
    · split at h
      · cases h; exact .inr (.inr (.inl rfl))
      · split at h <;> cases h
        exact .inr (.inr (.inr rfl))

/-- A command word is a write or a read (30_encoding.md R160). -/
theorem decodeCmd_cases {w : Word} (h : decodeCmd w = .ok i) :
    (∃ dat stop restart, i = .dcWrite dat stop restart) ∨ ∃ stop restart, i = .dcRead stop restart := by
  unfold decodeCmd at h
  split at h
  · cases h
  · split at h
    · split at h <;> cases h
      exact .inr ⟨_, _, rfl⟩
    · cases h; exact .inl ⟨_, _, _, rfl⟩

/-! ### The step -/

/-- A step from `s` that answers `t`: a handler branch or the end of a handler run, Seq's unfinished activity, or
the schedule's next move, which brings an instruction to hand or is taken itself. -/
inductive StepTo (s t : State) : Prop
  | branch (stat : Word) (i : Instr) (hh : s.handler = some stat) (hd : decodeStat stat = .ok i)
      (he : exec i s = .next t)
  | endRun (stat : Word) (hh : s.handler = some stat) (ht : t = endHandler s)
  | activity (a : Agent) (hm : s.par.regMap.ok s.par.regWindowSize = true) (hh : s.handler = none)
      (hr : s.running = some a) (he : resumeAgent a { s with running := none } = .next t)
  | rest (hh : s.handler = none) (ht : t = s)
  | instr (m : Move) (ms : List Move) (i : Instr) (u : State) (next : NextMove m ms s)
      (hf : takeMove m { s with sched := ms } = .instr i u) (he : exec i u = .next t)
  | move (m : Move) (ms : List Move) (next : NextMove m ms s)
      (he : takeMove m { s with sched := ms } = .move (.next t))

/-- The case analysis of a step by what was at hand. -/
theorem step_inv (h : step s = .next t) : StepTo s t := by
  have hstep := h
  unfold step fetch at h
  by_cases hm : s.par.regMap.ok s.par.regWindowSize = true
  case neg => simp [hm] at h
  simp only [hm, Bool.true_eq_false, if_false] at h
  cases hh : s.handler with
  | some stat =>
    simp only [hh] at h
    cases hd : decodeStat stat with
    | ok i => simp only [hd] at h; exact .branch stat i hh hd h
    | error e => simp only [hd] at h; cases h; exact .endRun stat hh rfl
  | none =>
    simp only [hh] at h
    cases hr : s.running with
    | some a => simp only [hr] at h; exact .activity a hm hh hr (hh ▸ h)
    | none =>
      simp only [hr] at h
      cases hs : s.sched with
      | nil => simp only [hs] at h; cases h; exact .rest hh rfl
      | cons m ms =>
        have next : NextMove m ms s := ⟨hm, hh, hr, hs⟩
        cases hf : takeMove m { s with sched := ms } with
        | instr i u => rw [step_move next, hf] at hstep; exact .instr m ms i u next hf hstep
        | move o => rw [step_move next, hf] at hstep; exact .move m ms next (hf.trans (congrArg _ hstep))

/-- A request is taken from a requester with none, while S exists and the word is legal on its port
(30_encoding.md R147). -/
theorem submit_instr {a : Agent} {w : Word} {ops : Operands} (h : submit a w ops s = .instr i u) :
    s.attached = true ∧ (s.agent a).req = none ∧ decodeReq a.port w = .ok i ∧ u = submitted a i ops s := by
  unfold submit at h
  split at h
  · cases h
  · next ha =>
    split at h
    · cases h
    · next hr =>
      split at h
      · next hd =>
        cases h
        exact ⟨by simpa using not_or.mp ha |>.1, by simpa using hr, hd, rfl⟩
      · cases h

/-- A request word that brings no instruction changes nothing, or is answered as illegal (30_encoding.md R170). -/
theorem submit_move {a : Agent} {w : Word} {ops : Operands} (h : submit a w ops s = .move (.next t)) :
    t = s ∨ ((s.agent a).req = none ∧ t = refuseWord a w s) := by
  unfold submit at h
  split at h
  · cases h; exact .inl rfl
  · split at h
    · cases h
    · next hr =>
      split at h <;> cases h
      exact .inr ⟨by simpa using hr, rfl⟩

/-- Which moves bring an instruction to hand: a request, an event, or a command word at the head of the TX FIFO
(30_encoding.md R140). -/
theorem takeMove_instr (h : takeMove m s = .instr i u) :
    (∃ a w ops, m = .request a w ops ∧ s.attached = true ∧ (s.agent a).req = none ∧
      decodeReq a.port w = .ok i ∧ u = submitted a i ops s) ∨
    (∃ w, m = .event w ∧ decodeEvt w = .ok i ∧ u = s) ∨
    (∃ ans w, m = .ctl (.take ans) ∧ decodeCmd w = .ok i ∧ u = { s with ctl := Ctl.popTx ans s.ctl }) := by
  cases m with
  | request a w ops => exact .inl ⟨a, w, ops, rfl, submit_instr h⟩
  | event w =>
    simp only [takeMove] at h
    split at h <;> cases h
    next hd => exact .inr (.inl ⟨w, rfl, hd, rfl⟩)
  | ctl m =>
    cases m with
    | take ans =>
      simp only [takeMove, takeWord] at h
      split at h
      · split at h <;> cases h
        next hd => exact .inr (.inr ⟨ans, _, rfl, hd, rfl⟩)
      · cases h
    | _ => cases h
  | _ => cases h

end Sys2Proof.Machine
end

section
/-!
SUPPORT. The gate and the control invariant (10_state.md R33, R41, R47) over a step: what each kind of step can do
to what `State.Control` ties together, and that it moves the phase as R41 says.
-/

namespace Sys2Proof.Machine

variable {P : Prop} {s t u : State} {a : Agent} {i : Instr} {m : Move} {b c : Bus}

/-! ### The gate alone -/

theorem GateStep.wf {g h : Gate} (k : GateStep g h) (hg : g.Wf) : h.Wf := by
  obtain ⟨a, k | k | k | rfl⟩ := k
  · exact hg.acquire k
  · exact .release k
  · exact .grant k
  · exact hg.wait a

/-- No change of the other fields of the bus record touches the gate. -/
theorem BlkStep.gate_eq (k : BlkStep P b c) : c.gate = b.gate := by
  cases k with
  | other _ h => exact h.gate
  | begin _ _ _ _ _ h => exact h
  | clear _ _ _ _ h => exact h
  | skip => unfold skipAtCursor; simp only []; split <;> rfl
  | issue | next | store | pass | length => rfl

theorem Prim.gateWf (p : Prim P s t) (h : s.blk.gate.Wf) : t.blk.gate.Wf := by
  cases p with
  | read r => rwa [regRead_blk]
  | write r v _ => rwa [regWrite_blk]
  | gate g k => exact k.wf h
  | blk c k => exact k.gate_eq ▸ h
  | caller | store | devs | book | ctl | pop | sendByte | readByte | target | lose => exact h

/-- Every step keeps the gate free exactly at depth 0 (10_state.md R47). -/
theorem step_gateWf (h : s.blk.gate.Wf) (e : step s = .next t) : t.blk.gate.Wf := by
  rcases step_reach (P := False) s t False.elim e with k | ⟨-, -, draw, ms, -, rfl⟩
  · clear e
    induction k with
    | refl => exact h
    | tail _ p ih => exact p.gateWf ih
  · unfold attachBus
    split
    · exact h
    · exact ⟨fun _ => rfl, fun _ => rfl⟩

/-! ### Changes the control invariant does not see -/

/-- What a step keeps: the control invariant, the phase moved as 10_state.md R41 says. -/
def Advances (s t : State) : Prop := t.Control ∧ PhaseStep s.blk t.blk

/-- The control invariant speaks of the requesters, the gate, the engine's phase and the handler alone. -/
theorem State.Control.congr (h : s.Control) (ha : t.agents = s.agents) (hg : t.blk.gate = s.blk.gate)
    (hx : t.blk.xphase = s.blk.xphase) (hs : t.blk.status = s.blk.status)
    (hc : t.blk.completion = s.blk.completion) (ht : t.blk.timedOut = s.blk.timedOut)
    (hh : t.handler = s.handler) (hd : t.attached = s.attached) : t.Control := by
  have e : ∀ b, t.agent b = s.agent b := fun b => agent_congr ha b
  constructor <;> simp only [e, hg, hx, hs, hc, hh, hd]
  exacts [h.gate, h.holds, fun a ho => (h.owned a ho).congr _ hx hs hc ht, h.free, h.placed, h.waiting, h.atRest,
    h.handler, h.detached]

/-- A change of neither requesters, bus record, handler nor attachment is one. -/
theorem State.Control.advances (h : s.Control) (ha : t.agents = s.agents) (hb : t.blk = s.blk)
    (hh : t.handler = s.handler) (hd : t.attached = s.attached) : Advances s t :=
  ⟨h.congr ha (by rw [hb]) (by rw [hb]) (by rw [hb]) (by rw [hb]) (by rw [hb]) hh hd, .inl (by rw [hb])⟩

/-- What holds of every other requester's record, and of the new one, holds of each. -/
theorem forall_agent_setAgent {Q : Agent → Caller → Prop} {d : Caller} (others : ∀ b, b ≠ a → Q b (s.agent b))
    (self : Q a d) (b : Agent) : Q b ((s.setAgent a d).agent b) := by
  by_cases e : b = a
  · subst e; rwa [agent_setAgent_self]
  · rw [agent_setAgent_ne _ _ _ _ e]; exact others b e

/-- A requester's record may change outside its place. -/
theorem State.Control.setAgent (h : s.Control) (d : Caller) (hp : d.point = (s.agent a).point)
    (hs : d.stack = (s.agent a).stack) (hw : d.waiting = (s.agent a).waiting)
    (hr : d.req = none → (s.agent a).req = none) (hd : s.attached = false → d.req = none) :
    (s.setAgent a d).Control where
  gate := h.gate
  holds := forall_agent_setAgent
    (Q := fun b x => x.holds = if s.blk.gate.owner = some b then s.blk.gate.depth else 0)
    (fun b _ => h.holds b) (by rw [Caller.holds, hp, hs]; exact h.holds a)
  owned := forall_agent_setAgent (Q := fun b x => s.blk.gate.owner = some b → x.point.Engine s.blk)
    (fun b _ => h.owned b) (by rw [hp]; exact h.owned a)
  free := h.free
  placed := forall_agent_setAgent (Q := fun _ x => x.point.Placed) (fun b _ => h.placed b)
    (by rw [hp]; exact h.placed a)
  waiting := forall_agent_setAgent (Q := fun _ x => x.waiting = true ↔ x.point = .await)
    (fun b _ => h.waiting b) (by rw [hp, hw]; exact h.waiting a)
  atRest := forall_agent_setAgent (Q := fun _ x => x.req = none → x.point = .idle ∧ x.stack = [])
    (fun b _ => h.atRest b) (by rw [hp, hs]; exact fun e => h.atRest a (hr e))
  handler := h.handler
  detached := fun hdt => forall_agent_setAgent (Q := fun _ x => x.req = none)
    (fun b _ => h.detached hdt b) (hd hdt)

/-- A requester with no request has not entered the gate (20_memory.md R121). -/
theorem State.Control.not_owner (h : s.Control) (hr : (s.agent a).req = none) : s.blk.gate.owner ≠ some a := by
  intro ho
  obtain ⟨hp, hs⟩ := h.atRest a hr
  have hd := h.holds a
  rw [if_pos ho, Caller.holds, hp, hs] at hd
  have := h.gate.2 hd.symm
  rw [ho] at this
  cases this

/-- A requester with no request waits for nothing. -/
theorem State.Control.awake (h : s.Control) (hr : (s.agent a).req = none) : (s.agent a).waiting = false := by
  by_contra hw
  have := (h.waiting a).1 (by simpa using hw)
  rw [(h.atRest a hr).1] at this
  cases this

/-! ### Requests -/

/-- The end of an activity moves the phase as 10_state.md R41 says. -/
theorem Ended.advances (h : Ended s.blk.xphase s.blk.completion t) : Advances s t := by
  obtain ⟨hc, ⟨hx, -⟩ | ⟨-, from_, to_⟩⟩ := h
  · exact ⟨hc, .inl hx⟩
  · refine ⟨hc, ?_⟩
    unfold PhaseStep
    rcases to_ with e | e | ⟨e, ec⟩ <;> rcases from_ with f | f <;> simp [e, f]
    all_goals simp [ec]

/-- A request is executed from a controlled state with its requester outside the gate. -/
theorem submitted_activity (h : s.Control) (hh : s.handler = none) (ha : s.attached = true)
    (hr : (s.agent a).req = none) (i : Instr) (ops : Operands) :
    Activity a s.blk.xphase s.blk.completion 0 .idle (submitted a i ops s) := by
  obtain ⟨hp, hs⟩ := h.atRest a hr
  have hsub : (s.setAgent a (Caller.submitted i ops)).Control :=
    h.setAgent _ hp.symm hs.symm (h.awake hr).symm nofun fun hd => by rw [ha] at hd; cases hd
  have hc : (submitted a i ops s).Control := hsub.congr rfl rfl rfl rfl rfl rfl rfl rfl
  have self : (submitted a i ops s).agent a = Caller.submitted i ops := agent_setAgent_self _ _ _
  have mid := State.Control.mid (ph := .idle) hc hh ha (by rw [self]; exact nofun) (by rw [self]; exact nofun)
    (fun ho => absurd ho (h.not_owner hr)) (fun _ => rfl)
  rw [self] at mid
  exact mid

/-- A request submitted and executed. -/
theorem request_advances (h : s.Control) (hh : s.handler = none) (ha : s.attached = true)
    (hr : (s.agent a).req = none) {ops : Operands} (hi : IsRequest i)
    (he : exec i (submitted a i ops s) = .next t) : Advances s t := by
  have self : (submitted a i ops s).agent a = Caller.submitted i ops := agent_setAgent_self _ _ _
  obtain ⟨v, hv, hend⟩ := exec_end (s := submitted a i ops s) i hi (submitted_activity h hh ha hr i ops)
    (congrArg Caller.stack self)
  cases hv.symm.trans he
  exact hend.advances

/-- A sleep that ends, a pending unwind, or the next part of a request. -/
theorem resumeAgent_advances (h : s.Control) (hh : s.handler = none) (he : resumeAgent a s = .next t) :
    Advances s t := by
  unfold resumeAgent at he
  split at he
  · next c hp =>
    obtain ⟨v, hv, hend⟩ := runCont_go s c h hh (.inl hp)
    cases hv.symm.trans he
    exact hend.advances
  · next c hp =>
    obtain ⟨v, hv, hend⟩ := runCont_go s c h hh (.inr hp)
    cases hv.symm.trans he
    exact hend.advances
  · next hp =>
    obtain ⟨v, hv, hc, hx, -, hs⟩ := unwind_end s h hh hp
    cases hv.symm.trans he
    exact ⟨hc, .inr (.inr (.inr (.inr (.inr (.inr ⟨hs, hx⟩)))))⟩
  all_goals cases he; exact ⟨h, .inl rfl⟩

/-- The free gate granted to a waiter. -/
theorem grantGate_advances (h : s.Control) (hh : s.handler = none) (he : grantGate a s = .next t) :
    Advances s t := by
  unfold grantGate at he
  split at he
  · next c g hp hg =>
    obtain ⟨v, hv, hend⟩ := runCont_gate s c g h hh hp hg
    cases hv.symm.trans he
    exact hend.advances
  · cases he; exact ⟨h, .inl rfl⟩

/-! ### Handler runs -/

/-- What a branch of a handler run, or its end, leaves: as its operations, but that it may signal completion where
the run is over (42_interrupt_fifo.md R280). -/
structure RunEnds (s t : State) : Prop where
  agents   : t.agents = s.agents
  gate     : t.blk.gate = s.blk.gate
  phase    : t.blk.xphase = s.blk.xphase
  timedOut : t.blk.timedOut = s.blk.timedOut
  attached : t.attached = s.attached
  active   : s.blk.status ≠ .idle → t.blk.status ≠ .idle
  signal   : t.handler ≠ none → t.blk.completion = false

/-- After operations of the run. -/
theorem RunEnds.of (k : RunKeeps s u) (h : RunEnds u t) : RunEnds s t :=
  ⟨h.agents.trans k.agents, h.gate.trans k.gate, h.phase.trans k.phase, h.timedOut.trans k.timedOut,
    h.attached.trans k.attached, fun x => h.active (k.active x), h.signal⟩

/-- The run goes on while completion is not signalled. -/
theorem RunEnds.handler (stat : Option Word) (hc : s.blk.completion = false) : RunEnds s { s with handler := stat } :=
  ⟨rfl, rfl, rfl, rfl, rfl, id, fun _ => hc⟩

/-- Completion signalled right after INTR_MASK is written 0, the run over. -/
theorem RunEnds.signalled (s : State) :
    RunEnds s { signalCompletion (writeMask 0#32 s) with handler := none } := by
  refine ⟨?_, ?_, ?_, ?_, ?_, ?_, fun h => absurd rfl h⟩ <;> simp

theorem endHandler_runEnds (s : State) : RunEnds s (endHandler s) := by
  unfold endHandler
  split
  · exact .signalled s
  · exact ⟨rfl, rfl, rfl, rfl, rfl, id, fun h => absurd rfl h⟩

theorem endBranch_runEnds (k : Nat) (hc : s.blk.completion = false) : RunEnds s (endBranch k s) := by
  unfold endBranch nextBranch
  split
  · exact endHandler_runEnds s
  · exact .handler _ hc

/-- STOP_DET is the last bit that selects a branch (42_interrupt_fifo.md R280). -/
theorem no_branch_after_stopDet {stat : Word} (h : decodeStat stat = .ok .irqStopDet) :
    (stat &&& ~~~(BitVec.twoPow 32 9)) &&& branchBits = 0#32 := by
  unfold decodeStat at h
  split at h
  · cases h
  · next h6 =>
    split at h
    · cases h
    · next h2 =>
      split at h
      · cases h
      · next h4 =>
        have hb : ∀ j : Fin 32, branchBits.getLsbD j.val = true → j.val = 2 ∨ j.val = 4 ∨ j.val = 6 ∨ j.val = 9 := by
          decide
        apply BitVec.eq_of_getLsbD_eq
        intro k hk
        by_cases hkb : branchBits.getLsbD k = true
        · rcases hb ⟨k, hk⟩ hkb with rfl | rfl | rfl | rfl <;> simp_all
        · simp [hkb]

/-- The end of a run at its last branch. -/
theorem endBranch_runEnds_last {stat : Word} (hh : s.handler = some stat)
    (hd : decodeStat stat = .ok .irqStopDet) : RunEnds s (endBranch 9 s) := by
  unfold endBranch nextBranch
  rw [hh, Option.getD_some, if_pos (.inr (no_branch_after_stopDet hd))]
  exact endHandler_runEnds s

theorem stopDetBranch_runKeeps (s : State) : ∃ u, stopDetBranch s = signalCompletion u ∧ RunKeeps s u ∧
    u.handler = s.handler := by
  unfold stopDetBranch
  simp only []
  split
  · refine ⟨_, rfl, ?_, by simp⟩
    constructor <;> simp
  · exact ⟨_, rfl, regWrite_runKeeps _ _ s, by simp⟩

/-- The STOP_DET branch signals completion, and its run is over. -/
theorem stopDet_runEnds {stat : Word} (hh : s.handler = some stat) (hd : decodeStat stat = .ok .irqStopDet) :
    RunEnds s (endBranch 9 (stopDetBranch s)) := by
  obtain ⟨u, hu, k, huh⟩ := stopDetBranch_runKeeps s
  have last := endBranch_runEnds_last (s := stopDetBranch s) (by rw [hu]; exact huh.trans hh) hd
  rw [hu] at last ⊢
  exact .of k ⟨last.agents, last.gate, last.phase, last.timedOut, last.attached, last.active, last.signal⟩

theorem rxDrain_runKeeps (s : State) : FlowKeeps s (rxDrain s) :=
  .of (regRead_runKeeps .rxflr s) (drain_runKeeps _ _)

/-- Each branch of a handler run. -/
theorem branch_runEnds {stat : Word} (hc : s.blk.completion = false) (hh : s.handler = some stat)
    (hd : decodeStat stat = .ok i) (he : exec i s = .next t) : RunEnds s t := by
  have after : ∀ {k : Nat} {u : State}, RunKeeps s u → RunEnds s (endBranch k u) := fun k =>
    .of k (endBranch_runEnds _ (k.completion.trans hc))
  rcases decodeStat_cases hd with rfl | rfl | rfl | rfl
  · cases he
    exact .of (u := s.mapBlk fun b => { b with cmdErr := errTxAbrt }) ⟨rfl, rfl, rfl, rfl, rfl, id, rfl⟩ (.signalled _)
  · obtain ⟨u, h1, h2⟩ := Flow.andThen_eq_next he
    cases h2
    exact after (rxDrain_runKeeps s u h1)
  · change execIrqTxEmpty s = .next t at he
    unfold execIrqTxEmpty at he
    split at he
    · cases he; exact after (.refl s)
    · obtain ⟨u, h1, h2⟩ := Flow.andThen_eq_next he
      cases h2
      exact after (txRefill_runKeeps s u h1)
  · cases he
    split
    · exact endBranch_runEnds_last hh hd
    · exact stopDet_runEnds hh hd

/-- Interrupt entry while a transfer is active and its completion not signalled (42_interrupt_fifo.md R280). -/
theorem takeIrq_runEnds (hx : s.blk.xphase = .transferActive) (hc : s.blk.completion = false) :
    RunEnds s (takeIrq s) := by
  have k := (regRead_runKeeps .intrStat s).trans (clearLatched_runKeeps (regRead .intrStat s).1 _)
  unfold takeIrq
  rw [if_neg (by simp [hx, hc])]
  simp only []
  split
  · exact .of k (endHandler_runEnds _)
  · exact .of k (.handler _ (k.completion.trans hc))

/-- While a transfer is active a place says no more of the engine than a handler run keeps. -/
theorem Point.Engine.run (p : Point) (hb : b.xphase = .transferActive) (hx : c.xphase = b.xphase)
    (ht : c.timedOut = b.timedOut) (hs : b.status ≠ .idle → c.status ≠ .idle) (h : p.Engine b) : p.Engine c := by
  unfold Point.Engine at *
  split at h <;> simp_all

/-- What a handler run leaves is a controlled state. -/
theorem RunEnds.advances (k : RunEnds s t) (h : s.Control) (hx : s.blk.xphase = .transferActive) :
    Advances s t := by
  have e : ∀ b, t.agent b = s.agent b := fun b => agent_congr k.agents b
  exact ⟨{
    gate := by rw [k.gate]; exact h.gate
    holds := fun b => by rw [e, k.gate]; exact h.holds b
    owned := fun b ho => by rw [e]; exact (h.owned b (k.gate ▸ ho)).run _ hx k.phase k.timedOut k.active
    free := fun ho => by have := (h.free (k.gate ▸ ho)).1; rw [hx] at this; cases this
    placed := fun b => by rw [e]; exact h.placed b
    waiting := fun b => by rw [e]; exact h.waiting b
    atRest := fun b => by rw [e]; exact h.atRest b
    handler := fun hh => ⟨k.phase.trans hx, k.signal hh⟩
    detached := fun hd b => by rw [e]; exact h.detached (k.attached ▸ hd) b }, .inl k.phase⟩

/-- Taking the interrupt in a controlled state (42_interrupt_fifo.md R280, R281). -/
theorem takeIrq_advances (h : s.Control) : Advances s (takeIrq s) := by
  by_cases ha : s.blk.xphase ≠ .transferActive ∨ s.blk.completion = true
  · have hi : takeIrq s = idleBranch s := if_pos ha
    rw [hi]
    refine h.advances ?_ ?_ ?_ ?_ <;> simp [idleBranch]
  · simp only [not_or, not_not, Bool.not_eq_true] at ha
    exact (takeIrq_runEnds ha.1 ha.2).advances h ha.1

/-! ### The endings of a wait -/

/-- The requester that waits owns the gate, its transfer active and not timed out (41_transfer_engine.md R241). -/
theorem State.Control.waits (h : s.Control) (hw : (s.agent a).waiting = true) :
    s.blk.gate.owner = some a ∧ s.blk.xphase = .transferActive ∧ s.blk.status ≠ .idle ∧ s.blk.timedOut = false := by
  have hp := (h.waiting a).1 hw
  have ho : s.blk.gate.owner = some a := by
    by_contra hc
    have := h.holds a
    rw [if_neg hc, Caller.holds, hp] at this
    simp [Point.holds] at this
  have := h.owned a ho
  rw [hp] at this
  exact ⟨ho, this⟩

/-- A wait ends with its unwind pending and the phase its ending's (41_transfer_engine.md R253, R254). -/
theorem State.Control.endWait (h : s.Control) (hh : s.handler = none) (hw : (s.agent a).waiting = true)
    {ph : Phase} (hp : ph ∈ [.completed, .aborted, .failed, .timedOut]) (td : Bool) :
    (endWait a { s with blk := { s.blk with timedOut := td, xphase := ph } }).Control := by
  obtain ⟨ho, -, hs, -⟩ := h.waits hw
  have hpt := (h.waiting a).1 hw
  have live := h.live (a := a) (by rw [hpt]; exact nofun)
  exact {
    gate := h.gate
    holds := forall_agent_setAgent
      (Q := fun b x => x.holds = if s.blk.gate.owner = some b then s.blk.gate.depth else 0)
      (fun b _ => h.holds b) (by have := h.holds a; rw [Caller.holds, hpt] at this; exact this)
    owned := forall_agent_setAgent
      (Q := fun b x => s.blk.gate.owner = some b →
        x.point.Engine { s.blk with timedOut := td, xphase := ph })
      (fun b hb hob => absurd (Option.some.inj (hob.symm.trans ho)) hb) fun _ => ⟨hp, hs⟩
    free := fun hn => by rw [show s.blk.gate.owner = none from hn] at ho; cases ho
    placed := forall_agent_setAgent (Q := fun _ x => x.point.Placed) (fun b _ => h.placed b) trivial
    waiting := forall_agent_setAgent (Q := fun _ x => x.waiting = true ↔ x.point = .await)
      (fun b _ => h.waiting b) ⟨nofun, nofun⟩
    atRest := forall_agent_setAgent (Q := fun _ x => x.req = none → x.point = .idle ∧ x.stack = [])
      (fun b _ => h.atRest b) fun hr => absurd hr live.1
    handler := fun hn => absurd hh hn
    detached := fun hd => by rw [show s.attached = false from hd] at live; cases live.2 }

/-- `Caller.wake` (41_transfer_engine.md R254): the phase is the ending's by the precedence of R41. -/
theorem wake_advances (h : s.Control) (hh : s.handler = none) (a : Agent) : Advances s (wake a s) := by
  unfold wake
  split
  · next hw =>
    obtain ⟨-, hx, -, ht⟩ := h.waits hw.1
    have hph : outcomePhase s.blk =
        if s.blk.msgErr ≠ .none then .failed else if s.blk.cmdErr ≠ 0#8 then .aborted else .completed := by
      simp [outcomePhase, ht]
    refine ⟨h.endWait hh hw.1 (ph := outcomePhase s.blk) ?_ s.blk.timedOut,
      .inr (.inr (.inr (.inr (.inl ⟨hx, hw.2, hph⟩))))⟩
    rw [hph]
    split
    · simp
    · split <;> simp
  · exact ⟨h, .inl rfl⟩

theorem waitingAgent_waits (h : waitingAgent s = some a) : (s.agent a).waiting = true := by
  unfold waitingAgent at h
  split at h
  · split at h <;> cases h
    assumption
  · cases h

/-- `Timer.timeout` (41_transfer_engine.md R253). -/
theorem execEvtTimeout_advances (h : s.Control) (hh : s.handler = none) (he : execEvtTimeout s = .next t) :
    Advances s t := by
  unfold execEvtTimeout at he
  split at he
  · next a ha =>
    have hw := waitingAgent_waits ha
    split at he <;> cases he
    · next hc =>
      exact ⟨h.endWait hh hw (ph := .timedOut) (by simp) true,
        .inr (.inr (.inr (.inr (.inr (.inl ⟨(h.waits hw).2.1, hc, rfl, rfl⟩)))))⟩
    · exact ⟨h, .inl rfl⟩
  · cases he; exact ⟨h, .inl rfl⟩

/-! ### The other moves -/

/-- A requester listed is the requester of its name, or a later entry of it. -/
theorem req_none_of_all {l : List (Agent × Caller)} (h : ∀ e ∈ l, e.2.req = none) (a : Agent) :
    (lookupAgent l a).req = none := by
  induction l with
  | nil => rfl
  | cons e l ih =>
    obtain ⟨y, d⟩ := e
    simp only [lookupAgent]
    split
    · exact h _ List.mem_cons_self
    · exact ih fun e he => h e (List.mem_cons_of_mem _ he)

/-- S is destroyed with no request in progress (45_lifecycle.md R393). -/
theorem detachBus_advances (h : s.Control) (he : detachBus s = .next t) : Advances s t := by
  unfold detachBus at he
  split at he
  · cases he
  · next hc =>
    cases he
    have none_ : ∀ e ∈ s.agents, e.2.req = none := by
      simpa using (not_or.mp hc).2
    exact ⟨⟨h.gate, h.holds, h.owned, h.free, h.placed, h.waiting, h.atRest, h.handler,
      fun _ => req_none_of_all none_⟩, .inl rfl⟩

/-- S is created where it did not exist, with no requester in the gate (45_lifecycle.md R393, 10_state.md R80). -/
theorem attachBus_advances (h : s.Control) (hh : s.handler = none) (draw : Ctl) : Advances s (attachBus draw s) := by
  unfold attachBus
  split
  · exact ⟨h, .inl rfl⟩
  · next hd =>
    have none_ := h.detached (by simpa using hd)
    have free : s.blk.gate.owner = none := by
      cases ho : s.blk.gate.owner with
      | none => rfl
      | some b => exact absurd ho (h.not_owner (none_ b))
    exact ⟨control_of_rest rfl rfl rfl rfl hh, .inl (h.free free).1.symm⟩

/-- An agent's change of a message list no transfer reads (20_memory.md R125). -/
theorem changeList_advances (h : s.Control) {l : List MsgRec} (he : changeList a l s = .next t) : Advances s t := by
  unfold changeList at he
  split at he
  · cases he; exact ⟨h, .inl rfl⟩
  · split at he <;> cases he
    exact ⟨h.setAgent _ rfl rfl rfl id fun hd => h.detached hd a, .inl rfl⟩

theorem storeBuf_advances (h : s.Control) {n off : Nat} {x : Byte} (he : storeBuf n off x s = .next t) :
    Advances s t := by
  unfold storeBuf at he
  split at he
  · cases he
  · split at he <;> cases he
    exact h.advances rfl rfl rfl rfl

/-- An illegal request word is answered, its requester with no request before and after (30_encoding.md R170). -/
theorem refuseWord_advances (h : s.Control) (hr : (s.agent a).req = none) (w : Word) :
    Advances s (refuseWord a w s) :=
  ⟨h.setAgent _ (h.atRest a hr).1.symm (h.atRest a hr).2.symm (h.awake hr).symm (fun _ => hr) fun _ => rfl, .inl rfl⟩

/-- Every move that is taken itself. -/
theorem takeMove_advances (h : s.Control) (hh : s.handler = none) (he : takeMove m s = .move (.next t)) :
    Advances s t := by
  have same : ∀ {o : Flow}, Fetched.move o = .move (.next t) → o = .next t := fun e => by cases e; rfl
  cases m with
  | request a w ops =>
    rcases submit_move he with rfl | ⟨hr, rfl⟩
    · exact ⟨h, .inl rfl⟩
    · exact refuseWord_advances h hr w
  | event w => simp only [takeMove] at he; split at he <;> cases he
  | wake a => cases he; exact wake_advances h hh a
  | resume a => exact resumeAgent_advances h hh (same he)
  | grant a => exact grantGate_advances h hh (same he)
  | ctl m =>
    cases m with
    | take ans =>
      simp only [takeMove, takeWord] at he
      split at he
      · split at he <;> cases he
        exact h.advances rfl rfl rfl rfl
      · cases he; exact ⟨h, .inl rfl⟩
    | emptyFifo | arbLost | finishDisable | busy | latch | targetReg | targetPage =>
      cases he; exact h.advances rfl rfl rfl rfl
  | store a n off x => exact storeBuf_advances h (same he)
  | relist a l => exact changeList_advances h (same he)
  | newDevice addr => cases he; exact h.advances rfl rfl rfl rfl
  | newTarget addr page => cases he; exact h.advances rfl rfl rfl rfl
  | powerLoss draw =>
    cases he
    unfold losePower
    split <;> exact h.advances rfl rfl rfl rfl
  | attach draw => cases he; exact attachBus_advances h hh draw
  | detach => exact detachBus_advances h (same he)

/-- Every instruction a move brings to hand. -/
theorem instr_advances (h : s.Control) (hh : s.handler = none) (hf : takeMove m s = .instr i u)
    (he : exec i u = .next t) : Advances s t := by
  rcases takeMove_instr hf with ⟨a, w, ops, -, ha, hr, hd, rfl⟩ | ⟨w, -, hd, rfl⟩ | ⟨ans, w, -, hd, rfl⟩
  · exact request_advances h hh ha hr (decodeReq_isRequest hd) he
  · rcases decodeEvt_cases hd with rfl | rfl
    · cases he
      split
      · exact takeIrq_advances h
      · exact ⟨h, .inl rfl⟩
    · exact execEvtTimeout_advances h hh he
  · rcases decodeCmd_cases hd with ⟨dat, stop, restart, rfl⟩ | ⟨stop, restart, rfl⟩ <;> cases he
    · exact h.advances rfl rfl rfl rfl
    · exact h.advances rfl rfl rfl rfl

/-- Every step keeps the control invariant and moves the phase as 10_state.md R41 says. -/
theorem step_advances (h : s.Control) (e : step s = .next t) : Advances s t := by
  have with_sched : ∀ ms, State.Control { s with sched := ms } := fun ms => h.congr rfl rfl rfl rfl rfl rfl rfl rfl
  cases step_inv e with
  | branch stat i hh hd he =>
    obtain ⟨hx, hc⟩ := h.handler (by rw [hh]; exact nofun)
    exact (branch_runEnds hc hh hd he).advances h hx
  | endRun stat hh ht =>
    obtain ⟨hx, -⟩ := h.handler (by rw [hh]; exact nofun)
    exact ht ▸ (endHandler_runEnds s).advances h hx
  | activity a _ hh _ he =>
    exact resumeAgent_advances (s := { s with running := none }) (h.congr rfl rfl rfl rfl rfl rfl rfl rfl) hh he
  | rest _ ht => exact ⟨ht ▸ h, .inl (by rw [ht])⟩
  | instr m ms i u next hf he => exact instr_advances (s := { s with sched := ms }) (with_sched ms) next.handler hf he
  | move m ms next he => exact takeMove_advances (s := { s with sched := ms }) (with_sched ms) next.handler he

/-! ### A transfer in flight -/

/-- S.status is IDLE but at the owner's wait and its unwind (10_state.md R33). -/
theorem Point.Engine.status_iff {p : Point} (h : p.Engine b) : b.status ≠ .idle ↔ p = .await ∨ p = .unwind := by
  unfold Point.Engine at h
  split at h <;> simp_all

/-- A transfer is in flight exactly while the gate's owner waits or its unwind is pending. -/
theorem State.Control.inFlight (h : s.Control) :
    s.blk.status ≠ .idle ↔
      ∃ a, s.blk.gate.owner = some a ∧ ((s.agent a).point = .await ∨ (s.agent a).point = .unwind) := by
  constructor
  · intro hs
    cases ho : s.blk.gate.owner with
    | none => exact absurd (h.free ho).2 hs
    | some a => exact ⟨a, rfl, (h.owned a ho).status_iff.mp hs⟩
  · rintro ⟨a, ho, hp⟩
    exact (h.owned a ho).status_iff.mpr hp

/-- Settles O55: `step_gateWf`, `step_advances` by the kinds of step, and the engine at its owner's place. -/
theorem stepKeepsGate : Obligations.StepKeepsGate :=
  ⟨fun _ _ h e => step_gateWf h e, fun _ _ h e => step_advances h e, fun _ h => h.inFlight⟩

end Sys2Proof.Machine
end

section
/-!
SUPPORT. What no operation but LIFE_START's and LIFE_STOP's writes (10_state.md R44, R45, R46): the parameters, the
retry budget and the functionality constant, the timing fields with the depths and the register window, S.ready.
-/

namespace Sys2Proof.Machine

/-- The retry budget and the functionality constant (10_state.md R45, R46). -/
def Bus.budget (b : Bus) : Nat × Word := (b.retries, b.functionality)

/-- The timing fields, the depths and the register window (10_state.md R44). -/
def Bus.startFields (b : Bus) : TimingOut × (Nat × Nat) × (Option Nat × Option Nat) :=
  (⟨b.ssHcnt, b.ssLcnt, b.fsHcnt, b.fsLcnt, b.sdaHold⟩, (b.txFifoDepth, b.rxFifoDepth), (b.regBase, b.regSize))

/-- `t` has the parameters and the budget of `s`, the fields a start writes where `T`, and S.ready where `R`. -/
structure Fixed (T R : Prop) (s t : State) : Prop where
  par    : t.par = s.par
  budget : t.blk.budget = s.blk.budget
  start  : T → t.blk.startFields = s.blk.startFields
  ready  : R → t.blk.ready = s.blk.ready

/-- The same of the next state of an operation. -/
def FlowFixed (T R : Prop) (s : State) (o : Flow) : Prop := ∀ t, o = .next t → Fixed T R s t

variable {T R : Prop} {s t u : State} {a : Agent}

theorem Fixed.refl (s : State) : Fixed T R s s := ⟨rfl, rfl, fun _ => rfl, fun _ => rfl⟩

theorem Fixed.trans (h : Fixed T R s t) (k : Fixed T R t u) : Fixed T R s u :=
  ⟨k.par.trans h.par, k.budget.trans h.budget, fun x => (k.start x).trans (h.start x),
    fun x => (k.ready x).trans (h.ready x)⟩

/-- An operation that leaves the parameters and the bus record alone. -/
theorem Fixed.of_blk (hp : t.par = s.par := by rfl) (hb : t.blk = s.blk := by rfl) : Fixed T R s t :=
  ⟨hp, by rw [hb], fun _ => by rw [hb], fun _ => by rw [hb]⟩

theorem Fixed.read (r : Reg) (s : State) : Fixed T R s (regRead r s).2 := .of_blk (by simp) (by simp)
theorem Fixed.touch (r : Reg) (s : State) : Fixed T R s (regTouch r s) := .of_blk (by simp) (by simp)
theorem Fixed.write (r : Reg) (v : Word) (s : State) : Fixed T R s (regWrite r v s) := .of_blk (by simp) (by simp)
theorem Fixed.mask (v : Word) (s : State) : Fixed T R s (writeMask v s) := .of_blk (by simp) (by simp)
theorem Fixed.push (fs : List Frame) (s : State) : Fixed T R s (pushFrames a fs s) := .of_blk
theorem Fixed.park (p : Point) (s : State) : Fixed T R s (Machine.park a p s) := .of_blk
theorem Fixed.mem (m : Memory) (s : State) : Fixed T R s { s with mem := m } := .of_blk
theorem Fixed.handler (w : Option Word) (s : State) : Fixed T R s { s with handler := w } := .of_blk

/-- An operation that leaves them alone, by computation. -/
theorem Fixed.same (hp : t.par = s.par := by rfl) (hb : t.blk.budget = s.blk.budget := by rfl)
    (hs : t.blk.startFields = s.blk.startFields := by rfl) (hr : t.blk.ready = s.blk.ready := by rfl) :
    Fixed T R s t := ⟨hp, hb, fun _ => hs, fun _ => hr⟩

theorem Fixed.gate (g : Gate) (s : State) : Fixed T R s (s.setGate g) := .same
theorem Fixed.phase (p : Phase) (s : State) : Fixed T R s (setPhase p s) := .same
theorem Fixed.unacked (b : Bool) (s : State) : Fixed T R s (setUnacked b s) := .same
theorem Fixed.unmap (s : State) : Fixed T R s (Machine.unmap s) := .same
theorem Fixed.msgErr (e : MsgErr) (s : State) : Fixed T R s (setMsgErr e s) := .same
theorem Fixed.signal (s : State) : Fixed T R s (signalCompletion s) := .same

theorem FlowFixed.next (h : Fixed T R s t) : FlowFixed T R s (.next t) := fun _ e => by cases e; exact h
theorem FlowFixed.fault (r : Fault) : FlowFixed T R s (.fault r) := fun _ e => by cases e

theorem FlowFixed.of {o : Flow} (h : Fixed T R s t) (k : FlowFixed T R t o) : FlowFixed T R s o :=
  fun u e => h.trans (k u e)

theorem FlowFixed.andThen {o : Flow} {f : State → Flow} (h : FlowFixed T R s o)
    (k : ∀ t, FlowFixed T R t (f t)) : FlowFixed T R s (Flow.andThen o f) := by
  intro u e
  obtain ⟨t, h1, h2⟩ := Flow.andThen_eq_next e
  exact (h t h1).trans (k t u h2)

/-! ### The gate and the return of a result -/

theorem gateRelease_fixed (a : Agent) (s : State) : FlowFixed T R s (gateRelease a s) := by
  unfold gateRelease
  split
  · exact .next (.gate _ s)
  · exact .fault _

theorem withGate_fixed (c : Cont) (body : State → Flow) (s : State) (h : ∀ t, FlowFixed T R t (body t)) :
    FlowFixed T R s (withGate a c body s) := by
  unfold withGate
  split
  · exact .of (.gate _ s) (h _)
  · exact .next ((Fixed.gate _ s).trans (.park _ _))

theorem retFrames_fixed (fs : List Frame) (r : Result) (s : State) : FlowFixed T R s (retFrames a fs r s) := by
  induction fs generalizing r s with
  | nil => exact .next .of_blk
  | cons f fs ih =>
    have rel : ∀ r s, FlowFixed T R s (Flow.andThen (gateRelease a s) (retFrames a fs r)) :=
      fun r s => (gateRelease_fixed a s).andThen fun t => ih r t
    have pro : ∀ n fns r s, FlowFixed T R s (Flow.andThen (endProbe a n fns s) (retFrames a fs r)) :=
      fun _ _ r _ => .of .of_blk (rel r _)
    cases f with
    | retry left msgs count =>
      simp only [retFrames]
      split
      · exact .next .of_blk
      · exact ih r s
    | smbus cb =>
      simp only [retFrames]
      split
      · exact .of (.mem _ s) (ih _ _)
      · exact ih r s
    | gated => exact rel r s
    | setPage dev page => exact .of .of_blk (rel _ _)
    | selected blk =>
      simp only [retFrames]
      split
      · exact .next .of_blk
      · exact rel r s
    | block => exact rel _ s
    | probe dev pos found =>
      simp only [retFrames]
      split
      · exact pro _ _ _ s
      · split
        · exact pro _ _ _ s
        · split
          · exact .next .of_blk
          · exact pro _ _ _ s
    | f01 dev base todo =>
      simp only [retFrames]
      split
      · exact rel _ s
      · split
        · exact rel _ s
        · exact .next .of_blk

theorem ret_fixed (r : Result) (s : State) : FlowFixed T R s (ret a r s) := retFrames_fixed _ r s

theorem releaseRet_fixed (r : Result) (s : State) : FlowFixed T R s (releaseRet a r s) :=
  (gateRelease_fixed a s).andThen fun t => ret_fixed r t

/-! ### The disable and what uses it -/

/-- A start's `configure` ends in its writing S.ready (45_lifecycle.md R390). -/
theorem startConfigured_fixed (prov : Provider) (ok : Bool) (s : State) (hR : ¬ R) :
    FlowFixed T R s (startConfigured a prov ok s) := by
  unfold startConfigured
  split
  · exact .of (.unmap s) (releaseRet_fixed _ _)
  · split
    · exact .of (((Fixed.mask _ s).trans (.write _ _ _)).trans (.unmap _)) (releaseRet_fixed _ _)
    · exact .of ⟨by rfl, by rfl, fun _ => by rfl, fun x => absurd x hR⟩ (releaseRet_fixed _ _)

theorem afterConfigure_fixed (u : ConfigUse) (ok : Bool) (s : State) (hR : R → ∀ prov, u ≠ .start prov) :
    FlowFixed T R s (afterConfigure a u ok s) := by
  cases u with
  | bus => exact releaseRet_fixed _ s
  | power => exact releaseRet_fixed _ s
  | start prov => exact startConfigured_fixed prov ok s fun x => hR x prov rfl

theorem stopTail_fixed (ok : Bool) (s : State) : FlowFixed T R s (stopTail a ok s) :=
  .of .same (releaseRet_fixed _ _)

theorem configureWrites_fixed (s : State) : Fixed T R s (configureWrites s) :=
  .of_blk (by simp [configureWrites]) (by simp [configureWrites])

theorem xferArm_fixed (msgs : List Msg) (s : State) : Fixed T R s (xferArm a msgs s) := by
  refine .same ?_ ?_ ?_ ?_ <;> simp [xferArm, ctlEnable, Bus.budget, Bus.startFields]

theorem disabled_fixed (u : DisableUse) (s : State) (hR : R → ∀ prov, u ≠ .configure (.start prov)) :
    FlowFixed T R s (disabled a u s) := by
  cases u with
  | bus => exact releaseRet_fixed _ s
  | stop => exact stopTail_fixed _ s
  | configure c =>
    exact .of (configureWrites_fixed s) (afterConfigure_fixed c _ _ fun x prov e => hR x prov (by rw [e]))
  | xfer msgs => exact .next (xferArm_fixed msgs s)

theorem disableFailed_fixed (u : DisableUse) (s : State) (hR : R → ∀ prov, u ≠ .configure (.start prov)) :
    FlowFixed T R s (disableFailed a u s) := by
  cases u with
  | bus => exact releaseRet_fixed _ s
  | stop => exact stopTail_fixed _ s
  | configure c => exact afterConfigure_fixed c _ s fun x prov e => hR x prov (by rw [e])
  | xfer msgs => exact .of (.phase _ s) (releaseRet_fixed _ _)

theorem disablePoll_fixed (k : Nat) (u : DisableUse) (s : State)
    (hR : R → ∀ prov, u ≠ .configure (.start prov)) : FlowFixed T R s (disablePoll a k u s) := by
  unfold disablePoll
  simp only []
  refine .of (.read .enableStatus s) ?_
  split
  · exact .of (.unacked _ _) (disabled_fixed u _ hR)
  · split
    · exact .next (.park _ _)
    · exact .of (.unacked _ _) (disableFailed_fixed u _ hR)

theorem ctlDisable_fixed (u : DisableUse) (s : State) (hR : R → ∀ prov, u ≠ .configure (.start prov)) :
    FlowFixed T R s (ctlDisable a u s) :=
  .of (.write _ _ s) (disablePoll_fixed _ u _ hR)

/-! ### Bus-controller requests -/

theorem busRequest_fixed (c : Cont) (body : Agent → State → Flow) (h : ∀ a t, FlowFixed T R t (body a t))
    (s : State) : FlowFixed T R s (busRequest c body s) := by
  unfold busRequest
  split
  · exact ret_fixed _ s
  · exact withGate_fixed c _ s (h _)

theorem busEnableBody_fixed (s : State) : FlowFixed T R s (busEnableBody a s) :=
  .of (.write _ _ s) (releaseRet_fixed _ _)

theorem busMaskBody_fixed (s : State) : FlowFixed T R s (busMaskBody a s) :=
  .of (.mask _ s) (releaseRet_fixed _ _)

theorem busDisableBody_fixed (s : State) : FlowFixed T R s (busDisableBody a s) :=
  ctlDisable_fixed .bus s fun _ _ => nofun

theorem busConfigureBody_fixed (s : State) : FlowFixed T R s (busConfigureBody a s) :=
  ctlDisable_fixed (.configure .bus) s fun _ _ => nofun

theorem busClearBody_fixed (kind : Byte) (s : State) : FlowFixed T R s (busClearBody kind a s) := by
  unfold busClearBody
  split
  · exact .of (.touch _ s) (releaseRet_fixed _ _)
  · exact releaseRet_fixed _ s

theorem powerBody_fixed (en : Bool) (s : State) : FlowFixed T R s (powerBody en a s) := by
  unfold powerBody
  split
  · exact .of .same (releaseRet_fixed _ _)
  · simp only []
    refine .of (Fixed.same (t := unsetPages { s with blk := { s.blk with powered := true } })) ?_
    split
    · exact ctlDisable_fixed (.configure .power) _ fun _ _ => nofun
    · exact releaseRet_fixed _ _

/-! ### The transfer engine -/

theorem busyPoll_fixed (msgs : List Msg) (count : Half) (s : State) :
    FlowFixed T R s (busyPoll a msgs count s) := by
  unfold busyPoll
  simp only []
  refine .of (.read .status s) ?_
  split
  · exact .of .same (ctlDisable_fixed (.xfer msgs) _ fun _ _ => nofun)
  · split
    · exact .of (.phase _ _) (releaseRet_fixed _ _)
    · exact .next (Fixed.trans .same (.park _ _))

theorem xferGated_fixed (msgs : List Msg) (count : Half) (s : State) :
    FlowFixed T R s (xferGated a msgs count s) := by
  unfold xferGated
  split
  · exact .of (.phase _ s) (releaseRet_fixed _ _)
  · exact .of .same (busyPoll_fixed msgs count _)

theorem xferStart_fixed (msgs : List Msg) (count : Half) (s : State) :
    FlowFixed T R s (xferStart a msgs count s) := by
  unfold xferStart
  split
  · exact ret_fixed _ s
  · exact withGate_fixed _ _ s fun t => xferGated_fixed msgs count t

theorem unwind_fixed (s : State) : FlowFixed T R s (unwind a s) :=
  .of ((Fixed.mask _ s).trans .same) (releaseRet_fixed _ _)

theorem wake_fixed (a : Agent) (s : State) : Fixed T R s (wake a s) := by
  unfold wake
  split
  · exact Fixed.same
  · exact .refl s

theorem execEvtTimeout_fixed (s : State) : FlowFixed T R s (execEvtTimeout s) := by
  unfold execEvtTimeout
  split
  · split
    · exact .next .same
    · exact .next (.refl s)
  · exact .next (.refl s)

/-! ### SMBus and RMI4 -/

theorem smbusXfer_fixed (size : SizeClass) (rw : Bool) (s : State) : FlowFixed T R s (smbusXfer size rw a s) := by
  unfold smbusXfer
  simp only []
  split
  · exact ret_fixed _ s
  · split
    · exact ret_fixed _ s
    · split
      · exact ret_fixed _ s
      · exact .of ((Fixed.mem _ s).trans (.push _ _)) (xferStart_fixed _ _ _)

theorem gatedBody_fixed (size : SizeClass) (rw : Bool) (s : State) : FlowFixed T R s (gatedBody size rw a s) :=
  .of (.push _ s) (smbusXfer_fixed _ _ _)

theorem setPageBody_fixed (dev : Nat) (page : Byte) (s : State) : FlowFixed T R s (setPageBody dev page a s) :=
  .of ((Fixed.mem _ s).trans (.push _ _)) (xferStart_fixed _ _ _)

theorem blockBody_fixed (blk : Block) (s : State) : FlowFixed T R s (blockBody blk a s) := by
  unfold blockBody
  simp only []
  refine .of (Fixed.push (a := a) [.block] s) ?_
  split
  all_goals exact .of (.mem _ _) (xferStart_fixed _ _ _)

theorem accessBody_fixed (blk : Block) (s : State) : FlowFixed T R s (accessBody blk a s) := by
  unfold accessBody
  simp only []
  split
  · exact blockBody_fixed blk s
  · exact .of (.push _ s) (withGate_fixed _ _ _ fun t => setPageBody_fixed _ _ t)

theorem blockAccess_fixed (blk : Block) (s : State) : FlowFixed T R s (blockAccess blk a s) := by
  unfold blockAccess
  split
  · exact ret_fixed _ s
  · exact withGate_fixed _ _ s fun t => accessBody_fixed blk t

theorem probeBody_fixed (dev pos : Nat) (found : List FnDesc) (s : State) :
    FlowFixed T R s (probeBody dev pos found a s) := .of (.push _ s) (blockAccess_fixed _ _)

theorem f01Body_fixed (dev : Nat) (base : Half) (todo : List (Half × List Byte)) (s : State) :
    FlowFixed T R s (f01Body dev base todo a s) := by
  unfold f01Body
  split
  · exact releaseRet_fixed _ s
  · exact .of (.push _ s) (blockAccess_fixed _ _)

theorem rmiRequest_fixed (body : State → Flow) (h : ∀ t, FlowFixed T R t (body t)) (s : State) :
    FlowFixed T R s (rmiRequest body s) := by
  unfold rmiRequest
  split
  · exact ret_fixed _ s
  · exact h s

/-! ### Lifecycle -/

/-- A start writes the timing fields and, its disable over, S.ready (45_lifecycle.md R390). -/
theorem startBody_fixed (prov : Provider) (s : State) (hT : ¬ T) (hR : ¬ R) :
    FlowFixed T R s (startBody prov a s) := by
  have fields : ∀ {u v : State}, v.par = u.par → v.blk.budget = u.blk.budget → Fixed T R u v :=
    fun hp hb => ⟨hp, hb, fun x => absurd x hT, fun x => absurd x hR⟩
  unfold startBody
  split
  · exact releaseRet_fixed _ s
  · simp only []
    split
    · exact .of (fields (by rfl) (by rfl)) (releaseRet_fixed _ _)
    · exact .of (fields (by rfl) (by rfl)) (ctlDisable_fixed _ _ fun x => absurd x hR)

theorem stopBody_fixed (s : State) : FlowFixed T R s (stopBody a s) := by
  unfold stopBody
  split
  · exact .of (.mask _ s) (ctlDisable_fixed .stop _ fun _ _ => nofun)
  · exact stopTail_fixed _ s

/-! ### The interrupt handler -/

theorem issueWord_fixed (w : Word) (rd : Bool) (s : State) : Fixed T R s (issueWord w rd s) :=
  (Fixed.write _ _ s).trans .same

theorem issueWords_fixed (limit : Nat) (s : State) : FlowFixed T R s (issueWords limit s) := by
  induction limit generalizing s with
  | zero => exact .next (.refl s)
  | succ n ih =>
    simp only [issueWords]
    split
    · exact .next (.refl s)
    · split
      · split
        · exact .next (.refl s)
        · exact .of (issueWord_fixed _ _ s) (ih _)
      · split
        · exact .fault _
        · exact .of (issueWord_fixed _ _ s) (ih _)

theorem refillLoop_fixed (n : Nat) (s : State) : FlowFixed T R s (refillLoop n s) := by
  induction n generalizing s with
  | zero => exact .next (.refl s)
  | succ n ih =>
    simp only [refillLoop]
    split
    · exact .next (.refl s)
    · refine .of (Fixed.trans .same (.read .txflr _)) ((issueWords_fixed _ _).andThen fun t => ?_)
      split
      · exact .next (.refl t)
      · split
        · exact .next .same
        · exact .of .same (ih _)

theorem txRefill_fixed (s : State) : FlowFixed T R s (txRefill s) := by
  refine (refillLoop_fixed _ s).andThen fun t => .next ?_
  unfold maskTxEmpty
  split
  · exact .mask _ t
  · exact .refl t

theorem skipAtCursor_fixed (s : State) : Fixed T R s (s.mapBlk skipAtCursor) := by
  unfold State.mapBlk skipAtCursor
  simp only []
  split <;> exact .same

theorem recvLength_fixed (i : Nat) (m : Msg) (l : Byte) (s : State) : FlowFixed T R s (recvLength i m l s) := by
  unfold recvLength
  split
  · exact .next (.msgErr _ s)
  · split
    · exact .fault _
    · exact .next (Fixed.trans .same (.mask _ _))

theorem storeByte_fixed (m : Msg) (x : Byte) (s : State) : FlowFixed T R s (storeByte m x s) := by
  unfold storeByte
  split
  · exact .fault _
  · exact .next .same

theorem drainByte_fixed (s : State) : FlowFixed T R s (drainByte s) := by
  unfold drainByte
  simp only []
  refine .of (((skipAtCursor_fixed s).trans (.read .dataCmd _)).trans
    (Fixed.same (t := (regRead .dataCmd (s.mapBlk skipAtCursor)).2.mapBlk fun k =>
      { k with rxOutstanding := k.rxOutstanding - 1 }))) ?_
  split
  · exact .next (.msgErr _ _)
  · refine FlowFixed.andThen ?_ fun t => .next ?_
    · split
      · exact recvLength_fixed _ _ _ _
      · exact storeByte_fixed _ _ _
    · unfold passMessage
      split
      · exact .same
      · exact .refl t

theorem drainLoop_fixed (n : Nat) (s : State) : FlowFixed T R s (drainLoop n s) := by
  induction n generalizing s with
  | zero => exact .next (.refl s)
  | succ n ih =>
    simp only [drainLoop]
    split
    · exact .next (.refl s)
    · exact (drainByte_fixed s).andThen ih

theorem clearLatched_fixed (stat : Word) (s : State) : Fixed T R s (clearLatched stat s) := by
  have bits : ∀ l s, Fixed T R s (clearBits stat l s) := by
    intro l
    induction l with
    | nil => exact fun s => .refl s
    | cons e l ih =>
      intro s
      simp only [clearBits]
      split
      · exact (Fixed.touch _ s).trans (ih _)
      · exact ih s
  have source : Fixed T R s (clearAbort stat s) := by
    unfold clearAbort
    split
    · exact ((Fixed.read _ s).trans .same).trans (.touch _ _)
    · exact .refl s
  unfold clearLatched
  simp only []
  split
  · exact (source.trans (bits _ _)).trans (.touch _ _)
  · exact source.trans (bits _ _)

theorem Fixed.signalled (s : State) : Fixed T R s { signalCompletion (writeMask 0#32 s) with handler := none } :=
  ((Fixed.mask _ s).trans (.signal _)).trans (.handler _ _)

theorem endHandler_fixed (s : State) : Fixed T R s (endHandler s) := by
  unfold endHandler
  split
  · exact .signalled s
  · exact .handler _ s

theorem endBranch_fixed (k : Nat) (s : State) : Fixed T R s (endBranch k s) := by
  unfold endBranch nextBranch
  split
  · exact endHandler_fixed s
  · exact .handler _ s

theorem takeIrq_fixed (s : State) : Fixed T R s (takeIrq s) := by
  unfold takeIrq idleBranch
  split
  · exact (Fixed.touch _ s).trans (.mask _ _)
  · simp only []
    have h : Fixed T R s (clearLatched (regRead .intrStat s).1 (regRead .intrStat s).2) :=
      (Fixed.read _ s).trans (clearLatched_fixed _ _)
    split
    · exact h.trans (endHandler_fixed _)
    · exact h.trans (.handler _ _)

theorem stopDetBranch_fixed (s : State) : Fixed T R s (stopDetBranch s) := by
  unfold stopDetBranch
  simp only []
  split
  · exact ((Fixed.msgErr _ s).trans (.mask _ _)).trans (.signal _)
  · exact (Fixed.mask _ s).trans (.signal _)

/-! ### Instructions and moves -/

theorem execTimingCompute_fixed (s : State) : FlowFixed T R s (execTimingCompute s) := by
  unfold execTimingCompute
  simp only []
  split
  · exact ret_fixed _ s
  · exact .of .of_blk (ret_fixed _ (giveTiming s.cur _ s))

theorem execRmiF01Init_fixed (s : State) : FlowFixed T R s (execRmiF01Init s) := by
  unfold execRmiF01Init
  refine rmiRequest_fixed _ (fun t => ?_) s
  split
  · exact ret_fixed _ t
  · exact withGate_fixed _ _ t fun u => f01Body_fixed _ _ _ u

theorem execLifeStart_fixed (s : State) (hT : ¬ T) (hR : ¬ R) : FlowFixed T R s (execLifeStart s) := by
  unfold execLifeStart
  simp only []
  split
  · exact ret_fixed _ s
  · exact withGate_fixed _ _ s fun t => startBody_fixed _ t hT hR

/-- A stop writes S.ready before it waits for the gate (45_lifecycle.md R392). -/
theorem execLifeStop_fixed (s : State) (hR : ¬ R) : FlowFixed T R s (execLifeStop s) := by
  unfold execLifeStop
  split
  · exact ret_fixed _ s
  · exact .of ⟨by rfl, by rfl, fun _ => by rfl, fun x => absurd x hR⟩
      (withGate_fixed _ _ _ fun t => stopBody_fixed t)

theorem execIrqTxEmpty_fixed (s : State) : FlowFixed T R s (execIrqTxEmpty s) := by
  unfold execIrqTxEmpty
  split
  · exact .next (endBranch_fixed 4 s)
  · exact (txRefill_fixed s).andThen fun t => .next (endBranch_fixed 4 t)

theorem execIrqRxFull_fixed (s : State) : FlowFixed T R s (execIrqRxFull s) :=
  FlowFixed.andThen (.of (.read .rxflr s) (drainLoop_fixed _ _)) fun t => .next (endBranch_fixed 2 t)

theorem execIrqStopDet_fixed (s : State) : FlowFixed T R s (execIrqStopDet s) := by
  unfold execIrqStopDet
  split
  · exact .next (endBranch_fixed 9 s)
  · exact .next ((stopDetBranch_fixed s).trans (endBranch_fixed 9 _))

theorem execEvtIrq_fixed (s : State) : FlowFixed T R s (execEvtIrq s) := by
  unfold execEvtIrq
  split
  · exact .next (takeIrq_fixed s)
  · exact .next (.refl s)

/-- No instruction but LIFE_START writes the fields a start writes, none but it and LIFE_STOP S.ready. -/
theorem exec_fixed (i : Instr) (s : State) (hT : T → i ≠ .lifeStart)
    (hR : R → i ≠ .lifeStart ∧ i ≠ .lifeStop) : FlowFixed T R s (exec i s) := by
  have smb : ∀ size rw, FlowFixed T R s (smbusRequest size rw s) := fun size rw => smbusXfer_fixed size rw s
  have gat : ∀ size rw, FlowFixed T R s (gatedRequest size rw s) := fun size rw =>
    withGate_fixed _ _ s fun t => gatedBody_fixed size rw t
  cases i with
  | busEnable => exact busRequest_fixed _ _ (fun _ t => busEnableBody_fixed t) s
  | busDisable => exact busRequest_fixed _ _ (fun _ t => busDisableBody_fixed t) s
  | busConfigure => exact busRequest_fixed _ _ (fun _ t => busConfigureBody_fixed t) s
  | busMaskIntr => exact busRequest_fixed _ _ (fun _ t => busMaskBody_fixed t) s
  | busClearIntr => exact busRequest_fixed _ _ (fun _ t => busClearBody_fixed _ t) s
  | busPower => exact withGate_fixed _ _ s fun t => powerBody_fixed _ t
  | timingCompute => exact execTimingCompute_fixed s
  | xfer => exact xferStart_fixed _ _ s
  | i2cTransfer => exact .of (.push _ s) (xferStart_fixed _ _ _)
  | rmiSetPage =>
    exact rmiRequest_fixed _ (fun t => withGate_fixed _ _ t fun u => setPageBody_fixed _ _ u) s
  | rmiReadBlock => exact rmiRequest_fixed _ (fun t => blockAccess_fixed _ t) s
  | rmiWriteBlock => exact rmiRequest_fixed _ (fun t => blockAccess_fixed _ t) s
  | rmiProbe =>
    exact rmiRequest_fixed _ (fun t => withGate_fixed _ _ t fun u => probeBody_fixed _ _ _ u) s
  | rmiF01Init => exact execRmiF01Init_fixed s
  | lifeStart => exact execLifeStart_fixed s (fun x => hT x rfl) fun x => (hR x).1 rfl
  | lifeStop => exact execLifeStop_fixed s fun x => (hR x).2 rfl
  | evtIrq => exact execEvtIrq_fixed s
  | evtTimeout => exact execEvtTimeout_fixed s
  | irqTxAbrt => exact .next (Fixed.trans .same (.signalled _))
  | irqRxFull => exact execIrqRxFull_fixed s
  | irqTxEmpty => exact execIrqTxEmpty_fixed s
  | irqStopDet => exact execIrqStopDet_fixed s
  | dcWrite | dcRead => exact .next .of_blk
  | smbusUnsupported | gatedUnsupported => exact ret_fixed _ s
  | smbusQuickW => exact smb .quick false
  | smbusQuickR => exact smb .quick true
  | smbusByteW => exact smb .byte false
  | smbusByteR => exact smb .byte true
  | smbusByteDataW => exact smb .byteData false
  | smbusByteDataR => exact smb .byteData true
  | smbusWordDataW => exact smb .wordData false
  | smbusWordDataR => exact smb .wordData true
  | smbusBlockDataW => exact smb .blockData false
  | smbusBlockDataR => exact smb .blockData true
  | smbusI2cBlockDataW => exact smb .i2cBlockData false
  | smbusI2cBlockDataR => exact smb .i2cBlockData true
  | gatedQuickW => exact gat .quick false
  | gatedQuickR => exact gat .quick true
  | gatedByteW => exact gat .byte false
  | gatedByteR => exact gat .byte true
  | gatedByteDataW => exact gat .byteData false
  | gatedByteDataR => exact gat .byteData true
  | gatedWordDataW => exact gat .wordData false
  | gatedWordDataR => exact gat .wordData true
  | gatedBlockDataW => exact gat .blockData false
  | gatedBlockDataR => exact gat .blockData true
  | gatedI2cBlockDataW => exact gat .i2cBlockData false
  | gatedI2cBlockDataR => exact gat .i2cBlockData true

/-- An instruction that is neither leaves them all. -/
theorem exec_fixed_other {i : Instr} (he : exec i s = .next t) (h1 : i ≠ .lifeStart) (h2 : i ≠ .lifeStop) :
    Fixed T R s t := exec_fixed i s (fun _ => h1) (fun _ => ⟨h1, h2⟩) t he

/-- The point `c` of a rule is no start's beginning where `T`, and no start's at all where `R`. -/
structure Cont.Spares (T R : Prop) (c : Cont) : Prop where
  start : T → ∀ prov, c ≠ .start prov
  ready : R → (∀ prov, c ≠ .start prov) ∧ ∀ k prov, c ≠ .disable k (.configure (.start prov))

theorem runCont_fixed (c : Cont) (s : State) (h : c.Spares T R) : FlowFixed T R s (runCont a c s) := by
  cases c with
  | xfer msgs count => exact xferStart_fixed _ _ s
  | xferGate msgs count => exact xferGated_fixed _ _ s
  | busy msgs count => exact busyPoll_fixed _ _ s
  | disable k u => exact disablePoll_fixed k u s fun x prov e => (h.ready x).2 k prov (by rw [e])
  | busEnable => exact busEnableBody_fixed s
  | busDisable => exact busDisableBody_fixed s
  | busConfigure => exact busConfigureBody_fixed s
  | busMask => exact busMaskBody_fixed s
  | busClear kind => exact busClearBody_fixed kind s
  | power en => exact powerBody_fixed en s
  | start prov => exact startBody_fixed prov s (fun x => h.start x prov rfl) fun x => (h.ready x).1 prov rfl
  | stop => exact stopBody_fixed s
  | gated size rw => exact gatedBody_fixed _ _ s
  | setPage dev page => exact setPageBody_fixed _ _ s
  | access blk => exact accessBody_fixed blk s
  | block blk => exact blockBody_fixed blk s
  | probe dev pos found => exact probeBody_fixed _ _ _ s
  | f01 dev base todo => exact f01Body_fixed _ _ _ s

theorem resumeAgent_fixed (a : Agent) (s : State)
    (h : ∀ c, ((s.agent a).point = .sleep c ∨ (s.agent a).point = .go c) → c.Spares T R) :
    FlowFixed T R s (resumeAgent a s) := by
  unfold resumeAgent
  split
  · next c e => exact .of (.park _ s) (runCont_fixed c _ (h c (.inl e)))
  · next c e => exact .of (.park _ s) (runCont_fixed c _ (h c (.inr e)))
  · exact .of (.park _ s) (unwind_fixed _)
  all_goals exact .next (.refl s)

theorem grantGate_fixed (a : Agent) (s : State)
    (h : ∀ c, (s.agent a).point = .gate c → s.blk.gate.owner = none → a ∈ s.blk.gate.waiters → c.Spares T R) :
    FlowFixed T R s (grantGate a s) := by
  unfold grantGate
  split
  · next c g e hg =>
    unfold Gate.grant at hg
    split at hg
    · next hw =>
      exact .of ((Fixed.gate _ s).trans (.park _ _)) (runCont_fixed c _ (h c e hw.1 (by simpa using hw.2)))
    · cases hg
  · exact .next (.refl s)

variable {m : Move} {ms : List Move} {i : Instr}

/-- A move that is taken itself, `s` the state it is taken in. -/
theorem takeMove_fixed (next : NextMove m ms s) (he : takeMove m { s with sched := ms } = .move (.next t))
    (attach : ∀ draw, m = .attach draw → s.attached = true)
    (spares : ∀ a c u g, GoesOn a c s u g → c.Spares T R) : Fixed T R s t := by
  have here : Fixed T R s { s with sched := ms } := .of_blk
  have same : ∀ {o : Flow}, Fetched.move o = .move (.next t) → o = .next t := fun e => by cases e; rfl
  have flow : ∀ {o : Flow}, Fetched.move o = .move (.next t) → FlowFixed T R { s with sched := ms } o →
      Fixed T R s t := fun e k => here.trans (k t (same e))
  cases m with
  | request a w ops =>
    rcases submit_move he with rfl | ⟨-, rfl⟩
    · exact here
    · exact .of_blk
  | event w => simp only [takeMove] at he; split at he <;> cases he
  | wake a => cases he; exact here.trans (wake_fixed a _)
  | resume a => exact flow he (resumeAgent_fixed a _ fun c hp => spares a c _ _ (.resumed ms next hp))
  | grant a =>
    exact flow he (grantGate_fixed a _ fun c hp free waits => spares a c _ _ (.granted ms next hp free waits))
  | ctl m =>
    cases m with
    | take ans =>
      simp only [takeMove, takeWord] at he
      split at he
      · split at he <;> cases he
        exact .of_blk
      · cases he; exact here
    | emptyFifo | arbLost | finishDisable | busy | latch | targetReg | targetPage => cases he; exact .of_blk
  | store a n off x =>
    refine flow he ?_
    unfold storeBuf
    split
    · exact .fault _
    · split
      · exact .next .of_blk
      · exact .fault _
  | relist a l =>
    refine flow he ?_
    unfold changeList
    split
    · exact .next (.refl _)
    · split
      · exact .fault _
      · exact .next .of_blk
  | newDevice | newTarget => cases he; exact .of_blk
  | powerLoss draw =>
    cases he
    unfold losePower
    split <;> exact .of_blk
  | attach draw =>
    cases he
    rw [show attachBus draw { s with sched := ms } = { s with sched := ms } from if_pos (attach draw rfl)]
    exact here
  | detach =>
    refine flow he ?_
    unfold detachBus
    split
    · exact .fault _
    · exact .next .of_blk

/-- An instruction a move brings to hand: a lifecycle request's by its word alone. -/
theorem instr_fixed (hf : takeMove m { s with sched := ms } = .instr i u) (he : exec i u = .next t)
    (hT : T → ∀ a w ops, m = .request a w ops → decodeReq a.port w ≠ .ok .lifeStart)
    (hR : R → ∀ a w ops, m = .request a w ops →
      decodeReq a.port w ≠ .ok .lifeStart ∧ decodeReq a.port w ≠ .ok .lifeStop) : Fixed T R s t := by
  rcases takeMove_instr hf with ⟨a, w, ops, hm, -, -, hd, rfl⟩ | ⟨w, -, hd, rfl⟩ | ⟨ans, w, -, hd, rfl⟩
  · refine Fixed.trans .of_blk (exec_fixed i _ (fun x e => hT x a w ops hm (e ▸ hd)) (fun x => ?_) t he)
    exact ⟨fun e => (hR x a w ops hm).1 (e ▸ hd), fun e => (hR x a w ops hm).2 (e ▸ hd)⟩
  · rcases decodeEvt_cases hd with rfl | rfl
    all_goals exact Fixed.trans .of_blk (exec_fixed_other he nofun nofun)
  · rcases decodeCmd_cases hd with ⟨_, _, _, rfl⟩ | ⟨_, _, rfl⟩
    all_goals exact Fixed.trans .of_blk (exec_fixed_other he nofun nofun)

/-- A step that begins no lifecycle request, goes on with no start and creates no S. -/
theorem step_fixed (e : step s = .next t)
    (attach : ∀ draw ms, NextMove (.attach draw) ms s → s.attached = true)
    (spares : ∀ a c u g, GoesOn a c s u g → c.Spares T R)
    (hT : T → ∀ a w ops ms, NextMove (.request a w ops) ms s → decodeReq a.port w ≠ .ok .lifeStart)
    (hR : R → ∀ a w ops ms, NextMove (.request a w ops) ms s →
      decodeReq a.port w ≠ .ok .lifeStart ∧ decodeReq a.port w ≠ .ok .lifeStop) : Fixed T R s t := by
  cases step_inv e with
  | branch stat i _ hd he =>
    rcases decodeStat_cases hd with rfl | rfl | rfl | rfl
    all_goals exact exec_fixed_other he nofun nofun
  | endRun _ _ ht => exact ht ▸ endHandler_fixed s
  | activity a hm hh hr he =>
    exact Fixed.trans .of_blk (resumeAgent_fixed a { s with running := none }
      (fun c hp => spares a c _ _ (.running hm hh hr hp)) t he)
  | rest _ ht => rw [ht]; exact .refl s
  | instr m ms i u next hf he =>
    exact instr_fixed hf he (fun x a w ops hm => hT x a w ops ms (hm ▸ next))
      fun x a w ops hm => hR x a w ops ms (hm ▸ next)
  | move m ms next he => exact takeMove_fixed next he (fun draw hm => attach draw ms (hm ▸ next)) spares

/-! ### The fields one by one -/

/-- Equal fields of a start, each by itself, in front of what else is claimed. -/
theorem Bus.startFields_and {Q : Prop} {b c : Bus} (h : c.startFields = b.startFields) (hq : Q) :
    c.ssHcnt = b.ssHcnt ∧ c.ssLcnt = b.ssLcnt ∧ c.fsHcnt = b.fsHcnt ∧ c.fsLcnt = b.fsLcnt ∧
      c.sdaHold = b.sdaHold ∧ c.txFifoDepth = b.txFifoDepth ∧ c.rxFifoDepth = b.rxFifoDepth ∧
      c.regBase = b.regBase ∧ c.regSize = b.regSize ∧ Q := by
  simp only [Bus.startFields, Prod.mk.injEq, TimingOut.mk.injEq, and_assoc] at h
  simp only [h, hq, and_self]

theorem Bus.budget_eq {b c : Bus} (h : c.budget = b.budget) :
    c.retries = b.retries ∧ c.functionality = b.functionality := Prod.mk.inj h

/-- Settles O58: `exec_fixed` for the instructions, `step_fixed` for the steps. -/
theorem whoWritesConstants : Obligations.WhoWritesConstants := by
  refine ⟨fun i s t _ he => ?instruction, ?step⟩
  case instruction =>
    have k := exec_fixed (T := i ≠ .lifeStart) (R := i ≠ .lifeStart ∧ i ≠ .lifeStop) i s id id t he
    obtain ⟨hr, hf⟩ := Bus.budget_eq k.budget
    exact ⟨k.par, hr, hf, fun hs => Bus.startFields_and (k.start hs) fun hp => k.ready ⟨hs, hp⟩⟩
  case step =>
    intro s t e attach begins starts
    have k : Fixed (¬ starts) (¬ starts ∧ ¬ begins .lifeStop ∧
        ∀ a k prov u g, ¬ GoesOn a (.disable k (.configure (.start prov))) s u g) s t := by
      have noStart : ¬ starts → ∀ a w ops ms, NextMove (.request a w ops) ms s →
          decodeReq a.port w ≠ .ok .lifeStart := fun hs a w ops ms next hd => hs (.inl ⟨a, w, ops, ms, next, hd⟩)
      have noBegin : ¬ starts → ∀ a c u g, GoesOn a c s u g → ∀ prov, c ≠ .start prov :=
        fun hs a c u g on prov hc => hs (.inr ⟨a, prov, u, g, hc ▸ on⟩)
      refine step_fixed e attach (fun a c u g on => ⟨fun hs => noBegin hs a c u g on, fun ⟨hs, _, hpoll⟩ =>
        ⟨noBegin hs a c u g on, fun k prov hc => hpoll a k prov u g (hc ▸ on)⟩⟩) noStart ?_
      exact fun ⟨hs, hstop, _⟩ a w ops ms next =>
        ⟨noStart hs a w ops ms next, fun hd => hstop ⟨a, w, ops, ms, next, hd⟩⟩
    obtain ⟨hr, hf⟩ := Bus.budget_eq k.budget
    exact ⟨k.par, hr, hf, fun hs => Bus.startFields_and (k.start hs)
      fun hstop hpoll => k.ready ⟨hs, hstop, hpoll⟩⟩

end Sys2Proof.Machine
end

section
/-!
SUPPORT. The primitive updates that every step is made of keep byte memory in its canonical form (log 6): a byte is
written to the buffers or to a target's registers by `Memory.write` alone.
-/

namespace Sys2Proof.Machine

variable {P : Prop} {s t : State}

/-- Register contents lost and drawn anew leave the targets as they were. -/
theorem Ctl.replaced_wf (draw : Ctl) {c : Ctl} (h : c.TargetsWf) : (Ctl.replaced draw c).TargetsWf := h

/-- A new target holds no register contents yet (log 24). -/
theorem Ctl.newTarget_wf (addr : BitVec 7) (page : Byte) {c : Ctl} (h : c.TargetsWf) :
    Ctl.TargetsWf { c with targets := c.targets ++ [⟨addr, page, none, []⟩] } := by
  intro d hd
  rcases List.mem_append.mp hd with hd | hd
  · exact h d hd
  · rw [List.mem_singleton.mp hd]
    rfl

/-- A register read leaves the targets as Ctl's turn before it left them. -/
theorem regRead_targetsWf (r : Reg) (h : s.ctl.TargetsWf) : (regRead r s).2.ctl.TargetsWf := by
  unfold Ctl.TargetsWf
  rw [regRead_ctl, Ctl.afterRead_targets]
  exact ctlTurn_wf s h

/-- So does a register write. -/
theorem regWrite_targetsWf (r : Reg) (v : Word) (h : s.ctl.TargetsWf) :
    (regWrite r v s).ctl.TargetsWf := by
  unfold Ctl.TargetsWf
  rw [regWrite_ctl, Ctl.writeReg_targets]
  exact ctlTurn_wf s h

/-- Every primitive update keeps the byte memories canonical. -/
theorem Prim.memWf (p : Prim P s t) (h : s.MemWf) : t.MemWf := by
  obtain ⟨hm, ht⟩ := h
  cases p with
  | read r => exact ⟨by rwa [regRead_mem], regRead_targetsWf r ht⟩
  | write r v _ => exact ⟨by rwa [regWrite_mem], regWrite_targetsWf r v ht⟩
  | store x b => exact ⟨Memory.wf_write s.mem x b hm, ht⟩
  | ctl m => exact ⟨hm, Ctl.move_wf s.par m s.ctl ht⟩
  | sendByte dat stop restart => exact ⟨hm, Ctl.execWrite_wf dat stop restart s.ctl ht⟩
  | readByte stop restart => exact ⟨hm, Ctl.execRead_wf s.par stop restart s.ctl ht⟩
  | target addr page => exact ⟨hm, Ctl.newTarget_wf addr page ht⟩
  | lose draw => exact ⟨hm, Ctl.replaced_wf _ ht⟩
  | gate | blk | caller | devs | book | pop => exact ⟨hm, ht⟩

/-- A sequence of them. -/
theorem Reach.memWf (k : Reach P s t) (h : s.MemWf) : t.MemWf := by
  induction k with
  | refl => exact h
  | tail _ p ih => exact p.memWf ih

/-- The creation of S keeps the buffers and the targets' register contents (45_lifecycle.md R393, log 27). -/
theorem attachBus_memWf (draw : Ctl) (h : s.MemWf) : (attachBus draw s).MemWf := by
  unfold attachBus
  split
  · exact h
  · exact ⟨h.1, Ctl.replaced_wf _ h.2⟩

/-- Settles O53: by `step_reach` a step is primitive updates, each of which keeps the canonical form, or the
creation of S. -/
theorem stepKeepsMemory : Obligations.StepKeepsMemory := by
  intro s t h e
  rcases step_reach (P := False) s t False.elim e with k | ⟨-, -, draw, ms, -, rfl⟩
  · exact k.memWf h
  · exact attachBus_memWf draw h

end Sys2Proof.Machine
end

section
/-!
SUPPORT. The gate's operations one by one (20_memory.md R120 to R123), and the requests of the bus controller and
of the lifecycle that enter it.
-/

namespace Sys2Proof.Machine

variable {s : State} {a : Agent} {g : Gate}

/-- A free gate is entered once (20_memory.md R120). -/
theorem Gate.acquire_free (h : g.owner = none) :
    g.acquire a = some { g with owner := some a, depth := 1 } := by
  simp [Gate.acquire, h]

/-- The owner's entry again (20_memory.md R120). -/
theorem Gate.acquire_own (h : g.owner = some a) : g.acquire a = some { g with depth := g.depth + 1 } := by
  simp [Gate.acquire, h]

/-- Waiting changes the waiters alone (20_memory.md R120). -/
theorem Gate.wait_eq (a : Agent) (g : Gate) : g.wait a = { g with waiters := (g.wait a).waiters } := by
  unfold Gate.wait
  split <;> rfl

/-- A requester that waits is among the waiters. -/
theorem Gate.mem_wait (a : Agent) (g : Gate) : a ∈ (g.wait a).waiters := by
  unfold Gate.wait
  split
  · next h => simpa using h
  · simp

/-- The owner leaves an inner entry (20_memory.md R121). -/
theorem Gate.release_deep (h : g.owner = some a) (hd : 2 ≤ g.depth) :
    g.release a = some { g with depth := g.depth - 1 } := by
  have one : 1 ≤ g.depth := by omega
  have last : g.depth ≠ 1 := by omega
  simp [Gate.release, h, one, last]

/-- The owner leaves its outermost entry, and the gate is free (20_memory.md R121). -/
theorem Gate.release_outermost (h : g.owner = some a) (hd : g.depth = 1) :
    g.release a = some { g with owner := none, depth := 0 } := by
  simp [Gate.release, h, hd]

/-- Nobody else leaves it (20_memory.md R121). -/
theorem Gate.release_foreign (h : g.owner ≠ some a) : g.release a = none := by
  simp [Gate.release, h]

/-- The free gate is granted to any waiter, which is no waiter any more (20_memory.md R123). -/
theorem Gate.grant_free (h : g.owner = none) (ha : a ∈ g.waiters) :
    g.grant a = some ⟨some a, 1, g.waiters.filter fun b => !decide (b = a)⟩ := by
  simp [Gate.grant, h, ha]

/-- A held gate is granted to nobody (20_memory.md R123). -/
theorem Gate.grant_held (h : g.owner ≠ none) : g.grant a = none := by simp [Gate.grant, h]

/-- A waiter granted the gate goes on where it suspended (20_memory.md R123). -/
theorem grantGate_of {c : Cont} (hp : (s.agent a).point = .gate c) (hg : s.blk.gate.grant a = some g) :
    grantGate a s = runCont a c (park a .idle (s.setGate g)) := by
  unfold grantGate
  rw [hp, hg]

/-- A release by a requester that does not own the gate is a fault (20_memory.md R121). -/
theorem gateRelease_foreign (h : s.blk.gate.owner ≠ some a) :
    gateRelease a s = .fault .callerObligation := by
  simp [gateRelease, Gate.release_foreign h]

/-- The common precondition of the BUS_* requests met, the request enters the gate (40_timing_and_bus.md
R204). -/
theorem busRequest_ready (hm : s.blk.mapped = true) (hp : s.blk.powered = true) (c : Cont)
    (body : Agent → State → Flow) : busRequest c body s = withGate s.cur c (body s.cur) s := by
  simp [busRequest, hm, hp]

/-- LIFE_START with its precondition met enters the gate (45_lifecycle.md R390). -/
theorem execLifeStart_ready (hm : s.blk.mapped = false) (hr : s.blk.ready = false)
    (hp : s.blk.powered = true) :
    execLifeStart s = withGate s.cur (.start (s.opsOf s.cur).provider)
      (startBody (s.opsOf s.cur).provider s.cur) s := by
  simp [execLifeStart, hm, hr, hp]

/-- LIFE_STOP of a started bus writes S.ready false and enters the gate (45_lifecycle.md R392). -/
theorem execLifeStop_started (hm : s.blk.mapped = true) :
    execLifeStop s = withGate s.cur .stop (stopBody s.cur) { s with blk := { s.blk with ready := false } } := by
  simp [execLifeStop, hm]

/-- Settles O12: the gate's operations by the laws above, and each request by `withGate_open`. -/
theorem gateRules : Obligations.GateRules := by
  refine ⟨fun g a => ⟨Gate.acquire_free, Gate.acquire_own, fun b h hb => ?waits, Gate.release_deep,
    Gate.release_outermost, Gate.release_foreign, fun h ha => ?granted, Gate.grant_held⟩,
    fun s a c g ms next hp hg => ?goesOn, fun s a h => gateRelease_foreign h, fun s hw ho => ?requests⟩
  case waits =>
    refine ⟨Gate.acquire_taken h hb, Gate.mem_wait a g, ?_, ?_⟩ <;> rw [Gate.wait_eq]
    exact h
  case granted => exact ⟨_, Gate.grant_free h ha, rfl, rfl, fun b => by simp⟩
  case goesOn =>
    rw [step_move next]
    exact grantGate_of (s := { s with sched := ms }) hp hg
  case requests =>
    intro a o u
    have enters : ∀ c body, withGate a c body s = body u := fun c body => withGate_open c body hw ho
    refine ⟨fun hm hp => ?bus, enters (.power o.enabled) _, fun hm hr hp => ?start, fun hm => ?stop⟩
    case bus =>
      have bus : ∀ c (body : Agent → State → Flow), busRequest c body s = body a u :=
        fun c body => (busRequest_ready hm hp c body).trans (enters c _)
      exact ⟨bus .busEnable busEnableBody, bus .busDisable busDisableBody, bus .busConfigure busConfigureBody,
        bus .busMask busMaskBody, bus (.busClear o.kind) (busClearBody o.kind)⟩
    case start => exact (execLifeStart_ready hm hr hp).trans (enters (.start o.provider) _)
    case stop =>
      exact (execLifeStop_started hm).trans
        (withGate_open (s := { s with blk := { s.blk with ready := false } }) .stop _ hw ho)

end Sys2Proof.Machine
end

section
/-!
SUPPORT. What a request does while another requester owns the gate (20_memory.md R120, 41_transfer_engine.md R259):
it ends at once or joins the waiters, and changes nothing but its own record and its first scratch buffer.
-/

namespace Sys2Proof.Machine

variable {s t u : State} {a b : Agent}

/-! ### What stays -/

/-- But for `a`'s record, its first scratch buffer and the gate's waiters, `t` is as `s`. -/
structure Aside (a : Agent) (s t : State) : Prop where
  access : NoAccess s t
  rest   : SameRest s t
  others : OnlyAgent a s t
  devs   : t.devs = s.devs
  blk    : t.blk = { s.blk with gate := { s.blk.gate with waiters := t.blk.gate.waiters } }
  mem    : SameMemBut (bufAddr (.t0 a) 0) 34 s t

theorem NoAccess.trans (h : NoAccess s t) (k : NoAccess t u) : NoAccess s u :=
  ⟨k.ctl.trans h.ctl, k.ctlPlan.trans h.ctlPlan, k.io.trans h.io, k.fresh.trans h.fresh⟩

theorem Aside.trans (h : Aside a s t) (k : Aside a t u) : Aside a s u where
  access := h.access.trans k.access
  rest := h.rest.trans k.rest
  others := fun b hb => (k.others b hb).trans (h.others b hb)
  devs := k.devs.trans h.devs
  blk := k.blk.trans (by rw [h.blk])
  mem := fun x hx => (k.mem x hx).trans (h.mem x hx)

/-- A change of `a`'s record. -/
theorem Aside.caller (c : Caller) : Aside a s (s.setAgent a c) :=
  ⟨⟨rfl, rfl, rfl, rfl⟩, ⟨rfl, rfl, rfl, rfl, rfl, rfl⟩, fun _ hb => agent_setAgent_ne s a _ c hb, rfl, rfl,
    fun _ _ => rfl⟩

/-- Bytes put in `a`'s first scratch buffer. -/
theorem Aside.scratch {bs : List Byte} (h : bs.length ≤ 34) :
    Aside a s { s with mem := s.mem.writeAll (bufAddr (scratch0 a).id 0) bs } :=
  ⟨⟨rfl, rfl, rfl, rfl⟩, ⟨rfl, rfl, rfl, rfl, rfl, rfl⟩, fun _ _ => rfl, rfl, rfl, scratch_out s.mem a h⟩

/-- Operations entered around `a`'s transfer. -/
theorem Aside.push (fs : List Frame) : Aside a s (pushFrames a fs s) := .caller _

/-- `a` joins the waiters. -/
theorem Aside.wait : Aside a s (s.setGate (s.blk.gate.wait a)) :=
  ⟨⟨rfl, rfl, rfl, rfl⟩, ⟨rfl, rfl, rfl, rfl, rfl, rfl⟩, fun _ _ => rfl, rfl,
    congrArg (fun g => { s.blk with gate := g }) (Gate.wait_eq a _), fun _ _ => rfl⟩

/-! ### How a request ends or waits -/

/-- `a`'s request is over, or it waits for the gate. -/
def Settled (a : Agent) (t : State) : Prop :=
  ((t.agent a).req = none ∧ (t.agent a).result ≠ none) ∨
    (a ∈ t.blk.gate.waiters ∧ ∃ c, (t.agent a).point = .gate c)

/-- An operation of `a` that settles its request and touches nothing else. -/
def StandsAside (a : Agent) (s : State) (o : Flow) : Prop := ∃ t, o = .next t ∧ Aside a s t ∧ Settled a t

theorem StandsAside.of {o : Flow} (h : Aside a s u) (k : StandsAside a u o) : StandsAside a s o := by
  obtain ⟨t, ho, ht, hs⟩ := k
  exact ⟨t, ho, h.trans ht, hs⟩

/-- A result posted. -/
theorem post_standsAside (r : Result) (s : State) : StandsAside a s (.next (post a r s)) := by
  refine ⟨_, rfl, .caller _, .inl ?_⟩
  rw [agent_post_self]
  exact ⟨rfl, nofun⟩

/-- A gated operation waits (20_memory.md R120). -/
theorem withGate_standsAside (c : Cont) (body : State → Flow) (h : s.blk.gate.owner = some b) (hb : b ≠ a) :
    StandsAside a s (withGate a c body s) := by
  refine ⟨_, withGate_taken c body h hb, Aside.wait.trans (.caller _), .inr ⟨Gate.mem_wait a _, c, ?_⟩⟩
  rw [agent_park_self]

/-- A failure other than BusBusyTimeout goes through operations that have not entered the gate unchanged and is
posted (60_exceptions.md R406). -/
theorem retFrames_failure {r : Result} (hr : r.code ≠ .ok) (hb : r.code ≠ .busBusyTimeout) {fs : List Frame}
    (h : stackHolds fs = 0) : retFrames a fs r s = .next (post a r s) := by
  induction fs with
  | nil => rfl
  | cons f fs ih =>
    obtain ⟨hf, hfs⟩ : f.holds = 0 ∧ stackHolds fs = 0 := by
      simpa [stackHolds] using h
    cases f with
    | retry left msgs count => simpa [retFrames, hb] using ih hfs
    | smbus cb => simpa [retFrames, hr] using ih hfs
    | gated | setPage | selected | block | probe | f01 => exact absurd hf Nat.one_ne_zero

/-- Such a failure settles the request. -/
theorem ret_standsAside {r : Result} (hr : r.code ≠ .ok) (hb : r.code ≠ .busBusyTimeout)
    (h : stackHolds (s.agent a).stack = 0) : StandsAside a s (ret a r s) := by
  rw [ret, retFrames_failure hr hb h]
  exact post_standsAside r s

/-- With no operation around it every result does. -/
theorem ret_standsAside_of_nil (r : Result) (h : (s.agent a).stack = []) : StandsAside a s (ret a r s) := by
  rw [ret_of_nil r h]
  exact post_standsAside r s

/-! ### S.ready -/

/-- The state with S.ready written. -/
def State.setReady (s : State) (r : Bool) : State := { s with blk := { s.blk with ready := r } }

theorem setReady_noAccess (s : State) (r : Bool) : NoAccess s (s.setReady r) := ⟨rfl, rfl, rfl, rfl⟩

theorem setReady_rest (s : State) (r : Bool) : SameRest s (s.setReady r) := ⟨rfl, rfl, rfl, rfl, rfl, rfl⟩

/-- S.ready as a request that stands aside leaves it: LIFE_STOP of a started bus writes it false before its gate
(45_lifecycle.md R392). -/
def Bus.readyAfter (k : Bus) (i : Instr) : Bool := if i = .lifeStop ∧ k.mapped = true then false else k.ready

theorem Bus.readyAfter_kept {k : Bus} {i : Instr} (h : i ≠ .lifeStop ∨ k.mapped = false) :
    k.readyAfter i = k.ready := if_neg fun ⟨hi, hm⟩ => h.elim (absurd hi) (fun e => by simp [e] at hm)

theorem Bus.readyAfter_stop {k : Bus} (h : k.mapped = true) : k.readyAfter .lifeStop = false := if_pos ⟨rfl, h⟩

/-! ### What a request does -/

/-- XFER step 1 fails with InvalidArgument or DisableTimeout (41_transfer_engine.md R242). -/
theorem validate_code {k : Bus} {msgs : List Msg} {count : Half} {c : Code} (h : validate k msgs count = some c) :
    c = .invalidArgument ∨ c = .disableTimeout := by
  unfold validate at h
  split at h
  · cases h; exact .inl rfl
  · split at h
    · cases h; exact .inl rfl
    · split at h
      · cases h; exact .inr rfl
      · split at h <;> cases h
        exact .inl rfl

/-- A mapped SMBus transfer puts at most 34 bytes in the scratch buffer: the command, a length and a block
(43_smbus.md R329). -/
theorem smbusMap_bytes {size : SizeClass} {rw : Bool} {o : Operands} {m : Memory} {k : Mapped}
    (h : smbusMap a size rw o m = some k) : k.bytes.length ≤ 34 := by
  have block : ∀ {l : Byte}, blockLenOk l = true → l.toNat ≤ 32 := fun e => (of_decide_eq_true e).2
  cases size <;> cases rw <;> simp only [smbusMap, Option.ite_none_right_eq_some, Option.some.injEq] at h
  case blockData.false | i2cBlockData.false =>
    obtain ⟨hl, rfl⟩ := h
    have := block hl
    simp only [List.length_cons, unionPayload, Memory.readAll_length]
    omega
  all_goals
    subst h
    simp

section
variable (ho : s.blk.gate.owner = some b) (hb : b ≠ a)
include ho hb

/-- XFER up to its gate (41_transfer_engine.md R242, R243), in operations that have not entered the gate. -/
theorem xferStart_standsAside (msgs : List Msg) (count : Half) (h : stackHolds (s.agent a).stack = 0) :
    StandsAside a s (xferStart a msgs count s) := by
  unfold xferStart
  split
  · next c hc =>
    refine ret_standsAside ?_ ?_ h <;> rcases validate_code hc with rfl | rfl <;> decide
  · exact withGate_standsAside _ _ ho hb

/-- XFER in operations entered for it, none of which has entered the gate. -/
theorem pushed_standsAside {fs : List Frame} (hf : stackHolds fs = 0) (msgs : List Msg) (count : Half)
    (h : (s.agent a).stack = []) : StandsAside a s (xferStart a msgs count (pushFrames a fs s)) := by
  refine .of (.push fs) (xferStart_standsAside (s := pushFrames a fs s) ho hb _ _ ?_)
  rw [push_stack, hf, h]
  rfl

/-- An SMBus transfer up to the gate of its XFER (43_smbus.md R320). -/
theorem smbusXfer_standsAside (size : SizeClass) (rw : Bool) (h : (s.agent a).stack = []) :
    StandsAside a s (smbusXfer size rw a s) := by
  have fails : StandsAside a s (ret a (Result.fail .invalidArgument) s) := ret_standsAside_of_nil _ h
  unfold smbusXfer
  simp only []
  split
  · exact fails
  · split
    · exact fails
    · next k hk =>
      split
      · exact fails
      · refine .of (.scratch (smbusMap_bytes hk)) ?_
        exact pushed_standsAside (by exact ho) hb (fs := [.smbus k.back]) rfl _ _ h

/-- A block access up to its gate (44_rmi4.md R364, R365). -/
theorem blockAccess_standsAside (blk : Block) (h : (s.agent a).stack = []) :
    StandsAside a s (blockAccess blk a s) := by
  unfold blockAccess
  split
  · exact ret_standsAside_of_nil _ h
  · exact withGate_standsAside _ _ ho hb

end

section
variable (hs : s.AtRequest) (ho : s.blk.gate.owner = some b) (hb : b ≠ s.cur)
include hs

/-- An RMI_* request stands aside where what follows its checks does. -/
theorem rmiRequest_standsAside {body : State → Flow} (h : StandsAside s.cur s (body s)) :
    StandsAside s.cur s (rmiRequest body s) := by
  unfold rmiRequest
  split
  · exact ret_standsAside_of_nil _ hs
  · exact h

/-- TIMING_COMPUTE has no gate (40_timing_and_bus.md R200). -/
theorem execTimingCompute_standsAside : StandsAside s.cur s (execTimingCompute s) := by
  unfold execTimingCompute
  simp only []
  split
  · exact ret_standsAside_of_nil _ hs
  · next o _ =>
    refine .of (.caller _) (ret_standsAside_of_nil _ ?_)
    rw [agent_setAgent_self]
    exact hs

include ho hb

/-- A BUS_* request with a precondition (40_timing_and_bus.md R204). -/
theorem busRequest_standsAside (c : Cont) (body : Agent → State → Flow) :
    StandsAside s.cur s (busRequest c body s) := by
  unfold busRequest
  split
  · exact ret_standsAside_of_nil _ hs
  · exact withGate_standsAside _ _ ho hb

/-- RMI_F01_INIT up to its gate (44_rmi4.md R368). -/
theorem execRmiF01Init_standsAside : StandsAside s.cur s (execRmiF01Init s) := by
  refine rmiRequest_standsAside hs ?_
  split
  · exact ret_standsAside_of_nil _ hs
  · exact withGate_standsAside _ _ ho hb

/-- LIFE_START up to its gate (45_lifecycle.md R390). -/
theorem execLifeStart_standsAside : StandsAside s.cur s (execLifeStart s) := by
  unfold execLifeStart
  simp only []
  split
  · exact ret_standsAside_of_nil _ hs
  · exact withGate_standsAside _ _ ho hb

/-- Every request but LIFE_STOP stands aside. -/
theorem exec_standsAside {i : Instr} (hi : IsRequest i) (hstop : i ≠ .lifeStop) :
    StandsAside s.cur s (exec i s) := by
  have bus : ∀ c body, StandsAside s.cur s (busRequest c body s) := busRequest_standsAside hs ho hb
  have gate : ∀ c body, StandsAside s.cur s (withGate s.cur c body s) :=
    fun c body => withGate_standsAside c body ho hb
  have smb : ∀ size rw, StandsAside s.cur s (smbusRequest size rw s) :=
    fun size rw => smbusXfer_standsAside ho hb size rw hs
  have block : ∀ blk, StandsAside s.cur s (blockAccess blk s.cur s) :=
    fun blk => blockAccess_standsAside ho hb blk hs
  cases i with
  | busEnable | busDisable | busConfigure | busMaskIntr | busClearIntr => exact bus _ _
  | busPower => exact gate _ _
  | timingCompute => exact execTimingCompute_standsAside hs
  | xfer => exact xferStart_standsAside ho hb _ _ (by rw [hs]; rfl)
  | i2cTransfer => exact pushed_standsAside ho hb (fs := [.retry _ _ _]) rfl _ _ hs
  | rmiSetPage | rmiProbe => exact rmiRequest_standsAside hs (gate _ _)
  | rmiReadBlock | rmiWriteBlock => exact rmiRequest_standsAside hs (block _)
  | rmiF01Init => exact execRmiF01Init_standsAside hs ho hb
  | lifeStart => exact execLifeStart_standsAside hs ho hb
  | lifeStop => exact absurd rfl hstop
  | smbusUnsupported | gatedUnsupported => exact ret_standsAside_of_nil _ hs
  | smbusQuickW | smbusByteW | smbusByteDataW | smbusWordDataW | smbusBlockDataW | smbusI2cBlockDataW
  | smbusQuickR | smbusByteR | smbusByteDataR | smbusWordDataR | smbusBlockDataR | smbusI2cBlockDataR =>
    unfold exec
    exact smb _ _
  | gatedQuickW | gatedByteW | gatedByteDataW | gatedWordDataW | gatedBlockDataW | gatedI2cBlockDataW
  | gatedQuickR | gatedByteR | gatedByteDataR | gatedWordDataR | gatedBlockDataR | gatedI2cBlockDataR =>
    exact gate _ _
  | evtIrq | evtTimeout | irqTxAbrt | irqRxFull | irqTxEmpty | irqStopDet | dcWrite | dcRead => cases hi

/-- LIFE_STOP stands aside from its first write on; of a bus not started it ends before (45_lifecycle.md R392). -/
theorem execLifeStop_standsAside : StandsAside s.cur (s.setReady (s.blk.readyAfter .lifeStop)) (execLifeStop s) := by
  unfold execLifeStop
  split
  · next hm =>
    rw [Bus.readyAfter_kept (.inr hm)]
    exact ret_standsAside_of_nil _ hs
  · next hm =>
    rw [Bus.readyAfter_stop (Bool.eq_true_of_not_eq_false hm)]
    exact withGate_standsAside _ _ ho hb

end

/-- Settles O13: every request stands aside, LIFE_STOP from S.ready false on. -/
theorem takenGateHoldsRequests : Obligations.TakenGateHoldsRequests := by
  intro s i b hi hs ho hb
  have aside : StandsAside s.cur (s.setReady (s.blk.readyAfter i)) (exec i s) := by
    by_cases h : i = .lifeStop
    · exact h ▸ execLifeStop_standsAside hs ho hb
    · rw [Bus.readyAfter_kept (.inl h)]
      exact exec_standsAside hs ho hb hi h
  obtain ⟨t, he, ht, hend⟩ := aside
  have hr : t.blk.ready = s.blk.readyAfter i := by rw [ht.blk]; rfl
  exact ⟨t, he, (setReady_noAccess s _).trans ht.access, (setReady_rest s _).trans ht.rest, ht.others,
    ht.devs, ht.blk.trans (by rw [hr]; rfl), fun h => hr.trans (Bus.readyAfter_kept h),
    fun h hm => hr.trans (h ▸ Bus.readyAfter_stop hm), hend, ht.mem⟩

end Sys2Proof.Machine
end

section
/-!
SUPPORT. The words of 30_encoding.md bit by bit: the fields of an assembled request or command word, that a word
of zero reserved bits is the one assembled from its fields, and which words decode to what.
-/

namespace Sys2Proof

/-! ### Request words -/

/-- Bit `k` of a request word (30_encoding.md R141). -/
theorem getLsbD_reqWord (opc : Byte) (size : BitVec 4) (rw : Bool) (k : Nat) :
    (reqWord opc size rw).getLsbD k =
      if k < 8 then opc.getLsbD k else if k < 12 then size.getLsbD (k - 8)
      else if k = 12 then rw else false := by
  simp only [reqWord, BitVec.getLsbD_append, BitVec.getLsbD_ofBool, BitVec.getLsbD_zero]
  grind

@[simp] theorem reqOpc_reqWord (opc : Byte) (size : BitVec 4) (rw : Bool) : reqOpc (reqWord opc size rw) = opc := by
  apply BitVec.eq_of_getLsbD_eq
  intro k hk
  simp [reqOpc, getLsbD_reqWord, hk]

@[simp] theorem reqSize_reqWord (opc : Byte) (size : BitVec 4) (rw : Bool) :
    reqSize (reqWord opc size rw) = size := by
  apply BitVec.eq_of_getLsbD_eq
  intro k hk
  have : 8 + k < 12 := by omega
  simp [reqSize, getLsbD_reqWord, hk, this]

@[simp] theorem reqRw_reqWord (opc : Byte) (size : BitVec 4) (rw : Bool) : reqRw (reqWord opc size rw) = rw :=
  getLsbD_reqWord opc size rw 12

@[simp] theorem reqRsv_reqWord (opc : Byte) (size : BitVec 4) (rw : Bool) :
    reqRsv (reqWord opc size rw) = 0#19 := by
  apply BitVec.eq_of_getLsbD_eq
  intro k hk
  have : ¬ 13 + k < 12 ∧ ¬ 13 + k < 8 ∧ 13 + k ≠ 12 := by omega
  simp [reqRsv, getLsbD_reqWord, this]

/-- A word is 0 from bit `n` on where the field there is. -/
theorem getLsbD_of_high {w : Word} {n m : Nat} (h : w.extractLsb' n m = 0#m) {k : Nat} (hn : n ≤ k)
    (hm : k < n + m) : w.getLsbD k = false := by
  have := congrArg (BitVec.getLsbD · (k - n)) h
  simpa [Nat.add_sub_cancel' hn, show k - n < m by omega] using this

/-- A word whose reserved bits are 0 is assembled from its fields (30_encoding.md R141). -/
theorem eq_reqWord {w : Word} (h : reqRsv w = 0#19) : w = reqWord (reqOpc w) (reqSize w) (reqRw w) := by
  apply BitVec.eq_of_getLsbD_eq
  intro k hk
  have high : 13 ≤ k → w.getLsbD k = false := fun hn => getLsbD_of_high h hn hk
  simp only [getLsbD_reqWord, reqOpc, reqSize, reqRw, BitVec.getLsbD_extractLsb']
  grind

/-! ### Command words -/

/-- Bit `k` of a command word (30_encoding.md R160). -/
theorem getLsbD_cmdWord (dat : Byte) (isRead stop restart : Bool) (k : Nat) :
    (cmdWord dat isRead stop restart).getLsbD k =
      if k < 8 then dat.getLsbD k else if k = 8 then isRead else if k = 9 then stop
      else if k = 10 then restart else false := by
  simp only [cmdWord, BitVec.getLsbD_append, BitVec.getLsbD_ofBool, BitVec.getLsbD_zero]
  grind

@[simp] theorem cmdWord_dat (dat : Byte) (isRead stop restart : Bool) :
    (cmdWord dat isRead stop restart).extractLsb' 0 8 = dat := by
  apply BitVec.eq_of_getLsbD_eq
  intro k hk
  simp [getLsbD_cmdWord, hk]

@[simp] theorem cmdWord_reserved (dat : Byte) (isRead stop restart : Bool) :
    (cmdWord dat isRead stop restart).extractLsb' 11 21 = 0#21 := by
  apply BitVec.eq_of_getLsbD_eq
  intro k hk
  have : ¬ 11 + k < 8 ∧ 11 + k ≠ 8 ∧ 11 + k ≠ 9 ∧ 11 + k ≠ 10 := by omega
  simp [getLsbD_cmdWord, this]

/-- A word whose reserved bits are 0 is assembled from its fields (30_encoding.md R160). -/
theorem eq_cmdWord {w : Word} (h : w.extractLsb' 11 21 = 0#21) :
    w = cmdWord (w.extractLsb' 0 8) (w.getLsbD 8) (w.getLsbD 9) (w.getLsbD 10) := by
  apply BitVec.eq_of_getLsbD_eq
  intro k hk
  have high : 11 ≤ k → w.getLsbD k = false := fun hn => getLsbD_of_high h hn hk
  simp only [getLsbD_cmdWord, BitVec.getLsbD_extractLsb']
  grind

/-- A command word is decoded into its fields (30_encoding.md R160). -/
theorem decodeCmd_cmdWord (dat : Byte) (stop restart : Bool) :
    decodeCmd (cmdWord dat false stop restart) = .ok (.dcWrite dat stop restart) ∧
      decodeCmd (cmdWord 0#8 true stop restart) = .ok (.dcRead stop restart) := by
  constructor <;> simp only [decodeCmd, cmdWord_reserved, cmdWord_dat, getLsbD_cmdWord] <;> rfl

/-- A command word that decodes is the word of the command (30_encoding.md R160). -/
theorem decodeCmd_ok {w : Word} {i : Instr} (h : decodeCmd w = .ok i) :
    encode i = w ∧ i.wf = true ∧ i.format = .dataCmd := by
  unfold decodeCmd at h
  split at h
  · cases h
  · next hr =>
    have hw := eq_cmdWord (not_not.mp hr)
    split at h
    · next h8 =>
      split at h <;> cases h
      next hd =>
      rw [h8, not_not.mp hd] at hw
      exact ⟨hw.symm, rfl, rfl⟩
    · next h8 =>
      cases h
      rw [Bool.eq_false_of_not_eq_true h8] at hw
      exact ⟨hw.symm, rfl, rfl⟩

/-- An event word that decodes is the word of the event (30_encoding.md R156). -/
theorem decodeEvt_ok {w : Word} {i : Instr} (h : decodeEvt w = .ok i) :
    encode i = w ∧ i.wf = true ∧ i.format = .evt := by
  unfold decodeEvt at h
  split at h
  · cases h
  · split at h
    · next hw => cases h; exact ⟨hw.symm, rfl, rfl⟩
    · split at h <;> cases h
      next hw => exact ⟨hw.symm, rfl, rfl⟩

/-! ### The rows of the request table -/

/-- The OPC of an operation (30_encoding.md R142). -/
def Opcode.code : Opcode → Byte
  | .busEnable => 0x01#8
  | .busDisable => 0x02#8
  | .busConfigure => 0x03#8
  | .busMaskIntr => 0x04#8
  | .busClearIntr => 0x05#8
  | .busPower => 0x06#8
  | .timingCompute => 0x07#8
  | .xfer => 0x10#8
  | .i2cTransfer => 0x11#8
  | .smbusXfer => 0x20#8
  | .smbusXferGated => 0x21#8
  | .rmiSetPage => 0x30#8
  | .rmiReadBlock => 0x31#8
  | .rmiWriteBlock => 0x32#8
  | .rmiProbe => 0x33#8
  | .rmiF01Init => 0x34#8
  | .lifeStart => 0x40#8
  | .lifeStop => 0x41#8

/-- The table pairs each operation with its OPC. -/
theorem opcodeTable_code : ∀ e ∈ opcodeTable, e.1 = e.2.code := by decide

/-- The table has one OPC per operation. -/
theorem opcodeTable_lookup_iff {b : Byte} {op : Opcode} : opcodeTable.lookup b = some op ↔ b = op.code := by
  constructor
  · exact fun h => opcodeTable_code _ (lookup_mem h)
  · rintro rfl
    cases op <;> rfl

/-- Which request words decode on a port, and to what (30_encoding.md R147): those of an operation's OPC with SIZE
and RW 0 where it is no SMBus operation, which the port accepts. -/
theorem decodeReq_ok_iff {p : Port} {w : Word} {i : Instr} :
    decodeReq p w = .ok i ↔ reqRsv w = 0#19 ∧ ∃ op : Opcode, reqOpc w = op.code ∧
      (op.isSmbus = false → reqSize w = 0#4 ∧ reqRw w = false) ∧
      (p = .caller → op.onCallerPort = true) ∧ i = op.row (reqSize w) (reqRw w) := by
  have fields : ∀ op : Opcode, ¬ (op.isSmbus = false ∧ (reqSize w ≠ 0#4 ∨ reqRw w = true)) ↔
      (op.isSmbus = false → reqSize w = 0#4 ∧ reqRw w = false) := fun op => by
    simp only [not_and, not_or, not_not, Bool.not_eq_true]
  have port : ∀ op : Opcode, ¬ (p = .caller ∧ op.onCallerPort = false) ↔
      (p = .caller → op.onCallerPort = true) := fun op => by
    simp only [not_and, Bool.not_eq_false]
  constructor
  · intro h
    unfold decodeReq at h
    split at h
    · cases h
    · next hr =>
      split at h
      · split at h <;> cases h
      · next op ho =>
        split at h
        · cases h
        · next hf =>
          split at h
          · cases h
          · next hp =>
            cases h
            exact ⟨not_not.mp hr, op, opcodeTable_lookup_iff.mp ho, (fields op).mp hf, (port op).mp hp,
              rfl⟩
  · rintro ⟨hr, op, ho, hf, hp, rfl⟩
    have table := opcodeTable_lookup_iff.mpr ho
    unfold decodeReq
    rw [if_neg (not_not.mpr hr), table]
    exact (if_neg ((fields op).mpr hf)).trans (if_neg ((port op).mpr hp))

/-- The word of an SMBus row holds its SIZE and RW (30_encoding.md R143, R144, R182). -/
theorem encode_smbusRow (size : BitVec 4) (rw : Bool) :
    encode (smbusRow size rw) = reqWord 0x20#8 size rw ∧ (smbusRow size rw).wf = true ∧
    encode (gatedRow size rw) = reqWord 0x21#8 size rw ∧ (gatedRow size rw).wf = true := by
  revert size rw
  decide

/-- The word of a row is assembled from the operation's OPC and the row's SIZE and RW, and the row is well formed
(30_encoding.md R147). -/
theorem encode_row {op : Opcode} {size : BitVec 4} {rw : Bool}
    (h : op.isSmbus = false → size = 0#4 ∧ rw = false) :
    encode (op.row size rw) = reqWord op.code size rw ∧ (op.row size rw).wf = true := by
  obtain ⟨smbus, smbusWf, gated, gatedWf⟩ := encode_smbusRow size rw
  cases op with
  | smbusXfer => exact ⟨smbus, smbusWf⟩
  | smbusXferGated => exact ⟨gated, gatedWf⟩
  | _ =>
    obtain ⟨rfl, rfl⟩ := h rfl
    exact ⟨by rfl, by rfl⟩

/-- A SIZE outside the six classes makes an unsupported row (30_encoding.md R143). -/
theorem smbusRow_unsupported {size : BitVec 4} (h : sizeSupported size = false) (rw : Bool) :
    smbusRow size rw = .smbusUnsupported size rw ∧ gatedRow size rw = .gatedUnsupported size rw := by
  simp only [sizeSupported, Bool.or_eq_false_iff, beq_eq_false_iff_ne] at h
  obtain ⟨⟨⟨⟨⟨h0, h1⟩, h2⟩, h3⟩, h5⟩, h8⟩ := h
  simp [smbusRow, gatedRow, h0, h1, h2, h3, h5, h8]

/-- A row's word decodes to the row on the platform port (30_encoding.md R146, R147). -/
theorem decodeReq_row {op : Opcode} {size : BitVec 4} {rw : Bool}
    (h : op.isSmbus = false → size = 0#4 ∧ rw = false) :
    decodeReq .platform (encode (op.row size rw)) = .ok (op.row size rw) := by
  rw [(encode_row h).1, decodeReq_ok_iff]
  simpa using ⟨op, rfl, h, rfl⟩

/-- So does an unsupported row's word (30_encoding.md R147). -/
theorem decodeReq_unsupported {size : BitVec 4} (h : sizeSupported size = false) (rw : Bool) :
    decodeReq .platform (encode (.smbusUnsupported size rw)) = .ok (.smbusUnsupported size rw) ∧
      decodeReq .platform (encode (.gatedUnsupported size rw)) = .ok (.gatedUnsupported size rw) := by
  obtain ⟨hs, hg⟩ := smbusRow_unsupported h rw
  rw [← hs, ← hg]
  exact ⟨decodeReq_row (op := .smbusXfer) nofun, decodeReq_row (op := .smbusXferGated) nofun⟩

/-- The OPC table's first column (30_encoding.md R142). -/
theorem code_mem_iff (b : Byte) : b ∈ opcodeTable.map (·.1) ↔ ∃ op : Opcode, b = op.code := by
  constructor
  · intro h
    obtain ⟨e, he, rfl⟩ := List.mem_map.mp h
    exact ⟨e.2, opcodeTable_code e he⟩
  · rintro ⟨op, rfl⟩
    exact List.mem_map.mpr ⟨_, lookup_mem (opcodeTable_lookup_iff.mpr rfl), rfl⟩

/-- The SMBus operations by their OPC (30_encoding.md R145). -/
theorem isSmbus_iff (op : Opcode) : op.isSmbus = true ↔ op.code = 0x20#8 ∨ op.code = 0x21#8 := by
  cases op <;> decide

/-- The operations of the caller port by their OPC (30_encoding.md R146). -/
theorem onCallerPort_iff (op : Opcode) : op.onCallerPort = true ↔ op.code ∈
    [0x10#8, 0x11#8, 0x20#8, 0x21#8, 0x30#8, 0x31#8, 0x32#8, 0x33#8, 0x34#8] := by
  cases op <;> decide

/-! ### The statements -/

/-- Settles O1: the fixed words by evaluation, the words with fields by the fields' own lemmas. -/
theorem encodeDecodes : Obligations.EncodeDecodes := by
  intro i hw
  cases i with
  | smbusUnsupported size rw =>
    exact (decodeReq_unsupported (by simpa [Instr.wf] using hw) rw).1
  | gatedUnsupported size rw =>
    exact (decodeReq_unsupported (by simpa [Instr.wf] using hw) rw).2
  | dcWrite dat stop restart => exact (decodeCmd_cmdWord dat stop restart).1
  | dcRead stop restart => exact (decodeCmd_cmdWord 0#8 stop restart).2
  | _ => rfl

/-- Settles O2: a request word is assembled from its row, an event or command word from its fields. -/
theorem decodedWordIsEncoded : Obligations.DecodedWordIsEncoded := by
  intro f w i hf h
  cases f with
  | req p =>
    have request : i.format = .req .platform := Machine.decodeReq_isRequest h
    obtain ⟨hr, op, ho, hstray, -, rfl⟩ := decodeReq_ok_iff.mp h
    obtain ⟨he, hw⟩ := encode_row hstray
    refine ⟨by rw [he, ← ho, ← eq_reqWord hr], hw, ?_⟩
    cases p with
    | caller => exact .inr ⟨rfl, request⟩
    | platform => exact .inl request
  | evt => exact (decodeEvt_ok h).imp_right fun ⟨hw, he⟩ => ⟨hw, .inl he⟩
  | intrStat => exact absurd rfl hf
  | dataCmd => exact (decodeCmd_ok h).imp_right fun ⟨hw, he⟩ => ⟨hw, .inl he⟩

/-- Settles O3: `decodeReq_ok_iff`, its operation named by its OPC. -/
theorem legalRequestWords : Obligations.LegalRequestWords := by
  intro p w
  have stray : ∀ op : Opcode, (op.isSmbus = false → reqSize w = 0#4 ∧ reqRw w = false) ↔
      (op.code = 0x20#8 ∨ op.code = 0x21#8 ∨ (reqSize w = 0#4 ∧ reqRw w = false)) := fun op => by
    rw [← or_assoc, ← isSmbus_iff, ← Bool.not_eq_true, not_imp_comm, ← or_iff_not_imp_right]
  calc (∃ i, decodeReq p w = .ok i)
    _ ↔ reqRsv w = 0#19 ∧ ∃ op : Opcode, reqOpc w = op.code ∧
          (op.isSmbus = false → reqSize w = 0#4 ∧ reqRw w = false) ∧
          (p = .caller → op.onCallerPort = true) := by
        simp only [decodeReq_ok_iff]
        exact ⟨fun ⟨_, hr, op, ho, hs, hp, _⟩ => ⟨hr, op, ho, hs, hp⟩,
          fun ⟨hr, op, ho, hs, hp⟩ => ⟨_, hr, op, ho, hs, hp, rfl⟩⟩
    _ ↔ reqRsv w = 0#19 ∧ (∃ op : Opcode, reqOpc w = op.code) ∧
          (reqOpc w = 0x20#8 ∨ reqOpc w = 0x21#8 ∨ (reqSize w = 0#4 ∧ reqRw w = false)) ∧
          (p = .caller → reqOpc w ∈
            [0x10#8, 0x11#8, 0x20#8, 0x21#8, 0x30#8, 0x31#8, 0x32#8, 0x33#8, 0x34#8]) := by
        simp only [stray, onCallerPort_iff]
        exact and_congr_right fun _ =>
          ⟨fun ⟨op, ho, hs, hp⟩ => ⟨⟨op, ho⟩, ho ▸ hs, ho ▸ hp⟩,
            fun ⟨⟨op, ho⟩, hs, hp⟩ => ⟨op, ho, ho ▸ hs, ho ▸ hp⟩⟩
    _ ↔ _ := by rw [← code_mem_iff]; rfl

/-- Settles O4: the words of the spec's tables, by evaluation. -/
theorem wordsFromTheSpec : Obligations.WordsFromTheSpec := by
  unfold Obligations.WordsFromTheSpec
  exact ⟨rfl, rfl, rfl, rfl, rfl, rfl, rfl, rfl, rfl, rfl, rfl, rfl⟩

end Sys2Proof
end

section
/-!
SUPPORT. INTR_MASK (30_encoding.md R164, 42_interrupt_fifo.md R306) over the primitive updates that every step is
made of, and an illegal request word (30_encoding.md R170).
-/

namespace Sys2Proof.Machine

variable {P : Prop} {s t : State}

/-- A register read leaves INTR_MASK. -/
theorem Ctl.afterRead_intrMask (r : Reg) (c : Ctl) : (Ctl.afterRead r c).intrMask = c.intrMask := by
  cases r with
  | dataCmd => simp only [Ctl.afterRead]; split <;> rfl
  | _ => rfl

/-- So does a write of another register. -/
theorem Ctl.writeReg_intrMask (p : Params) {r : Reg} (h : r ≠ .intrMask) (v : Word) (c : Ctl) :
    (Ctl.writeReg p r v c).intrMask = c.intrMask := by
  cases r with
  | intrMask => exact absurd rfl h
  | con | tar | ssSclHcnt | ssSclLcnt | fsSclHcnt | fsSclLcnt | sdaHold | dataCmd =>
    simp only [Ctl.writeReg]
    split <;> rfl
  | _ => rfl

/-- What is left of INTR_MASK after a loss of register contents is one of the three values or the old one
(log 25). -/
theorem Ctl.lost_intrMask (draw old : Ctl) :
    (Ctl.lost draw old).intrMask = old.intrMask ∨ LegalMask (Ctl.lost draw old).intrMask := by
  unfold Ctl.lost
  simp only []
  split
  · next h => exact .inr (by simpa [maskValues, LegalMask, noTxEmptyMask, defaultMask] using h)
  · exact .inl rfl

/-- INTR_MASK is as before, or holds a value the block writes. -/
def MaskKept (s t : State) : Prop := t.ctl.intrMask = s.ctl.intrMask ∨ LegalMask t.ctl.intrMask

theorem MaskKept.trans {u : State} (h : MaskKept s t) (k : MaskKept t u) : MaskKept s u :=
  k.elim (fun e => h.imp e.trans fun l => e ▸ l) .inr

/-- Every primitive update keeps INTR_MASK so: of the register writes only those of INTR_MASK change it, and they
write one of its three values. -/
theorem Prim.maskKept (p : Prim P s t) : MaskKept s t := by
  have turn : (ctlTurn s).ctl.intrMask = s.ctl.intrMask := (ctlTurn_keeps s).intrMask
  cases p with
  | read r => exact .inl (by rw [regRead_ctl, Ctl.afterRead_intrMask, turn])
  | write r v h =>
    by_cases hr : r = .intrMask
    · subst hr
      exact .inr (by rw [regWrite_ctl]; exact h rfl)
    · exact .inl (by rw [regWrite_ctl, Ctl.writeReg_intrMask _ hr, turn])
  | ctl m => exact .inl (Ctl.move_keeps s.par m s.ctl).intrMask
  | sendByte dat stop restart => exact .inl (Ctl.execWrite_keeps dat stop restart s.ctl).intrMask
  | readByte stop restart => exact .inl (Ctl.execRead_keeps s.par stop restart s.ctl).intrMask
  | lose draw => exact Ctl.lost_intrMask draw s.ctl
  | gate | blk | caller | store | devs | book | pop | target => exact .inl rfl

/-- A sequence of them. -/
theorem Reach.maskKept (k : Reach P s t) : MaskKept s t := by
  induction k with
  | refl => exact .inl rfl
  | tail _ p ih => exact ih.trans p.maskKept

/-- Settles O6: the word is refused at its submission, and the refusal is a posted result. -/
theorem illegalRequestChangesNothing : Obligations.IllegalRequestChangesNothing := by
  intro s a w ops ms e next ha hk hr hd
  have refused : step s = .next (refuseWord a w { s with sched := ms }) := by
    rw [step_move next, takeMove, submit_illegal (s := { s with sched := ms }) ha hk hr hd]
  exact ⟨_, refused, .post_of rfl (fun _ => rfl) (.refl _), rfl, rfl, ⟨rfl, rfl, rfl, rfl⟩⟩

end Sys2Proof.Machine

namespace Sys2Proof

/-- Settles O57: by `Machine.step_reach` a step is primitive updates, each of which keeps the mask to its values, or
the creation of S. -/
theorem maskValues : Obligations.MaskValues := by
  intro s t e
  rcases Machine.step_reach (P := False) s t False.elim e with k | ⟨-, -, draw, ms, hs, rfl⟩
  · exact k.maskKept.imp_right .inl
  · cases ha : s.attached with
    | true => exact .inl (by simp [Machine.attachBus])
    | false => exact .inr (.inr ⟨rfl, draw, by rw [hs]; rfl⟩)

end Sys2Proof
end

section
/-!
SUPPORT. Where a transfer begins (41_transfer_engine.md R240 to R250): at once, or where a suspended request
goes on.
-/

namespace Sys2Proof.Machine

variable {s t u : State} {a : Agent} {msgs : List Msg} {count : Half} {g g' : Gate} {n : Nat}

/-! ### A requester that goes on -/

/-- What an arming says of the state a requester goes on in, it says of the one its step comes from. -/
theorem Armed.of_park {fs : List Frame} {first : List Access}
    (h : Armed a msgs fs first (park a .idle (u.setGate g)) t) : Armed a msgs fs first u t := by
  have := h.of (s := u) (io := []) rfl ⟨⟨rfl, rfl, rfl, rfl, rfl⟩, rfl, rfl⟩ rfl
    ⟨.idle, (u.agent a).stack, agent_park_self (u.setGate g) a .idle⟩
    (fun b hb => agent_park_ne (u.setGate g) a b .idle hb) rfl ⟨rfl, rfl, rfl, rfl, rfl, rfl⟩
  rwa [List.append_nil] at this

/-- So does a beginning. -/
theorem Began.of_park {fs : List Frame} (h : Began a msgs fs g' (park a .idle (u.setGate g)) t n) :
    Began a msgs fs g' u t n := by
  obtain ⟨v, hv, armed⟩ := h.armed
  exact ⟨h.blk, v, hv, armed.of_park⟩

/-- A free bus is as free where the request goes on. -/
theorem GoesOn.busFree {c : Cont} (on : GoesOn a c s u g) (hf : s.BusFree) :
    (park a .idle (u.setGate g)).BusFree := by
  obtain ⟨-, ⟨hctl, hplan, hpar, -, -⟩, -⟩ := on.acts
  exact BusFree.congr hpar hctl hplan hf

/-- A suspended request begins a transfer where its rule, going on, does, inside the operations around it. -/
theorem GoesOn.began {c : Cont} (on : GoesOn a c s u g)
    (begins : ∃ t, runCont a c (park a .idle (u.setGate g)) = .next t ∧ t.mem = (park a .idle (u.setGate g)).mem ∧
      Began a msgs ((park a .idle (u.setGate g)).agent a).stack g' (park a .idle (u.setGate g)) t n) :
    ∃ t, step s = .next t ∧ SameMem s t ∧ Began a msgs (s.agent a).stack g' u t n := by
  obtain ⟨t, run, mem, b⟩ := begins
  obtain ⟨acts, -, -⟩ := on.acts
  obtain ⟨p, caller⟩ := acts.caller
  rw [caller] at b
  exact ⟨t, (step_goesOn on).trans run, fun x => by rw [mem, acts.mem], b.of_park⟩

/-! ### The disable of a beginning -/

/-- A later disable poll that is acknowledged arms the transfer (41_transfer_engine.md R245, 40_timing_and_bus.md
R206). -/
theorem disablePoll_armed (k : Nat) (v : State) (msgs : List Msg) (acked : (ctlTurn v).ctl.icEn = false) :
    ∃ t, disablePoll a k (.xfer msgs) v = .next t ∧ t.mem = v.mem ∧
      Armed a msgs (v.agent a).stack [.read .enableStatus (some 0#32)] v t ∧
      t.blk = { v.blk with
        status := (msgAt msgs 0).dir, xphase := .transferActive, disableUnacked := false } := by
  obtain ⟨w, hw⟩ : ∃ w, w = setUnacked false (regRead .enableStatus v).2 := ⟨_, rfl⟩
  have run : disablePoll a k (.xfer msgs) v = .next (xferArm a msgs w) := by
    rw [disablePoll_acked a k _ acked, hw]
    rfl
  have ctl : w.ctl = (ctlTurn v).ctl := by rw [hw, setUnacked_ctl, regRead_ctl]; rfl
  have io : w.io = [.read .enableStatus (some 0#32)] ++ v.io := by
    rw [hw, setUnacked_io, regRead_io]
    simp [Ctl.readValue, acked, bitIf]
  have agents : w.agents = v.agents := by rw [hw, setUnacked_agents, regRead_agents]
  have rest : SameRest v w := by rw [hw]; constructor <;> simp
  have keeps := ctlTurn_keeps v
  have off : w.ctl.icEn = false := ctl ▸ acked
  have counts : v.ctl.SameCounts w.ctl := by
    rw [ctl]
    exact ⟨⟨keeps.ssHcnt, keeps.ssLcnt, keeps.fsHcnt, keeps.fsLcnt, keeps.sdaHold⟩, keeps.rxTl, keeps.txTl⟩
  obtain ⟨blk, -, -, -, -, -, -, -, -, -, mem, -, -⟩ := xferArm_began (a := a) w msgs off
  have armed := (xferArm_armed (a := a) w msgs off).of (by rw [ctl, keeps.con]) counts io
    ⟨_, _, agent_congr agents a⟩ (fun b _ => agent_congr agents b) (by rw [hw]; simp) rest
  rw [agent_congr agents] at armed
  exact ⟨_, run, by rw [mem, hw]; simp, armed, by rw [blk, hw]; simp⟩

/-- The same where a suspended request goes on with its disable. -/
theorem GoesOn.armed {k : Nat} (on : GoesOn a (.disable k (.xfer msgs)) s u g)
    (acked : (ctlTurn s).ctl.icEn = false) :
    ∃ t, step s = .next t ∧ SameMem s t ∧
      Armed a msgs (s.agent a).stack [.read .enableStatus (some 0#32)] u t ∧
      t.blk = { s.blk with
        status := (msgAt msgs 0).dir, xphase := .transferActive, disableUnacked := false, gate := g } := by
  obtain ⟨acts, ⟨hctl, hplan, hpar, -, -⟩, hb⟩ := on.acts
  obtain ⟨p, caller⟩ := acts.caller
  obtain ⟨t, run, mem, arm, blk⟩ := disablePoll_armed (a := a) k (park a .idle (u.setGate g)) msgs
    (by rw [(ctlTurn_congr hpar hctl hplan).1]; exact acked)
  rw [caller] at arm
  exact ⟨t, (step_goesOn on).trans run, fun x => by rw [mem, acts.mem], arm.of_park, by rw [blk, hb]⟩

/-! ### A request that begins at once, or waits -/

/-- An accepted transfer comes to its gate (41_transfer_engine.md R242, R243). -/
theorem xferStart_accepted (hb : s.blk.Accepts) (h0 : count.toNat ≠ 0) (hc : count.toNat = msgs.length)
    (hm : GoodMsgs msgs) :
    xferStart a msgs count s = withGate a (.xferGate msgs count) (xferGated a msgs count) s := by
  rw [xferStart, validate_none hb h0 hc hm]

/-- A transfer inside operations entered for it waits for a gate another holds (41_transfer_engine.md R243, R260). -/
theorem xferStart_pushed_waits (hs : (s.agent a).stack = []) (hg : s.blk.gate.TakenFrom a) (hb : s.blk.Accepts)
    (h0 : count.toNat ≠ 0) (hc : count.toNat = msgs.length) (hm : GoodMsgs msgs) (fs : List Frame) :
    ∃ t, xferStart a msgs count (pushFrames a fs s) = .next t ∧
      Paused a (.gate (.xferGate msgs count)) fs s t ∧ NoAccess s t ∧ t.devs = s.devs ∧
      t.blk = { s.blk with gate := s.blk.gate.wait a } := by
  obtain ⟨b, owner, hne⟩ := hg
  have waits := (xferStart_accepted (s := pushFrames a fs s) hb h0 hc hm).trans
    (withGate_taken (s := pushFrames a fs s) _ _ owner hne)
  refine ⟨_, waits, ⟨?_, fun c hc => ?_, fun _ => rfl, ⟨rfl, rfl, rfl, rfl, rfl, rfl⟩⟩, ⟨rfl, rfl, rfl, rfl⟩,
    rfl, rfl⟩
  · rw [agent_park_self, agent_setGate, agent_pushFrames_self, hs, List.append_nil]
  · rw [agent_park_ne _ _ _ _ hc, agent_setGate, agent_pushFrames_ne _ _ _ _ hc]

/-- A transfer that enters the gate at once begins inside the operations entered for it (41_transfer_engine.md
R240, R260). -/
theorem xferStart_pushed_began (hs : (s.agent a).stack = []) (hb : s.blk.Accepts)
    (hg : s.blk.gate.acquire a = some g) (h0 : count.toNat ≠ 0) (hc : count.toNat = msgs.length)
    (hm : GoodMsgs msgs) (hf : s.BusFree) (fs : List Frame) :
    ∃ t, xferStart a msgs count (pushFrames a fs s) = .next t ∧ SameMem s t ∧ Began a msgs fs g s t := by
  obtain ⟨t, run, mem, b⟩ := xferStart_began (pushFrames a fs s) msgs count hb hg h0 hc hm
    (BusFree.congr (s := s) (u := pushFrames a fs s) rfl rfl rfl hf)
  rw [agent_pushFrames_self, hs, List.append_nil] at b
  exact ⟨t, run, fun x => by rw [mem, pushFrames_mem], b.of rfl rfl rfl ⟨_, fs, by
    rw [agent_pushFrames_self, hs, List.append_nil]⟩ (fun c hc => agent_pushFrames_ne s a c fs hc) rfl
    ⟨rfl, rfl, rfl, rfl, rfl, rfl⟩⟩

/-- Settles O21: at once by `xferStart_began`, where a request goes on by `GoesOn.began` and `GoesOn.armed`. -/
theorem xferBegins : Obligations.XferBegins := by
  refine ⟨fun s hs hb hg => ?taken, fun s hs hb hw ho hf => ?atOnce, fun s u a msgs count g hc => ?goesOn⟩
  case taken =>
    intro msgs count h0 hc hm
    exact ⟨waitsForGate_of _ (xferStart_accepted hb h0 hc hm) hs hg,
      xferStart_pushed_waits hs hg hb h0 hc hm [.retry s.blk.retries msgs count]⟩
  case atOnce =>
    intro msgs count h0 hc hm
    have enters := Gate.acquire_open hw ho
    obtain ⟨t, run, mem, began⟩ := xferStart_began s msgs count hb enters h0 hc hm hf
    rw [hs] at began
    exact ⟨⟨t, run, fun x => by rw [mem], began⟩,
      xferStart_pushed_began hs hb enters h0 hc hm hf [.retry s.blk.retries msgs count]⟩
  case goesOn =>
    intro fs
    refine ⟨fun on hr hp hf => ?granted, fun on hb h0 hm hw ho hf => ?next, fun on hf => ?again,
      fun k on acked => on.armed acked⟩
    case granted =>
      obtain ⟨-, -, blk⟩ := on.acts
      exact on.began (xferGated_began _ msgs count (by rw [blk]; exact hr) (by rw [blk]; exact hp) hc
        (on.busFree hf))
    case next =>
      obtain ⟨-, -, blk⟩ := on.acts
      exact on.began (xferStart_began _ msgs count (by rw [blk]; exact hb) (Gate.acquire_open hw ho) h0 hc hm
        (on.busFree hf))
    case again =>
      obtain ⟨-, -, blk⟩ := on.acts
      have polls : s.blk.pollCount = (park a .idle (u.setGate g)).blk.pollCount := by rw [blk]
      rw [polls]
      exact on.began (busyPoll_began _ msgs count hc (on.busFree hf))

end Sys2Proof.Machine
end

section
/-!
SUPPORT. The BUS_* requests (40_timing_and_bus.md R204 to R215): what entering the gate and posting the result leave
as it was, and the requests of one register access.
-/

namespace Sys2Proof.Machine

variable {s b v : State} {a : Agent} {g : Gate}

/-! ### Register accesses from states that differ outside the controller -/

/-- Ctl's turn sees the parameters, the controller and the plan alone. -/
theorem Untouched.turn (h : Untouched s v) : Untouched (ctlTurn s) (ctlTurn v) := by
  obtain ⟨hc, hl, hp, hi, hf⟩ := h
  obtain ⟨tc, tl⟩ := ctlTurn_congr hp hc hl
  exact ⟨tc, tl, by simpa using hp, by simpa using hi, by simpa using hf⟩

theorem Untouched.par (h : Untouched s v) : v.par = s.par := by
  obtain ⟨-, -, hp, -, -⟩ := h
  exact hp

theorem Untouched.write (h : Untouched s v) (r : Reg) (x : Word) :
    Untouched (regWrite r x s) (regWrite r x v) := by
  obtain ⟨tc, tl, -, -, -⟩ := h.turn
  obtain ⟨-, -, hp, hi, hf⟩ := h
  refine ⟨?_, ?_, ?_, ?_, ?_⟩ <;> simp [tc, tl, hp, hi, hf]

theorem Untouched.read (h : Untouched s v) (r : Reg) : Untouched (regRead r s).2 (regRead r v).2 := by
  obtain ⟨tc, tl, -, -, -⟩ := h.turn
  obtain ⟨-, -, hp, hi, hf⟩ := h
  refine ⟨?_, ?_, ?_, ?_, ?_⟩ <;> simp [regRead_snd, tc, tl, hp, hi, hf]

/-- A register write leaves a requester's activity where it is. -/
theorem ActsAt.write {fs : List Frame} {u : State} (h : ActsAt a fs s u v) (r : Reg) (x : Word) :
    ActsAt a fs s u (regWrite r x v) :=
  h.of (by simp) (by simp) (by simp) (by constructor <;> simp)

theorem ActsAt.read {fs : List Frame} {u : State} (h : ActsAt a fs s u v) (r : Reg) :
    ActsAt a fs s u (regRead r v).2 :=
  h.of (by simp) (by simp) (by simp) (by constructor <;> simp)

/-! ### The gate entered, and the result posted -/

/-- The gate released and the result posted end the request: but for its requester's record and the gate, the state
is as before (60_exceptions.md R400). -/
theorem ActsAt.posted (h : ActsAt a [] b b v) (hg : v.blk.gate.release a = some g) (r : Result) :
    ∃ t, releaseRet a r v = .next t ∧ Finished a r b t ∧ t.devs = b.devs ∧
      t.blk = { v.blk with gate := g } ∧ Untouched v t := by
  obtain ⟨p, hp⟩ := h.caller
  have nil : ((v.setGate g).agent a).stack = [] := by rw [agent_setGate, hp]
  refine ⟨post a r (v.setGate g), (releaseRet_of r hg).trans (ret_of_nil r nil), ⟨?_, fun c hc => ?_, ?_, ?_⟩,
    h.devs, rfl, rfl, rfl, rfl, rfl, rfl⟩
  · rw [agent_post_self, agent_setGate, hp]
  · rw [agent_post_ne _ _ _ _ hc]
    exact h.others c hc
  · exact fun x => by rw [post_mem, setGate_mem, h.mem]
  · exact h.rest.trans ⟨rfl, rfl, rfl, rfl, rfl, rfl⟩

/-- A suspension changes its requester's place alone. -/
theorem ActsAt.paused (h : ActsAt a [] b b v) (p : Point) : Paused a p [] b (park a p v) := by
  obtain ⟨q, hq⟩ := h.caller
  refine ⟨by rw [agent_park_self, hq], fun c hc => ?_, fun x => by rw [park_mem, h.mem],
    h.rest.trans ⟨rfl, rfl, rfl, rfl, rfl, rfl⟩⟩
  rw [agent_park_ne _ _ _ _ hc]
  exact h.others c hc

/-- A BUS_* request without the mapping or power fails (40_timing_and_bus.md R204). -/
theorem busRequest_unready {i : Instr} {k : Cont} {body : Agent → State → Flow} (hi : exec i s = busRequest k body s)
    (hs : s.AtRequest) (h : s.blk.mapped = false ∨ s.blk.powered = false) :
    EndsAtOnce i s ⟨.invalidArgument, 0#32, .ok⟩ :=
  endsAtOnce_of_ret (hi.trans (if_pos h)) hs

/-- With both it waits for a taken gate (40_timing_and_bus.md R204). -/
theorem busRequest_waits {i : Instr} {k : Cont} {body : Agent → State → Flow} (hi : exec i s = busRequest k body s)
    (hs : s.AtRequest) (hm : s.blk.mapped = true) (hp : s.blk.powered = true) (hg : s.blk.gate.TakenFrom s.cur) :
    WaitsForGate i k s :=
  waitsForGate_of _ (hi.trans (busRequest_ready hm hp k body)) hs hg

/-- With both it enters an open gate, to leave it as it was (40_timing_and_bus.md R204). -/
theorem busRequest_enters {i : Instr} {k : Cont} {body : Agent → State → Flow} (hi : exec i s = busRequest k body s)
    (hs : s.AtRequest) (hm : s.blk.mapped = true) (hp : s.blk.powered = true) (hw : s.blk.gate.Wf)
    (ho : s.blk.gate.OpenTo s.cur) :
    ∃ v, exec i s = body s.cur v ∧ ActsAt s.cur [] s s v ∧ Untouched s v ∧
      v.blk = { s.blk with gate := s.blk.gate.entered s.cur 1 } ∧ v.blk.gate.release s.cur = some s.blk.gate := by
  obtain ⟨v, hv, acts, untouched, blk⟩ := AtRequest_gate hs ⟨hw, ho⟩ k (body s.cur)
  exact ⟨v, (hi.trans (busRequest_ready hm hp k body)).trans hv, acts, untouched, blk,
    by rw [blk]; exact Gate.release_entered_one hw ho⟩

/-! ### BUS_ENABLE and BUS_MASK_INTR -/

/-- A BUS_* request whose whole effect is one register write (40_timing_and_bus.md R210, R214). -/
theorem busRequest_writes {i : Instr} {k : Cont} {r : Reg} {x : Word} (hs : s.AtRequest) (hm : s.blk.mapped = true)
    (hp : s.blk.powered = true) (hw : s.blk.gate.Wf) (ho : s.blk.gate.OpenTo s.cur)
    (hi : exec i s = busRequest k (fun a u => releaseRet a (Result.okValue 0#32) (regWrite r x u)) s) :
    ∃ t, exec i s = .next t ∧ Finished s.cur ⟨.ok, 0#32, .ok⟩ s t ∧ t.blk = s.blk ∧ t.devs = s.devs ∧
      t.ctl = Ctl.writeReg s.par r x (ctlTurn s).ctl ∧ t.io = .write r x :: s.io ∧ t.fresh = s.fresh := by
  obtain ⟨v, run, acts, untouched, blk, hg⟩ := busRequest_enters hi hs hm hp hw ho
  obtain ⟨t, post, fin, devs, tblk, tctl, -, -, tio, tfresh⟩ :=
    (acts.write r x).posted (g := s.blk.gate) (by simpa using hg) (Result.okValue 0#32)
  obtain ⟨wctl, -, -, wio, wfresh⟩ := untouched.write r x
  refine ⟨t, run.trans post, fin, ?_, devs, ?_, ?_, ?_⟩
  · rw [tblk, regWrite_blk, blk]
  · rw [tctl, wctl, regWrite_ctl]
  · rw [tio, wio, regWrite_io]
  · rw [tfresh, wfresh, regWrite_fresh]

/-- Settles O14: each enters the gate, makes its one write and posts OK. -/
theorem oneWriteRequests : Obligations.OneWriteRequests := by
  intro s hs writes
  refine ⟨fun h => ⟨busRequest_unready rfl hs h, busRequest_unready rfl hs h⟩, fun hm hp hw ho => ⟨?enable, ?mask⟩,
    fun hm hp hg => ⟨busRequest_waits rfl hs hm hp hg, busRequest_waits rfl hs hm hp hg⟩⟩
  case enable => exact busRequest_writes (i := .busEnable) (r := .enable) (x := 1#32) hs hm hp hw ho rfl
  case mask => exact busRequest_writes (i := .busMaskIntr) (r := .intrMask) (x := 0#32) hs hm hp hw ho rfl

/-! ### BUS_CLEAR_INTR -/

/-- A register whose read value is unspecified, read for its side effect (10_state.md R71). -/
theorem busClear_reads {x : Reg} (hs : s.AtRequest) (hm : s.blk.mapped = true) (hp : s.blk.powered = true)
    (hw : s.blk.gate.Wf) (ho : s.blk.gate.OpenTo s.cur) (hk : clearRegOf (s.opsOf s.cur).kind = some x)
    (hx : ∀ c, Ctl.readValue s.par x c = none) :
    ∃ t, exec .busClearIntr s = .next t ∧ Finished s.cur ⟨.ok, 0#32, .ok⟩ s t ∧ t.blk = s.blk ∧
      t.devs = s.devs ∧ t.ctl = Ctl.afterRead x (ctlTurn s).ctl ∧ t.io = .read x none :: s.io := by
  obtain ⟨v, run, acts, untouched, blk, hg⟩ := busRequest_enters (i := .busClearIntr) rfl hs hm hp hw ho
  obtain ⟨t, post, fin, devs, tblk, tctl, -, -, tio, -⟩ :=
    (acts.read x).posted (g := s.blk.gate) (by simpa using hg) (Result.okValue 0#32)
  obtain ⟨rctl, -, -, rio, -⟩ := untouched.read x
  refine ⟨t, run.trans ?_, fin, ?_, devs, ?_, ?_⟩
  · rw [busClearBody, hk]
    exact post
  · rw [tblk, regRead_blk, blk]
  · rw [tctl, rctl, regRead_ctl]
  · rw [tio, rio, regRead_io, hx]

/-- A kind without a clear register fails (40_timing_and_bus.md R215). -/
theorem busClear_fails (hs : s.AtRequest) (hm : s.blk.mapped = true) (hp : s.blk.powered = true)
    (hw : s.blk.gate.Wf) (ho : s.blk.gate.OpenTo s.cur) (hk : clearRegOf (s.opsOf s.cur).kind = none) :
    EndsAtOnce .busClearIntr s ⟨.invalidArgument, 0#32, .ok⟩ := by
  obtain ⟨v, run, acts, ⟨vctl, vplan, -, vio, vfresh⟩, blk, hg⟩ :=
    busRequest_enters (i := .busClearIntr) rfl hs hm hp hw ho
  obtain ⟨t, post, fin, devs, tblk, tctl, tplan, -, tio, tfresh⟩ := acts.posted hg (Result.fail .invalidArgument)
  refine ⟨t, run.trans ?_, fin, by rw [tblk, blk], devs, tctl.trans vctl, tplan.trans vplan, tio.trans vio,
    tfresh.trans vfresh⟩
  rw [busClearBody, hk]
  exact post

/-- A latched bit's own clear register (40_timing_and_bus.md R215, 10_state.md R71). -/
theorem clearRegOf_of_mem {kind : Byte} {e : Nat × Reg} (he : e ∈ clearRegs) (hk : kind.toNat = e.1) :
    clearRegOf kind = some e.2 ∧ (∀ p c, Ctl.readValue p e.2 c = none) ∧
      ∀ c, Ctl.afterRead e.2 c = Ctl.unlatch e.1 c := by
  obtain rfl : kind = BitVec.ofNat 8 e.1 := by rw [← hk, BitVec.ofNat_toNat, BitVec.setWidth_eq]
  have table : ∀ e ∈ clearRegs, clearRegOf (BitVec.ofNat 8 e.1) = some e.2 := by decide
  refine ⟨table e he, ?_⟩
  simp only [clearRegs, List.mem_cons, List.not_mem_nil, or_false] at he
  rcases he with rfl | rfl | rfl | rfl | rfl | rfl | rfl | rfl | rfl
  all_goals exact ⟨fun _ _ => rfl, fun _ => rfl⟩

/-- No other kind has one (40_timing_and_bus.md R215). -/
theorem clearRegOf_none {kind : Byte} (h : kind.toNat ∉ [0, 1, 3, 5, 6, 7, 8, 9, 10, 11, 0xFF]) :
    clearRegOf kind = none := by
  have all : kind ≠ 0xFF#8 := by rintro rfl; exact h (by decide)
  have abrt : kind ≠ 6#8 := by rintro rfl; exact h (by decide)
  rw [clearRegOf, if_neg all, if_neg abrt, List.lookup_eq_none_iff]
  intro e he
  have listed : ∀ e ∈ clearRegs, e.1 ∈ [0, 1, 3, 5, 6, 7, 8, 9, 10, 11, 0xFF] := by decide
  simpa using fun hk : kind.toNat = e.1 => h (hk ▸ listed e he)

/-- Settles O15: `busClear_reads` for a kind with a clear register, `busClear_fails` for another. -/
theorem busClearReads : Obligations.BusClearReads := by
  refine ⟨fun s hs hm hp hg => busRequest_waits rfl hs hm hp hg, fun s hs hw ho => ?_⟩
  intro kind c done
  refine ⟨busRequest_unready rfl hs, fun hm hp => ⟨fun hk => ?all, fun hk => ?abort, fun e he hk => ?bit, fun hk =>
    busClear_fails hs hm hp hw ho (clearRegOf_none hk)⟩⟩
  case all =>
    have hk : (s.opsOf s.cur).kind = 0xFF#8 := BitVec.eq_of_toNat_eq hk
    exact busClear_reads hs hm hp hw ho (by rw [hk]; rfl) fun _ => rfl
  case abort =>
    have hk : (s.opsOf s.cur).kind = 6#8 := BitVec.eq_of_toNat_eq hk
    exact busClear_reads hs hm hp hw ho (by rw [hk]; rfl) fun _ => rfl
  case bit =>
    obtain ⟨reg, unspecified, after⟩ := clearRegOf_of_mem (kind := (s.opsOf s.cur).kind) he hk
    obtain ⟨t, run, fin, blk, devs, ctl, io⟩ := busClear_reads hs hm hp hw ho reg (unspecified s.par)
    exact ⟨t, run, fin, blk, devs, ctl.trans (after _), io⟩

end Sys2Proof.Machine
end

section
/-!
SUPPORT. The polls of a disable (40_timing_and_bus.md R206): how each ends and what it leaves in the registers, for every
operation that begins with one.
-/

namespace Sys2Proof.Machine

variable {s b v : State} {a : Agent} {g : Gate} {c : Ctl}

/-- The registers Ctl leaves alone on its own are as before. -/
theorem Ctl.Keeps.sameRegs {d : Ctl} (k : Ctl.Keeps c d) : c.SameRegs d :=
  ⟨⟨k.con, k.tar, k.intrMask⟩, ⟨k.ssHcnt, k.ssLcnt, k.fsHcnt, k.fsLcnt, k.sdaHold⟩, k.rxTl, k.txTl⟩

theorem Ctl.SameRegs.trans {d e : Ctl} (h : c.SameRegs d) (k : d.SameRegs e) : c.SameRegs e := by
  refine ⟨?_, h.counts.trans k.counts⟩
  simp only [k.control, h.control, and_self]

/-- A write of ENABLE writes no other register (40_timing_and_bus.md R205, R206). -/
theorem Ctl.writeEnable_sameRegs (p : Params) (x : Word) (c : Ctl) : c.SameRegs (Ctl.writeReg p .enable x c) :=
  ⟨⟨rfl, rfl, rfl⟩, ⟨rfl, rfl, rfl, rfl, rfl⟩, rfl, rfl⟩

/-- The write `ctl_disable` begins with leaves ENABLE 0 and every other register of the block, up to the
ENABLE_STATUS read after it (40_timing_and_bus.md R206). -/
theorem ctlTurn_ctlOff (s : State) :
    (ctlTurn (ctlOff s)).ctl.enable = false ∧ s.ctl.SameRegs (ctlTurn (ctlOff s)).ctl := by
  have before := (ctlTurn_keeps s).sameRegs
  have after := ctlTurn_keeps (ctlOff s)
  rw [regWrite_ctl] at after
  exact ⟨after.enable, (before.trans (Ctl.writeEnable_sameRegs _ _ _)).trans after.sameRegs⟩

/-- An ENABLE_STATUS read finds the controller as Ctl's turn leaves it, and changes nothing of it (10_state.md
R68). -/
theorem Untouched.poll (h : Untouched s v) :
    (regRead .enableStatus v).2.ctl = (ctlTurn s).ctl ∧
      (regRead .enableStatus v).2.io = .read .enableStatus (some (bitIf 0 (ctlTurn s).ctl.icEn)) :: s.io := by
  obtain ⟨ctl, -, -, io, -⟩ := h.read .enableStatus
  rw [ctl, io, regRead_ctl, regRead_io]
  exact ⟨rfl, rfl⟩

/-- After it S.disable_unacked is written (40_timing_and_bus.md R206). -/
theorem ActsAt.poll (h : ActsAt a [] b b v) (x : Bool) :
    ActsAt a [] b b (setUnacked x (regRead .enableStatus v).2) :=
  (h.read .enableStatus).of rfl rfl rfl ⟨rfl, rfl, rfl, rfl, rfl, rfl⟩

/-- How poll `k` of a disable by `a` ends, for an operation that only returns DisableTimeout where the disable times
out (40_timing_and_bus.md R206): `Q` says what an acknowledged one leaves. `b` is the state whose request it is, `s`
the state whose registers are read. -/
theorem disablePoll_endings {k : Nat} {u : DisableUse} {Q : State → Prop}
    (failed : ∀ w, disableFailed a u w = releaseRet a (Result.fail .disableTimeout) w)
    (hv : ActsAt a [] b b v) (hu : Untouched s v) (hg : v.blk.gate.release a = some g)
    (acked : (ctlTurn s).ctl.icEn = false →
      ∃ t, disabled a u (setUnacked false (regRead .enableStatus v).2) = .next t ∧ t.devs = b.devs ∧ Q t) :
    ∃ t, disablePoll a k u v = .next t ∧ t.devs = b.devs ∧ ((ctlTurn s).ctl.icEn = false → Q t) ∧
      ((ctlTurn s).ctl.icEn = true →
        t.ctl = (ctlTurn s).ctl ∧ t.io = .read .enableStatus (some 1#32) :: s.io ∧
        (k < s.par.disablePollLimit →
          Paused a (.sleep (.disable (k + 1) u)) [] b t ∧ t.blk = v.blk) ∧
        (s.par.disablePollLimit ≤ k → Finished a ⟨.disableTimeout, 0#32, .ok⟩ b t ∧
          t.blk = { v.blk with disableUnacked := true, gate := g })) := by
  obtain ⟨turn, -, -, -, -⟩ := hu.turn
  have limit : v.par.disablePollLimit = s.par.disablePollLimit := by rw [hu.par]
  obtain ⟨pctl, pio⟩ := hu.poll
  have acts : ActsAt a [] b b (regRead .enableStatus v).2 := hv.read _
  cases hi : (ctlTurn s).ctl.icEn with
  | false =>
    obtain ⟨t, run, devs, q⟩ := acked hi
    exact ⟨t, (disablePoll_acked a k u (by rw [turn, hi])).trans run, devs, fun _ => q, nofun⟩
  | true =>
    rw [hi] at pio
    by_cases hk : k < s.par.disablePollLimit
    · refine ⟨_, disablePoll_sleeps a k u (by rw [turn, hi]) (limit ▸ hk), acts.devs, nofun, fun _ =>
        ⟨pctl, pio, fun _ => ⟨acts.paused _, regRead_blk _ _⟩, fun hn => absurd hk (by omega)⟩⟩
    · obtain ⟨t, post, fin, devs, blk, ctl, -, -, io, -⟩ :=
        (hv.poll true).posted (g := g) (by simpa using hg) (Result.fail .disableTimeout)
      refine ⟨t, (disablePoll_fails a k u (by rw [turn, hi]) (by omega)).trans ((failed _).trans post), devs, nofun,
        fun _ => ⟨ctl.trans pctl, io.trans pio, fun hk' => absurd hk' hk, fun _ => ⟨fin, ?_⟩⟩⟩
      rw [blk, setUnacked_blk, regRead_blk]

/-- How a disable by `a` ends at its first poll (40_timing_and_bus.md R206). -/
theorem ctlDisable_endings {u : DisableUse} {Q : State → Prop}
    (failed : ∀ w, disableFailed a u w = releaseRet a (Result.fail .disableTimeout) w)
    (hv : ActsAt a [] s s v) (hu : Untouched s v) (hg : v.blk.gate.release a = some g)
    (acked : s.DisableAcked →
      ∃ t, disabled a u (setUnacked false (regRead .enableStatus (ctlOff v)).2) = .next t ∧ t.devs = s.devs ∧ Q t) :
    ∃ t, ctlDisable a u v = .next t ∧ t.devs = s.devs ∧ (s.DisableAcked → Q t) ∧
      (¬ s.DisableAcked → s.par.disablePollLimit = 0 → Finished a ⟨.disableTimeout, 0#32, .ok⟩ s t ∧
        t.blk = { v.blk with disableUnacked := true, gate := g } ∧ Unacked s t) ∧
      (¬ s.DisableAcked → s.par.disablePollLimit ≠ 0 →
        Paused a (.sleep (.disable 1 u)) [] s t ∧ t.blk = v.blk ∧ Unacked s t) := by
  obtain ⟨t, run, devs, ok, late⟩ := disablePoll_endings (k := 0) (Q := Q) failed (hv.write .enable 0#32)
    (hu.write .enable 0#32) (g := g) (by simpa using hg) acked
  simp only [regWrite_par, regWrite_blk, regWrite_io] at late
  obtain ⟨enable, regs⟩ := ctlTurn_ctlOff s
  have unacked (h : ¬ s.DisableAcked) : Unacked s t := by
    obtain ⟨ctl, io, -⟩ := late (Bool.eq_true_of_not_eq_false h)
    exact ⟨ctl ▸ enable, ctl ▸ regs, io⟩
  refine ⟨t, run, devs, ok, fun h h0 => ?_, fun h h0 => ?_⟩
  all_goals obtain ⟨-, -, sleeps, fails⟩ := late (Bool.eq_true_of_not_eq_false h)
  · exact ⟨(fails (by omega)).1, (fails (by omega)).2, unacked h⟩
  · exact ⟨(sleeps (by omega)).1, (sleeps (by omega)).2, unacked h⟩

/-! ### BUS_DISABLE -/

/-- A later poll of a disable, its requester asleep outside any operation (40_timing_and_bus.md R206). -/
theorem step_disable {k : Nat} {u : DisableUse} {ms : List Move} (next : NextMove (.resume a) ms s)
    (hp : (s.agent a).point = .sleep (.disable k u)) (hs : (s.agent a).stack = []) :
    ∃ v, step s = disablePoll a k u v ∧ ActsAt a [] { s with sched := ms } { s with sched := ms } v ∧
      Untouched s v ∧ v.blk = s.blk := by
  refine ⟨park a .idle { s with sched := ms }, step_resume next (.inl hp), ?_, ⟨rfl, rfl, rfl, rfl, rfl⟩, rfl⟩
  have nil : (State.agent { s with sched := ms } a).stack = [] := hs
  refine ⟨rfl, rfl, ⟨.idle, ?_⟩, rfl, fun b hb => agent_park_ne _ _ _ _ hb, ⟨rfl, rfl, rfl, rfl, rfl, rfl⟩⟩
  rw [agent_park_self, ← nil]

/-- BUS_DISABLE acknowledged returns OK (40_timing_and_bus.md R212). -/
theorem disabled_bus (hv : ActsAt a [] b b v) (hu : Untouched s v) (hg : v.blk.gate.release a = some g) :
    ∃ t, disabled a .bus (setUnacked false (regRead .enableStatus v).2) = .next t ∧ t.devs = b.devs ∧
      Finished a ⟨.ok, 0#32, .ok⟩ b t ∧ t.blk = { v.blk with disableUnacked := false, gate := g } ∧
      t.ctl = (ctlTurn s).ctl ∧ t.io = .read .enableStatus (some (bitIf 0 (ctlTurn s).ctl.icEn)) :: s.io := by
  obtain ⟨pctl, pio⟩ := hu.poll
  obtain ⟨t, post, fin, devs, blk, ctl, -, -, io, -⟩ :=
    (hv.poll false).posted (g := g) (by simpa using hg) (Result.okValue 0#32)
  refine ⟨t, post, devs, fin, ?_, ctl.trans pctl, io.trans pio⟩
  rw [blk, setUnacked_blk, regRead_blk]

/-- Settles O16: the first poll by `ctlDisable_endings`, a later one by `disablePoll_endings`. -/
theorem busDisablePolls : Obligations.BusDisablePolls := by
  refine ⟨fun s hs h => busRequest_unready rfl hs h, fun s hs hm hp hg => busRequest_waits rfl hs hm hp hg,
    fun s hs hm hp hw ho => ?first, fun s a k ms next hp hs hg => ?later⟩
  case first =>
    obtain ⟨v, run, acts, untouched, blk, release⟩ := busRequest_enters (i := .busDisable) rfl hs hm hp hw ho
    obtain ⟨t, post, devs, acked, fails, sleeps⟩ := ctlDisable_endings (u := .bus) (fun _ => rfl) acts untouched release
      fun _ => disabled_bus (acts.write .enable 0#32) (untouched.write .enable 0#32) (by simpa using release)
    obtain ⟨enable, regs⟩ := ctlTurn_ctlOff s
    rw [regWrite_blk, blk] at acked
    rw [blk] at fails sleeps
    have off : s.ctl.SameRegs t.ctl ∧ t.ctl.enable = false := by
      by_cases h : s.DisableAcked
      · obtain ⟨-, -, ctl, -⟩ := acked h
        exact ctl ▸ ⟨regs, enable⟩
      · by_cases h0 : s.par.disablePollLimit = 0
        · obtain ⟨-, -, k⟩ := fails h h0
          exact ⟨k.kept, k.enable⟩
        · obtain ⟨-, -, k⟩ := sleeps h h0
          exact ⟨k.kept, k.enable⟩
    refine ⟨t, run.trans post, devs, off.1, off.2, fun h => ?_, fails, sleeps⟩
    obtain ⟨fin, tblk, ctl, io⟩ := acked h
    have status : (ctlTurn (ctlOff s)).ctl.icEn = false := h
    rw [status, regWrite_io] at io
    exact ⟨fin, tblk, ctl ▸ status, io⟩
  case later =>
    obtain ⟨v, run, acts, untouched, blk⟩ := step_disable next hp hs
    have release : v.blk.gate.release a = some ⟨none, 0, s.blk.gate.waiters⟩ := by
      rw [blk]; exact Gate.release_last hg
    obtain ⟨t, post, devs, acked, late⟩ := disablePoll_endings (k := k) (u := .bus) (fun _ => rfl) acts untouched
      release fun _ => disabled_bus acts untouched release
    rw [blk] at acked late
    cases hi : (ctlTurn s).ctl.icEn with
    | false =>
      obtain ⟨fin, tblk, ctl, io⟩ := acked hi
      exact ⟨t, run.trans post, devs, ctl, by rw [io, hi]; rfl, fun _ => ⟨fin, tblk⟩, nofun, nofun⟩
    | true =>
      obtain ⟨ctl, io, sleeps, fails⟩ := late hi
      exact ⟨t, run.trans post, devs, ctl, io, nofun, fun _ => sleeps, fun _ => fails⟩

end Sys2Proof.Machine
end

section
/-!
SUPPORT. `configure_proc` (40_timing_and_bus.md R208): the registers that a sequence of writes leaves in a disabled
controller, and BUS_CONFIGURE.
-/

namespace Sys2Proof.Machine

variable {s b v w t : State} {a : Agent} {g : Gate} {c : Ctl}

/-- The controller's registers that the block writes, and nothing else of it. -/
def Ctl.settings (c : Ctl) : Ctl :=
  { Ctl.created with
    con := c.con, tar := c.tar, ssHcnt := c.ssHcnt, ssLcnt := c.ssLcnt, fsHcnt := c.fsHcnt, fsLcnt := c.fsLcnt,
    sdaHold := c.sdaHold, intrMask := c.intrMask, rxTl := c.rxTl, txTl := c.txTl, enable := c.enable,
    icEn := c.icEn }

/-- While the controller is disabled Ctl's steps leave them all alone. -/
theorem Ctl.Keeps.settings {d : Ctl} (k : Ctl.Keeps c d) (off : c.icEn = false) : d.settings = c.settings := by
  have still : d.icEn = c.icEn := by
    rw [off, ← Bool.not_eq_true]
    exact fun h => by simpa [off] using k.icEn h
  simp only [Ctl.settings, k.con, k.tar, k.ssHcnt, k.ssLcnt, k.fsHcnt, k.fsLcnt, k.sdaHold, k.intrMask, k.rxTl,
    k.txTl, k.enable, still]

/-- A register write acts on them as on the controller. -/
theorem Ctl.settings_writeReg (p : Params) {r : Reg} (hr : r ≠ .dataCmd) (x : Word) (c : Ctl) :
    (Ctl.writeReg p r x c).settings = Ctl.writeReg p r x c.settings := by
  cases r with
  | dataCmd => exact absurd rfl hr
  | con | tar | ssSclHcnt | ssSclLcnt | fsSclHcnt | fsSclLcnt | sdaHold =>
    have same : c.settings.icEn = c.icEn := rfl
    simp only [Ctl.writeReg, same]
    split <;> rfl
  | _ => rfl

/-- No register write but ENABLE's changes whether the controller is enabled. -/
theorem Ctl.writeReg_icEn (p : Params) {r : Reg} (hr : r ≠ .enable) (x : Word) (c : Ctl) :
    (Ctl.writeReg p r x c).icEn = c.icEn := by
  cases r with
  | enable => exact absurd rfl hr
  | con | tar | ssSclHcnt | ssSclLcnt | fsSclHcnt | fsSclLcnt | sdaHold | dataCmd =>
    simp only [Ctl.writeReg]
    split <;> rfl
  | _ => rfl

/-- Register writes one after another. -/
def regWrites (l : List (Reg × Word)) (s : State) : State := l.foldl (fun s e => regWrite e.1 e.2 s) s

theorem regWrites_blk (l : List (Reg × Word)) (s : State) : (regWrites l s).blk = s.blk := by
  induction l generalizing s with
  | nil => rfl
  | cons e l ih => exact (ih _).trans (regWrite_blk _ _ _)

theorem regWrites_io (l : List (Reg × Word)) (s : State) :
    (regWrites l s).io = (l.map fun e => Access.write e.1 e.2).reverse ++ s.io := by
  induction l generalizing s with
  | nil => rfl
  | cons e l ih =>
    rw [List.map_cons, List.reverse_cons, List.append_assoc]
    exact (ih _).trans (congrArg _ (regWrite_io _ _ _))

theorem ActsAt.writes {fs : List Frame} {u : State} (l : List (Reg × Word)) (h : ActsAt a fs s u v) :
    ActsAt a fs s u (regWrites l v) := by
  induction l generalizing v with
  | nil => exact h
  | cons e l ih => exact ih (h.write e.1 e.2)

/-- Of a disabled controller, writes of neither ENABLE nor DATA_CMD set the registers as the writes say, whatever Ctl
does between them. -/
theorem regWrites_settings {l : List (Reg × Word)} (hl : ∀ e ∈ l, e.1 ≠ .enable ∧ e.1 ≠ .dataCmd)
    (off : s.ctl.icEn = false) :
    (regWrites l s).ctl.settings = l.foldl (fun c e => Ctl.writeReg s.par e.1 e.2 c) s.ctl.settings := by
  induction l generalizing s with
  | nil => rfl
  | cons e l ih =>
    obtain ⟨he, hd⟩ := hl e List.mem_cons_self
    have first : (regWrite e.1 e.2 s).ctl.settings = Ctl.writeReg s.par e.1 e.2 s.ctl.settings := by
      rw [regWrite_ctl, Ctl.settings_writeReg _ hd, (ctlTurn_keeps s).settings off]
    have still : (regWrite e.1 e.2 s).ctl.icEn = false := by
      rw [regWrite_ctl, Ctl.writeReg_icEn _ he, ctlTurn_icEn_false s off]
    have rest := ih (s := regWrite e.1 e.2 s) (fun x hx => hl x (List.mem_cons_of_mem _ hx)) still
    rw [regWrite_par, first] at rest
    exact rest

/-- The writes of `configure_proc` in order (40_timing_and_bus.md R208). -/
def configureValues (s : State) : List (Reg × Word) :=
  [(.con, conValue s.par.busSpeed), (.ssSclHcnt, s.blk.ssHcnt.setWidth 32), (.ssSclLcnt, s.blk.ssLcnt.setWidth 32),
    (.fsSclHcnt, s.blk.fsHcnt.setWidth 32), (.fsSclLcnt, s.blk.fsLcnt.setWidth 32),
    (.sdaHold, s.blk.sdaHold.setWidth 32), (.txTl, BitVec.ofNat 32 (s.blk.txFifoDepth / 2)), (.rxTl, 0#32),
    (.intrMask, defaultMask)]

theorem configureWrites_eq (s : State) : configureWrites s = regWrites (configureValues s) s := by
  simp only [configureWrites, regWrites, configureValues, List.foldl, writeMask, regWrite_blk]

/-- What `configure_proc` leaves in the registers of a disabled controller (40_timing_and_bus.md R208). -/
theorem configureWrites_settings (off : s.ctl.icEn = false) :
    (configureWrites s).ctl.settings =
      { s.ctl.settings with
        con := conValue s.par.busSpeed, ssHcnt := s.blk.ssHcnt, ssLcnt := s.blk.ssLcnt, fsHcnt := s.blk.fsHcnt,
        fsLcnt := s.blk.fsLcnt, sdaHold := s.blk.sdaHold, txTl := BitVec.ofNat 8 (s.blk.txFifoDepth / 2),
        rxTl := 0#8, intrMask := defaultMask } := by
  have regs : ∀ e ∈ configureValues s, e.1 ≠ .enable ∧ e.1 ≠ .dataCmd := by simp [configureValues]
  rw [configureWrites_eq, regWrites_settings regs off]
  simp [configureValues, Ctl.writeReg, Ctl.settings, off]

/-- `configure_proc` from a controller whose disable was acknowledged (40_timing_and_bus.md R208). -/
theorem configureWrites_configured (off : s.ctl.icEn = false) (enable : s.ctl.enable = false) :
    Configured [] s (configureWrites s) := by
  have left := configureWrites_settings off
  have con : (configureWrites s).ctl.con = conValue s.par.busSpeed := congrArg Ctl.con left
  refine ⟨con, ⟨?_, ?_, ?_, ?_, ?_⟩, ⟨?_, ?_⟩, ?_, ?_, ⟨?_, ?_⟩, ?io⟩
  case io =>
    rw [con, configureWrites_eq, regWrites_io]
    rfl
  exacts [congrArg Ctl.ssHcnt left, congrArg Ctl.ssLcnt left, congrArg Ctl.fsHcnt left, congrArg Ctl.fsLcnt left,
    congrArg Ctl.sdaHold left, congrArg Ctl.txTl left, congrArg Ctl.rxTl left, congrArg Ctl.intrMask left,
    (congrArg Ctl.tar left :), (congrArg Ctl.enable left).trans enable, (congrArg Ctl.icEn left).trans off]

/-- What `configure_proc` leaves of a state, it leaves of an earlier one from which the accesses `io` lead to it, and
in every later one with the controller and the accesses as they were. -/
theorem Configured.of {first io : List Access} {t' : State} (h : Configured first w t) (par : w.par = s.par)
    (fields : w.blk.startFields = s.blk.startFields) (tar : w.ctl.tar = s.ctl.tar) (before : w.io = io ++ s.io)
    (ctl : t'.ctl = t.ctl) (after : t'.io = t.io) : Configured (first ++ io) s t' := by
  obtain ⟨hss, hsl, hfs, hfl, hsda, htx, -⟩ := Bus.startFields_and fields trivial
  obtain ⟨con, counts, levels, mask, htar, enable, hio⟩ := h
  rw [hss, hsl, hfs, hfl, hsda] at counts
  rw [htx] at levels
  rw [hss, hsl, hfs, hfl, hsda, htx, before] at hio
  refine ⟨?_, ctl ▸ counts, ctl ▸ levels, ctl ▸ mask, ctl ▸ htar.trans tar, ctl ▸ enable, ?_⟩
  · rw [ctl, con, par]
  · rw [after, ctl, hio]
    simp only [List.append_assoc]

/-- A configure whose disable is acknowledged makes its writes and returns OK (40_timing_and_bus.md R208, R211). -/
theorem disabled_configure {u : ConfigUse} (hc : u ∈ [ConfigUse.bus, .power]) (hv : ActsAt a [] b b v)
    (hu : Untouched s v) (hg : v.blk.gate.release a = some g) (fields : v.blk.startFields = s.blk.startFields)
    (enable : s.ctl.enable = false) (acked : (ctlTurn s).ctl.icEn = false) :
    ∃ t, disabled a (.configure u) (setUnacked false (regRead .enableStatus v).2) = .next t ∧ t.devs = b.devs ∧
      Finished a ⟨.ok, 0#32, .ok⟩ b t ∧ Configured [.read .enableStatus (some 0#32)] s t ∧
      t.blk = { v.blk with disableUnacked := false, gate := g } := by
  obtain ⟨w, hw⟩ : ∃ w, w = setUnacked false (regRead .enableStatus v).2 := ⟨_, rfl⟩
  have acts : ActsAt a [] b b w := hw ▸ hv.poll false
  obtain ⟨pctl, pio⟩ := hu.poll
  have keeps := ctlTurn_keeps s
  have ctl : w.ctl = (ctlTurn s).ctl := by rw [hw, setUnacked_ctl, pctl]
  have io : w.io = [.read .enableStatus (some 0#32)] ++ s.io := by
    rw [hw, setUnacked_io, pio, acked]; rfl
  have par : w.par = s.par := by rw [hw, setUnacked_par, regRead_par, hu.par]
  have blk : w.blk = { v.blk with disableUnacked := false } := by rw [hw, setUnacked_blk, regRead_blk]
  have configured := configureWrites_configured (s := w) (by rw [ctl, acked]) (by rw [ctl, keeps.enable, enable])
  have kept : (configureWrites w).blk = w.blk := by rw [configureWrites_eq, regWrites_blk]
  obtain ⟨t, post, fin, devs, tblk, tctl, -, -, tio, -⟩ :=
    ActsAt.posted (v := configureWrites w) (by rw [configureWrites_eq]; exact acts.writes _)
      (by rw [kept, blk]; exact hg) (Result.okValue 0#32)
  refine ⟨t, ?_, devs, fin, configured.of par (by rw [blk]; exact fields) (by rw [ctl, keeps.tar]) io tctl tio, ?_⟩
  · rw [← hw]
    simp only [List.mem_cons, List.not_mem_nil, or_false] at hc
    rcases hc with rfl | rfl <;> exact post
  · rw [tblk, kept, blk]

/-- A configure whose disable times out returns DisableTimeout and makes no write (40_timing_and_bus.md R208,
R211). -/
theorem disableFailed_configure {u : ConfigUse} (hc : u ∈ [ConfigUse.bus, .power]) (w : State) :
    disableFailed a (.configure u) w = releaseRet a (Result.fail .disableTimeout) w := by
  simp only [List.mem_cons, List.not_mem_nil, or_false] at hc
  rcases hc with rfl | rfl <;> rfl

/-- Settles O17: the first poll by `ctlDisable_endings`, a later one by `disablePoll_endings`, and the writes of an
acknowledged one by `disabled_configure`. -/
theorem busConfigureWrites : Obligations.BusConfigureWrites := by
  refine ⟨fun s hs h => busRequest_unready rfl hs h, fun s hs hm hp hg => busRequest_waits rfl hs hm hp hg,
    fun s hs hm hp hw ho => ?first, fun s a k u ms next hc hp hs hg he => ?later⟩
  case first =>
    obtain ⟨v, run, acts, untouched, blk, release⟩ := busRequest_enters (i := .busConfigure) rfl hs hm hp hw ho
    obtain ⟨t, post, devs, acked, fails, sleeps⟩ := ctlDisable_endings (u := .configure .bus)
      (disableFailed_configure (by simp)) acts untouched release
      fun h => disabled_configure (s := ctlOff s) (by simp) (acts.write .enable 0#32) (untouched.write .enable 0#32)
        (by simpa using release) (by simp [blk, Bus.startFields]) (by simp [Ctl.writeReg]) h
    rw [regWrite_blk, blk] at acked
    rw [blk] at fails sleeps
    refine ⟨t, run.trans post, devs, fun h => ?_, fails, sleeps⟩
    obtain ⟨fin, configured, tblk⟩ := acked h
    exact ⟨fin, tblk, configured.of (io := [.write .enable 0#32]) (by simp) (by simp)
      (by rw [regWrite_ctl]; exact (ctlTurn_keeps s).tar) (by simp) rfl rfl⟩
  case later =>
    obtain ⟨v, run, acts, untouched, blk⟩ := step_disable next hp hs
    have release : v.blk.gate.release a = some ⟨none, 0, s.blk.gate.waiters⟩ := by
      rw [blk]; exact Gate.release_last hg
    obtain ⟨t, post, devs, acked, late⟩ := disablePoll_endings (k := k) (u := .configure u)
      (disableFailed_configure hc) acts untouched release
      fun h => disabled_configure hc acts untouched release (by rw [blk]) he h
    rw [blk] at acked late
    exact ⟨t, run.trans post, devs, acked, late⟩

end Sys2Proof.Machine
end

section
/-!
SUPPORT. The timing calculator (40_timing_and_bus.md R200 to R203): when its counts fit the outputs, and how far their
sums are from the bus period.
-/

namespace Sys2Proof.Machine

variable {s : State}

/-! ### Range -/

theorem inRange_iff (v : Int) : inRange v = true ↔ 0 ≤ v ∧ v ≤ 65535 := decide_eq_true_iff

/-- Every count of a list fits the 16-bit outputs (40_timing_and_bus.md R202). -/
theorem countsFit_iff (r : RawTiming) :
    countsFit r = true ↔ ∀ v ∈ [r.ssH, r.ssL, r.fsH, r.fsL, r.hold], 0 ≤ v ∧ v ≤ 65535 := by
  simp [countsFit, inRange_iff, and_assoc]

/-- A 16-bit output holds a count that fits. -/
theorem toNat_ofInt_of_inRange {v : Int} (h : inRange v = true) : ((BitVec.ofInt 16 v).toNat : Int) = v := by
  obtain ⟨h0, h1⟩ := (inRange_iff v).1 h
  rw [BitVec.toNat_ofInt]
  omega

/-- The outputs hold the counts. -/
structure TimingOut.Gives (o : TimingOut) (r : RawTiming) : Prop where
  ssH  : (o.ssHcnt.toNat : Int) = r.ssH
  ssL  : (o.ssLcnt.toNat : Int) = r.ssL
  fsH  : (o.fsHcnt.toNat : Int) = r.fsH
  fsL  : (o.fsLcnt.toNat : Int) = r.fsL
  hold : (o.sdaHold.toNat : Int) = r.hold

/-- The calculator has outputs exactly where the counts of the TimingFn fit, and they hold the counts
(40_timing_and_bus.md R200). -/
theorem timing_some {p : Params} {q : TimingIn} {o : TimingOut} (h : timing p q = some o) :
    countsFit (timingFn p q) = true ∧ o.Gives (timingFn p q) := by
  unfold timing at h
  simp only [] at h
  split at h <;> cases h
  next fit =>
    have all := fit
    simp only [countsFit, Bool.and_eq_true] at all
    obtain ⟨⟨⟨⟨ssH, ssL⟩, fsH⟩, fsL⟩, hold⟩ := all
    exact ⟨fit, toNat_ofInt_of_inRange ssH, toNat_ofInt_of_inRange ssL, toNat_ofInt_of_inRange fsH,
      toNat_ofInt_of_inRange fsL, toNat_ofInt_of_inRange hold⟩

theorem timing_isSome (p : Params) (q : TimingIn) : (timing p q).isSome = countsFit (timingFn p q) := by
  unfold timing
  simp only []
  split
  · next h => rw [h]; rfl
  · next h => rw [Bool.eq_false_of_not_eq_true h]; rfl

/-! ### The bus period -/

/-- Two rounded counts sum to the exact ones within one count, the 4 of the two offsets taken off
(40_timing_and_bus.md R201, R203). -/
theorem roundDiv_sum (x y : Nat) :
    (((roundDiv x : Int) - 3) + ((roundDiv y : Int) - 1)) * 1000000 - (((x + y : Nat) : Int) - 4000000) ≤ 1000000 ∧
      (((x + y : Nat) : Int) - 4000000) - (((roundDiv x : Int) - 3) + ((roundDiv y : Int) - 1)) * 1000000 ≤ 1000000 := by
  unfold roundDiv
  omega

/-- The default TimingFn keeps the bus period in both modes (40_timing_and_bus.md R201, R203). -/
theorem defaultTiming_periodOk (q : TimingIn) :
    periodOk q 8700 ((defaultTiming q).ssH + (defaultTiming q).ssL) = true ∧
      periodOk q 1900 ((defaultTiming q).fsH + (defaultTiming q).fsL) = true := by
  have sum : ∀ m n : Nat, q.clkKhz.toNat * ((m + n) + q.sdaFallNs.toNat + q.sclFallNs.toNat) =
      q.clkKhz.toNat * (m + q.sdaFallNs.toNat) + q.clkKhz.toNat * (n + q.sclFallNs.toNat) := fun m n => by ring
  constructor <;> refine decide_eq_true ?_
  · rw [sum 4000 4700]
    exact roundDiv_sum _ _
  · rw [sum 600 1300]
    exact roundDiv_sum _ _

/-- So does the machine's TimingFn where its own values are as R203 asks and its counts fit. -/
theorem timingFn_periodOk {p : Params} {q : TimingIn} (ok : timingFnOk p = true)
    (fit : countsFit (timingFn p q) = true) :
    periodOk q 8700 ((timingFn p q).ssH + (timingFn p q).ssL) = true ∧
      periodOk q 1900 ((timingFn p q).fsH + (timingFn p q).fsL) = true := by
  unfold timingFn at fit ⊢
  cases own : p.timingFn.lookup q with
  | none => exact defaultTiming_periodOk q
  | some r =>
    rw [own, Option.getD_some] at fit
    have asked := List.all_eq_true.1 ok _ (lookup_mem own)
    simpa [fit] using asked

/-! ### TIMING_COMPUTE -/

/-- TIMING_COMPUTE fails where the calculator does (40_timing_and_bus.md R200). -/
theorem execTimingCompute_none (h : timing s.par (s.opsOf s.cur).timing = none) :
    exec .timingCompute s = ret s.cur (Result.fail .configurationError) s := by
  show execTimingCompute s = _
  simp only [execTimingCompute, h]

/-- Otherwise it puts the outputs into its requester's operand record. -/
theorem execTimingCompute_some {o : TimingOut} (h : timing s.par (s.opsOf s.cur).timing = some o) :
    exec .timingCompute s = ret s.cur (Result.okValue 0#32) (giveTiming s.cur o s) := by
  show execTimingCompute s = _
  simp only [execTimingCompute, h]

/-- Settles O19: the outcome by `timing_some` and `timing_isSome`, the period by `timingFn_periodOk`. -/
theorem timingOutputs : Obligations.TimingOutputs := by
  refine ⟨fun s hs => ?compute, fun p q o ok given => ?period⟩
  case compute =>
    intro q count r outs
    have counts : timingFn s.par q = r := by
      simp only [timingFn, defaultTiming, roundDiv, r, count, Int.sub_zero]
    have fit : (timing s.par q).isSome = true ↔ ∀ v ∈ outs, 0 ≤ v ∧ v ≤ 65535 := by
      rw [timing_isSome, counts]
      exact countsFit_iff r
    refine ⟨fun hin => ?inside, fun hout => ?outside⟩
    case inside =>
      obtain ⟨o, ho⟩ := Option.isSome_iff_exists.1 (fit.2 hin)
      obtain ⟨-, gives⟩ := timing_some ho
      rw [counts] at gives
      have nil : ((giveTiming s.cur o s).agent s.cur).stack = [] := by
        rw [giveTiming, agent_setAgent_self]; exact hs
      refine ⟨_, o, (execTimingCompute_some ho).trans (ret_of_nil _ nil), rfl, rfl, ⟨rfl, rfl, rfl, rfl⟩,
        fun _ => rfl, ⟨rfl, rfl, rfl, rfl, rfl, rfl⟩, fun b hb => ?_, ?_, gives.ssH, gives.ssL, gives.fsH, gives.fsL,
        gives.hold⟩
      · rw [agent_post_ne _ _ _ _ hb, giveTiming, agent_setAgent_ne _ _ _ _ hb]
      · rw [agent_post_self, giveTiming, agent_setAgent_self]
        rfl
    case outside =>
      have none_ : timing s.par q = none := by
        rw [← Option.not_isSome_iff_eq_none, fit]
        obtain ⟨v, hv, hr⟩ := hout
        exact fun h => by have := h v hv; omega
      exact endsAtOnce_of_ret (execTimingCompute_none none_) hs
  case period =>
    obtain ⟨fit, gives⟩ := timing_some given
    obtain ⟨slow, fast⟩ := timingFn_periodOk ok fit
    rw [← gives.ssH, ← gives.ssL] at slow
    rw [← gives.fsH, ← gives.fsL] at fast
    exact ⟨by simpa [periodOk] using slow, by simpa [periodOk] using fast⟩

end Sys2Proof.Machine
end

section
/-!
SUPPORT. XFER step 1 and how a result goes back through operations that only pass it on (41_transfer_engine.md R242,
R255, R260, R261; 60_exceptions.md R406).
-/

namespace Sys2Proof.Machine

variable {s t u v : State} {a : Agent} {fs : List Frame} {g : Gate} {r : Result} {msgs : List Msg} {count : Half}

/-! ### A requester that acts, seen from where its step goes on -/

/-- A request that goes on does so with every buffer byte and paged device as before. -/
theorem GoesOn.kept {c : Cont} (on : GoesOn a c s u g) : u.mem = s.mem ∧ u.devs = s.devs := by
  cases on <;> exact ⟨rfl, rfl⟩

/-- So does a transfer that comes to its STATUS poll. -/
theorem AtBusyPoll.kept {run : Flow} {b : Bus} (poll : AtBusyPoll s run u a fs msgs count b) :
    u.mem = s.mem ∧ u.devs = s.devs := by
  cases poll with
  | xfer | i2cTransfer => exact ⟨rfl, rfl⟩
  | granted _ _ _ _ _ on | next _ _ _ _ _ on | again _ _ _ _ _ on => exact on.kept

/-- An activity in a step from `s` is one from the state `u` its step goes on in. -/
theorem ActsAt.base_kept (h : ActsAt a fs s u v) (kept : u.mem = s.mem ∧ u.devs = s.devs) : ActsAt a fs u u v :=
  ⟨h.mem.trans kept.1.symm, h.devs.trans kept.2.symm, h.caller, rfl,
    fun b hb => (h.others b hb).trans (agent_congr h.base b).symm, h.rest⟩

/-- A requester stands inside its own operations, wherever its rule has stopped. -/
theorem ActsAt.parked (a : Agent) (p : Point) (u : State) : ActsAt a (u.agent a).stack u u (park a p u) :=
  ⟨rfl, rfl, ⟨p, agent_park_self u a p⟩, rfl, fun b hb => agent_park_ne u a b p hb, ⟨rfl, rfl, rfl, rfl, rfl, rfl⟩⟩

/-- A suspension inside the operations around it changes its requester's place and stack alone. -/
theorem ActsAt.suspends (h : ActsAt a fs u u v) (p : Point) : Paused a p fs u (park a p v) := by
  obtain ⟨q, hq⟩ := h.caller
  refine ⟨by rw [agent_park_self, hq], fun c hc => ?_, fun x => by rw [park_mem, h.mem],
    h.rest.trans ⟨rfl, rfl, rfl, rfl, rfl, rfl⟩⟩
  rw [agent_park_ne _ _ _ _ hc]
  exact h.others c hc

/-! ### Operations that pass a result on -/

/-- The operations `fs` around a transfer post its result `r` as it is (60_exceptions.md R406). -/
def Passes (a : Agent) (fs : List Frame) (r : Result) : Prop := ∀ w, retFrames a fs r w = .next (post a r w)

/-- With no operation around it every result is posted (60_exceptions.md R400). -/
theorem Passes.none (a : Agent) (r : Result) : Passes a [] r := fun _ => rfl

/-- The retry wrapper passes on every result but BusBusyTimeout, and that too where its budget is used up
(41_transfer_engine.md R261). -/
theorem Passes.retry {left : Nat} (h : r.code ≠ .busBusyTimeout ∨ left = 0) :
    Passes a [.retry left msgs count] r := by
  intro w
  have spent : ¬ (r.code = .busBusyTimeout ∧ left ≠ 0) := fun ⟨hr, hl⟩ => h.elim (absurd hr) hl
  rw [retFrames, if_neg spent, retFrames]

/-- While the budget lasts a BusBusyTimeout is followed by the next attempt (41_transfer_engine.md R260). -/
theorem retFrames_retried {left : Nat} (hr : r.code = .busBusyTimeout) (hl : left ≠ 0) (w : State) :
    retFrames a [.retry left msgs count] r w =
      .next (park a (.go (.xfer msgs count)) (setStack a [.retry (left - 1) msgs count] w)) := by
  rw [retFrames, if_pos ⟨hr, hl⟩]

/-- No result of a finished wait is BusBusyTimeout (41_transfer_engine.md R255). -/
theorem transferResult_not_busy (b : Bus) : (transferResult b).code ≠ .busBusyTimeout := by
  unfold transferResult
  split
  · nofun
  · split
    · nofun
    · nofun
    · split <;> nofun

/-- A posted result ends the request of a requester that acts. -/
theorem ActsAt.finished (h : ActsAt a fs u u v) (r : Result) : Finished a r u (post a r v) := by
  obtain ⟨p, hp⟩ := h.caller
  refine ⟨by rw [agent_post_self, hp], fun c hc => ?_, fun x => by rw [post_mem, h.mem],
    h.rest.trans ⟨rfl, rfl, rfl, rfl, rfl, rfl⟩⟩
  rw [agent_post_ne _ _ _ _ hc]
  exact h.others c hc

/-- A result that the operations around pass on is posted. -/
theorem ActsAt.ret_posts (h : ActsAt a fs s u v) (pass : Passes a fs r) : ret a r v = .next (post a r v) := by
  obtain ⟨p, hp⟩ := h.caller
  rw [ret, hp]
  exact pass v

/-- The same after the gate is released: but for its requester's record and the gate, the state is as before. -/
theorem ActsAt.release_posts (h : ActsAt a fs u u v) (hg : v.blk.gate.release a = some g) (pass : Passes a fs r) :
    ∃ t, releaseRet a r v = .next t ∧ Finished a r u t ∧ t.devs = u.devs ∧ t.blk = { v.blk with gate := g } ∧
      Untouched v t := by
  have acts : ActsAt a fs u u (v.setGate g) := h.blk _
  exact ⟨_, (releaseRet_of r hg).trans (acts.ret_posts pass), acts.finished r, h.devs, rfl, rfl, rfl, rfl, rfl, rfl⟩

/-! ### XFER step 1 -/

/-- A failing step 1 is the transfer's result (41_transfer_engine.md R242). -/
theorem xferStart_fails {c : Code} (h : validate s.blk msgs count = some c) :
    xferStart a msgs count s = ret a (Result.fail c) s := by
  rw [xferStart, h]

/-- The bus is not ready, or without power (41_transfer_engine.md R242). -/
theorem validate_unready {b : Bus} (h : b.ready = false ∨ b.powered = false) :
    validate b msgs count = some .invalidArgument := if_pos h

/-- The list is not as long as its count says, or empty (41_transfer_engine.md R242). -/
theorem validate_miscounted {b : Bus} (hr : b.ready = true) (hp : b.powered = true)
    (hc : ¬ (count.toNat ≠ 0 ∧ count.toNat = msgs.length)) : validate b msgs count = some .invalidArgument := by
  have bad : count = 0#16 ∨ count.toNat ≠ msgs.length ∨ Config.maxMsgs < count.toNat := by
    by_cases h0 : count.toNat = 0
    · exact .inl (BitVec.eq_of_toNat_eq h0)
    · exact .inr (.inl fun e => hc ⟨h0, e⟩)
  rw [validate, if_neg (by simp [hr, hp]), if_pos bad]

/-- A list as long as its count says passes the second check (41_transfer_engine.md R242). -/
theorem counted_of {n : Nat} (hc : count.toNat ≠ 0 ∧ count.toNat = n) :
    ¬ (count = 0#16 ∨ count.toNat ≠ n ∨ Config.maxMsgs < count.toNat) := by
  obtain ⟨h0, hn⟩ := hc
  have small : count.toNat ≤ Config.maxMsgs := by
    have := count.isLt
    unfold Config.maxMsgs
    omega
  rintro (rfl | h | h)
  · exact h0 rfl
  · exact h hn
  · omega

/-- A disable is not acknowledged (41_transfer_engine.md R242). -/
theorem validate_unacked {b : Bus} (hr : b.ready = true) (hp : b.powered = true)
    (hc : count.toNat ≠ 0 ∧ count.toNat = msgs.length) (hd : b.disableUnacked = true) :
    validate b msgs count = some .disableTimeout := by
  rw [validate, if_neg (by simp [hr, hp]), if_neg (counted_of hc), if_pos hd]

/-- Some message of the list is bad, or two have RECV_LEN (41_transfer_engine.md R242). -/
theorem validate_bad {b : Bus} (hb : b.Accepts) (hc : count.toNat ≠ 0 ∧ count.toNat = msgs.length)
    (hm : ¬ GoodMsgs msgs) : validate b msgs count = some .invalidArgument := by
  obtain ⟨hr, hp, hd⟩ := hb
  have bad : msgsValid msgs = false := by rwa [← Bool.not_eq_true, msgsValid_iff]
  rw [validate, if_neg (by simp [hr, hp]), if_neg (counted_of hc), if_neg (by simp [hd]), if_pos bad]

/-- XFER and I2C_TRANSFER end at once where step 1 fails: the retry wrapper passes on both of its failures
(41_transfer_engine.md R242, R261). -/
theorem step_one_endsAtOnce {c : Code} (hs : s.AtRequest) {i : Instr} (hi : i ∈ [Instr.xfer, .i2cTransfer])
    (h : validate s.blk (s.msgsOf s.cur) (s.agent s.cur).ops.count = some c) : EndsAtOnce i s (Result.fail c) := by
  simp only [List.mem_cons, List.not_mem_nil, or_false] at hi
  rcases hi with rfl | rfl
  case inl => exact endsAtOnce_of_ret (xferStart_fails h) hs
  case inr =>
    have other : c ≠ .busBusyTimeout := by rcases validate_code h with rfl | rfl <;> nofun
    have acts := hs.acts.push [.retry s.blk.retries (s.msgsOf s.cur) (s.agent s.cur).ops.count]
    exact ⟨_, (xferStart_fails (s := pushFrames _ _ s) h).trans (acts.ret_posts (Passes.retry (.inl other))),
      acts.finished _, rfl, rfl, rfl, rfl, rfl, rfl⟩

/-- The re-check after the gate fails: the phase is IDLE and the gate released (41_transfer_engine.md R243). -/
theorem xferGated_unready (h : s.blk.ready = false ∨ s.blk.powered = false) :
    xferGated a msgs count s = releaseRet a (Result.fail .invalidArgument) (setPhase .idle s) := if_pos h

/-- Settles O20: step 1 by its checks in order, the re-check by `xferGated_unready`. -/
theorem xferValidation : Obligations.XferValidation := by
  refine ⟨fun s a msgs count ms next hp hs ho hw hf => ?recheck, fun s hs i hi => ?checks⟩
  case recheck =>
    have on : GoesOn a (.xferGate msgs count) s { s with sched := ms } _ := .granted ms next hp ho hw
    obtain ⟨acts, ⟨hctl, hplan, -, hio, hfresh⟩, hb⟩ := on.acts
    rw [hs] at acts
    have unready := xferGated_unready (a := a) (msgs := msgs) (count := count) (by rw [hb]; exact hf)
    obtain ⟨t, run, fin, devs, blk, tctl, tplan, -, tio, tfresh⟩ := (acts.base_kept on.kept).blk
      { s.blk with xphase := .idle, gate := ⟨some a, 1, s.blk.gate.waiters.filter fun b => !decide (b = a)⟩ }
      |>.release_posts (Gate.release_last rfl) (Passes.none a (Result.fail .invalidArgument))
    refine ⟨t, (step_goesOn on).trans (unready.trans run), fin, ⟨tctl.trans hctl, tplan.trans hplan, tio.trans hio,
      tfresh.trans hfresh⟩, devs, by rw [blk], by rw [blk], by rw [blk], fun b => ?_⟩
    rw [blk]
    simp
  case checks =>
    intro o msgs counted
    exact ⟨fun h => step_one_endsAtOnce hs hi (validate_unready h),
      fun hr hp hc => step_one_endsAtOnce hs hi (validate_miscounted hr hp hc),
      fun hr hp hc hd => step_one_endsAtOnce hs hi (validate_unacked hr hp hc hd),
      fun hb hc hm => step_one_endsAtOnce hs hi (validate_bad hb hc hm)⟩

end Sys2Proof.Machine
end

section
/-!
SUPPORT. The endings of a completion wait and the unwind after them (41_transfer_engine.md R253 to R256).
-/

namespace Sys2Proof.Machine

variable {s u v : State} {a : Agent}

/-! ### The endings -/

/-- The end of a wait changes its requester's record alone. -/
theorem endWait_frame (a : Agent) (s : State) :
    (endWait a s).agent a = { s.agent a with waiting := false, point := .unwind } ∧ OnlyAgent a s (endWait a s) ∧
      SameMem s (endWait a s) ∧ SameRest s (endWait a s) ∧ NoAccess s (endWait a s) :=
  ⟨agent_endWait_self s a, fun _ hb => agent_endWait_ne s a _ hb, fun _ => rfl, ⟨rfl, rfl, rfl, rfl, rfl, rfl⟩,
    ⟨rfl, rfl, rfl, rfl⟩⟩

/-- The requester that waits is the gate's owner (41_transfer_engine.md R241, log 18). -/
theorem waitingAgent_eq_some : waitingAgent s = some a ↔ s.blk.gate.owner = some a ∧ (s.agent a).waiting = true := by
  unfold waitingAgent
  cases s.blk.gate.owner with
  | none => simp
  | some b =>
    simp only [Option.ite_none_right_eq_some, Option.some.injEq]
    exact ⟨fun ⟨hw, e⟩ => ⟨e, e ▸ hw⟩, fun ⟨e, hw⟩ => ⟨e ▸ hw, e⟩⟩

/-- The timer ends the wait of the requester that waits (41_transfer_engine.md R253). -/
theorem execEvtTimeout_waiting (ho : s.blk.gate.owner = some a) (hw : (s.agent a).waiting = true)
    (hc : s.blk.completion = false) :
    execEvtTimeout s = .next (endWait a { s with blk := { s.blk with timedOut := true, xphase := .timedOut } }) := by
  simp only [execEvtTimeout, waitingAgent_eq_some.mpr ⟨ho, hw⟩, hc, if_true]

/-- With completion signalled, or with nobody waiting, it is no step (41_transfer_engine.md R253, log 19). -/
theorem execEvtTimeout_idle (h : s.blk.completion = true ∨ waitingAgent s = none) : execEvtTimeout s = .next s := by
  unfold execEvtTimeout
  split
  · next ha =>
    have hc : ¬ s.blk.completion = false := by simpa [ha] using h
    rw [if_neg hc]
  · rfl

/-- The phase a wake leaves is the class of the outcome (41_transfer_engine.md R254, R255). -/
theorem wake_signalled (hw : (s.agent a).waiting = true) (hc : s.blk.completion = true) :
    wake a s = endWait a (setPhase (if s.blk.timedOut = true then .timedOut
      else if s.blk.msgErr ≠ .none then .failed
      else if s.blk.cmdErr ≠ 0#8 then .aborted else .completed) s) := if_pos ⟨hw, hc⟩

/-- A wake of a requester that does not wait, or waits for no signalled completion, is no step
(41_transfer_engine.md R254, log 19). -/
theorem wake_idle (h : (s.agent a).waiting = false ∨ s.blk.completion = false) : wake a s = s :=
  if_neg fun ⟨hw, hc⟩ => by simp [hw, hc] at h

/-- Settles O24: each ending, enabled or not, by the equations of the timer and of the wake. -/
theorem waitEndings : Obligations.WaitEndings := by
  refine ⟨fun s => ?timer, fun s a ms next => ?wakes⟩
  case timer =>
    cases hw : waitingAgent s with
    | none =>
      refine ⟨s, execEvtTimeout_idle (.inr hw), fun a ho hwt _ => ?_, fun _ => rfl, fun _ => rfl⟩
      simp [waitingAgent_eq_some.mpr ⟨ho, hwt⟩] at hw
    | some a =>
      obtain ⟨ho, hwt⟩ := waitingAgent_eq_some.mp hw
      cases hc : s.blk.completion with
      | true => exact ⟨s, execEvtTimeout_idle (.inl hc), nofun, fun _ => rfl, fun _ => rfl⟩
      | false =>
        obtain ⟨caller, others, mem, rest, access⟩ :=
          endWait_frame a { s with blk := { s.blk with timedOut := true, xphase := .timedOut } }
        refine ⟨_, execEvtTimeout_waiting ho hwt hc, fun b hb _ _ => ?_, nofun, fun h => ?_⟩
        · obtain rfl : a = b := Option.some.inj (ho.symm.trans hb)
          exact ⟨rfl, caller, others, mem, ⟨rfl, rfl, rfl, rfl, rfl, rfl⟩, ⟨rfl, rfl, rfl, rfl⟩, rfl⟩
        · simp [h a ho] at hwt
  case wakes =>
    refine ⟨wake a { s with sched := ms }, step_move next, fun hw hc => ?_, fun hc => wake_idle (.inr hc),
      fun hw => wake_idle (.inl hw)⟩
    rw [wake_signalled (s := { s with sched := ms }) hw hc]
    obtain ⟨caller, others, mem, -, -⟩ := endWait_frame a (setPhase (if s.blk.timedOut = true then .timedOut
      else if s.blk.msgErr ≠ .none then .failed
      else if s.blk.cmdErr ≠ 0#8 then .aborted else .completed) { s with sched := ms })
    exact ⟨caller, others, mem, ⟨rfl, rfl, rfl, rfl⟩, rfl, rfl⟩

/-! ### The unwind -/

/-- The unwind writes INTR_MASK 0, resets its fields, and returns the result of R255 with the gate released
(41_transfer_engine.md R256). -/
theorem unwind_eq (a : Agent) (v : State) :
    unwind a v = releaseRet a (transferResult v.blk) (unwindFields (writeMask 0#32 v)) := by
  rw [unwind, outcome_eq]

/-- Settles O25: `unwind_eq` where the requester stands outside any operation. -/
theorem unwindPostsOutcome : Obligations.UnwindPostsOutcome := by
  intro s a ms next hp hs hg
  have acts := ActsAt.parked a .idle { s with sched := ms }
  rw [show (State.agent { s with sched := ms } a).stack = [] from hs] at acts
  have untouched : Untouched s (park a .idle { s with sched := ms }) := ⟨rfl, rfl, rfl, rfl, rfl⟩
  obtain ⟨wctl, -, -, wio, -⟩ := untouched.write .intrMask 0#32
  obtain ⟨t, run, fin, devs, blk, tctl, -, -, tio, -⟩ :=
    (acts.write .intrMask 0#32).blk (unwindFields (writeMask 0#32 (park a .idle { s with sched := ms }))).blk
      |>.release_posts (g := ⟨none, 0, s.blk.gate.waiters⟩) (by simpa [unwindFields] using Gate.release_last hg)
      (Passes.none a (transferResult s.blk))
  refine ⟨t, (step_unwind next hp).trans ((unwind_eq _ _).trans run), devs, fin, ?_, ?_, ?_⟩
  · rw [blk]
    simp [unwindFields]
  · rw [tctl, wctl, regWrite_ctl]
    rfl
  · rw [tio, wio, regWrite_io]

end Sys2Proof.Machine
end

section
/-!
SUPPORT. The polls of a transfer (41_transfer_engine.md R244, R245; 40_timing_and_bus.md R206): how its STATUS poll and
the polls of its disable end, however the step comes to them, and what the retry wrapper makes of that (R260, R261).
-/

namespace Sys2Proof.Machine

variable {s u v : State} {a : Agent} {fs : List Frame} {g : Gate} {msgs : List Msg} {count : Half} {run : Flow}
  {b : Bus} {k : Nat}

/-! ### The STATUS poll -/

/-- Of the registers STATUS alone was read since `s`, and it showed ACTIVITY (10_state.md R69). -/
def StatusBusy (s t : State) : Prop :=
  t.devs = s.devs ∧ t.ctl = (ctlTurn s).ctl ∧ ∃ v, v.getLsbD 0 = true ∧ t.io = .read .status (some v) :: s.io

/-- That is what a STATUS read leaves, wherever the registers are as in `s`. -/
theorem StatusBusy.of_read (hu : Untouched s v) (hd : v.devs = s.devs) (active : (ctlTurn s).ctl.activity = true) :
    StatusBusy s (regRead .status v).2 := by
  obtain ⟨ctl, -, -, io, -⟩ := hu.read .status
  refine ⟨(regRead_devs _ _).trans hd, by rw [ctl, regRead_ctl]; rfl, (regRead .status s).1, ?_, ?_⟩
  · rw [regRead_status_activity, active]
  · rw [io, regRead_io, regRead_fst]
    rfl

/-- Below the bound a poll that reads ACTIVITY counts and sleeps (41_transfer_engine.md R244). -/
theorem busyPoll_sleeps (active : (ctlTurn v).ctl.activity = true) (h : v.blk.pollCount ≠ v.par.busyPollLimit) :
    busyPoll a msgs count v = .next (park a (.sleep (.busy msgs count))
      { (regRead .status v).2 with blk := { v.blk with pollCount := v.blk.pollCount + 1 } }) := by
  simp [busyPoll, regRead_status_activity, active, h]

/-- At the bound it is a BusBusyTimeout, the phase IDLE (41_transfer_engine.md R244). -/
theorem busyPoll_fails (active : (ctlTurn v).ctl.activity = true) (h : v.blk.pollCount = v.par.busyPollLimit) :
    busyPoll a msgs count v =
      releaseRet a (Result.fail .busBusyTimeout) (setPhase .idle (regRead .status v).2) := by
  simp [busyPoll, regRead_status_activity, active, h]

/-- A poll without ACTIVITY resets the fields and begins the disable (41_transfer_engine.md R245). -/
theorem busyPoll_disables (free : (ctlTurn v).ctl.activity = false) :
    busyPoll a msgs count v = disablePoll a 0 (.xfer msgs) (ctlOff (xferReset msgs count (regRead .status v).2)) := by
  simp only [busyPoll, regRead_status_activity, free, if_true, xferInit, ctlDisable]

/-- A STATUS poll below the bound that reads ACTIVITY sleeps, having counted (41_transfer_engine.md R244). -/
theorem AtBusyPoll.sleeps (poll : AtBusyPoll s run u a fs msgs count b) (active : (ctlTurn s).ctl.activity = true)
    (h : b.pollCount ≠ s.par.busyPollLimit) :
    ∃ t, run = .next t ∧ StatusBusy s t ∧ Paused a (.sleep (.busy msgs count)) fs u t ∧
      t.blk = { b with pollCount := b.pollCount + 1 } := by
  obtain ⟨-, v, rfl, acts, untouched, rfl⟩ := poll.acts
  obtain ⟨turn, -⟩ := untouched.turn
  refine ⟨_, busyPoll_sleeps (turn ▸ active) (untouched.par ▸ h), .of_read untouched acts.devs active, ?_, rfl⟩
  exact (((acts.base_kept poll.kept).read .status).blk _).suspends _

/-- At the bound the transfer returns BusBusyTimeout, the phase IDLE (41_transfer_engine.md R244). -/
theorem AtBusyPoll.fails (poll : AtBusyPoll s run u a fs msgs count b) (active : (ctlTurn s).ctl.activity = true)
    (bound : b.pollCount = s.par.busyPollLimit) :
    ∃ v, run = releaseRet a (Result.fail .busBusyTimeout) v ∧ ActsAt a fs u u v ∧ StatusBusy s v ∧
      v.blk = { b with xphase := .idle } := by
  obtain ⟨-, v, rfl, acts, untouched, rfl⟩ := poll.acts
  obtain ⟨turn, -⟩ := untouched.turn
  refine ⟨setPhase .idle (regRead .status v).2, busyPoll_fails (turn ▸ active) (untouched.par ▸ bound), ?_,
    .of_read untouched acts.devs active, by rw [setPhase_blk, regRead_blk]⟩
  exact ((acts.base_kept poll.kept).read .status).blk _

/-! ### The polls of the disable -/

/-- A STATUS poll without ACTIVITY comes to the first poll of the disable, the fields reset
(41_transfer_engine.md R245). -/
theorem AtBusyPoll.disables (poll : AtBusyPoll s run u a fs msgs count b) (free : (ctlTurn s).ctl.activity = false) :
    ∃ v, run = disablePoll a 0 (.xfer msgs) v ∧ ActsAt a fs u u v ∧ Untouched (ctlOff (regTouch .status s)) v ∧
      v.blk = resetBus b msgs := by
  obtain ⟨len, v, rfl, acts, untouched, rfl⟩ := poll.acts
  obtain ⟨turn, -⟩ := untouched.turn
  obtain ⟨w, hw⟩ : ∃ w, w = xferReset msgs count (regRead .status v).2 := ⟨_, rfl⟩
  have reset : w.blk = resetBus v.blk msgs := by
    rw [hw]
    simp [xferReset, resetBus, begunBus, len]
  have before : Untouched (regTouch .status s) w := hw ▸ untouched.read .status
  have acts : ActsAt a fs u u w := hw ▸ ((acts.base_kept poll.kept).read .status).blk _
  exact ⟨ctlOff w, hw ▸ busyPoll_disables (turn ▸ free), acts.write .enable 0#32, before.write .enable 0#32,
    (regWrite_blk _ _ _).trans reset⟩

/-- Of the registers ENABLE_STATUS alone was read since `s`, and it showed the controller enabled (10_state.md
R68). -/
def StillEnabled (s t : State) : Prop :=
  t.ctl = (ctlTurn s).ctl ∧ t.io = .read .enableStatus (some 1#32) :: s.io

/-- That is what an ENABLE_STATUS read leaves, wherever the registers are as in `s`. -/
theorem StillEnabled.of_read (hu : Untouched s v) (on : (ctlTurn s).ctl.icEn = true) :
    StillEnabled s (regRead .enableStatus v).2 := by
  obtain ⟨ctl, io⟩ := hu.poll
  rw [on] at io
  exact ⟨ctl, io⟩

/-- A disable poll below the bound that finds the controller enabled sleeps (40_timing_and_bus.md R206). -/
theorem xferDisable_sleeps (acts : ActsAt a fs u u v) (untouched : Untouched s v) (on : (ctlTurn s).ctl.icEn = true)
    (hk : k < s.par.disablePollLimit) :
    ∃ t, disablePoll a k (.xfer msgs) v = .next t ∧ t.devs = u.devs ∧ StillEnabled s t ∧
      Paused a (.sleep (.disable (k + 1) (.xfer msgs))) fs u t ∧ t.blk = v.blk := by
  obtain ⟨turn, -⟩ := untouched.turn
  have read := acts.read .enableStatus
  exact ⟨_, disablePoll_sleeps a k _ (turn ▸ on) (untouched.par ▸ hk), read.devs, .of_read untouched on,
    read.suspends _, regRead_blk _ _⟩

/-- At the bound the transfer ends with DisableTimeout, disable_unacked set and the phase IDLE, where the operations
around it pass that on (41_transfer_engine.md R245, 40_timing_and_bus.md R206). -/
theorem xferDisable_fails (acts : ActsAt a fs u u v) (untouched : Untouched s v) (on : (ctlTurn s).ctl.icEn = true)
    (hk : s.par.disablePollLimit ≤ k) (owner : v.blk.gate.owner = some a) (depth : v.blk.gate.depth = 1)
    (pass : Passes a fs (Result.fail .disableTimeout)) :
    ∃ t, disablePoll a k (.xfer msgs) v = .next t ∧ t.devs = u.devs ∧ StillEnabled s t ∧
      Finished a ⟨.disableTimeout, 0#32, .ok⟩ u t ∧
      t.blk = { v.blk with xphase := .idle, disableUnacked := true, gate := ⟨none, 0, v.blk.gate.waiters⟩ } := by
  obtain ⟨turn, -⟩ := untouched.turn
  obtain ⟨ctl, io⟩ := StillEnabled.of_read untouched on
  have poll := (acts.read .enableStatus).blk { v.blk with xphase := .idle, disableUnacked := true }
  obtain ⟨t, post, fin, devs, blk, tctl, -, -, tio, -⟩ :=
    poll.release_posts (Gate.release_outermost owner depth) pass
  have failed : disablePoll a k (.xfer msgs) v = releaseRet a (Result.fail .disableTimeout)
      (setPhase .idle (setUnacked true (regRead .enableStatus v).2)) :=
    disablePoll_fails a k _ (turn ▸ on) (untouched.par ▸ hk)
  refine ⟨t, failed.trans ?_, devs, ⟨tctl.trans ctl, tio.trans io⟩, fin, blk⟩
  rw [← post]
  simp [setPhase, setUnacked]

/-- What the first disable poll of a transfer leaves in the registers: ENABLE 0 and the others as they were, by exactly
its three accesses (41_transfer_engine.md R245, 40_timing_and_bus.md R206). -/
theorem StillEnabled.first {t : State} (h : StillEnabled (ctlOff (regTouch .status s)) t)
    (free : (ctlTurn s).ctl.activity = false) :
    t.ctl.enable = false ∧ s.ctl.SameRegs t.ctl ∧
      ∃ v, v.getLsbD 0 = false ∧ t.io = [.read .enableStatus (some 1#32), .write .enable 0#32,
        .read .status (some v)] ++ s.io := by
  obtain ⟨ctl, io⟩ := h
  obtain ⟨enable, regs⟩ := ctlTurn_ctlOff (regTouch .status s)
  have before : s.ctl.SameRegs (regTouch .status s).ctl := by
    rw [regTouch_ctl]
    exact (ctlTurn_keeps s).sameRegs
  refine ⟨ctl ▸ enable, ctl ▸ before.trans regs, (regRead .status s).1, by rw [regRead_status_activity, free], ?_⟩
  rw [io, regWrite_io, regTouch_io, regRead_fst]
  rfl

/-- The first disable poll at the bound ends the transfer with DisableTimeout, where the operations around it pass that
on (41_transfer_engine.md R245). -/
theorem AtBusyPoll.unacked (poll : AtBusyPoll s run u a fs msgs count b) (free : (ctlTurn s).ctl.activity = false)
    (on : (ctlTurn (ctlOff (regTouch .status s))).ctl.icEn = true) (bound : s.par.disablePollLimit = 0)
    (owner : b.gate.owner = some a) (depth : b.gate.depth = 1) (pass : Passes a fs (Result.fail .disableTimeout)) :
    ∃ t, run = .next t ∧ t.devs = s.devs ∧ StillEnabled (ctlOff (regTouch .status s)) t ∧
      Finished a ⟨.disableTimeout, 0#32, .ok⟩ u t ∧
      t.blk = { resetBus b msgs with
        xphase := .idle, disableUnacked := true, gate := ⟨none, 0, b.gate.waiters⟩ } := by
  obtain ⟨v, rfl, acts, untouched, blk⟩ := poll.disables free
  obtain ⟨t, end_, devs, still, fin, tblk⟩ := xferDisable_fails (k := 0) (msgs := msgs) acts untouched on
    (by rw [regWrite_par, regTouch_par, bound]) (by rw [blk]; exact owner) (by rw [blk]; exact depth) pass
  rw [blk] at tblk
  exact ⟨t, end_, devs.trans poll.kept.2, still, fin, tblk⟩

/-- A later disable poll at the bound does (41_transfer_engine.md R245). -/
theorem GoesOn.unacked (on : GoesOn a (.disable k (.xfer msgs)) s u g) (enabled : (ctlTurn s).ctl.icEn = true)
    (bound : s.par.disablePollLimit ≤ k) (owner : g.owner = some a) (depth : g.depth = 1)
    (pass : Passes a (s.agent a).stack (Result.fail .disableTimeout)) :
    ∃ t, step s = .next t ∧ t.devs = s.devs ∧ StillEnabled s t ∧ Finished a ⟨.disableTimeout, 0#32, .ok⟩ u t ∧
      t.blk = { s.blk with xphase := .idle, disableUnacked := true, gate := ⟨none, 0, g.waiters⟩ } := by
  obtain ⟨acts, untouched, blk⟩ := on.acts
  obtain ⟨t, end_, devs, still, fin, tblk⟩ := xferDisable_fails (k := k) (msgs := msgs) (acts.base_kept on.kept)
    untouched enabled bound (by rw [blk]; exact owner) (by rw [blk]; exact depth) pass
  rw [blk] at tblk
  exact ⟨t, (step_goesOn on).trans end_, devs.trans on.kept.2, still, fin, tblk⟩

/-- Settles O22: the STATUS poll by `AtBusyPoll.sleeps` and `AtBusyPoll.fails`, the disable's polls by
`xferDisable_sleeps` and, at the bound, `AtBusyPoll.unacked` and `GoesOn.unacked`. -/
theorem xferPolls : Obligations.XferPolls := by
  refine ⟨fun s u run a fs msgs count b poll active => ?status,
    fun s u run a fs msgs count b poll free enabled => ?first, fun s u a k msgs g on enabled => ?later⟩
  case status =>
    intro polled
    refine ⟨poll.sleeps active, fun bound hfs owner depth => ?_⟩
    subst hfs
    obtain ⟨v, rfl, acts, ⟨devs, ctl, x, hx, io⟩, blk⟩ := poll.fails active bound
    obtain ⟨t, end_, fin, tdevs, tblk, tctl, -, -, tio, -⟩ := acts.release_posts
      (g := ⟨none, 0, b.gate.waiters⟩) (by rw [blk]; exact Gate.release_outermost owner depth)
      (Passes.none a (Result.fail .busBusyTimeout))
    rw [blk] at tblk
    exact ⟨t, end_, ⟨tdevs.trans poll.kept.2, tctl.trans ctl, x, hx, tio.trans io⟩, fin, tblk⟩
  case first =>
    intro polled
    refine ⟨fun limit => ?_, fun limit hfs owner depth => ?_⟩
    · obtain ⟨v, rfl, acts, untouched, blk⟩ := poll.disables free
      obtain ⟨t, end_, devs, still, paused, tblk⟩ := xferDisable_sleeps (k := 0) (msgs := msgs) acts untouched enabled
        (by rw [regWrite_par, regTouch_par]; omega)
      exact ⟨t, end_, ⟨devs.trans poll.kept.2, still.first free⟩, paused, tblk.trans blk⟩
    · subst hfs
      obtain ⟨t, end_, devs, still, fin, tblk⟩ := poll.unacked free enabled limit owner depth (Passes.none a _)
      exact ⟨t, end_, ⟨devs, still.first free⟩, fin, tblk⟩
  case later =>
    intro polled
    refine ⟨fun below => ?_, fun bound hfs owner depth => ?_⟩
    · obtain ⟨acts, untouched, blk⟩ := on.acts
      obtain ⟨t, end_, devs, still, paused, tblk⟩ := xferDisable_sleeps (k := k) (msgs := msgs)
        (acts.base_kept on.kept) untouched enabled below
      exact ⟨t, (step_goesOn on).trans end_, ⟨devs.trans on.kept.2, still⟩, paused, tblk.trans blk⟩
    · obtain ⟨t, end_, devs, still, fin, tblk⟩ := on.unacked enabled bound owner depth (hfs ▸ Passes.none a _)
      exact ⟨t, end_, ⟨devs, still⟩, fin, tblk⟩

/-! ### The retry wrapper -/

/-- A transfer that has ended, its result passed on by the operations around it, is its request's end with the gate
free (41_transfer_engine.md R255). -/
theorem XferEnds.posts {r : Result} {n : Nat} (ends : XferEnds s run u a fs g r n) (hg : g = ⟨some a, 1, g.waiters⟩)
    (kept : u.mem = s.mem ∧ u.devs = s.devs) (hn : n = 0) (pass : Passes a fs r) :
    ∃ t, run = .next t ∧ Finished a r u t ∧ t.blk.gate.owner = none := by
  obtain ⟨m, w, rfl, acts, hm, -, -, gate⟩ := ends.acts hg
  obtain rfl : m = s.mem := hm hn
  exact ⟨_, pass w, (ActsAt.base_kept acts kept).finished r, congrArg Gate.owner gate⟩

/-- A failing step 1 of a next attempt or transfer ends the request, where the operations around pass it on; the gate is
not touched (41_transfer_engine.md R242). -/
theorem GoesOn.step_one_ends {c : Code} (on : GoesOn a (.xfer msgs count) s u g)
    (fails : validate s.blk msgs count = some c) (pass : Passes a (s.agent a).stack (Result.fail c)) :
    ∃ t, step s = .next t ∧ Finished a (Result.fail c) u t ∧ t.blk.gate = g := by
  obtain ⟨acts, -, blk⟩ := on.acts
  have failed : validate (park a .idle (u.setGate g)).blk msgs count = some c := by
    rw [blk]
    exact fails
  exact ⟨_, (step_goesOn on).trans ((xferStart_fails failed).trans (acts.ret_posts pass)),
    (acts.base_kept on.kept).finished _, rfl⟩

/-- Settles O23: BusBusyTimeout by `retFrames_retried` while the budget lasts, every other result by
`Passes.retry`. -/
theorem retryOnlyBusBusy : Obligations.RetryOnlyBusBusy := by
  refine ⟨fun s u run a left msgs count m' c' b poll owner depth => ⟨fun active bound => ?busy,
    fun free enabled limit => ?unacked⟩, fun s u a left msgs count g hs => ⟨?later, ?recheck, ?stepOne, ?unwind⟩⟩
  case busy =>
    obtain ⟨v, rfl, acts, -, blk⟩ := poll.fails active bound
    have release : v.blk.gate.release a = some ⟨none, 0, b.gate.waiters⟩ := by
      rw [blk]
      exact Gate.release_outermost owner depth
    by_cases hl : left = 0
    · obtain ⟨t, end_, fin, -, tblk, -⟩ := acts.release_posts release
        (Passes.retry (r := Result.fail .busBusyTimeout) (.inr hl))
      rw [blk] at tblk
      exact ⟨t, end_, fun x => (fin.mem x).trans (by rw [poll.kept.1]), tblk, fun _ => fin, fun h => absurd hl h⟩
    · obtain ⟨p, hp⟩ := acts.caller
      have again : releaseRet a (Result.fail .busBusyTimeout) v = .next (park a (.go (.xfer msgs count))
          (setStack a [.retry (left - 1) msgs count] (v.setGate ⟨none, 0, b.gate.waiters⟩))) := by
        rw [releaseRet_of _ release, ret, agent_setGate, hp]
        exact retFrames_retried rfl hl _
      refine ⟨_, again, fun x => ?_, ?_, fun h => absurd h hl, fun _ => ⟨?_, fun c hc => ?_, fun x => ?_, ?_⟩⟩
      · simp [acts.mem, poll.kept.1]
      · simp [State.setGate, blk]
      · simp [hp]
      · simpa [hc] using acts.others c hc
      · simp [acts.mem]
      · exact acts.rest.trans ⟨rfl, rfl, rfl, rfl, rfl, rfl⟩
  case unacked =>
    obtain ⟨t, end_, -, -, fin, tblk⟩ := poll.unacked free enabled limit owner depth (Passes.retry (.inl nofun))
    exact ⟨t, end_, fin, tblk⟩
  case later =>
    intro owner depth k m' on enabled bound
    obtain ⟨t, end_, -, -, fin, tblk⟩ := on.unacked enabled bound owner depth (hs ▸ Passes.retry (.inl nofun))
    exact ⟨t, end_, fin, tblk⟩
  case recheck =>
    intro owner depth m' c' on fails
    have hg : g = ⟨some a, 1, g.waiters⟩ := by rw [← owner, ← depth]
    exact XferEnds.posts (.recheck u a m' c' g on fails) hg on.kept rfl (hs ▸ Passes.retry (.inl nofun))
  case stepOne =>
    intro m' c' on
    exact ⟨fun h => on.step_one_ends (validate_unready h) (hs ▸ Passes.retry (.inl nofun)),
      fun hr hp h0 hc hd => on.step_one_ends (validate_unacked hr hp ⟨h0, hc⟩ hd) (hs ▸ Passes.retry (.inl nofun))⟩
  case unwind =>
    intro ms next hp hg
    exact XferEnds.posts (.unwound a ms next hp) hg ⟨rfl, rfl⟩ rfl
      (hs ▸ Passes.retry (.inl (transferResult_not_busy s.blk)))

end Sys2Proof.Machine
end

section
/-!
SUPPORT. S.completion outside a handler run (41_transfer_engine.md R252): no request, wait or command word sets it.
-/

namespace Sys2Proof.Machine

variable {s t : State} {a : Agent} {i : Instr}

/-- An operation whose next state has completion not signalled. -/
def Unsignalled (o : Flow) : Prop := ∀ t, o = .next t → t.blk.completion = false

theorem Unsignalled.next (h : t.blk.completion = false) : Unsignalled (.next t) := fun _ e => by cases e; exact h

/-! ### The gate, results and polls -/

theorem ret_unsignalled (r : Result) (h : s.blk.completion = false) : Unsignalled (ret a r s) :=
  fun _ e => (retFrames_phase _ _ _ _ e).2.trans h

theorem releaseRet_unsignalled (r : Result) (h : s.blk.completion = false) : Unsignalled (releaseRet a r s) := by
  intro t e
  obtain ⟨u, release, back⟩ := Flow.andThen_eq_next e
  exact ret_unsignalled r ((gateRelease_phase release).2.trans h) t back

theorem withGate_unsignalled {c : Cont} {body : State → Flow} (h : s.blk.completion = false)
    (k : ∀ t : State, t.blk.completion = false → Unsignalled (body t)) : Unsignalled (withGate a c body s) := by
  unfold withGate
  split
  · exact k _ h
  · exact .next h

theorem startConfigured_unsignalled (prov : Provider) (ok : Bool) (h : s.blk.completion = false) :
    Unsignalled (startConfigured a prov ok s) := by
  unfold startConfigured
  split
  · exact releaseRet_unsignalled _ h
  · split
    · exact releaseRet_unsignalled _ (by simpa [unconfigure] using h)
    · exact releaseRet_unsignalled _ h

theorem afterConfigure_unsignalled (u : ConfigUse) (ok : Bool) (h : s.blk.completion = false) :
    Unsignalled (afterConfigure a u ok s) := by
  cases u with
  | bus | power => exact releaseRet_unsignalled _ h
  | start prov => exact startConfigured_unsignalled prov ok h

theorem xferArm_unsignalled (msgs : List Msg) (h : s.blk.completion = false) :
    (xferArm a msgs s).blk.completion = false := by
  simpa [xferArm, ctlEnable] using h

theorem disabled_unsignalled (u : DisableUse) (h : s.blk.completion = false) : Unsignalled (disabled a u s) := by
  cases u with
  | bus | stop => exact releaseRet_unsignalled _ h
  | configure c => exact afterConfigure_unsignalled c _ (by rw [configureWrites_eq, regWrites_blk, h])
  | xfer msgs => exact .next (xferArm_unsignalled msgs h)

theorem disableFailed_unsignalled (u : DisableUse) (h : s.blk.completion = false) :
    Unsignalled (disableFailed a u s) := by
  cases u with
  | bus | stop | xfer => exact releaseRet_unsignalled _ h
  | configure c => exact afterConfigure_unsignalled c _ h

theorem ctlDisable_unsignalled (u : DisableUse) (h : s.blk.completion = false) : Unsignalled (ctlDisable a u s) := by
  have polled : (regRead .enableStatus (ctlOff s)).2.blk.completion = false := by simpa using h
  unfold ctlDisable disablePoll
  simp only []
  split
  · exact disabled_unsignalled u polled
  · split
    · exact .next polled
    · exact disableFailed_unsignalled u polled

/-! ### Bus-controller and lifecycle requests -/

theorem busRequest_unsignalled {c : Cont} {body : Agent → State → Flow} (h : s.blk.completion = false)
    (k : ∀ t : State, t.blk.completion = false → Unsignalled (body s.cur t)) : Unsignalled (busRequest c body s) := by
  unfold busRequest
  split
  · exact ret_unsignalled _ h
  · exact withGate_unsignalled h k

theorem busClearBody_unsignalled (kind : Byte) (h : s.blk.completion = false) :
    Unsignalled (busClearBody kind a s) := by
  unfold busClearBody
  split
  · exact releaseRet_unsignalled _ (by simpa using h)
  · exact releaseRet_unsignalled _ h

theorem powerBody_unsignalled (en : Bool) (h : s.blk.completion = false) : Unsignalled (powerBody en a s) := by
  unfold powerBody
  split
  · exact releaseRet_unsignalled _ h
  · simp only []
    split
    · exact ctlDisable_unsignalled _ h
    · exact releaseRet_unsignalled _ h

theorem startBody_unsignalled (prov : Provider) (h : s.blk.completion = false) :
    Unsignalled (startBody prov a s) := by
  unfold startBody
  split
  · exact releaseRet_unsignalled _ h
  · simp only []
    split
    · exact releaseRet_unsignalled _ h
    · exact ctlDisable_unsignalled _ h

theorem stopBody_unsignalled (h : s.blk.completion = false) : Unsignalled (stopBody a s) := by
  unfold stopBody
  split
  · exact ctlDisable_unsignalled _ (by simpa using h)
  · exact releaseRet_unsignalled _ h

theorem execTimingCompute_unsignalled (h : s.blk.completion = false) : Unsignalled (execTimingCompute s) := by
  unfold execTimingCompute
  simp only []
  split <;> exact ret_unsignalled _ h

theorem execLifeStart_unsignalled (h : s.blk.completion = false) : Unsignalled (execLifeStart s) := by
  unfold execLifeStart
  simp only []
  split
  · exact ret_unsignalled _ h
  · exact withGate_unsignalled h fun t ht => startBody_unsignalled _ ht

theorem execLifeStop_unsignalled (h : s.blk.completion = false) : Unsignalled (execLifeStop s) := by
  unfold execLifeStop
  split
  · exact ret_unsignalled _ h
  · exact withGate_unsignalled (s := { s with blk := { s.blk with ready := false } }) h
      fun t ht => stopBody_unsignalled ht

/-! ### The transfer engine, SMBus and RMI4 -/

theorem busyPoll_unsignalled (msgs : List Msg) (count : Half) (h : s.blk.completion = false) :
    Unsignalled (busyPoll a msgs count s) := by
  have polled : (regRead .status s).2.blk.completion = false := by simpa using h
  unfold busyPoll
  simp only []
  split
  · exact ctlDisable_unsignalled _ rfl
  · split
    · exact releaseRet_unsignalled _ polled
    · exact .next polled

theorem xferStart_unsignalled (msgs : List Msg) (count : Half) (h : s.blk.completion = false) :
    Unsignalled (xferStart a msgs count s) := by
  unfold xferStart
  split
  · exact ret_unsignalled _ h
  · refine withGate_unsignalled h fun t ht => ?_
    unfold xferGated
    split
    · exact releaseRet_unsignalled _ ht
    · exact busyPoll_unsignalled msgs count ht

theorem smbusXfer_unsignalled (size : SizeClass) (rw : Bool) (h : s.blk.completion = false) :
    Unsignalled (smbusXfer size rw a s) := by
  unfold smbusXfer
  simp only []
  split
  · exact ret_unsignalled _ h
  · split
    · exact ret_unsignalled _ h
    · split
      · exact ret_unsignalled _ h
      · exact xferStart_unsignalled _ _ h

theorem gatedRequest_unsignalled (size : SizeClass) (rw : Bool) (h : s.blk.completion = false) :
    Unsignalled (gatedRequest size rw s) :=
  withGate_unsignalled h fun _ ht => smbusXfer_unsignalled size rw ht

theorem setPageBody_unsignalled (dev : Nat) (page : Byte) (h : s.blk.completion = false) :
    Unsignalled (setPageBody dev page a s) := xferStart_unsignalled _ _ h

theorem accessBody_unsignalled (blk : Block) (h : s.blk.completion = false) : Unsignalled (accessBody blk a s) := by
  unfold accessBody
  simp only []
  split
  · unfold blockBody
    simp only []
    split <;> exact xferStart_unsignalled _ _ h
  · exact withGate_unsignalled h fun t ht => setPageBody_unsignalled _ _ ht

theorem blockAccess_unsignalled (blk : Block) (h : s.blk.completion = false) :
    Unsignalled (blockAccess blk a s) := by
  unfold blockAccess
  split
  · exact ret_unsignalled _ h
  · exact withGate_unsignalled h fun t ht => accessBody_unsignalled blk ht

theorem f01Body_unsignalled (dev : Nat) (base : Half) (todo : List (Half × List Byte))
    (h : s.blk.completion = false) : Unsignalled (f01Body dev base todo a s) := by
  unfold f01Body
  split
  · exact releaseRet_unsignalled _ h
  · exact blockAccess_unsignalled _ h

theorem rmiRequest_unsignalled {body : State → Flow} (h : s.blk.completion = false) (k : Unsignalled (body s)) :
    Unsignalled (rmiRequest body s) := by
  unfold rmiRequest
  split
  · exact ret_unsignalled _ h
  · exact k

theorem execRmiF01Init_unsignalled (h : s.blk.completion = false) : Unsignalled (execRmiF01Init s) := by
  unfold execRmiF01Init
  refine rmiRequest_unsignalled h ?_
  split
  · exact ret_unsignalled _ h
  · exact withGate_unsignalled h fun t ht => f01Body_unsignalled _ _ _ ht

/-! ### The instructions -/

/-- The timer leaves completion as it is (41_transfer_engine.md R253). -/
theorem execEvtTimeout_completion (he : execEvtTimeout s = .next t) : t.blk.completion = s.blk.completion := by
  unfold execEvtTimeout at he
  split at he
  · split at he <;> cases he <;> rfl
  · cases he
    rfl

/-- The instructions of a handler run: EVT_IRQ and the four branches (42_interrupt_fifo.md R280). -/
def Instr.OfHandler (i : Instr) : Prop :=
  i = .evtIrq ∨ i = .irqTxAbrt ∨ i = .irqRxFull ∨ i = .irqTxEmpty ∨ i = .irqStopDet

/-- No other instruction signals completion (41_transfer_engine.md R252). -/
theorem exec_unsignalled (hi : ¬ Instr.OfHandler i) (h : s.blk.completion = false) : Unsignalled (exec i s) := by
  have smb : ∀ size rw, Unsignalled (smbusRequest size rw s) := fun size rw => smbusXfer_unsignalled size rw h
  cases i with
  | evtIrq | irqTxAbrt | irqRxFull | irqTxEmpty | irqStopDet => simp [Instr.OfHandler] at hi
  | evtTimeout => exact fun t he => (execEvtTimeout_completion he).trans h
  | dcWrite | dcRead => exact .next h
  | busEnable => exact busRequest_unsignalled h fun t ht => releaseRet_unsignalled _ (by simpa [ctlEnable] using ht)
  | busMaskIntr => exact busRequest_unsignalled h fun t ht => releaseRet_unsignalled _ (by simpa using ht)
  | busDisable | busConfigure => exact busRequest_unsignalled h fun t ht => ctlDisable_unsignalled _ ht
  | busClearIntr => exact busRequest_unsignalled h fun t ht => busClearBody_unsignalled _ ht
  | busPower => exact withGate_unsignalled h fun t ht => powerBody_unsignalled _ ht
  | timingCompute => exact execTimingCompute_unsignalled h
  | lifeStart => exact execLifeStart_unsignalled h
  | lifeStop => exact execLifeStop_unsignalled h
  | xfer | i2cTransfer => exact xferStart_unsignalled _ _ h
  | rmiSetPage =>
    exact rmiRequest_unsignalled h (withGate_unsignalled h fun t ht => setPageBody_unsignalled _ _ ht)
  | rmiReadBlock | rmiWriteBlock => exact rmiRequest_unsignalled h (blockAccess_unsignalled _ h)
  | rmiProbe =>
    exact rmiRequest_unsignalled h (withGate_unsignalled h fun t ht => blockAccess_unsignalled _ ht)
  | rmiF01Init => exact execRmiF01Init_unsignalled h
  | smbusUnsupported | gatedUnsupported => exact ret_unsignalled (Result.fail .unsupportedTransactionType) h
  | smbusQuickW => exact smb .quick false
  | smbusQuickR => exact smb .quick true
  | smbusByteW => exact smb .byte false
  | smbusByteR => exact smb .byte true
  | smbusByteDataW => exact smb .byteData false
  | smbusByteDataR => exact smb .byteData true
  | smbusWordDataW => exact smb .wordData false
  | smbusWordDataR => exact smb .wordData true
  | smbusBlockDataW => exact smb .blockData false
  | smbusBlockDataR => exact smb .blockData true
  | smbusI2cBlockDataW => exact smb .i2cBlockData false
  | smbusI2cBlockDataR => exact smb .i2cBlockData true
  | gatedQuickW | gatedQuickR | gatedByteW | gatedByteR | gatedByteDataW | gatedByteDataR | gatedWordDataW
  | gatedWordDataR | gatedBlockDataW | gatedBlockDataR | gatedI2cBlockDataW | gatedI2cBlockDataR =>
    exact gatedRequest_unsignalled _ _ h

end Sys2Proof.Machine
end

section
/-!
SUPPORT. S.completion in a handler run and over a step (41_transfer_engine.md R252, 10_state.md R36,
42_interrupt_fifo.md R311): set right after INTR_MASK = 0, where the run ends; cleared where a transfer begins.
-/

namespace Sys2Proof.Machine

variable {s t u : State} {a : Agent} {i : Instr} {m : Move} {ms : List Move}

/-! ### The mask before the signal -/

/-- Completion, where signalled, was so right after INTR_MASK was written 0 (41_transfer_engine.md R252). -/
def MaskedSignal (t : State) : Prop :=
  t.blk.completion = true → t.ctl.intrMask = 0#32 ∧ ∃ l, t.io = .write .intrMask 0#32 :: l

theorem MaskedSignal.of_unsignalled (h : t.blk.completion = false) : MaskedSignal t := fun e => by simp [h] at e

/-- `signal_completion` after the mask (41_transfer_engine.md R252). -/
theorem MaskedSignal.signalled (s : State) : MaskedSignal (signalCompletion (writeMask 0#32 s)) := fun _ =>
  ⟨by rw [signalCompletion_ctl, writeMask_ctl], s.io, by rw [signalCompletion_io, writeMask_io]⟩

theorem endHandler_masked (h : MaskedSignal s) : MaskedSignal (endHandler s) := by
  unfold endHandler
  split
  · exact MaskedSignal.signalled s
  · exact h

theorem endBranch_masked (k : Nat) (h : MaskedSignal s) : MaskedSignal (endBranch k s) := by
  unfold endBranch nextBranch
  split
  · exact endHandler_masked h
  · exact h

theorem stopDetBranch_masked (s : State) : MaskedSignal (stopDetBranch s) := by
  unfold stopDetBranch
  simp only []
  split <;> exact .signalled _

/-- A run's operations that keep completion not signalled, then the branch's end. -/
theorem endBranch_masked_after {k : Nat} {o : Flow} (hc : s.blk.completion = false) (keeps : FlowKeeps s o)
    (he : Flow.andThen o (fun u => .next (endBranch k u)) = .next t) : MaskedSignal t := by
  obtain ⟨u, first, last⟩ := Flow.andThen_eq_next he
  cases last
  exact endBranch_masked k (.of_unsignalled ((keeps u first).completion.trans hc))

/-- Interrupt entry signals completion at most by ending its run (42_interrupt_fifo.md R280, R281). -/
theorem takeIrq_masked (hc : s.blk.completion = false) : MaskedSignal (takeIrq s) := by
  have cleared := (regRead_runKeeps .intrStat s).trans (clearLatched_runKeeps (regRead .intrStat s).1 _)
  have still := MaskedSignal.of_unsignalled (cleared.completion.trans hc)
  unfold takeIrq
  split
  · exact .of_unsignalled (by simpa [idleBranch] using hc)
  · simp only []
    split
    · exact endHandler_masked still
    · exact still

/-- An instruction of a handler run that signals completion does so right after the mask. -/
theorem handler_masked (hi : Instr.OfHandler i) (hc : s.blk.completion = false) (he : exec i s = .next t) :
    MaskedSignal t := by
  have still := MaskedSignal.of_unsignalled hc
  rcases hi with rfl | rfl | rfl | rfl | rfl
  · cases he
    split
    · exact takeIrq_masked hc
    · exact still
  · cases he
    exact MaskedSignal.signalled _
  · exact endBranch_masked_after hc (rxDrain_runKeeps s) he
  · change execIrqTxEmpty s = .next t at he
    unfold execIrqTxEmpty at he
    split at he
    · cases he
      exact endBranch_masked 4 still
    · exact endBranch_masked_after hc (txRefill_runKeeps s) he
  · cases he
    split
    · exact endBranch_masked 9 still
    · exact endBranch_masked 9 (stopDetBranch_masked s)

/-! ### A step -/

/-- Completion is as it was, or was cleared with no transfer active yet (41_transfer_engine.md R245). -/
def Clears (s t : State) : Prop :=
  t.blk.completion = s.blk.completion ∨
    (t.blk.completion = false ∧ (s.blk.xphase = .idle ∨ s.blk.xphase = .busyWait))

/-- A handler run of an active transfer has ended and signalled completion right after the mask. -/
def Signals (s t : State) : Prop :=
  s.blk.completion = false ∧ s.blk.xphase = .transferActive ∧ t.handler = none ∧ t.ctl.intrMask = 0#32 ∧
    ∃ l, t.io = .write .intrMask 0#32 :: l

theorem Ended.clears (h : Ended s.blk.xphase s.blk.completion t) : Clears s t := by
  obtain ⟨-, ⟨-, hc⟩ | ⟨hc | hc, from_, -⟩⟩ := h
  · exact .inl hc
  · exact .inl hc
  · exact .inr ⟨hc, from_⟩

/-- What a part of a handler run leaves, its completion not signalled before, signals it or leaves it. -/
theorem RunEnds.signals (k : RunEnds s t) (hx : s.blk.xphase = .transferActive) (hc : s.blk.completion = false)
    (masked : MaskedSignal t) : Clears s t ∨ Signals s t := by
  cases ht : t.blk.completion with
  | false => exact .inl (.inl (ht.trans hc.symm))
  | true =>
    have ended : t.handler = none := by
      by_contra hh
      simp [k.signal hh] at ht
    exact .inr ⟨hc, hx, ended, masked ht⟩

theorem takeIrq_signals (s : State) : Clears s (takeIrq s) ∨ Signals s (takeIrq s) := by
  by_cases ha : s.blk.xphase ≠ .transferActive ∨ s.blk.completion = true
  · have idle : takeIrq s = idleBranch s := if_pos ha
    exact .inl (.inl (by simp [idle, idleBranch]))
  · simp only [not_or, not_not, Bool.not_eq_true] at ha
    obtain ⟨hx, hc⟩ := ha
    exact (takeIrq_runEnds hx hc).signals hx hc (takeIrq_masked hc)

theorem resumeAgent_clears (h : s.Control) (hh : s.handler = none) (he : resumeAgent a s = .next t) :
    Clears s t := by
  unfold resumeAgent at he
  split at he
  · next c hp =>
    obtain ⟨v, hv, ended⟩ := runCont_go s c h hh (.inl hp)
    cases hv.symm.trans he
    exact ended.clears
  · next c hp =>
    obtain ⟨v, hv, ended⟩ := runCont_go s c h hh (.inr hp)
    cases hv.symm.trans he
    exact ended.clears
  · next hp =>
    obtain ⟨v, hv, -, -, hc, -⟩ := unwind_end s h hh hp
    cases hv.symm.trans he
    exact .inl hc
  all_goals cases he; exact .inl rfl

theorem grantGate_clears (h : s.Control) (hh : s.handler = none) (he : grantGate a s = .next t) : Clears s t := by
  unfold grantGate at he
  split at he
  · next c g hp hg =>
    obtain ⟨v, hv, ended⟩ := runCont_gate s c g h hh hp hg
    cases hv.symm.trans he
    exact ended.clears
  · cases he
    exact .inl rfl

/-- S is created with completion not signalled, where no requester can have held the gate (10_state.md R80,
45_lifecycle.md R393). -/
theorem attachBus_clears (h : s.Control) (draw : Ctl) : Clears s (attachBus draw s) := by
  unfold attachBus
  split
  · exact .inl rfl
  · next ha =>
    have noRequest := h.detached (by simpa using ha)
    have free : s.blk.gate.owner = none :=
      Option.eq_none_iff_forall_ne_some.mpr fun b => h.not_owner (noRequest b)
    exact .inr ⟨rfl, .inl (h.free free).1⟩

/-- No move that is taken itself signals completion. -/
theorem takeMove_clears (h : s.Control) (hh : s.handler = none) (he : takeMove m s = .move (.next t)) :
    Clears s t := by
  have same : ∀ {o : Flow}, Fetched.move o = .move (.next t) → o = .next t := fun e => by cases e; rfl
  cases m with
  | request a w ops => rcases submit_move he with rfl | ⟨-, rfl⟩ <;> exact .inl rfl
  | event w => simp only [takeMove] at he; split at he <;> cases he
  | wake a =>
    cases he
    unfold wake
    split <;> exact .inl rfl
  | resume a => exact resumeAgent_clears h hh (same he)
  | grant a => exact grantGate_clears h hh (same he)
  | ctl m =>
    cases m with
    | take ans =>
      simp only [takeMove, takeWord] at he
      split at he
      · split at he <;> cases he
        exact .inl rfl
      · cases he
        exact .inl rfl
    | emptyFifo | arbLost | finishDisable | busy | latch | targetReg | targetPage => cases he; exact .inl rfl
  | store a n off x =>
    have he := same he
    unfold storeBuf at he
    split at he
    · cases he
    · split at he <;> cases he
      exact .inl rfl
  | relist a l =>
    have he := same he
    unfold changeList at he
    split at he
    · cases he
      exact .inl rfl
    · split at he <;> cases he
      exact .inl rfl
  | newDevice | newTarget => cases he; exact .inl rfl
  | powerLoss draw =>
    cases he
    unfold losePower
    split <;> exact .inl rfl
  | attach draw => cases he; exact attachBus_clears h draw
  | detach =>
    have he := same he
    unfold detachBus at he
    split at he <;> cases he
    exact .inl rfl

/-- An instruction that a move brings to hand signals completion where it takes the interrupt alone. -/
theorem instr_signals (h : s.Control) (hh : s.handler = none) (hf : takeMove m s = .instr i u)
    (he : exec i u = .next t) : Clears s t ∨ (m = .event 0x00000080#32 ∧ Signals s t) := by
  rcases takeMove_instr hf with ⟨a, w, ops, -, ha, hr, hd, rfl⟩ | ⟨w, rfl, hd, rfl⟩ | ⟨ans, w, -, hd, rfl⟩
  · have self : (submitted a i ops s).agent a = Caller.submitted i ops := agent_setAgent_self _ _ _
    obtain ⟨v, hv, ended⟩ := exec_end (s := submitted a i ops s) i (decodeReq_isRequest hd)
      (submitted_activity h hh ha hr i ops) (congrArg Caller.stack self)
    cases hv.symm.trans he
    exact .inl ended.clears
  · obtain ⟨rfl, -, -⟩ := decodeEvt_ok hd
    rcases decodeEvt_cases hd with rfl | rfl
    · cases he
      split
      · exact (takeIrq_signals _).imp_right fun k => ⟨rfl, k⟩
      · exact .inl (.inl rfl)
    · exact .inl (.inl (execEvtTimeout_completion he))
  · rcases decodeCmd_cases hd with ⟨dat, stop, restart, rfl⟩ | ⟨stop, restart, rfl⟩
    all_goals
      cases he
      exact .inl (.inl rfl)

/-- Of all steps only those of a handler run signal completion, and only one with no transfer active clears it. -/
theorem step_signals (h : s.Control) (e : step s = .next t) :
    Clears s t ∨ ((s.handler ≠ none ∨ ∃ ms, NextMove (.event 0x00000080#32) ms s) ∧ Signals s t) := by
  have control : ∀ ms, State.Control { s with sched := ms } := fun ms => h.congr rfl rfl rfl rfl rfl rfl rfl rfl
  cases step_inv e with
  | branch stat i hh hd he =>
    have inRun : s.handler ≠ none := by rw [hh]; nofun
    obtain ⟨hx, hc⟩ := h.handler inRun
    have masked := handler_masked (.inr (decodeStat_cases hd)) hc he
    exact ((branch_runEnds hc hh hd he).signals hx hc masked).imp_right fun k => ⟨.inl inRun, k⟩
  | endRun stat hh ht =>
    have inRun : s.handler ≠ none := by rw [hh]; nofun
    obtain ⟨hx, hc⟩ := h.handler inRun
    subst ht
    exact ((endHandler_runEnds s).signals hx hc (endHandler_masked (.of_unsignalled hc))).imp_right
      fun k => ⟨.inl inRun, k⟩
  | activity a _ hh _ he =>
    exact .inl (resumeAgent_clears (s := { s with running := none }) (h.congr rfl rfl rfl rfl rfl rfl rfl rfl) hh he)
  | rest _ ht => exact .inl (.inl (by rw [ht]))
  | instr m ms i u next hf he =>
    exact (instr_signals (s := { s with sched := ms }) (control ms) next.handler hf he).imp_right
      fun ⟨hm, k⟩ => ⟨.inr ⟨ms, hm ▸ next⟩, k⟩
  | move m ms next he =>
    exact .inl (takeMove_clears (s := { s with sched := ms }) (control ms) next.handler he)

/-- Settles O59: `exec_unsignalled` and `handler_masked` for the instructions, `step_signals` for the steps. -/
theorem completionBySignal : Obligations.CompletionBySignal := by
  refine ⟨fun i s t _ he before after => ?instruction, fun s t h e => ?step⟩
  case instruction =>
    by_cases hi : Instr.OfHandler i
    · exact ⟨hi, handler_masked hi before he after⟩
    · simp [exec_unsignalled hi before t he] at after
  case step =>
    rcases step_signals h e with kept | ⟨run, before, active, ended, mask, io⟩
    · refine ⟨fun before after => ?_, fun before after => ?_⟩
      · rcases kept with hc | ⟨hc, -⟩
        all_goals simp [hc, before] at after
      · rcases kept with hc | ⟨-, from_⟩
        · simp [hc, before] at after
        · exact from_
    · exact ⟨fun _ _ => ⟨active, run, ended, mask, io⟩, fun set => by simp [before] at set⟩

end Sys2Proof.Machine
end

section
/-!
SUPPORT. What a handler branch is made of (42_interrupt_fifo.md R280 to R310), said once: an invariant of the
accesses and updates it makes is one of the branch. `BranchInv` is what every branch needs, `RefillInv` and `DrainInv`
what the two loops need besides. Before that the fields of the bus record no branch changes and the read cursor's skip.
-/

namespace Sys2Proof.Machine

variable {s t : State} {b c : Bus} {Q R : State → Prop} {D : Nat → State → Prop} {n : Nat}

/-! ### The bus record -/

/-- The bus record with the fields that a handler branch may change blanked. -/
def Bus.unhandled (b : Bus) : Bus :=
  { b with
    status := .idle, msgWriteIdx := 0, txOff := 0, msgReadIdx := 0, rxOff := 0, lens := [], recvPending := false,
    holdForLen := false, cmdErr := 0#8, msgErr := .none, rxOutstanding := 0, completion := false }

/-- A handler branch may take the bus record `b` to `c` without a register access. -/
def Bus.Progress (b c : Bus) : Prop := c.unhandled = b.unhandled ∧ c.rxOutstanding = b.rxOutstanding

/-- The fields a handler branch does not change, one by one. -/
theorem Bus.unhandled_fields (h : c.unhandled = b.unhandled) :
    c = { c with
      regBase := b.regBase, regSize := b.regSize, mapped := b.mapped, ssHcnt := b.ssHcnt, ssLcnt := b.ssLcnt,
      fsHcnt := b.fsHcnt, fsLcnt := b.fsLcnt, sdaHold := b.sdaHold, txFifoDepth := b.txFifoDepth,
      rxFifoDepth := b.rxFifoDepth, functionality := b.functionality, xphase := b.xphase,
      pollCount := b.pollCount, msgs := b.msgs, msgsNum := b.msgsNum, abortSource := b.abortSource,
      retries := b.retries, timedOut := b.timedOut, ready := b.ready, powered := b.powered,
      irqInstalled := b.irqInstalled, disableUnacked := b.disableUnacked, gate := b.gate } := by
  cases b
  cases c
  simp only [Bus.unhandled, Bus.mk.injEq] at h
  simp only [h]

theorem Bus.unhandled_msgs (h : c.unhandled = b.unhandled) : c.msgs = b.msgs := (congrArg Bus.msgs h :)
theorem Bus.unhandled_depths (h : c.unhandled = b.unhandled) :
    c.rxFifoDepth = b.rxFifoDepth ∧ c.txFifoDepth = b.txFifoDepth :=
  ⟨(congrArg Bus.rxFifoDepth h :), (congrArg Bus.txFifoDepth h :)⟩

/-! ### The read cursor's skip -/

theorem skipWrites_of_write {msgs : List Msg} {i : Nat} (hi : i < msgs.length) (hw : (msgAt msgs i).rd = false) :
    skipWrites msgs i = skipWrites msgs (i + 1) := by
  rw [msgAt, List.getD_eq_getElem _ _ hi] at hw
  rw [skipWrites, List.drop_eq_getElem_cons hi, List.takeWhile_cons_of_pos (by simp [hw]), List.length_cons,
    skipWrites]
  omega

theorem skipWrites_of_stop {msgs : List Msg} {i : Nat} (h : i < msgs.length → (msgAt msgs i).rd = true) :
    skipWrites msgs i = i := by
  by_cases hi : i < msgs.length
  · have hr := h hi
    rw [msgAt, List.getD_eq_getElem _ _ hi] at hr
    rw [skipWrites, List.drop_eq_getElem_cons hi, List.takeWhile_cons_of_neg (by simp [hr]), List.length_nil, Nat.add_zero]
  · simp [skipWrites, List.drop_eq_nil_of_le (Nat.le_of_not_lt hi)]

/-- The skip ends at the first message that is no write (42_interrupt_fifo.md R300). -/
theorem skipWrites_eq {msgs : List Msg} {r : Nat} (hr : r ≤ msgs.length)
    (stop : r < msgs.length → (msgAt msgs r).rd = true) {i : Nat} (hi : i ≤ r)
    (writes : ∀ j, i ≤ j → j < r → (msgAt msgs j).rd = false) : skipWrites msgs i = r := by
  induction hi using Nat.decreasingInduction with
  | self => exact skipWrites_of_stop stop
  | of_succ k hk ih =>
    rw [skipWrites_of_write (by omega) (writes k (by omega) hk)]
    exact ih fun j h1 h2 => writes j (by omega) h2

/-- The message a skip ends at, if the list has one there, is a read (42_interrupt_fifo.md R300). -/
theorem skipWrites_rd {msgs : List Msg} {i : Nat} (h : skipWrites msgs i < msgs.length) :
    (msgAt msgs (skipWrites msgs i)).rd = true := by
  have hi : i ≤ msgs.length := by unfold skipWrites at h; omega
  induction hi using Nat.decreasingInduction with
  | self => simp [skipWrites] at h
  | of_succ k hk ih =>
    cases hr : (msgAt msgs k).rd with
    | false => rw [skipWrites_of_write hk hr] at h ⊢; exact ih h
    | true => rwa [skipWrites_of_stop fun _ => hr]

/-- The skip moves the read cursor alone. -/
theorem skipAtCursor_progress (b : Bus) : b.Progress (skipAtCursor b) := by
  unfold skipAtCursor
  simp only []
  split <;> exact ⟨rfl, rfl⟩

theorem skipAtCursor_msgReadIdx (b : Bus) : (skipAtCursor b).msgReadIdx = skipWrites b.msgs b.msgReadIdx := by
  unfold skipAtCursor
  simp only []
  split
  · next h => exact h.symm
  · rfl

/-! ### Operations that may fault -/

/-- Every state the operation answers satisfies `Q`. -/
def Flow.All (Q : State → Prop) (o : Flow) : Prop := ∀ t, o = .next t → Q t

theorem Flow.All.next (h : Q t) : Flow.All Q (.next t) := fun _ e => by cases e; exact h
theorem Flow.All.fault (r : Fault) : Flow.All Q (.fault r) := fun _ e => by cases e

theorem Flow.All.andThen {o : Flow} {f : State → Flow} (h : Flow.All Q o) (k : ∀ t, Q t → Flow.All R (f t)) :
    Flow.All R (Flow.andThen o f) := by
  intro u e
  obtain ⟨t, ht, hu⟩ := Flow.andThen_eq_next e
  exact k t (h t ht) u hu

theorem Flow.All.imp {o : Flow} (h : Flow.All Q o) (k : ∀ t, Q t → R t) : Flow.All R o := fun t e => k t (h t e)

/-! ### What every branch needs -/

/-- `Q` is kept by the updates every handler branch makes: of the cursors and the outcome in the bus record, of
INTR_MASK, and of the run's snapshot. -/
structure BranchInv (Q : State → Prop) : Prop where
  blk     : ∀ s b, s.blk.Progress b → Q s → Q { s with blk := b }
  mask    : ∀ v s, Q s → Q (writeMask v s)
  handler : ∀ h s, Q s → Q { s with handler := h }

theorem BranchInv.mapBlk (k : BranchInv Q) {f : Bus → Bus} (hf : s.blk.Progress (f s.blk)) (h : Q s) :
    Q (s.mapBlk f) := k.blk s _ hf h

theorem BranchInv.signal (k : BranchInv Q) (h : Q s) : Q (signalCompletion (writeMask 0#32 s)) :=
  k.blk _ _ ⟨rfl, rfl⟩ (k.mask _ _ h)

theorem BranchInv.endHandler (k : BranchInv Q) (h : Q s) : Q (endHandler s) := by
  unfold Machine.endHandler
  split
  · exact k.handler _ _ (k.signal h)
  · exact k.handler _ _ h

theorem BranchInv.endBranch (k : BranchInv Q) (i : Nat) (h : Q s) : Q (endBranch i s) := by
  unfold Machine.endBranch nextBranch
  split
  · exact k.endHandler h
  · exact k.handler _ _ h

/-- The TX_ABRT branch keeps it (42_interrupt_fifo.md R283). -/
theorem BranchInv.txAbrt (k : BranchInv Q) (h : Q s) : Flow.All Q (execIrqTxAbrt s) :=
  .next (k.handler _ _ (k.signal (k.mapBlk ⟨rfl, rfl⟩ h)))

/-- The STOP_DET branch keeps it (42_interrupt_fifo.md R310). -/
theorem BranchInv.stopDet (k : BranchInv Q) (h : Q s) : Flow.All Q (execIrqStopDet s) := by
  refine .next (k.endBranch 9 ?_)
  split
  · exact h
  · unfold stopDetBranch
    simp only []
    split
    · exact k.signal (k.mapBlk ⟨rfl, rfl⟩ h)
    · exact k.signal h

/-! ### What the TX refill needs -/

/-- `Q` is kept by the refill: `R n` says what holds while at most `n` more words may be issued before the next TXFLR
read (42_interrupt_fifo.md R290, R292). -/
structure RefillInv (Q : State → Prop) (R : Nat → State → Prop) : Prop extends BranchInv Q where
  start : ∀ s, Q s → R (s.blk.txFifoDepth - (regRead .txflr s).1.toNat) (regRead .txflr s).2
  word  : ∀ n s w rd, w.getLsbD 8 = rd → (rd = true → s.blk.rxOutstanding ≠ s.blk.rxFifoDepth) → R (n + 1) s →
            R n (issueWord w rd s)
  done  : ∀ n s, R n s → Q s

/-- Bit 8 of a command word is the message's direction (30_encoding.md R161). -/
theorem dcWord_rd (b : Bus) (i off : Nat) (dat : Byte) : (dcWord b i off dat).getLsbD 8 = (msgAt b.msgs i).rd := by
  simp only [dcWord, getLsbD_cmdWord]
  rfl

theorem RefillInv.issueWords {R : Nat → State → Prop} (k : RefillInv Q R) (h : R n s) :
    Flow.All Q (issueWords n s) := by
  induction n generalizing s with
  | zero => exact .next (k.done _ _ h)
  | succ n ih =>
    unfold Machine.issueWords
    simp only []
    split
    · exact .next (k.done _ _ h)
    · split
      · next hrd =>
        split
        · exact .next (k.done _ _ h)
        · next room => exact ih (k.word _ _ _ _ (by rw [dcWord_rd, hrd]) (fun _ => room) h)
      · next hrd =>
        split
        · exact .fault _
        · exact ih (k.word _ _ _ _ (by rw [dcWord_rd]; simpa using hrd) nofun h)

/-- The refill comes to the message at its write cursor: S.status is its direction (10_state.md R32). -/
def atMessage (s : State) : State := s.mapBlk fun b => { b with status := (msgAt b.msgs b.msgWriteIdx).dir }

/-- One turn of the refill's outer loop, where it does not end (42_interrupt_fifo.md R290). -/
theorem refillLoop_succ (h : ¬ (s.blk.msgWriteIdx = s.blk.msgsNum ∨ s.blk.holdForLen = true)) :
    refillLoop (n + 1) s =
      Flow.andThen
        (issueWords (s.blk.txFifoDepth - (regRead .txflr (atMessage s)).1.toNat) (regRead .txflr (atMessage s)).2)
        fun t =>
          if t.blk.txOff < t.blk.lens.getD s.blk.msgWriteIdx 0 then .next t
          else if (msgAt s.blk.msgs s.blk.msgWriteIdx).recvLen = true ∧ t.blk.recvPending = true then
            .next (t.mapBlk fun b => { b with holdForLen := true })
          else refillLoop n (t.mapBlk fun b => { b with msgWriteIdx := s.blk.msgWriteIdx + 1, txOff := 0 }) := by
  rw [Machine.refillLoop, if_neg h]
  simp only [regRead_blk, mapBlk_blk]
  rfl

theorem RefillInv.refillLoop {R : Nat → State → Prop} (k : RefillInv Q R) (n : Nat) (h : Q s) :
    Flow.All Q (refillLoop n s) := by
  induction n generalizing s with
  | zero => exact .next h
  | succ n ih =>
    by_cases ends : s.blk.msgWriteIdx = s.blk.msgsNum ∨ s.blk.holdForLen = true
    · rw [Machine.refillLoop, if_pos ends]
      exact .next h
    · have start := k.start (atMessage s) (k.mapBlk ⟨rfl, rfl⟩ h)
      rw [refillLoop_succ ends]
      refine Flow.All.andThen (k.issueWords start) fun t ht => ?_
      split
      · exact .next ht
      · split
        · exact .next (k.mapBlk ⟨rfl, rfl⟩ ht)
        · exact ih (k.mapBlk ⟨rfl, rfl⟩ ht)

/-- The TX_EMPTY branch keeps it (42_interrupt_fifo.md R290). -/
theorem RefillInv.txEmpty {R : Nat → State → Prop} (k : RefillInv Q R) (h : Q s) :
    Flow.All Q (execIrqTxEmpty s) := by
  unfold execIrqTxEmpty
  split
  · exact .next (k.endBranch 4 h)
  · refine Flow.All.andThen (Q := Q) (Flow.All.andThen (k.refillLoop _ h) fun t ht => .next ?_) fun t ht =>
      .next (k.endBranch 4 ht)
    unfold maskTxEmpty
    split
    · exact k.mask _ _ ht
    · exact ht

/-! ### What the RX drain needs -/

/-- One byte read off the RX FIFO and counted (42_interrupt_fifo.md R300). -/
def takeByte (s : State) : State := (regRead .dataCmd s).2.mapBlk fun b => { b with rxOutstanding := b.rxOutstanding - 1 }

/-- `D n` is kept by the drain while `n` more bytes are to be read (42_interrupt_fifo.md R300): a store goes to the
buffer of a read message. -/
structure DrainInv (D : Nat → State → Prop) : Prop where
  base  : ∀ n, BranchInv (D n)
  read  : ∀ n s, D (n + 1) s → D n (takeByte s)
  store : ∀ n s m off x, m ∈ s.blk.msgs → m.rd = true → off < m.buf.cap.toNat → D n s →
            D n { s with mem := s.mem.write (bufAddr m.buf.id off) x }

/-- A message with room for a byte is one of the list (log 36). -/
theorem msgAt_mem {msgs : List Msg} {i off : Nat} (h : off < (msgAt msgs i).buf.cap.toNat) :
    i < msgs.length ∧ msgAt msgs i ∈ msgs := by
  have hi : i < msgs.length := by
    by_contra hn
    rw [msgAt, List.getD_eq_default _ _ (Nat.le_of_not_lt hn)] at h
    exact absurd h (Nat.not_lt_zero _)
  exact ⟨hi, by rw [msgAt, List.getD_eq_getElem _ _ hi]; exact List.getElem_mem hi⟩

theorem memWrite_eq_some {m m' : Memory} {buf : BufRef} {off : Nat} {x : Byte} (h : memWrite m buf off x = some m') :
    off < buf.cap.toNat ∧ m' = m.write (bufAddr buf.id off) x := by
  unfold memWrite at h
  split at h
  · next hlt => cases h; exact ⟨hlt, rfl⟩
  · cases h

/-- A store at the read cursor, past the write messages, keeps it. -/
theorem DrainInv.memWrite (k : DrainInv D) {off : Nat} {x : Byte} {m' : Memory}
    (cursor : ∃ i, s.blk.msgReadIdx = skipWrites s.blk.msgs i)
    (e : memWrite s.mem (msgAt s.blk.msgs s.blk.msgReadIdx).buf off x = some m') (h : D n s) :
    D n { s with mem := m' } := by
  obtain ⟨hlt, rfl⟩ := memWrite_eq_some e
  obtain ⟨hi, hm⟩ := msgAt_mem hlt
  obtain ⟨i, hs⟩ := cursor
  exact k.store _ _ _ _ _ hm (by rw [hs] at hi ⊢; exact skipWrites_rd hi) hlt h

theorem DrainInv.passMessage (k : DrainInv D) (i : Nat) (h : D n s) : D n (passMessage i s) := by
  unfold Machine.passMessage
  split
  · exact (k.base n).mapBlk ⟨rfl, rfl⟩ h
  · exact h

/-- One byte of the drain, by the state `v` it is taken to and the byte `x` (42_interrupt_fifo.md R300). -/
theorem drainByte_eq {v : State} {x : Byte} (hv : v = takeByte (s.mapBlk skipAtCursor))
    (hx : x = (regRead .dataCmd (s.mapBlk skipAtCursor)).1.setWidth 8) :
    drainByte s =
      if v.blk.msgReadIdx = v.blk.msgsNum then .next (setMsgErr .protocolError v)
      else
        Flow.andThen
          (if (msgAt v.blk.msgs v.blk.msgReadIdx).recvLen = true ∧ v.blk.recvPending = true ∧ v.blk.rxOff = 0 then
            recvLength v.blk.msgReadIdx (msgAt v.blk.msgs v.blk.msgReadIdx) x v
           else storeByte (msgAt v.blk.msgs v.blk.msgReadIdx) x v)
          fun w => .next (passMessage v.blk.msgReadIdx w) := by
  subst hv hx
  rfl

/-- The read cursor of the state a byte is taken to is where a skip ends. -/
theorem takeByte_cursor (s : State) :
    (takeByte (s.mapBlk skipAtCursor)).blk.msgReadIdx =
      skipWrites (takeByte (s.mapBlk skipAtCursor)).blk.msgs s.blk.msgReadIdx := by
  simp only [takeByte, mapBlk_blk, regRead_blk, skipAtCursor_msgReadIdx,
    Bus.unhandled_msgs (skipAtCursor_progress s.blk).1]

theorem DrainInv.drainByte (k : DrainInv D) (h : D (n + 1) s) : Flow.All (D n) (drainByte s) := by
  have taken : D n (takeByte (s.mapBlk skipAtCursor)) :=
    k.read _ _ ((k.base _).mapBlk (skipAtCursor_progress _) h)
  have cursor : ∃ i, (takeByte (s.mapBlk skipAtCursor)).blk.msgReadIdx =
      skipWrites (takeByte (s.mapBlk skipAtCursor)).blk.msgs i := ⟨_, takeByte_cursor s⟩
  rw [drainByte_eq rfl rfl]
  generalize takeByte (s.mapBlk skipAtCursor) = v at taken cursor ⊢
  split
  · exact .next ((k.base n).mapBlk ⟨rfl, rfl⟩ taken)
  · refine Flow.All.andThen (Q := D n) ?_ fun t ht => .next (k.passMessage _ ht)
    split
    · unfold recvLength
      split
      · exact .next ((k.base n).mapBlk ⟨rfl, rfl⟩ taken)
      · split
        · exact .fault _
        · next e => exact .next ((k.base n).mask _ _ ((k.base n).blk _ _ (by exact ⟨rfl, rfl⟩) (k.memWrite cursor e taken)))
    · unfold storeByte
      split
      · exact .fault _
      · next e => exact .next ((k.base n).blk _ _ (by exact ⟨rfl, rfl⟩) (k.memWrite cursor e taken))

theorem DrainInv.drainLoop (k : DrainInv D) (h : D n s) : Flow.All (fun t => ∃ i, D i t) (drainLoop n s) := by
  induction n generalizing s with
  | zero => exact .next ⟨_, h⟩
  | succ n ih =>
    unfold Machine.drainLoop
    split
    · exact .next ⟨_, h⟩
    · exact (k.drainByte h).andThen fun t ht => ih ht

/-- The RX_FULL branch keeps it (42_interrupt_fifo.md R300). -/
theorem DrainInv.rxFull (k : DrainInv D) (start : D ((regRead .rxflr s).1.extractLsb' 0 9).toNat (regRead .rxflr s).2) :
    Flow.All (fun t => ∃ i, D i t) (execIrqRxFull s) :=
  (k.drainLoop start).andThen fun _ ⟨i, h⟩ => .next ⟨i, (k.base i).endBranch 2 h⟩

end Sys2Proof.Machine
end

section
/-!
SUPPORT. What no handler branch changes, that none faults where the cursor invariant holds, and the command word
bit by bit (42_interrupt_fifo.md R291, R293, R304).
-/

namespace Sys2Proof.Machine

variable {s t u : State} {b c : Bus} {n : Nat}

/-! ### The frame -/

/-- The registers a handler branch does not write are as before: INTR_MASK is the one it does
(42_interrupt_fifo.md R283, R295, R302). -/
structure Ctl.SameSetup (c d : Ctl) : Prop where
  control : d.con = c.con ∧ d.tar = c.tar ∧ d.enable = c.enable
  counts  : c.SameCounts d

theorem Ctl.SameSetup.trans {c d e : Ctl} (h : c.SameSetup d) (k : d.SameSetup e) : c.SameSetup e := by
  refine ⟨?_, h.counts.trans k.counts⟩
  simp only [k.control, h.control, and_self]

/-- The counts are among the registers Ctl leaves alone on its own. -/
theorem Ctl.Keeps.sameSetup {c d : Ctl} (k : Ctl.Keeps c d) : c.SameSetup d :=
  ⟨⟨k.con, k.tar, k.enable⟩, ⟨k.ssHcnt, k.ssLcnt, k.fsHcnt, k.fsLcnt, k.sdaHold⟩, k.rxTl, k.txTl⟩

/-- The side effect of a register read changes no register the block writes (10_state.md R70 to R74). -/
theorem Ctl.afterRead_keeps (r : Reg) (c : Ctl) : Ctl.Keeps c (Ctl.afterRead r c) := by
  cases r
  case dataCmd =>
    simp only [Ctl.afterRead]
    split
    · exact Ctl.latch_keeps 0 c
    · constructor <;> simp
  all_goals constructor <;> simp [Ctl.afterRead, Ctl.unlatch]

theorem regRead_keeps (r : Reg) (s : State) : Ctl.Keeps s.ctl (regRead r s).2.ctl := by
  rw [regRead_ctl]
  exact (ctlTurn_keeps s).trans (Ctl.afterRead_keeps r _)

/-- Of a handler branch from `s`: no requester, device, parameter or schedule is changed, no field of the bus record
or register but those of a run, and no byte outside `W`. -/
structure BranchKeeps (W : Nat → Prop) (s t : State) : Prop where
  agents   : t.agents = s.agents
  devs     : t.devs = s.devs
  par      : t.par = s.par
  cur      : t.cur = s.cur
  sched    : t.sched = s.sched
  running  : t.running = s.running
  attached : t.attached = s.attached
  blk      : t.blk.unhandled = s.blk.unhandled
  ctl      : s.ctl.SameSetup t.ctl
  mem      : ∀ x, ¬ W x → t.mem.read x = s.mem.read x

variable {W : Nat → Prop}

theorem BranchKeeps.refl (s : State) : BranchKeeps W s s :=
  ⟨rfl, rfl, rfl, rfl, rfl, rfl, rfl, rfl, ⟨⟨rfl, rfl, rfl⟩, ⟨rfl, rfl, rfl, rfl, rfl⟩, rfl, rfl⟩, fun _ _ => rfl⟩

theorem BranchKeeps.trans (h : BranchKeeps W s t) (k : BranchKeeps W t u) : BranchKeeps W s u :=
  ⟨k.agents.trans h.agents, k.devs.trans h.devs, k.par.trans h.par, k.cur.trans h.cur, k.sched.trans h.sched,
    k.running.trans h.running, k.attached.trans h.attached, k.blk.trans h.blk, h.ctl.trans k.ctl,
    fun x hx => (k.mem x hx).trans (h.mem x hx)⟩

theorem BranchKeeps.of_blk (hb : c.unhandled = s.blk.unhandled) : BranchKeeps W s { s with blk := c } :=
  { BranchKeeps.refl s with blk := hb }

theorem BranchKeeps.read (r : Reg) (s : State) : BranchKeeps W s (regRead r s).2 := by
  have keeps := (regRead_keeps r s).sameSetup
  constructor <;> simp_all

/-- A write of INTR_MASK or of DATA_CMD changes no other register. -/
theorem BranchKeeps.write {r : Reg} (hr : r = .intrMask ∨ r = .dataCmd) (v : Word) (s : State) :
    BranchKeeps W s (regWrite r v s) := by
  have keeps : s.ctl.SameSetup (regWrite r v s).ctl := by
    refine (ctlTurn_keeps s).sameSetup.trans ?_
    rw [regWrite_ctl]
    rcases hr with rfl | rfl
    · exact ⟨⟨rfl, rfl, rfl⟩, ⟨rfl, rfl, rfl, rfl, rfl⟩, rfl, rfl⟩
    · simp only [Ctl.writeReg]
      split <;> exact ⟨⟨rfl, rfl, rfl⟩, ⟨rfl, rfl, rfl, rfl, rfl⟩, rfl, rfl⟩
  constructor <;> simp_all

theorem branchKeeps_inv (W : Nat → Prop) (s : State) : BranchInv (BranchKeeps W s) where
  blk _ _ hb h := h.trans (.of_blk hb.1)
  mask v _ h := h.trans (.write (.inl rfl) v _)
  handler _ t h := h.trans { BranchKeeps.refl t with }

theorem branchKeeps_refill (W : Nat → Prop) (s : State) : RefillInv (BranchKeeps W s) fun _ => BranchKeeps W s where
  toBranchInv := branchKeeps_inv W s
  start _ h := h.trans (.read _ _)
  word _ _ w _ _ _ h := (h.trans (.write (.inr rfl) w _)).trans (.of_blk rfl)
  done _ _ h := h

/-- The bytes of the read messages' buffers (42_interrupt_fifo.md R300). -/
def Bus.ReadBytes (b : Bus) (x : Nat) : Prop :=
  ∃ m ∈ b.msgs, m.rd = true ∧ ∃ k < m.buf.cap.toNat, x = bufAddr m.buf.id k

theorem branchKeeps_drain (s : State) : DrainInv fun _ => BranchKeeps s.blk.ReadBytes s where
  base _ := branchKeeps_inv _ s
  read _ _ h := (h.trans (.read .dataCmd _)).trans (.of_blk rfl)
  store _ t m off _ hm hr hlt h := h.trans { BranchKeeps.refl (W := s.blk.ReadBytes) t with
    mem := fun _ hy => Memory.read_write_ne _ _ _ _ fun e =>
      hy ⟨m, Bus.unhandled_msgs h.blk ▸ hm, hr, off, hlt, e⟩ }

/-- Every handler branch keeps the frame, and only the RX drain stores. -/
theorem branch_keeps {i : Instr} (hi : i ∈ [Instr.irqTxAbrt, .irqRxFull, .irqTxEmpty, .irqStopDet])
    (e : exec i s = .next t) :
    BranchKeeps (fun x => i = .irqRxFull ∧ s.blk.ReadBytes x) s t := by
  simp only [List.mem_cons, List.not_mem_nil, or_false] at hi
  have refl := BranchKeeps.refl (W := fun x => i = .irqRxFull ∧ s.blk.ReadBytes x) s
  rcases hi with rfl | rfl | rfl | rfl
  · exact (branchKeeps_inv _ s).txAbrt refl t e
  · obtain ⟨-, h⟩ := (branchKeeps_drain s).rxFull (.read _ s) t e
    exact { h with mem := fun x hx => h.mem x fun hr => hx ⟨rfl, hr⟩ }
  · exact (branchKeeps_refill _ s).txEmpty refl t e
  · exact (branchKeeps_inv _ s).stopDet refl t e

/-- Settles O34: `branch_keeps`, field by field. -/
theorem handlerBranchFrame : Obligations.HandlerBranchFrame := by
  intro s t i hi e
  have h := branch_keeps hi e
  obtain ⟨con, tar, enable⟩ := h.ctl.control
  obtain ⟨⟨ss, ss', fs, fs', sda⟩, rx, tx⟩ := h.ctl.counts
  refine ⟨h.agents, h.devs, h.par, h.cur, h.sched, h.running, h.attached, Bus.unhandled_fields h.blk,
    ⟨con, tar, enable, ss, ss', fs, fs', sda, rx, tx⟩, fun hne x => h.mem x fun hx => hne hx.1, fun x hx => h.mem x ?_⟩
  rintro ⟨-, m, hm, hr, k, hk, e⟩
  exact hx m hm hr k hk e

/-! ### No fault -/

/-- The byte at the write cursor is within its buffer (42_interrupt_fifo.md R304, 20_memory.md R102). -/
theorem issueWords_answers (limit : Nat) (h : s.CursorInv) (hw : s.blk.msgWriteIdx < s.blk.msgsNum) :
    ∃ t, issueWords limit s = .next t := by
  induction limit generalizing s with
  | zero => exact ⟨s, rfl⟩
  | succ limit ih =>
    have issue : s.blk.txOff < s.blk.lens.getD s.blk.msgWriteIdx 0 → ∀ w rd,
        ∃ t, issueWords limit (issueWord w rd s) = .next t := fun hlt w rd =>
      ih ((issueWord_reach (P := True) w rd s hlt).cursorInv trivial h) (by simpa [issueWord] using hw)
    unfold issueWords
    simp only []
    split
    · exact ⟨s, rfl⟩
    · next hlt =>
      have hlt := not_not.mp hlt
      split
      · split
        · exact ⟨s, rfl⟩
        · exact issue hlt _ _
      · have room : s.blk.txOff < (msgAt s.blk.msgs s.blk.msgWriteIdx).buf.cap.toNat :=
          hlt.trans_le (h.1.lens _ hw).2
        rw [memRead, if_pos room]
        exact issue hlt _ _

theorem refillLoop_answers (n : Nat) (h : s.CursorInv) : ∃ t, refillLoop n s = .next t := by
  induction n generalizing s with
  | zero => exact ⟨s, rfl⟩
  | succ n ih =>
    by_cases ends : s.blk.msgWriteIdx = s.blk.msgsNum ∨ s.blk.holdForLen = true
    · exact ⟨s, by rw [refillLoop, if_pos ends]⟩
    · have hw : s.blk.msgWriteIdx < s.blk.msgsNum := lt_of_le_of_ne h.1.wIdx fun e => ends (.inl e)
      have start : (regRead .txflr (atMessage s)).2.CursorInv :=
        Reach.cursorInv (P := True) ((Reach.mapOther s (by constructor <;> simp)).trans (.read _ _)) trivial h
      obtain ⟨t, e⟩ := issueWords_answers (s.blk.txFifoDepth - (regRead .txflr (atMessage s)).1.toNat) start
        (by simpa [atMessage] using hw)
      have ht := (issueWords_reach (P := True) _ _ t e).cursorInv trivial start
      obtain ⟨idx, num⟩ := issueWords_cursor _ _ _ e
      have idx : t.blk.msgWriteIdx = s.blk.msgWriteIdx := by simpa [atMessage] using idx
      have num : t.blk.msgsNum = s.blk.msgsNum := by simpa [atMessage] using num
      rw [refillLoop_succ ends, e, Flow.andThen_next]
      split
      · exact ⟨t, rfl⟩
      · split
        · exact ⟨_, rfl⟩
        · have passed : (t.mapBlk fun b => { b with msgWriteIdx := b.msgWriteIdx + 1, txOff := 0 }).CursorInv :=
            Reach.cursorInv (P := True) (.mapBlk t (.next (by omega))) trivial ht
          rw [← idx]
          exact ih passed

/-- The byte at the read cursor, past the write messages, is within its buffer (42_interrupt_fifo.md R304). -/
theorem drainByte_answers (h : s.CursorInv) : ∃ t, drainByte s = .next t := by
  have taken : (takeByte (s.mapBlk skipAtCursor)).CursorInv :=
    Reach.cursorInv (P := True)
      (((Reach.mapBlk s .skip).trans (.read .dataCmd _)).trans (.mapOther _ (by constructor <;> simp))) trivial h
  rw [drainByte_eq rfl rfl]
  generalize takeByte (s.mapBlk skipAtCursor) = v at taken ⊢
  split
  · exact ⟨_, rfl⟩
  · next hne =>
    have hr : v.blk.msgReadIdx < v.blk.msgsNum := lt_of_le_of_ne taken.1.rIdx hne
    have fits := taken.1.lens _ hr
    have room := taken.1.rxOff hr
    split
    · unfold recvLength
      split
      · exact ⟨_, rfl⟩
      · rw [memWrite, if_pos (by omega)]
        exact ⟨_, rfl⟩
    · rw [storeByte, memWrite, if_pos (by omega)]
      exact ⟨_, rfl⟩

theorem drainLoop_answers (n : Nat) (h : s.CursorInv) : ∃ t, drainLoop n s = .next t := by
  induction n generalizing s with
  | zero => exact ⟨s, rfl⟩
  | succ n ih =>
    unfold drainLoop
    split
    · exact ⟨s, rfl⟩
    · next hm =>
      obtain ⟨t, e⟩ := drainByte_answers h
      rw [e, Flow.andThen_next]
      exact ih ((drainByte_reach (P := True) s (not_not.mp hm) t e).cursorInv trivial h)

/-- Settles O60: the two loops answer, the other branches always do. -/
theorem branchesNeverFault : Obligations.BranchesNeverFault := by
  intro s h i hi
  simp only [List.mem_cons, List.not_mem_nil, or_false] at hi
  rcases hi with rfl | rfl | rfl | rfl
  · exact ⟨_, rfl⟩
  · have level : (regRead .rxflr s).2.CursorInv := Reach.cursorInv (P := True) (.read _ s) trivial h
    obtain ⟨t, e⟩ := drainLoop_answers ((regRead .rxflr s).1.extractLsb' 0 9).toNat level
    exact ⟨endBranch 2 t, by simp only [exec, execIrqRxFull, rxDrain, e, Flow.andThen_next]⟩
  · obtain ⟨t, e⟩ := refillLoop_answers (s.blk.msgsNum - s.blk.msgWriteIdx) h
    simp only [exec, execIrqTxEmpty, txRefill, e, Flow.andThen_next]
    split <;> exact ⟨_, rfl⟩
  · exact ⟨_, rfl⟩

/-! ### The command word -/

/-- Settles O29: `getLsbD_cmdWord` at each field of the word. -/
theorem commandWordBits : Obligations.CommandWordBits := by
  intro b i off dat
  simp only [dcWord, cmdWord_dat, getLsbD_cmdWord]
  refine ⟨rfl, rfl, ?restart, ?stop, fun k hk => ?high⟩
  case restart => simp
  case stop =>
    change (decide (i + 1 = b.msgsNum) && decide (off + 1 = b.lens.getD i 0) &&
      !((msgAt b.msgs i).recvLen && b.recvPending)) = true ↔ _
    rw [Bool.and_eq_true, Bool.and_eq_true, decide_eq_true_eq, decide_eq_true_eq, and_assoc, Bool.not_eq_true',
      ← Bool.not_eq_true, Bool.and_eq_true]
    rfl
  case high => simp [show ¬ k < 8 ∧ k ≠ 8 ∧ k ≠ 9 ∧ k ≠ 10 by omega]

end Sys2Proof.Machine
end

section
/-!
SUPPORT. Interrupt entry (42_interrupt_fifo.md R280 to R282) and the two branches that end a transfer (R283, R310).
-/

namespace Sys2Proof.Machine

variable {s t u : State} {b c : Bus} {n : Nat}

/-! ### Reads of the clear registers -/

/-- A read of a clear register returns no value the rules give, and is recorded so (10_state.md R71). -/
theorem readValue_clear {r : Reg} (h : r = .clrIntr ∨ clearBitOf r ≠ none) (p : Params) (c : Ctl) :
    Ctl.readValue p r c = none := by
  rcases h with rfl | h
  · rfl
  · cases r with
    | clrIntr | clrTxAbrt | clrRxUnder | clrRxOver | clrTxOver | clrRdReq | clrRxDone | clrActivity | clrStopDet
    | clrStartDet | clrGenCall => rfl
    | _ => exact absurd rfl h

theorem regTouch_clear_io {r : Reg} (h : r = .clrIntr ∨ clearBitOf r ≠ none) (s : State) :
    (regTouch r s).io = .read r none :: s.io := by
  rw [regTouch_io, readValue_clear h]

/-- From `s` to `t` registers were read, and of the rest of the state the bus record alone may differ. -/
structure ReadOnly (s t : State) : Prop where
  agents : t.agents = s.agents
  devs   : t.devs = s.devs
  mem    : t.mem = s.mem
  rest   : SameRest s t
  ctl    : Ctl.Keeps s.ctl t.ctl

theorem ReadOnly.refl (s : State) : ReadOnly s s := ⟨rfl, rfl, rfl, .refl s, .refl _⟩

theorem ReadOnly.trans (h : ReadOnly s t) (k : ReadOnly t u) : ReadOnly s u :=
  ⟨k.agents.trans h.agents, k.devs.trans h.devs, k.mem.trans h.mem, h.rest.trans k.rest,
    h.ctl.trans k.ctl⟩

theorem ReadOnly.read (r : Reg) (s : State) : ReadOnly s (regRead r s).2 :=
  ⟨by simp, by simp, by simp, by constructor <;> simp, regRead_keeps r s⟩

theorem ReadOnly.touch (r : Reg) (s : State) : ReadOnly s (regTouch r s) := .read r s

/-! ### The idle branch -/

/-- EVT_IRQ is delivered exactly where the line is asserted, the handler installed and power on
(60_exceptions.md R411). -/
theorem irqDeliverable_iff : irqDeliverable s = true ↔
    s.ctl.raw &&& s.ctl.intrMask ≠ 0#32 ∧ s.blk.irqInstalled = true ∧ s.blk.powered = true := by
  simp only [irqDeliverable, Bool.and_eq_true, line_iff, and_assoc]

/-- Settles O26: no delivery without `irqDeliverable`, and the idle branch is a read and a mask write. -/
theorem idleDelivery : Obligations.IdleDelivery := by
  intro s
  refine ⟨fun h => ?undelivered, fun line inst pow idle => ?idle⟩
  case undelivered =>
    have hd : ¬ irqDeliverable s = true := by
      rw [irqDeliverable_iff]
      rintro ⟨line, inst, pow⟩
      rcases h with h | h | h
      · exact line h
      all_goals simp_all
    simp only [exec, execEvtIrq, if_neg hd]
  case idle =>
    refine ⟨idleBranch s, ?_, ?_⟩
    · simp only [exec, execEvtIrq, if_pos (irqDeliverable_iff.mpr ⟨line, inst, pow⟩), takeIrq, if_pos idle]
    · have keeps := (regRead_keeps .clrIntr s).trans (ctlTurn_keeps (regTouch .clrIntr s))
      have ctl : (idleBranch s).ctl = { (ctlTurn (regTouch .clrIntr s)).ctl with intrMask := 0#32 } := writeMask_ctl _ _
      have io : (idleBranch s).io = [.write .intrMask 0#32, .read .clrIntr none] ++ s.io := by
        rw [idleBranch, writeMask_io, regTouch_clear_io (.inl rfl)]
        rfl
      rw [ctl]
      exact ⟨by simp [idleBranch], by simp [idleBranch], by simp [idleBranch], fun x => by simp [idleBranch],
        by constructor <;> simp [idleBranch], keeps.con, keeps.tar, keeps.enable,
        ⟨keeps.sameSetup.counts.counts, keeps.sameSetup.counts.levels⟩, rfl, io⟩

/-! ### The snapshot and the clears -/

theorem ReadOnly.setBlk (h : ReadOnly s t) (b : Bus) : ReadOnly s { t with blk := b } :=
  ⟨h.agents, h.devs, h.mem, ⟨h.rest.par, h.rest.cur, h.rest.handler, h.rest.running, h.rest.sched, h.rest.attached⟩,
    h.ctl⟩

/-- The clears of a snapshot are reads of their registers in ascending order (42_interrupt_fifo.md R282). -/
theorem clearBits_reads {stat : Word} {l : List (Nat × Reg)} (hl : ∀ e ∈ l, clearBitOf e.2 ≠ none) (s : State) :
    ReadOnly s (clearBits stat l s) ∧ (clearBits stat l s).blk = s.blk ∧
      (clearBits stat l s).io =
        (l.reverse.flatMap fun e => if stat.getLsbD e.1 = true then [.read e.2 none] else []) ++ s.io := by
  induction l generalizing s with
  | nil => exact ⟨.refl s, rfl, rfl⟩
  | cons e l ih =>
    obtain ⟨k, r⟩ := e
    have ih := ih fun e he => hl e (List.mem_cons_of_mem _ he)
    simp only [clearBits, List.reverse_cons, List.flatMap_append, List.append_assoc]
    split
    · next hb =>
      obtain ⟨only, blk, io⟩ := ih (regTouch r s)
      refine ⟨(ReadOnly.touch r s).trans only, blk.trans (regTouch_blk _ _), ?_⟩
      rw [io, regTouch_clear_io (.inr (hl (k, r) List.mem_cons_self))]
      simp [hb]
    · next hb =>
      obtain ⟨only, blk, io⟩ := ih s
      exact ⟨only, blk, by rw [io]; simp [hb]⟩

/-- The abort source is read before the clear that zeroes it (70_reset_and_hazards.md R472). -/
theorem clearAbort_reads (stat : Word) (s : State) :
    ReadOnly s (clearAbort stat s) ∧
      (clearAbort stat s).blk = { s.blk with
        abortSource := if stat.getLsbD 6 = true then (ctlTurn s).ctl.abrtSrc else s.blk.abortSource } ∧
      (clearAbort stat s).io =
        (if stat.getLsbD 6 = true then
          [.read .clrTxAbrt none, .read .txAbrtSource (some (ctlTurn s).ctl.abrtSrc)] else []) ++ s.io := by
  unfold clearAbort
  split
  · have read := regRead_fst s .txAbrtSource
    simp only [Ctl.readValue, Option.getD_some] at read
    refine ⟨((ReadOnly.read .txAbrtSource s).setBlk _).trans (.touch .clrTxAbrt _), by simp [read], ?_⟩
    rw [regTouch_clear_io (.inr (by decide))]
    simp [Ctl.readValue]
  · exact ⟨.refl s, rfl, rfl⟩

/-- `clear_latched` reads, in order, the abort source, the clear registers the snapshot asks for, and CLR_INTR for the
bits without one of their own (42_interrupt_fifo.md R282). -/
theorem clearLatched_reads (stat : Word) (s : State) :
    let src := (ctlTurn s).ctl.abrtSrc
    let clear (k : Nat) (r : Reg) : List Access := if stat.getLsbD k = true then [.read r none] else []
    ReadOnly s (clearLatched stat s) ∧
      (clearLatched stat s).blk =
        { s.blk with abortSource := if stat.getLsbD 6 = true then src else s.blk.abortSource } ∧
      (clearLatched stat s).io =
        (if stat.getLsbD 12 = true ∨ stat.getLsbD 13 = true then [.read .clrIntr none] else []) ++
        clear 11 .clrGenCall ++ clear 10 .clrStartDet ++ clear 9 .clrStopDet ++ clear 8 .clrActivity ++
        clear 7 .clrRxDone ++ clear 5 .clrRdReq ++ clear 3 .clrTxOver ++ clear 1 .clrRxOver ++ clear 0 .clrRxUnder ++
        (if stat.getLsbD 6 = true then [.read .clrTxAbrt none, .read .txAbrtSource (some src)] else []) ++ s.io := by
  intro src clear
  obtain ⟨abort, ablk, aio⟩ := clearAbort_reads stat s
  obtain ⟨bits, bblk, bio⟩ := clearBits_reads (stat := stat) (l := clearRegs) (by decide) (clearAbort stat s)
  have flat : ∀ l : List Access, (clearRegs.reverse.flatMap fun e =>
      if stat.getLsbD e.1 = true then [Access.read e.2 none] else []) ++ l =
      clear 11 .clrGenCall ++ clear 10 .clrStartDet ++ clear 9 .clrStopDet ++ clear 8 .clrActivity ++
        clear 7 .clrRxDone ++ clear 5 .clrRdReq ++ clear 3 .clrTxOver ++ clear 1 .clrRxOver ++ clear 0 .clrRxUnder ++ l := by
    intro l
    simp [clearRegs, clear]
  have io : (clearBits stat clearRegs (clearAbort stat s)).io = _ := bio.trans ((congrArg _ aio).trans (flat _))
  unfold clearLatched
  simp only [Bool.or_eq_true]
  split
  · next hb =>
    refine ⟨(abort.trans bits).trans (.touch _ _), by rw [regTouch_blk, bblk, ablk], ?_⟩
    rw [regTouch_clear_io (.inl rfl), io]
    simp [src]
  · refine ⟨abort.trans bits, by rw [bblk, ablk], ?_⟩
    rw [io]
    simp [src]

/-- A snapshot that selects no branch holds none of their bits (30_encoding.md R157). -/
theorem no_branch_bits {stat : Word} (h : stat &&& branchBits = 0#32) :
    stat.getLsbD 2 = false ∧ stat.getLsbD 4 = false ∧ stat.getLsbD 6 = false ∧ stat.getLsbD 9 = false := by
  have bit : ∀ k, branchBits.getLsbD k = true → stat.getLsbD k = false := fun k hk => by
    have := congrArg (·.getLsbD k) h
    simpa [BitVec.getLsbD_and, hk] using this
  exact ⟨bit 2 rfl, bit 4 rfl, bit 6 rfl, bit 9 rfl⟩

/-- Settles O27: the snapshot, `clearLatched_reads`, and the run's branches. -/
theorem snapshotThenClears : Obligations.SnapshotThenClears := by
  intro s line inst pow active unsignalled noErr stat src clear
  obtain ⟨v, hv⟩ : ∃ v, v = clearLatched stat (regRead .intrStat s).2 := ⟨_, rfl⟩
  have snapshot : (regRead .intrStat s).1 = stat := by
    rw [regRead_fst]
    rfl
  have taken : exec .evtIrq s = .next (if stat &&& branchBits = 0#32 then endHandler v else { v with handler := some stat }) := by
    have active : ¬ (s.blk.xphase ≠ .transferActive ∨ s.blk.completion = true) := by simp [active, unsignalled]
    simp only [exec, execEvtIrq, if_pos (irqDeliverable_iff.mpr ⟨line, inst, pow⟩), takeIrq, if_neg active, snapshot, ← hv]
  obtain ⟨only, blk, io⟩ := clearLatched_reads stat (regRead .intrStat s).2
  rw [← hv] at only blk io
  have only := (ReadOnly.read .intrStat s).trans only
  have clean : v.blk.msgErr = .none := by rw [blk]; simpa using noErr
  obtain ⟨h, run, branches⟩ : ∃ h, exec .evtIrq s = .next { v with handler := h } ∧
      (h = some stat ∨ (h = none ∧ stat &&& branchBits = 0#32)) := by
    rw [taken]
    split
    · next none_ => exact ⟨none, by simp [endHandler, clean], .inr ⟨rfl, none_⟩⟩
    · exact ⟨some stat, rfl, .inl rfl⟩
  have rest := only.rest
  refine ⟨_, run, only.agents, only.devs, fun x => congrArg (·.read x) only.mem, rest.par, rest.cur, rest.running,
    rest.sched, rest.attached, only.ctl.sameRegs, only.ctl.enable, by rw [blk, regRead_blk], ?_, ?_⟩
  · refine io.trans ?_
    rw [regRead_io]
    rfl
  · rcases branches with rfl | ⟨rfl, none_⟩
    · exact .inl rfl
    · exact .inr ⟨rfl, no_branch_bits none_⟩

/-! ### The branches that end a transfer -/

/-- A branch that has signalled completion ends the handler run or hands on its snapshot, and no more. -/
theorem endBranch_signalled (k : Nat) (h : s.blk.completion = true) :
    ∃ w, endBranch k s = { s with handler := w } := by
  unfold endBranch nextBranch endHandler
  simp only [h]
  split
  · exact ⟨none, by simp⟩
  · exact ⟨_, rfl⟩

/-- So does one that has found no error. -/
theorem endBranch_clean (k : Nat) (h : s.blk.msgErr = .none) : ∃ w, endBranch k s = { s with handler := w } := by
  unfold endBranch nextBranch endHandler
  simp only [h]
  split
  · exact ⟨none, by simp⟩
  · exact ⟨_, rfl⟩

/-- Every message from the read cursor on is a write (42_interrupt_fifo.md R310). -/
theorem rxComplete_iff (b : Bus) : rxComplete b = true ↔
    ∀ j, b.msgReadIdx ≤ j → j < b.msgs.length → (msgAt b.msgs j).flags.getLsbD 0 = false := by
  simp only [rxComplete, List.all_eq_true, Bool.not_eq_true', List.mem_drop_iff_getElem]
  constructor
  · intro h j hj hl
    rw [msgAt, List.getD_eq_getElem _ _ hl]
    exact h _ ⟨j - b.msgReadIdx, by omega, by congr 1; omega⟩
  · rintro h m ⟨j, hj, rfl⟩
    have := h (b.msgReadIdx + j) (by omega) (by omega)
    rwa [msgAt, List.getD_eq_getElem _ _ (by omega)] at this

/-- INTR_MASK written 0 and completion signalled, where only the bus record differs from `s` before
(41_transfer_engine.md R252). -/
theorem maskSignal_of_blk (b : Bus) (s : State) :
    let t := signalCompletion (writeMask 0#32 { s with blk := b })
    t.blk = { b with completion := true } ∧ t.ctl = { (ctlTurn s).ctl with intrMask := 0#32 } ∧
      t.io = .write .intrMask 0#32 :: s.io ∧ t.agents = s.agents ∧ t.devs = s.devs ∧ t.mem = s.mem ∧
      SameRest s t ∧ t.fresh = s.fresh := by
  have turn := (ctlTurn_congr (s := s) (u := { s with blk := b }) rfl rfl rfl).1
  refine ⟨by simp, by simp [turn], by simp, by simp, by simp, by simp, by constructor <;> simp,
    by simp [writeMask]⟩

/-- Settles O28: both branches are `maskSignal_of_blk`, the outcome in the bus record before it. -/
theorem endingBranches : Obligations.EndingBranches := by
  refine ⟨fun s => ?abort, fun s noErr => ?stop⟩
  case abort =>
    obtain ⟨blk, ctl, io, agents, devs, mem, rest, fresh⟩ := maskSignal_of_blk { s.blk with cmdErr := 1#8 } s
    exact ⟨_, rfl, blk, ctl, io, rfl, agents, devs, fun x => congrArg (·.read x) mem, rest.par, rest.cur, rest.running,
      rest.sched, rest.attached, fresh⟩
  case stop =>
    intro clean
    have dirty : (s.blk.msgWriteIdx ≠ s.blk.msgsNum ∨ rxComplete s.blk = false ∨ s.blk.rxOutstanding ≠ 0) ↔ ¬ clean := by
      rw [← Bool.not_eq_true, rxComplete_iff]
      tauto
    obtain ⟨b, run, ends, fails⟩ : ∃ b, stopDetBranch s = signalCompletion (writeMask 0#32 { s with blk := b }) ∧
        (clean → b = s.blk) ∧ (¬ clean → b = { s.blk with msgErr := .protocolError }) := by
      unfold stopDetBranch
      simp only [dirty]
      split
      · next h => exact ⟨_, rfl, fun k => absurd k h, fun _ => rfl⟩
      · next h => exact ⟨s.blk, rfl, fun _ => rfl, fun k => absurd k h⟩
    obtain ⟨blk, ctl, io, agents, devs, mem, rest, fresh⟩ := maskSignal_of_blk b s
    obtain ⟨w, last⟩ := endBranch_signalled (s := stopDetBranch s) 9 (by rw [run, blk])
    have taken : exec .irqStopDet s = .next (endBranch 9 (stopDetBranch s)) := by
      simp only [exec, execIrqStopDet, noErr, ne_eq, not_true, if_false]
    rw [run] at last
    rw [taken, run, last]
    refine ⟨_, rfl, fun k => by rw [← ends k]; exact blk, fun k => blk.trans (by rw [fails k]), ctl, io, agents, devs,
      fun x => congrArg (·.read x) mem, rest.par, rest.cur, rest.running, rest.sched, rest.attached, fresh⟩

end Sys2Proof.Machine
end

section
/-!
SUPPORT. The RX drain byte by byte (42_interrupt_fifo.md R300 to R305), whatever Ctl adds to the RX FIFO meanwhile.
-/

namespace Sys2Proof.Machine

variable {s t u v : State} {x : Byte} {xs bs rest : List Byte} {i off : Nat}

/-! ### Levels of the FIFOs -/

/-- A FIFO level below 512 is read as it is (10_state.md R69). -/
theorem levelWord_eq {n : Nat} (h : n < 512) : levelWord n = BitVec.ofNat 32 n := by
  apply BitVec.eq_of_toNat_eq
  simp only [levelWord, BitVec.toNat_setWidth, BitVec.toNat_ofNat]
  omega

/-- The count of bytes the drain reads is the RX FIFO's level at the RXFLR read, in 9 bits (42_interrupt_fifo.md R300). -/
theorem rxLevel_eq (s : State) :
    ((regRead .rxflr s).1.extractLsb' 0 9).toNat = (ctlTurn s).ctl.rxFifo.length % 512 := by
  rw [regRead_fst]
  simp only [Ctl.readValue, Option.getD_some, levelWord, BitVec.extractLsb'_toNat, BitVec.toNat_setWidth,
    BitVec.toNat_ofNat, Nat.shiftRight_zero]
  omega

/-- While ENABLE is 1 Ctl only adds to the RX FIFO (60_exceptions.md R431, R436). -/
theorem ctlTurn_rx (he : s.ctl.enable = true) : s.ctl.rxFifo <+: (ctlTurn s).ctl.rxFifo := by
  have feeds := ctlTurn_feeds s
  rcases feeds.rx with h | ⟨-, off⟩
  · exact h
  · rw [ctlTurn_icEn_of_enable s he] at off
    rw [(feeds.off off).2.2.1]

/-! ### Bytes read -/

/-- Between `s` and `t` the drain has read the bytes `bs` and no other register, `rest` being next in the RX FIFO. -/
structure Drained (bs rest : List Byte) (s t : State) : Prop where
  io     : t.io = (bs.reverse.map fun b => Access.read .dataCmd (some (b.setWidth 32))) ++ s.io
  enable : t.ctl.enable = true
  fed    : rest <+: t.ctl.rxFifo
  agents : t.agents = s.agents
  devs   : t.devs = s.devs

theorem Drained.trans {cs more : List Byte} (h : Drained bs rest s t) (k : Drained cs more t u) :
    Drained (bs ++ cs) more s u :=
  ⟨by rw [k.io, h.io]; simp, k.enable, k.fed, k.agents.trans h.agents, k.devs.trans h.devs⟩

/-- The history, the controller, the requesters and the devices are all it speaks of. -/
theorem Drained.fromBlk {f : Bus → Bus} (h : Drained bs rest (s.mapBlk f) t) : Drained bs rest s t :=
  ⟨h.io, h.enable, h.fed, h.agents, h.devs⟩

/-- Updates of memory and of the bus record read nothing. -/
theorem Drained.update (h : Drained bs rest s t) (m : Memory) (b : Bus) :
    Drained bs rest s { t with mem := m, blk := b } := ⟨h.io, h.enable, h.fed, h.agents, h.devs⟩

@[simp] theorem takeByte_mem (s : State) : (takeByte s).mem = s.mem := by simp [takeByte]
@[simp] theorem takeByte_blk (s : State) :
    (takeByte s).blk = { s.blk with rxOutstanding := s.blk.rxOutstanding - 1 } := by simp [takeByte]

/-- One byte is read off an RX FIFO that holds it (10_state.md R73). -/
theorem takeByte_drained (he : s.ctl.enable = true) (hf : x :: xs <+: s.ctl.rxFifo) :
    Drained [x] xs s (takeByte s) ∧ (regRead .dataCmd s).1.setWidth 8 = x := by
  obtain ⟨more, fifo⟩ := hf.trans (ctlTurn_rx he)
  have fifo : (ctlTurn s).ctl.rxFifo = x :: (xs ++ more) := fifo.symm
  have value : Ctl.readValue s.par .dataCmd (ctlTurn s).ctl = some (x.setWidth 32) := by simp [Ctl.readValue, fifo]
  have after : Ctl.afterRead .dataCmd (ctlTurn s).ctl = { (ctlTurn s).ctl with rxFifo := xs ++ more } := by
    simp [Ctl.afterRead, fifo]
  refine ⟨⟨?_, ?_, ?_, by simp [takeByte], by simp [takeByte]⟩, ?_⟩
  · simp [takeByte, value]
  · simp [takeByte, after, (ctlTurn_keeps s).enable, he]
  · simp [takeByte, after]
  · rw [regRead_fst, value, Option.getD_some]
    simp

/-! ### One byte -/

/-- Where the skip ends is where the cursor stands, its offset kept only if it does not move. -/
theorem skipAtCursor_eq {b : Bus} (h : skipWrites b.msgs b.msgReadIdx = i) :
    skipAtCursor b = { b with msgReadIdx := i, rxOff := if i = b.msgReadIdx then b.rxOff else 0 } := by
  unfold skipAtCursor
  simp only [h]
  split
  · next e => rw [e]
  · rfl

/-- The read cursor comes to offset `off` of the read message `m`, number `i` of the list and `len` bytes long, whose
bytes are stored as they come (42_interrupt_fifo.md R300). -/
structure Bus.Receives (m : Msg) (i len off : Nat) (b : Bus) : Prop where
  cursor : skipAtCursor b = { b with msgReadIdx := i, rxOff := off }
  inList : i ≠ b.msgsNum
  msg    : msgAt b.msgs i = m
  rd     : m.rd = true
  plain  : m.recvLen = false ∨ b.recvPending = false
  size   : b.lens.getD i 0 = len
  room   : len ≤ m.buf.cap.toNat
  noErr  : b.msgErr = .none

/-- The bus record after `n` bytes from offset `off` of message `i` are stored: the cursor passes a message that is
complete (42_interrupt_fifo.md R300). -/
def Bus.stored (b : Bus) (i off n : Nat) : Bus :=
  { b with
    msgReadIdx := if off + n = b.lens.getD i 0 then i + 1 else i
    rxOff := if off + n = b.lens.getD i 0 then 0 else off + n
    rxOutstanding := b.rxOutstanding - n }

variable {m : Msg} {len : Nat}

/-- A byte that does not complete the message leaves the cursor at the next offset. -/
theorem Bus.Receives.next {b : Bus} (h : b.Receives m i len off) (more : off + 1 ≠ len) :
    (b.stored i off 1).Receives m i len (off + 1) := by
  have stored : b.stored i off 1 =
      { b with msgReadIdx := i, rxOff := off + 1, rxOutstanding := b.rxOutstanding - 1 } := by
    simp only [Bus.stored, h.size, more, if_false]
  rw [stored]
  refine ⟨?_, h.inList, h.msg, h.rd, h.plain, h.size, h.room, h.noErr⟩
  rw [skipAtCursor_eq (i := i) (skipWrites_of_stop fun _ => by rw [h.msg]; exact h.rd)]
  simp

theorem Bus.stored_next (b : Bus) (i off n : Nat) : (b.stored i off 1).stored i (off + 1) n = b.stored i off (n + 1) := by
  simp only [Bus.stored, show off + 1 + n = off + (n + 1) by omega, Nat.sub_sub, Nat.add_comm 1 n]

/-- A byte that is no length byte is stored at the cursor (42_interrupt_fifo.md R300). -/
theorem drainByte_stores (he : s.ctl.enable = true) (hf : x :: xs <+: s.ctl.rxFifo)
    (h : s.blk.Receives m i len off) (room : off < len) :
    ∃ t, drainByte s = .next t ∧ Drained [x] xs s t ∧ t.blk = s.blk.stored i off 1 ∧
      t.mem = s.mem.write (bufAddr m.buf.id off) x := by
  obtain ⟨drained, byte⟩ := takeByte_drained (s := s.mapBlk skipAtCursor) he hf
  have drained := drained.fromBlk
  have blk : (takeByte (s.mapBlk skipAtCursor)).blk =
      { s.blk with msgReadIdx := i, rxOff := off, rxOutstanding := s.blk.rxOutstanding - 1 } := by
    rw [takeByte_blk, mapBlk_blk, h.cursor]
  have mem : (takeByte (s.mapBlk skipAtCursor)).mem = s.mem := takeByte_mem _
  rw [drainByte_eq rfl byte.symm]
  generalize takeByte (s.mapBlk skipAtCursor) = v at drained blk mem ⊢
  have notLength : ¬ (m.recvLen = true ∧ s.blk.recvPending = true ∧ off = 0) := by
    rcases h.plain with h | h <;> simp [h]
  have inBuf : off < m.buf.cap.toNat := room.trans_le h.room
  simp only [blk, mem, h.inList, h.msg, notLength, if_false, storeByte, memWrite, inBuf, if_true, Flow.andThen_next]
  refine ⟨_, rfl, ?_⟩
  by_cases last : off + 1 = s.blk.lens.getD i 0
  · rw [passMessage, if_pos ⟨h.noErr, last⟩]
    exact ⟨drained.update _ _, by simp only [Bus.stored, last, if_true, mapBlk_blk], rfl⟩
  · rw [passMessage, if_neg fun h => last h.2]
    exact ⟨drained.update _ _, by simp only [Bus.stored, last, if_false], rfl⟩

/-- The bytes of one message are stored in order, up to its end at the most (42_interrupt_fifo.md R300). -/
theorem drainLoop_stores (he : s.ctl.enable = true) (hf : x :: xs <+: s.ctl.rxFifo)
    (h : s.blk.Receives m i len off) (fits : off + (x :: xs).length ≤ len) :
    ∃ t, drainLoop (x :: xs).length s = .next t ∧ Drained (x :: xs) [] s t ∧
      t.mem = s.mem.writeAll (bufAddr m.buf.id off) (x :: xs) ∧ t.blk = s.blk.stored i off (x :: xs).length := by
  induction xs generalizing s x off with
  | nil =>
    obtain ⟨t, e, drained, blk, mem⟩ := drainByte_stores he hf h (by simpa using fits)
    refine ⟨t, ?_, drained, mem, blk⟩
    rw [List.length_singleton, drainLoop, if_neg (not_not.mpr h.noErr), e]
    rfl
  | cons y ys ih =>
    simp only [List.length_cons] at fits ih ⊢
    have more : off + 1 ≠ len := by omega
    obtain ⟨t, e, drained, blk, mem⟩ := drainByte_stores he hf h (by omega)
    obtain ⟨u, e', drained', mem', blk'⟩ := ih drained.enable drained.fed (blk ▸ h.next more) (by omega)
    refine ⟨u, ?_, drained.trans drained', ?_, ?_⟩
    · rw [drainLoop, if_neg (not_not.mpr h.noErr), e, Flow.andThen_next, e']
    · simp only [mem', mem, Memory.writeAll, bufAddr, Nat.add_assoc]
    · rw [blk', blk, Bus.stored_next]

/-! ### The length byte and a byte beyond the read messages -/

/-- With an error found the drain stops (42_interrupt_fifo.md R305). -/
theorem drainLoop_failed (n : Nat) (h : s.blk.msgErr ≠ .none) : drainLoop n s = .next s := by
  cases n with
  | zero => rfl
  | succ n => rw [drainLoop, if_pos h]

/-- A run that has found an error ends with its branch, and completes a transfer not completed yet
(42_interrupt_fifo.md R280, R305). -/
theorem endBranch_failed (k : Nat) (h : s.blk.msgErr ≠ .none) :
    ∃ t, endBranch k s = t ∧ t.agents = s.agents ∧ t.devs = s.devs ∧ t.mem = s.mem ∧ t.blk.msgErr = s.blk.msgErr ∧
      (s.blk.completion = false →
        t.blk = { s.blk with completion := true } ∧ t.ctl = { (ctlTurn s).ctl with intrMask := 0#32 } ∧
          t.io = .write .intrMask 0#32 :: s.io ∧ t.handler = none) := by
  refine ⟨_, rfl, ?_⟩
  unfold endBranch nextBranch endHandler
  cases hc : s.blk.completion
  · obtain ⟨blk, ctl, io, agents, devs, mem, -, -⟩ := maskSignal_of_blk s.blk s
    simp only [h, true_or, ne_eq, not_false_eq_true, and_self, if_true]
    exact ⟨agents, devs, mem, by simp, fun _ => ⟨blk, ctl, io, trivial⟩⟩
  · simp [h]

/-- The length the block accepts, in the buffer (42_interrupt_fifo.md R302). -/
theorem recvLenOk_iff (m : Msg) (l : Byte) :
    recvLenOk m l = true ↔ 1 ≤ l.toNat ∧ l.toNat ≤ 32 ∧ 1 + l.toNat ≤ m.buf.cap.toNat := decide_eq_true_iff

/-- The read cursor comes to the RECV_LEN message `m`, number `i` of the list, whose length is awaited
(42_interrupt_fifo.md R302). -/
structure Bus.AwaitsLength (m : Msg) (i : Nat) (b : Bus) : Prop where
  cursor  : skipAtCursor b = { b with msgReadIdx := i, rxOff := 0 }
  inList  : i ≠ b.msgsNum
  msg     : msgAt b.msgs i = m
  recvLen : m.recvLen = true
  pending : b.recvPending = true

/-- The length byte goes to `recv_len` (42_interrupt_fifo.md R300, R302). -/
theorem drainByte_length (he : s.ctl.enable = true) (hf : x :: xs <+: s.ctl.rxFifo) (h : s.blk.AwaitsLength m i) :
    ∃ v, Drained [x] xs s v ∧ v.mem = s.mem ∧
      v.blk = { s.blk with msgReadIdx := i, rxOff := 0, rxOutstanding := s.blk.rxOutstanding - 1 } ∧
      drainByte s = Flow.andThen (recvLength i m x v) fun w => .next (passMessage i w) := by
  obtain ⟨drained, byte⟩ := takeByte_drained (s := s.mapBlk skipAtCursor) he hf
  have blk : (takeByte (s.mapBlk skipAtCursor)).blk =
      { s.blk with msgReadIdx := i, rxOff := 0, rxOutstanding := s.blk.rxOutstanding - 1 } := by
    rw [takeByte_blk, mapBlk_blk, h.cursor]
  refine ⟨_, drained.fromBlk, takeByte_mem _, blk, ?_⟩
  rw [drainByte_eq rfl byte.symm]
  generalize takeByte (s.mapBlk skipAtCursor) = v at blk ⊢
  simp only [blk, h.inList, h.msg, if_false, h.recvLen, h.pending, and_self, if_true]

/-- An accepted length is stored and redefines the message's, and TX_EMPTY is unmasked (42_interrupt_fifo.md R302). -/
theorem drainByte_length_ok (he : s.ctl.enable = true) (hf : x :: xs <+: s.ctl.rxFifo) (h : s.blk.AwaitsLength m i)
    (hi : i < s.blk.lens.length) (ok : recvLenOk m x = true) :
    ∃ t, drainByte s = .next t ∧ t.agents = s.agents ∧ t.devs = s.devs ∧
      t.mem = s.mem.write (bufAddr m.buf.id 0) x ∧ t.ctl.intrMask = defaultMask ∧
      t.io = [.write .intrMask defaultMask, .read .dataCmd (some (x.setWidth 32))] ++ s.io ∧
      t.blk = { s.blk with
        msgReadIdx := i, rxOff := 1, lens := s.blk.lens.set i (1 + x.toNat), recvPending := false,
        holdForLen := false, rxOutstanding := s.blk.rxOutstanding - 1 } := by
  obtain ⟨v, drained, mem, blk, run⟩ := drainByte_length he hf h
  obtain ⟨l1, cap⟩ := recvLenOk_cap ok
  have room : 0 < m.buf.cap.toNat := by omega
  obtain ⟨w, hw⟩ : ∃ w, w = writeMask defaultMask { v with
      mem := v.mem.write (bufAddr m.buf.id 0) x
      blk := { v.blk with
        rxOff := 1, lens := v.blk.lens.set i (1 + x.toNat), recvPending := false, holdForLen := false } } := ⟨_, rfl⟩
  have length : recvLength i m x v = .next w := by
    rw [recvLength, if_neg (by simp [ok]), memWrite, if_pos room, hw]
  have wblk : w.blk = { s.blk with
      msgReadIdx := i, rxOff := 1, lens := s.blk.lens.set i (1 + x.toNat), recvPending := false,
      holdForLen := false, rxOutstanding := s.blk.rxOutstanding - 1 } := by
    rw [hw, writeMask_blk, blk]
  have kept : passMessage i w = w := by
    rw [passMessage, if_neg]
    rintro ⟨-, e⟩
    rw [wblk] at e
    have : 1 = 1 + x.toNat := by simpa [hi] using e
    omega
  rw [run, length, Flow.andThen_next, kept]
  refine ⟨w, rfl, ?_, ?_, ?_, ?_, ?_, wblk⟩
  · rw [hw, writeMask_agents, ← drained.agents]
  · rw [hw, writeMask_devs, ← drained.devs]
  · rw [hw, writeMask_mem, mem]
  · rw [hw, writeMask_ctl]
  · rw [hw, writeMask_io]
    exact congrArg _ drained.io

/-- A length it does not accept is an error, and nothing is stored (42_interrupt_fifo.md R302). -/
theorem drainByte_length_bad (he : s.ctl.enable = true) (hf : x :: xs <+: s.ctl.rxFifo) (h : s.blk.AwaitsLength m i)
    (bad : recvLenOk m x = false) :
    ∃ t, drainByte s = .next t ∧ Drained [x] xs s t ∧ t.mem = s.mem ∧
      t.blk = { s.blk with
        msgReadIdx := i, rxOff := 0, msgErr := .protocolError, rxOutstanding := s.blk.rxOutstanding - 1 } := by
  obtain ⟨v, drained, mem, blk, run⟩ := drainByte_length he hf h
  have length : recvLength i m x v = .next (setMsgErr .protocolError v) := by rw [recvLength, if_pos bad]
  have kept : passMessage i (setMsgErr .protocolError v) = setMsgErr .protocolError v := by
    rw [passMessage, if_neg fun k => nomatch k.1]
  rw [run, length, Flow.andThen_next, kept]
  exact ⟨_, rfl, drained.update _ _, mem, by rw [setMsgErr_blk, blk]⟩

/-- A byte that belongs to no read message is read and is an error (42_interrupt_fifo.md R303). -/
theorem drainByte_beyond (he : s.ctl.enable = true) (hf : x :: xs <+: s.ctl.rxFifo)
    (cursor : skipAtCursor s.blk = { s.blk with msgReadIdx := s.blk.msgsNum, rxOff := off }) :
    ∃ t, drainByte s = .next t ∧ Drained [x] xs s t ∧ t.mem = s.mem ∧
      t.blk = { s.blk with
        msgReadIdx := s.blk.msgsNum, rxOff := off, msgErr := .protocolError,
        rxOutstanding := s.blk.rxOutstanding - 1 } := by
  obtain ⟨drained, byte⟩ := takeByte_drained (s := s.mapBlk skipAtCursor) he hf
  have blk : (takeByte (s.mapBlk skipAtCursor)).blk =
      { s.blk with msgReadIdx := s.blk.msgsNum, rxOff := off, rxOutstanding := s.blk.rxOutstanding - 1 } := by
    rw [takeByte_blk, mapBlk_blk, cursor]
  rw [drainByte_eq rfl byte.symm, if_pos (by rw [blk])]
  exact ⟨_, rfl, drained.fromBlk.update _ _, takeByte_mem _, by rw [setMsgErr_blk, blk]⟩

/-! ### The branch -/

/-- The RX_FULL branch from the RXFLR read on, where fewer than 512 bytes are there (42_interrupt_fifo.md R300). -/
theorem rxFull_start (he : s.ctl.enable = true) (short : (ctlTurn s).ctl.rxFifo.length < 512) :
    ∃ u, u.ctl.enable = true ∧ u.ctl.rxFifo = (ctlTurn s).ctl.rxFifo ∧ u.blk = s.blk ∧ u.mem = s.mem ∧
      u.agents = s.agents ∧ u.devs = s.devs ∧
      u.io = .read .rxflr (some (BitVec.ofNat 32 (ctlTurn s).ctl.rxFifo.length)) :: s.io ∧
      exec .irqRxFull s =
        Flow.andThen (drainLoop (ctlTurn s).ctl.rxFifo.length u) fun t => .next (endBranch 2 t) := by
  refine ⟨(regRead .rxflr s).2, ?_, ?_, by simp, by simp, by simp, by simp, ?_, ?_⟩
  · rw [(regRead_keeps .rxflr s).enable, he]
  · rw [regRead_ctl]
    rfl
  · rw [regRead_io, ← levelWord_eq short]
    rfl
  · rw [← Nat.mod_eq_of_lt short, ← rxLevel_eq]
    rfl

/-- A message not complete stays at the cursor where nothing is stored. -/
theorem Bus.stored_none {b : Bus} (h : b.rxOff ≠ b.lens.getD b.msgReadIdx 0) : b.stored b.msgReadIdx b.rxOff 0 = b := by
  simp only [Bus.stored, Nat.add_zero, h, if_false, Nat.sub_zero]

/-- Settles O32: `drainLoop_stores` over the bytes at the RXFLR read. -/
theorem drainStoresInOrder : Obligations.DrainStoresInOrder := by
  intro s m stat i bs off len _ wf noErr he short some_ hri writes inList hi msg rd plain room fits cap
  obtain ⟨u, enabled, fifo, ublk, umem, uagents, udevs, uio, run⟩ := rxFull_start he short
  have receives : s.blk.Receives m i len off :=
    ⟨skipAtCursor_eq (skipWrites_eq hi.le (fun _ => msg ▸ rd) hri writes), inList.ne, msg, rd, plain, rfl, cap, noErr⟩
  obtain ⟨t, loop, drained, mem, blk⟩ : ∃ t, drainLoop bs.length u = .next t ∧ Drained bs [] u t ∧
      t.mem = s.mem.writeAll (bufAddr m.buf.id off) bs ∧ t.blk = s.blk.stored i off bs.length := by
    cases e : bs with
    | nil =>
      obtain rfl : i = s.blk.msgReadIdx := some_.resolve_left (not_not.mpr e)
      have offEq : off = s.blk.rxOff := if_pos rfl
      refine ⟨u, rfl, ⟨rfl, enabled, List.nil_prefix, rfl, rfl⟩, umem, ?_⟩
      rw [ublk, offEq]
      exact (Bus.stored_none (offEq ▸ room.ne)).symm
    | cons x xs =>
      have fed : x :: xs <+: u.ctl.rxFifo := by rw [fifo, ← e]
      obtain ⟨t, loop, drained, mem, blk⟩ := drainLoop_stores enabled fed (ublk ▸ receives) (e ▸ fits)
      exact ⟨t, loop, drained, by rw [mem, umem], by rw [blk, ublk]⟩
  obtain ⟨w, last⟩ := endBranch_clean (s := t) 2 (by rw [blk]; exact noErr)
  refine ⟨{ t with handler := w }, ?_, fun k hk => ?_, fun y hy => ?_, blk, ?_, ?_, ?_⟩
  · rw [run, loop, Flow.andThen_next, last]
  · change t.mem.read _ = _
    rw [mem]
    exact Memory.read_writeAll _ _ _ _ wf hk
  · change t.mem.read _ = _
    rw [mem]
    exact Memory.read_writeAll_out _ _ _ _ hy
  · exact drained.io.trans (congrArg _ uio)
  · exact drained.agents.trans uagents
  · exact drained.devs.trans udevs

/-- Settles O33: `drainByte_length_ok` and `drainByte_length_bad` for the length byte, `drainByte_beyond` for a byte
beyond the read messages. -/
theorem drainEndings : Obligations.DrainEndings := by
  refine ⟨fun s m l stat i _ wf noErr he one hri writes inList lens hi msg rd recvLen pending start => ?length,
    fun s stat _ noErr he b bs fifo short num hri writes unsignalled => ?beyond⟩
  case length =>
    obtain ⟨u, enabled, ufifo, ublk, umem, uagents, udevs, uio, run⟩ := rxFull_start he (by rw [one]; exact Nat.one_lt_ofNat)
    have fed : l :: [] <+: u.ctl.rxFifo := by rw [ufifo, one]
    have at_ : u.blk.AwaitsLength m i := by
      rw [ublk]
      refine ⟨?_, inList.ne, msg, recvLen, pending⟩
      rw [skipAtCursor_eq (skipWrites_eq hi.le (fun _ => msg ▸ rd) hri writes)]
      split
      · next e => rw [start e]
      · rfl
    have loop : ∀ t, drainByte u = .next t → exec .irqRxFull s = .next (endBranch 2 t) := fun t e => by
      rw [run, one, List.length_singleton, drainLoop, if_neg (by rw [ublk]; exact not_not.mpr noErr), e]
      rfl
    rw [one] at uio
    cases ok : recvLenOk m l with
    | true =>
      obtain ⟨t, e, agents, devs, mem, mask, io, blk⟩ :=
        drainByte_length_ok enabled fed at_ (by rw [ublk]; omega) ok
      obtain ⟨w, last⟩ := endBranch_clean (s := t) 2 (by rw [blk, ublk]; exact noErr)
      refine ⟨{ t with handler := w }, by rw [loop t e, last], agents.trans uagents, devs.trans udevs,
        fun _ => ⟨?_, fun y hy => ?_, by rw [blk, ublk], mask, io.trans (congrArg _ uio)⟩,
        fun bad => absurd ((recvLenOk_iff m l).mp ok) bad⟩
      · change t.mem.read _ = _
        rw [mem, umem]
        exact Memory.read_write_self _ _ _ wf
      · change t.mem.read _ = _
        rw [mem, umem]
        exact Memory.read_write_ne _ _ _ _ (by omega)
    | false =>
      obtain ⟨t, e, drained, mem, blk⟩ := drainByte_length_bad enabled fed at_ ok
      obtain ⟨w, last, agents, devs, wmem, err, ends⟩ := endBranch_failed (s := t) 2 (by rw [blk]; nofun)
      refine ⟨w, by rw [loop t e, last], agents.trans (drained.agents.trans uagents),
        devs.trans (drained.devs.trans udevs), fun good => ?_, fun _ =>
        ⟨fun y => by rw [wmem, mem, umem], by rw [err, blk], fun unsignalled => ?_⟩⟩
      · simp [(recvLenOk_iff m l).mpr good] at ok
      · obtain ⟨wblk, ctl, io, handler⟩ := ends (by rw [blk, ublk]; exact unsignalled)
        exact ⟨by rw [wblk, blk, ublk], by rw [ctl], handler,
          io.trans (congrArg _ (drained.io.trans (congrArg _ uio)))⟩
  case beyond =>
    obtain ⟨u, enabled, ufifo, ublk, umem, uagents, udevs, uio, run⟩ :=
      rxFull_start he (by rw [fifo, List.length_cons]; omega)
    have fed : b :: bs <+: u.ctl.rxFifo := by rw [ufifo, fifo]
    have cursor : skipAtCursor u.blk = { u.blk with
        msgReadIdx := u.blk.msgsNum
        rxOff := if u.blk.msgReadIdx = u.blk.msgsNum then u.blk.rxOff else 0 } := by
      rw [ublk, skipAtCursor_eq (skipWrites_eq num.ge (fun h => absurd h (by omega)) hri writes)]
      simp only [eq_comm]
    obtain ⟨t, e, drained, mem, blk⟩ := drainByte_beyond enabled fed cursor
    have failed : t.blk.msgErr ≠ .none := by rw [blk]; nofun
    obtain ⟨w, last, agents, devs, wmem, -, ends⟩ := endBranch_failed (s := t) 2 failed
    obtain ⟨wblk, ctl, io, handler⟩ := ends (by rw [blk, ublk]; exact unsignalled)
    refine ⟨w, ?_, fun y => by rw [wmem, mem, umem], by rw [wblk, blk, ublk], ?_, ?_, by rw [ctl], handler,
      agents.trans (drained.agents.trans uagents), devs.trans (drained.devs.trans udevs)⟩
    · rw [run, fifo, List.length_cons, drainLoop, if_neg (by rw [ublk]; exact not_not.mpr noErr), e,
        Flow.andThen_next, drainLoop_failed _ failed, Flow.andThen_next, last]
    · rw [fifo] at uio
      exact io.trans (congrArg _ (drained.io.trans (congrArg _ uio)))
    · obtain ⟨more, h⟩ := drained.fed.trans (ctlTurn_rx drained.enable)
      exact ⟨more, by rw [ctl]; exact h.symm⟩

end Sys2Proof.Machine
end

section
/-!
SUPPORT. The FIFOs' bounds (42_interrupt_fifo.md R292, 10_state.md R43): what Ctl's own steps may add to the RX FIFO, and
the invariants of the accesses a handler branch makes that keep both FIFOs within their depths.
-/

namespace Sys2Proof.Machine

variable {s t u v : State} {p : Params} {c d e : Ctl} {k n : Nat}

/-! ### What Ctl adds to the RX FIFO -/

/-- From `c` to `d` the RX FIFO gains `k` bytes at the most and RX_OVER is as before (60_exceptions.md R438). -/
structure Ctl.Gains (k : Nat) (c d : Ctl) : Prop where
  count  : d.rxFifo.length ≤ c.rxFifo.length + k
  rxOver : d.latched.getLsbD 1 = c.latched.getLsbD 1

theorem Ctl.Gains.trans (h : Ctl.Gains 0 c d) (g : Ctl.Gains k d e) : Ctl.Gains k c e :=
  ⟨by have := h.count; have := g.count; omega, g.rxOver.trans h.rxOver⟩

theorem Ctl.Gains.last (h : Ctl.Gains k c d) (g : Ctl.Gains 0 d e) : Ctl.Gains k c e :=
  ⟨g.count.trans h.count, g.rxOver.trans h.rxOver⟩

/-- Neither the RX FIFO nor the latched bits changed. -/
theorem Ctl.gains_of_eq (hr : d.rxFifo = c.rxFifo) (hl : d.latched = c.latched) : Ctl.Gains 0 c d :=
  ⟨by rw [hr]; omega, by rw [hl]⟩

theorem Ctl.latch_gains (hn : n < 32) (h1 : n ≠ 1) (c : Ctl) : Ctl.Gains 0 c (Ctl.latch n c) :=
  ⟨Nat.le_refl _, by rw [latched_latch _ _ _ hn]; simp [Ne.symm h1]⟩

theorem Ctl.stop_gains (c : Ctl) : Ctl.Gains 0 c (Ctl.stop c) :=
  Ctl.Gains.trans (d := { c with bus := none, wire := .stop :: c.wire }) (Ctl.gains_of_eq rfl rfl)
    (Ctl.latch_gains (by decide) (by decide) _)

theorem Ctl.stopIf_gains (b : Bool) (c : Ctl) : Ctl.Gains 0 c (Ctl.stopIf b c) := by
  cases b
  · exact Ctl.gains_of_eq rfl rfl
  · exact Ctl.stop_gains c

theorem Ctl.putStart_gains (t : Txn) (c : Ctl) : Ctl.Gains 0 c (Ctl.putStart t c) := by
  have start : Ctl.Gains 0 c { c with bus := some t, wire := .start t.target t.ten t.isRead :: c.wire } :=
    Ctl.gains_of_eq rfl rfl
  exact ((start.trans (Ctl.latch_gains (n := 8) (by decide) (by decide) _)).trans
    (Ctl.latch_gains (n := 10) (by decide) (by decide) _)).trans (Ctl.gains_of_eq rfl rfl)

theorem Ctl.address_gains (isRead restart : Bool) (c : Ctl) : Ctl.Gains 0 c (Ctl.address isRead restart c) := by
  unfold Ctl.address
  split
  · exact Ctl.putStart_gains _ c
  · split
    · exact Ctl.putStart_gains _ c
    · exact Ctl.gains_of_eq rfl rfl

theorem Ctl.abort_gains (src : Word) (c : Ctl) : Ctl.Gains 0 c (Ctl.abort src c) := by
  have aborted : Ctl.Gains 0 c (Ctl.latch 6 { c with abrtSrc := c.abrtSrc ||| src, txFifo := [] }) :=
    Ctl.Gains.trans (d := { c with abrtSrc := c.abrtSrc ||| src, txFifo := [] }) (Ctl.gains_of_eq rfl rfl)
      (Ctl.latch_gains (by decide) (by decide) _)
  unfold Ctl.abort
  simp only []
  split
  · exact aborted.trans (Ctl.stop_gains _)
  · exact aborted

theorem Ctl.loseBus_gains (src : Word) (c : Ctl) : Ctl.Gains 0 c (Ctl.loseBus src c) :=
  Ctl.Gains.trans (d := { c with abrtSrc := c.abrtSrc ||| src, txFifo := [], bus := none }) (Ctl.gains_of_eq rfl rfl)
    (Ctl.latch_gains (by decide) (by decide) _)

theorem Ctl.sendByte_gains (dat next : Byte) (stop : Bool) (c : Ctl) : Ctl.Gains 0 c (Ctl.sendByte dat next stop c) := by
  unfold Ctl.sendByte
  split
  · exact Ctl.gains_of_eq rfl rfl
  · refine Ctl.Gains.trans ?_ (Ctl.stopIf_gains stop _)
    exact Ctl.gains_of_eq rfl rfl

/-- A received byte on an RX FIFO that has room (60_exceptions.md R431, R438). -/
theorem Ctl.receiveByte_gains (rx next : Byte) (stop : Bool) (room : c.rxFifo.length < p.ctlRxDepth) :
    Ctl.Gains 1 c (Ctl.receiveByte p rx next stop c) := by
  have pushed : ∀ b (d : Ctl), d.rxFifo = c.rxFifo → d.latched = c.latched → Ctl.Gains 1 c (Ctl.pushRx p b d) :=
    fun b d hr hl => by
      rw [Ctl.pushRx, if_pos (hr ▸ room)]
      exact ⟨by simp [hr], congrArg (·.getLsbD 1) hl⟩
  unfold Ctl.receiveByte
  split
  · exact ⟨Nat.le_succ _, rfl⟩
  · refine Ctl.Gains.last ?_ (Ctl.stopIf_gains stop _)
    exact pushed _ _ rfl rfl

theorem Ctl.execWrite_gains (dat : Byte) (stop restart : Bool) (c : Ctl) :
    Ctl.Gains 0 c (Ctl.execWrite dat stop restart c) := by
  have addressed := Ctl.address_gains false restart c
  unfold Ctl.execWrite
  simp only []
  split
  · exact addressed.trans (Ctl.sendByte_gains _ _ _ _)
  · split
    · exact addressed.trans (Ctl.abort_gains _ _)
    · exact addressed.trans (Ctl.sendByte_gains _ _ _ _)
  · refine addressed.trans (Ctl.Gains.trans ?_ (Ctl.abort_gains _ _))
    exact Ctl.gains_of_eq rfl rfl
  · exact addressed.trans (Ctl.loseBus_gains _ _)

theorem Ctl.execRead_gains (stop restart : Bool) (room : c.rxFifo.length < p.ctlRxDepth) :
    Ctl.Gains 1 c (Ctl.execRead p stop restart c) := by
  have addressed := Ctl.address_gains true restart c
  have room' : (Ctl.address true restart c).rxFifo.length < p.ctlRxDepth := by have := addressed.count; omega
  have received := fun rx next => addressed.trans (Ctl.receiveByte_gains (p := p) rx next stop room')
  have widen : ∀ {d}, Ctl.Gains 0 c d → Ctl.Gains 1 c d := fun h => ⟨Nat.le_succ_of_le h.count, h.rxOver⟩
  unfold Ctl.execRead
  simp only []
  split
  · exact received _ _
  · exact received _ _
  · split
    · exact widen (addressed.trans (Ctl.abort_gains _ _))
    · exact received _ _
  · exact widen (addressed.trans (Ctl.loseBus_gains _ _))

/-! ### What the controller owes -/

/-- Words that leave the TX FIFO at its head and bytes that join the RX FIFO: the debt grows by those bytes at the
most. -/
theorem Ctl.owes_le (tx : d.txFifo <:+ c.txFifo) (gains : Ctl.Gains k c d) : d.owes ≤ c.owes + k := by
  have := (tx.sublist.filter fun w => w.getLsbD 8).length_le
  have := gains.count
  unfold Ctl.owes
  omega

/-- A step of Ctl that meets no RX_OVER: it owes no more than before, and the RX FIFO keeps its bytes or nothing is owed
at all (42_interrupt_fifo.md R292, 60_exceptions.md R436). -/
structure Ctl.Settles (c d : Ctl) : Prop where
  owes   : d.owes ≤ c.owes
  rxOver : d.latched.getLsbD 1 = c.latched.getLsbD 1
  fed    : c.rxFifo <+: d.rxFifo ∨ d.owes = 0

theorem Ctl.Settles.trans (h : Ctl.Settles c d) (g : Ctl.Settles d e) : Ctl.Settles c e := by
  have := g.owes
  refine ⟨this.trans h.owes, g.rxOver.trans h.rxOver, ?_⟩
  rcases h.fed with hf | hf
  · exact g.fed.imp hf.trans id
  · exact .inr (by omega)

/-- A step that neither takes words nor gives bytes. -/
theorem Ctl.Grows.settles (h : Ctl.Grows p c d) (g : Ctl.Gains 0 c d) : Ctl.Settles c d :=
  ⟨Ctl.owes_le h.tx g, g.rxOver, .inl h.rx⟩

/-- A word decoded as DC_READ has bit 8 set (30_encoding.md R160). -/
theorem decodeCmd_dcRead {w : Word} {stop restart : Bool} (h : decodeCmd w = .ok (.dcRead stop restart)) :
    w.getLsbD 8 = true := by
  obtain ⟨rfl, -, -⟩ := decodeCmd_ok h
  simp only [encode, getLsbD_cmdWord]
  rfl

/-- The head word taken and executed: the byte a read word brings was owed already (42_interrupt_fifo.md R292). -/
theorem Ctl.take_settles {ans : Answer} {w : Word} {ws : List Word} (fifo : c.txFifo = w :: ws)
    (room : c.owes ≤ p.ctlRxDepth) : Ctl.Settles c (Ctl.execWord p w (Ctl.popTx ans c)) := by
  have popped : Ctl.Grows p c (Ctl.popTx ans c) := ⟨List.tail_suffix _, List.prefix_refl _, id, rfl, rfl⟩
  unfold Ctl.execWord
  split
  · exact (popped.trans (Ctl.execWrite_grows p _ _ _ _)).settles
      (Ctl.Gains.trans (d := Ctl.popTx ans c) (Ctl.gains_of_eq rfl rfl) (Ctl.execWrite_gains _ _ _ _))
  · next stop restart hd =>
    have less : (Ctl.popTx ans c).owes + 1 = c.owes := by
      simp only [Ctl.owes, Ctl.popTx, fifo, List.tail_cons, List.filter_cons, decodeCmd_dcRead hd, if_true,
        List.length_cons]
      omega
    have gains := Ctl.execRead_gains (p := p) (c := Ctl.popTx ans c) stop restart (by
      have : (Ctl.popTx ans c).rxFifo.length ≤ (Ctl.popTx ans c).owes := Nat.le_add_left _ _
      omega)
    have grows := Ctl.execRead_grows p stop restart (Ctl.popTx ans c)
    have := Ctl.owes_le grows.tx gains
    exact ⟨by omega, gains.rxOver, .inl grows.rx⟩
  · exact popped.settles (Ctl.gains_of_eq rfl rfl)

/-- Every step of Ctl settles, where no more is owed than the RX FIFO holds (42_interrupt_fifo.md R292). -/
theorem Ctl.move_settles (m : CtlMove) (room : c.owes ≤ p.ctlRxDepth) : Ctl.Settles c (Ctl.move p m c) := by
  have refl : Ctl.Settles c c := ⟨Nat.le_refl _, rfl, .inl (List.prefix_refl _)⟩
  cases m with
  | take ans =>
    simp only [Ctl.move]
    split
    · next may =>
      cases fifo : c.txFifo with
      | nil => simp [Ctl.mayTake, fifo] at may
      | cons w ws => exact Ctl.take_settles fifo room
    · exact refl
  | emptyFifo =>
    simp only [Ctl.move]
    split
    · exact (Ctl.stop_grows p c).settles (Ctl.stop_gains c)
    · exact refl
  | arbLost src =>
    simp only [Ctl.move]
    split
    · exact (Ctl.loseBus_grows p src c).settles (Ctl.loseBus_gains src c)
    · exact refl
  | finishDisable =>
    simp only [Ctl.move]
    split
    · refine ⟨Nat.zero_le _, ?_, .inr rfl⟩
      split
      · exact (Ctl.stop_gains c).rxOver
      · rfl
    · exact refl
  | latch j =>
    simp only [Ctl.move]
    split
    · next h =>
      have hj : j.val = 5 ∨ j.val = 11 ∨ j.val = 12 ∨ j.val = 13 := by simpa [otherEvents] using h
      exact (Ctl.latch_grows p c j.val (by omega) (by omega) (by omega)).settles
        (Ctl.latch_gains (by omega) (by omega) c)
    · exact refl
  | busy | targetReg | targetPage => exact ⟨Nat.le_refl _, rfl, .inl (List.prefix_refl _)⟩

theorem Ctl.moves_settles (ms : List CtlMove) (room : c.owes ≤ p.ctlRxDepth) : Ctl.Settles c (Ctl.moves p ms c) := by
  induction ms generalizing c with
  | nil => exact ⟨Nat.le_refl _, rfl, .inl (List.prefix_refl _)⟩
  | cons m ms ih =>
    have first := Ctl.move_settles m room
    exact first.trans (ih (first.owes.trans room))

/-- Ctl's turn before a register access settles so. -/
theorem ctlTurn_settles (room : s.ctl.owes ≤ s.par.ctlRxDepth) : Ctl.Settles s.ctl (ctlTurn s).ctl := by
  rw [ctlTurn_eq]
  exact Ctl.moves_settles _ room

end Sys2Proof.Machine
end

section
/-!
SUPPORT. The FIFOs' bounds, kept by the accesses of a handler run (42_interrupt_fifo.md R292; 70_reset_and_hazards.md R473,
R474), and by the beginning of a transfer.
-/

namespace Sys2Proof.Machine

variable {s t u : State} {p : Params} {c : Ctl} {n : Nat} {x : Bool} {a : Agent} {msgs : List Msg}

/-! ### One access -/

/-- A register read but of DATA_CMD takes nothing off the FIFOs and latches nothing (10_state.md R70 to R74). -/
theorem Ctl.afterRead_fifos {r : Reg} (hr : r ≠ .dataCmd) (c : Ctl) :
    (Ctl.afterRead r c).txFifo = c.txFifo ∧ (Ctl.afterRead r c).rxFifo = c.rxFifo ∧
      ((Ctl.afterRead r c).latched.getLsbD 1 = true → c.latched.getLsbD 1 = true) := by
  have unlatch : ∀ k (d : Ctl), (Ctl.unlatch k d).latched.getLsbD 1 = true → d.latched.getLsbD 1 = true :=
    fun k d h => by
      rw [latched_unlatch, Bool.and_eq_true] at h
      exact h.1
  cases r with
  | dataCmd => exact absurd rfl hr
  | clrIntr => exact ⟨rfl, rfl, fun h => by simp [Ctl.afterRead] at h⟩
  | clrTxAbrt | clrRxUnder | clrRxOver | clrTxOver | clrRdReq | clrRxDone | clrActivity | clrStopDet | clrStartDet
  | clrGenCall => exact ⟨rfl, rfl, unlatch _ _⟩
  | _ => exact ⟨rfl, rfl, id⟩

/-- A register write but of DATA_CMD puts nothing on the FIFOs and latches nothing (10_state.md R60 to R76). -/
theorem Ctl.writeReg_fifos {r : Reg} (hr : r ≠ .dataCmd) (p : Params) (w : Word) (c : Ctl) :
    (Ctl.writeReg p r w c).txFifo = c.txFifo ∧ (Ctl.writeReg p r w c).rxFifo = c.rxFifo ∧
      (Ctl.writeReg p r w c).latched = c.latched := by
  cases r with
  | dataCmd => exact absurd rfl hr
  | con | tar | ssSclHcnt | ssSclLcnt | fsSclHcnt | fsSclLcnt | sdaHold =>
    cases e : c.icEn <;> simp [Ctl.writeReg, e]
  | _ => exact ⟨rfl, rfl, rfl⟩

theorem Ctl.owes_congr {d : Ctl} (tx : d.txFifo = c.txFifo) (rx : d.rxFifo = c.rxFifo) : d.owes = c.owes := by
  simp only [Ctl.owes, tx, rx]

/-- A command word put on the TX FIFO adds to what is owed if it is a read, and latches no RX_OVER
(10_state.md R76). -/
theorem Ctl.writeWord_owes (p : Params) (w : Word) (c : Ctl) :
    (Ctl.writeReg p .dataCmd w c).owes ≤ c.owes + (if w.getLsbD 8 = true then 1 else 0) ∧
      (Ctl.writeReg p .dataCmd w c).latched.getLsbD 1 = c.latched.getLsbD 1 := by
  simp only [Ctl.writeReg]
  split
  · refine ⟨?_, rfl⟩
    simp only [Ctl.owes, List.filter_append, List.length_append, List.filter_cons, List.filter_nil]
    split
    · simp; omega
    · simp
  · exact ⟨Nat.le_add_right _ _, by rw [latched_latch _ _ _ (by decide)]; simp⟩

/-! ### What is owed -/

/-- The outstanding-read counter covers what is owed, within an RX FIFO that is as deep as the bus record says, and
RX_OVER is latched only if `x` (42_interrupt_fifo.md R292, 60_exceptions.md R438). -/
structure Covered (x : Bool) (s : State) : Prop where
  depth  : s.blk.rxFifoDepth ≤ s.par.ctlRxDepth
  covers : s.ReadsCovered
  rxOver : s.ctl.latched.getLsbD 1 = true → x = true

theorem Covered.room (h : Covered x s) : s.ctl.owes ≤ s.par.ctlRxDepth :=
  h.covers.owes.trans (h.covers.bound.trans h.depth)

theorem Covered.turn (h : Covered x s) : Ctl.Settles s.ctl (ctlTurn s).ctl := ctlTurn_settles h.room

/-- An access after Ctl's turn that adds nothing to what is owed. -/
theorem Covered.access (h : Covered x s) (hp : t.par = s.par) (hb : t.blk = s.blk)
    (owes : t.ctl.owes ≤ (ctlTurn s).ctl.owes)
    (rxOver : t.ctl.latched.getLsbD 1 = true → (ctlTurn s).ctl.latched.getLsbD 1 = true) : Covered x t := by
  refine ⟨by rw [hp, hb]; exact h.depth, ⟨?_, by rw [hb]; exact h.covers.bound⟩, fun e => h.rxOver ?_⟩
  · rw [hb]
    exact (owes.trans h.turn.owes).trans h.covers.owes
  · rw [← h.turn.rxOver]
    exact rxOver e

theorem Covered.read {r : Reg} (hr : r ≠ .dataCmd) (h : Covered x s) : Covered x (regRead r s).2 := by
  obtain ⟨tx, rx, latched⟩ := Ctl.afterRead_fifos hr (ctlTurn s).ctl
  exact h.access (by simp) (by simp) (by rw [regRead_ctl, Ctl.owes_congr tx rx]) (by rw [regRead_ctl]; exact latched)

theorem Covered.write {r : Reg} (hr : r ≠ .dataCmd) (w : Word) (h : Covered x s) : Covered x (regWrite r w s) := by
  obtain ⟨tx, rx, latched⟩ := Ctl.writeReg_fifos hr s.par w (ctlTurn s).ctl
  exact h.access (by simp) (by simp) (by rw [regWrite_ctl, Ctl.owes_congr tx rx]) (by rw [regWrite_ctl, latched]; exact id)

/-- A change of the bus record that leaves the counter and the depth as they are. -/
theorem Covered.blk {b : Bus} (h : Covered x s) (hd : b.rxFifoDepth = s.blk.rxFifoDepth)
    (ho : b.rxOutstanding = s.blk.rxOutstanding) : Covered x { s with blk := b } := by
  refine ⟨?_, ⟨?_, ?_⟩, h.rxOver⟩
  · show b.rxFifoDepth ≤ s.par.ctlRxDepth
    rw [hd]
    exact h.depth
  · show s.ctl.owes ≤ b.rxOutstanding
    rw [ho]
    exact h.covers.owes
  · show b.rxOutstanding ≤ b.rxFifoDepth
    rw [hd, ho]
    exact h.covers.bound

theorem covered_inv (x : Bool) : BranchInv (Covered x) where
  blk _ _ hb h := h.blk (Bus.unhandled_depths hb.1).1 hb.2
  mask v _ h := h.write (by decide) v
  handler _ _ h := ⟨h.depth, ⟨h.covers.owes, h.covers.bound⟩, h.rxOver⟩

/-- A read word issued is counted, up to the depth of the RX FIFO (42_interrupt_fifo.md R292). -/
theorem Covered.issue {w : Word} {rd : Bool} (h : Covered x s) (hw : w.getLsbD 8 = rd)
    (room : rd = true → s.blk.rxOutstanding ≠ s.blk.rxFifoDepth) : Covered x (issueWord w rd s) := by
  have turn := h.turn
  obtain ⟨owes, rxOver⟩ := Ctl.writeWord_owes s.par w (ctlTurn s).ctl
  have covered := h.covers.owes
  have bound := h.covers.bound
  refine ⟨by simpa [issueWord] using h.depth, ⟨?_, ?_⟩, fun e => h.rxOver ?_⟩
  · simp only [issueWord, mapBlk_ctl, mapBlk_blk, regWrite_ctl, regWrite_blk]
    have := turn.owes
    rw [hw] at owes
    split at owes <;> simp_all <;> omega
  · simp only [issueWord, mapBlk_blk, regWrite_blk]
    split
    · next e => have := room e; omega
    · exact bound
  · rw [← turn.rxOver, ← rxOver]
    simpa only [issueWord, mapBlk_ctl, regWrite_ctl] using e

theorem covered_refill (x : Bool) : RefillInv (Covered x) fun _ => Covered x where
  toBranchInv := covered_inv x
  start _ h := h.read (by decide)
  word _ _ _ _ hw room h := h.issue hw room
  done _ _ h := h

/-- While `n` more bytes are to be read they are there, or a disable has emptied the FIFOs (42_interrupt_fifo.md R300,
60_exceptions.md R436). -/
structure CoveredDrain (x : Bool) (n : Nat) (s : State) : Prop where
  covered : Covered x s
  there   : n ≤ s.ctl.rxFifo.length ∨ s.ctl.owes = 0

theorem Covered.turn_there (h : Covered x s) (there : n ≤ s.ctl.rxFifo.length ∨ s.ctl.owes = 0) :
    n ≤ (ctlTurn s).ctl.rxFifo.length ∨ (ctlTurn s).ctl.owes = 0 := by
  have := h.turn.owes
  rcases there with hn | hz
  · exact h.turn.fed.imp (fun fed => hn.trans fed.length_le) id
  · exact .inr (by omega)

/-- A DATA_CMD read takes a byte that was owed; on an empty RX FIFO nothing is owed (10_state.md R73, R76). -/
theorem Ctl.readData_owes (there : n + 1 ≤ c.rxFifo.length ∨ c.owes = 0) :
    (Ctl.afterRead .dataCmd c).owes ≤ c.owes - 1 ∧
      (n ≤ (Ctl.afterRead .dataCmd c).rxFifo.length ∨ (Ctl.afterRead .dataCmd c).owes = 0) ∧
      (Ctl.afterRead .dataCmd c).latched.getLsbD 1 = c.latched.getLsbD 1 := by
  cases fifo : c.rxFifo with
  | nil =>
    have zero : c.owes = 0 := there.resolve_left (by simp [fifo])
    have read : Ctl.afterRead .dataCmd c = Ctl.latch 0 c := by simp [Ctl.afterRead, fifo]
    have owes : (Ctl.latch 0 c).owes = 0 := zero
    rw [read, owes]
    exact ⟨Nat.zero_le _, .inr rfl, by rw [latched_latch _ _ _ (by decide)]; simp⟩
  | cons b bs =>
    have read : Ctl.afterRead .dataCmd c = { c with rxFifo := bs } := by simp [Ctl.afterRead, fifo]
    have less : Ctl.owes { c with rxFifo := bs } + 1 = c.owes := by
      simp only [Ctl.owes, fifo, List.length_cons]
      omega
    simp only [fifo, List.length_cons] at there
    rw [read]
    exact ⟨by omega, .inl (by show n ≤ bs.length; omega), rfl⟩

/-- A byte read off the RX FIFO is no longer owed nor outstanding (42_interrupt_fifo.md R300). -/
theorem CoveredDrain.read (h : CoveredDrain x (n + 1) s) : CoveredDrain x n (takeByte s) := by
  have turn := h.covered.turn
  have owes := turn.owes
  have covered := h.covered.covers.owes
  have bound := h.covered.covers.bound
  obtain ⟨after, there, rxOver⟩ := Ctl.readData_owes (h.covered.turn_there h.there)
  have ctl : (takeByte s).ctl = Ctl.afterRead .dataCmd (ctlTurn s).ctl := by
    simp only [takeByte, mapBlk_ctl, regRead_ctl]
  refine ⟨⟨by simpa [takeByte] using h.covered.depth, ⟨?_, ?_⟩, fun e => h.covered.rxOver ?_⟩, ctl ▸ there⟩
  · rw [takeByte_blk, ctl]
    show _ ≤ s.blk.rxOutstanding - 1
    omega
  · rw [takeByte_blk]
    exact (Nat.sub_le _ _).trans bound
  · rw [← turn.rxOver, ← rxOver, ← ctl]
    exact e

theorem covered_drain (x : Bool) : DrainInv (CoveredDrain x) where
  base n := {
    blk := fun _ _ hb h => ⟨(covered_inv x).blk _ _ hb h.covered, h.there⟩
    mask := fun v s h => ⟨h.covered.write (by decide) v, by
      rw [writeMask_ctl]
      exact h.covered.turn_there h.there⟩
    handler := fun w s h => ⟨(covered_inv x).handler w s h.covered, h.there⟩ }
  read _ _ h := h.read
  store _ _ _ _ _ _ _ _ h := ⟨⟨h.covered.depth, ⟨h.covered.covers.owes, h.covered.covers.bound⟩, h.covered.rxOver⟩, h.there⟩

/-- The RX_FULL branch keeps what is owed covered (42_interrupt_fifo.md R292, R300). -/
theorem Covered.rxFull (h : Covered x s) : Flow.All (Covered x) (execIrqRxFull s) := by
  have start : CoveredDrain x ((regRead .rxflr s).1.extractLsb' 0 9).toNat (regRead .rxflr s).2 := by
    refine ⟨h.read (by decide), .inl ?_⟩
    rw [rxLevel_eq, regRead_ctl]
    exact Nat.mod_le _ _
  exact ((covered_drain x).rxFull start).imp fun _ ⟨_, h⟩ => h.covered

/-! ### Interrupt entry -/

theorem Covered.clearBits (stat : Word) {l : List (Nat × Reg)} (hl : ∀ e ∈ l, e.2 ≠ .dataCmd) (h : Covered x s) :
    Covered x (clearBits stat l s) := by
  induction l generalizing s with
  | nil => exact h
  | cons e l ih =>
    have ih := fun {s} => ih (s := s) fun e he => hl e (List.mem_cons_of_mem _ he)
    simp only [Machine.clearBits]
    split
    · exact ih (h.read (hl e List.mem_cons_self))
    · exact ih h

/-- Interrupt entry keeps it too: its reads take nothing off the RX FIFO (42_interrupt_fifo.md R282). -/
theorem Covered.takeIrq (h : Covered x s) : Covered x (takeIrq s) := by
  have abort : ∀ stat {u}, Covered x u → Covered x (clearAbort stat u) := fun stat u hu => by
    unfold clearAbort
    split
    · exact ((hu.read (by decide)).blk (by rw [regRead_blk]) (by rw [regRead_blk])).read (by decide)
    · exact hu
  have latched : ∀ stat {u}, Covered x u → Covered x (clearLatched stat u) := fun stat u hu => by
    have bits := (abort stat hu).clearBits stat (l := clearRegs) (by decide)
    unfold clearLatched
    simp only []
    split
    · exact bits.read (by decide)
    · exact bits
  unfold Machine.takeIrq idleBranch
  split
  · exact (covered_inv x).mask _ _ (h.read (by decide))
  · have cleared := latched (regRead .intrStat s).1 (h.read (r := .intrStat) (by decide))
    simp only []
    split
    · exact (covered_inv x).endHandler cleared
    · exact (covered_inv x).handler _ _ cleared

/-- Interrupt entry and every branch keep what is owed covered (42_interrupt_fifo.md R292). -/
theorem Covered.handler {i : Instr} (hi : i ∈ [Instr.evtIrq, .irqTxAbrt, .irqRxFull, .irqTxEmpty, .irqStopDet])
    (h : Covered x s) : Flow.All (Covered x) (exec i s) := by
  simp only [List.mem_cons, List.not_mem_nil, or_false] at hi
  rcases hi with rfl | rfl | rfl | rfl | rfl
  · refine .next ?_
    split
    · exact h.takeIrq
    · exact h
  · exact (covered_inv x).txAbrt h
  · exact h.rxFull
  · exact (covered_refill x).txEmpty h
  · exact (covered_inv x).stopDet h

end Sys2Proof.Machine
end

section
/-!
PROOFS. The FIFOs stay in bounds (42_interrupt_fifo.md R292; 10_state.md R43; 70_reset_and_hazards.md R473, R474).
-/

namespace Sys2Proof.Machine

variable {s t u v : State} {p : Params} {c : Ctl} {n k : Nat} {b : Bool} {a : Agent} {msgs : List Msg}

/-! ### The refill and the depths -/

/-- The outstanding reads fit the RX FIFO (42_interrupt_fifo.md R292). -/
def ReadsFit (s : State) : Prop := s.blk.rxOutstanding ≤ s.blk.rxFifoDepth

theorem readsFit_refill : RefillInv ReadsFit fun _ => ReadsFit where
  blk _ _ hb h := by
    unfold ReadsFit
    rw [hb.2, (Bus.unhandled_depths hb.1).1]
    exact h
  mask v _ h := by simpa [ReadsFit, writeMask] using h
  handler _ _ h := h
  start _ h := by simpa [ReadsFit] using h
  word n s w rd _ room h := by
    simp only [ReadsFit, issueWord, mapBlk_blk, regWrite_blk] at h ⊢
    split
    · next e => have := room e; omega
    · exact h
  done _ _ h := h

/-- The TX FIFO of the record's depth fits the controller's of `p`, holds no more than that, and TX_OVER is `b`. -/
structure TxFits (p : Params) (b : Bool) (s : State) : Prop where
  par    : s.par = p
  depth  : s.blk.txFifoDepth ≤ p.ctlTxDepth
  small  : p.ctlTxDepth ≤ 256
  length : s.ctl.txFifo.length ≤ p.ctlTxDepth
  txOver : s.ctl.latched.getLsbD 3 = b

/-- Ctl's turn only takes words off the TX FIFO (60_exceptions.md R430). -/
theorem TxFits.turn_length (s : State) : (ctlTurn s).ctl.txFifo.length ≤ s.ctl.txFifo.length :=
  (ctlTurn_feeds s).tx.length_le

/-- An access that leaves the TX FIFO as Ctl's turn does. -/
theorem TxFits.access (h : TxFits p b s) (hp : t.par = s.par) (hb : t.blk = s.blk)
    (tx : t.ctl.txFifo = (ctlTurn s).ctl.txFifo)
    (txOver : t.ctl.latched.getLsbD 3 = (ctlTurn s).ctl.latched.getLsbD 3) : TxFits p b t :=
  ⟨hp.trans h.par, hb ▸ h.depth, h.small, tx ▸ (TxFits.turn_length s).trans h.length,
    txOver.trans ((ctlTurn_feeds s).txOver.trans h.txOver)⟩

/-- A word written to a TX FIFO with room for it (42_interrupt_fifo.md R292). -/
theorem TxFits.issue {w : Word} {rd : Bool} (h : TxFits p b s) (room : s.ctl.txFifo.length < p.ctlTxDepth) :
    TxFits p b (issueWord w rd s) ∧ (issueWord w rd s).ctl.txFifo.length ≤ s.ctl.txFifo.length + 1 := by
  have shrinks := TxFits.turn_length s
  have ctl : (issueWord w rd s).ctl = { (ctlTurn s).ctl with txFifo := (ctlTurn s).ctl.txFifo ++ [w] } := by
    simp only [issueWord, mapBlk_ctl, regWrite_ctl, Ctl.writeReg, h.par]
    rw [if_pos (by omega)]
  have length : (issueWord w rd s).ctl.txFifo.length = (ctlTurn s).ctl.txFifo.length + 1 := by simp [ctl]
  refine ⟨⟨by simpa [issueWord] using h.par, by simpa [issueWord] using h.depth, h.small, by omega, ?_⟩, by omega⟩
  rw [ctl]
  exact (ctlTurn_feeds s).txOver.trans h.txOver

/-- The TXFLR read bounds the words written after it, for Ctl only takes words off (42_interrupt_fifo.md R292). -/
theorem txFits_refill (p : Params) (b : Bool) :
    RefillInv (TxFits p b) fun n s => TxFits p b s ∧ (n = 0 ∨ s.ctl.txFifo.length + n ≤ p.ctlTxDepth) where
  blk _ _ hb h := ⟨h.par, by rw [(Bus.unhandled_depths hb.1).2]; exact h.depth, h.small, h.length, h.txOver⟩
  mask v s h := h.access (by simp [writeMask]) (by simp [writeMask]) (by simp) (by simp)
  handler _ _ h := ⟨h.par, h.depth, h.small, h.length, h.txOver⟩
  start s h := by
    have read : (regRead .txflr s).2.ctl = (ctlTurn s).ctl := by simp [Ctl.afterRead]
    refine ⟨h.access (by simp) (by simp) (by rw [read]) (by rw [read]), ?_⟩
    have shrinks := TxFits.turn_length s
    have level : (regRead .txflr s).1.toNat = (ctlTurn s).ctl.txFifo.length := by
      have := h.length
      have := h.small
      rw [regRead_fst]
      simp only [Ctl.readValue, Option.getD_some]
      rw [levelWord_eq (by omega), BitVec.toNat_ofNat, Nat.mod_eq_of_lt (by omega)]
    have := h.depth
    rw [level, read]
    omega
  word n s w rd _ _ h := by
    obtain ⟨fits, room⟩ := h
    obtain ⟨issued, grows⟩ := fits.issue (w := w) (rd := rd) (by omega)
    exact ⟨issued, by omega⟩
  done _ _ h := h.1

/-! ### The drain and the depths -/

/-- With ENABLE 1 the RX FIFO holds the `n` bytes still to be read, within the controller's depth, and RX_UNDER is
`b`. -/
structure RxFits (p : Params) (b : Bool) (n : Nat) (s : State) : Prop where
  par    : s.par = p
  enable : s.ctl.enable = true
  holds  : n ≤ s.ctl.rxFifo.length
  length : s.ctl.rxFifo.length ≤ p.ctlRxDepth
  under  : s.ctl.latched.getLsbD 0 = b

theorem RxFits.turn (h : RxFits p b n s) : RxFits p b n (ctlTurn s) :=
  ⟨(ctlTurn_par s).trans h.par, (ctlTurn_keeps s).enable.trans h.enable, h.holds.trans (ctlTurn_rx h.enable).length_le,
    h.par ▸ (ctlTurn_feeds s).depth (h.par ▸ h.length), (ctlTurn_feeds s).under.trans h.under⟩

/-- A DATA_CMD read of an RX FIFO that holds a byte takes it and latches nothing (10_state.md R73). -/
theorem RxFits.read (h : RxFits p b (n + 1) s) : RxFits p b n (takeByte s) := by
  obtain ⟨-, enable, holds, length, under⟩ := h.turn
  have ctl : (takeByte s).ctl = { (ctlTurn s).ctl with rxFifo := (ctlTurn s).ctl.rxFifo.tail } := by
    have filled : (ctlTurn s).ctl.rxFifo.isEmpty = false := by
      cases fifo : (ctlTurn s).ctl.rxFifo with
      | nil => simp [fifo] at holds
      | cons => rfl
    simp [takeByte, Ctl.afterRead, filled]
  refine ⟨by simpa [takeByte] using h.par, ?_, ?_, ?_, ?_⟩ <;> rw [ctl]
  · exact enable
  · simp only [List.length_tail]
    omega
  · simp only [List.length_tail]
    omega
  · exact under

theorem rxFits_drain (p : Params) (b : Bool) : DrainInv (RxFits p b) where
  base n := {
    blk := fun _ _ _ h => ⟨h.par, h.enable, h.holds, h.length, h.under⟩
    mask := fun v s h => by
      obtain ⟨-, enable, holds, length, under⟩ := h.turn
      exact ⟨by simpa [writeMask] using h.par, by rwa [writeMask_ctl], by rwa [writeMask_ctl], by rwa [writeMask_ctl],
        by rwa [writeMask_ctl]⟩
    handler := fun _ _ h => ⟨h.par, h.enable, h.holds, h.length, h.under⟩ }
  read _ _ h := h.read
  store _ _ _ _ _ _ _ _ h := ⟨h.par, h.enable, h.holds, h.length, h.under⟩

/-- The RX_FULL branch never reads an empty RX FIFO (42_interrupt_fifo.md R301). -/
theorem RxFits.rxFull (h : RxFits p b 0 s) : Flow.All (RxFits p b 0) (execIrqRxFull s) := by
  have start : RxFits p b ((regRead .rxflr s).1.extractLsb' 0 9).toNat (regRead .rxflr s).2 := by
    have turn := h.turn
    have ctl : (regRead .rxflr s).2.ctl = (ctlTurn s).ctl := by simp [Ctl.afterRead]
    refine ⟨by simpa using h.par, ?_, ?_, ?_, ?_⟩ <;> rw [ctl]
    · exact turn.enable
    · rw [rxLevel_eq]
      exact Nat.mod_le _ _
    · exact turn.length
    · exact turn.under
  exact ((rxFits_drain p b).rxFull start).imp fun _ ⟨_, h⟩ => ⟨h.par, h.enable, Nat.zero_le _, h.length, h.under⟩

/-! ### The beginning of a transfer -/

/-- Where nothing is owed, no register access but one of DATA_CMD makes it owe anything (42_interrupt_fifo.md R292). -/
theorem owes_turn (h : s.ctl.owes = 0) : (ctlTurn s).ctl.owes = 0 :=
  Nat.le_zero.mp (h ▸ (ctlTurn_settles (h ▸ Nat.zero_le _)).owes)

theorem owes_read {r : Reg} (hr : r ≠ .dataCmd) (h : s.ctl.owes = 0) : (regRead r s).2.ctl.owes = 0 := by
  obtain ⟨tx, rx, -⟩ := Ctl.afterRead_fifos hr (ctlTurn s).ctl
  rw [regRead_ctl, Ctl.owes_congr tx rx, owes_turn h]

theorem owes_write {r : Reg} (hr : r ≠ .dataCmd) (w : Word) (h : s.ctl.owes = 0) : (regWrite r w s).ctl.owes = 0 := by
  obtain ⟨tx, rx, -⟩ := Ctl.writeReg_fifos hr s.par w (ctlTurn s).ctl
  rw [regWrite_ctl, Ctl.owes_congr tx rx, owes_turn h]

/-- `xferArm` issues no read word and leaves the counter alone (41_transfer_engine.md R245). -/
theorem xferArm_covered (none : s.ctl.owes = 0) (fit : ReadsFit s) : (xferArm a msgs s).ReadsCovered := by
  have enabled := owes_write (r := .enable) (by decide) 1#32 <| owes_write (r := .con) (by decide)
    (withTen (regRead .con (regWrite .tar (tarValue (msgAt msgs 0).addr) s)).1 (msgAt msgs 0).ten) <|
    owes_read (r := .con) (by decide) <|
    owes_write (r := .tar) (by decide) (tarValue (msgAt msgs 0).addr) none
  have cleared := owes_read (r := .clrIntr) (by decide) enabled
  have armed : (xferArm a msgs s).ctl.owes = 0 :=
    owes_write (r := .intrMask) (by decide) defaultMask (s := State.mapBlk (regRead .clrIntr _).2 fun b =>
      { b with status := (msgAt msgs 0).dir, xphase := .transferActive }) cleared
  refine ⟨armed ▸ Nat.zero_le _, ?_⟩
  simpa [xferArm, ReadsFit, ctlEnable, writeMask] using fit

/-- An acknowledged disable that finds nothing owed arms a transfer whose counter covers what is owed
(41_transfer_engine.md R245). -/
theorem disablePoll_covers (acked : (ctlTurn v).ctl.icEn = false) (none : (ctlTurn v).ctl.owes = 0)
    (fit : ReadsFit v) : ∃ t, disablePoll a k (.xfer msgs) v = .next t ∧ t.ReadsCovered := by
  rw [disablePoll_acked a k _ acked]
  refine ⟨_, rfl, xferArm_covered ?_ (by simpa [ReadsFit] using fit)⟩
  simpa [Ctl.afterRead] using none

theorem AtBusyPoll.covered {run : Flow} {fs : List Frame} {count : Half} {b : Bus}
    (poll : AtBusyPoll s run u a fs msgs count b) (free : s.BusFree)
    (none : (ctlTurn (regWrite .enable 0#32 (regTouch .status s))).ctl.owes = 0) :
    ∃ t, run = .next t ∧ t.ReadsCovered := by
  obtain ⟨idle, acked⟩ := free
  obtain ⟨v, rfl, -, untouched, blk⟩ := poll.disables idle
  obtain ⟨ctl, -⟩ := untouched.turn
  exact disablePoll_covers (ctl ▸ acked) (ctl ▸ none) (by simp [ReadsFit, blk, resetBus, begunBus])

theorem GoesOn.covered {g : Gate} (on : GoesOn a (.disable k (.xfer msgs)) s u g)
    (acked : (ctlTurn s).ctl.icEn = false) (none : (ctlTurn s).ctl.owes = 0) (fit : ReadsFit s) :
    ∃ t, step s = .next t ∧ t.ReadsCovered := by
  obtain ⟨-, untouched, blk⟩ := on.acts
  obtain ⟨ctl, -⟩ := untouched.turn
  rw [step_goesOn on]
  exact disablePoll_covers (ctl ▸ acked) (ctl ▸ none) (by unfold ReadsFit; rw [blk]; exact fit)

/-! ### One word -/

/-- A write word executed owes nothing new (60_exceptions.md R432). -/
theorem execWrite_covered (dat : Byte) (stop restart : Bool) (h : s.ReadsCovered)
    (e : t = { s with ctl := Ctl.execWrite dat stop restart s.ctl }) :
    t.ReadsCovered ∧ t.ctl.latched.getLsbD 1 = s.ctl.latched.getLsbD 1 := by
  subst e
  have gains := Ctl.execWrite_gains dat stop restart s.ctl
  have owes := Ctl.owes_le (Ctl.execWrite_grows s.par dat stop restart s.ctl).tx gains
  exact ⟨⟨owes.trans h.owes, h.bound⟩, gains.rxOver⟩

/-- A read word executed puts one byte on an RX FIFO that the counter says has room for it (60_exceptions.md R438). -/
theorem execRead_covered (stop restart : Bool) (depth : s.blk.rxFifoDepth ≤ s.par.ctlRxDepth)
    (below : s.ctl.owes < s.blk.rxOutstanding) (fit : ReadsFit s)
    (e : t = { s with ctl := Ctl.execRead s.par stop restart s.ctl }) :
    t.ReadsCovered ∧ t.ctl.latched.getLsbD 1 = s.ctl.latched.getLsbD 1 := by
  subst e
  have held : s.ctl.rxFifo.length ≤ s.ctl.owes := Nat.le_add_left _ _
  have gains := Ctl.execRead_gains (p := s.par) (c := s.ctl) stop restart (by unfold ReadsFit at fit; omega)
  have owes := Ctl.owes_le (Ctl.execRead_grows s.par stop restart s.ctl).tx gains
  exact ⟨⟨owes.trans below, fit⟩, gains.rxOver⟩

/-! ### The obligation -/

/-- Settles O31, by the invariants of the accesses: `readsFit_refill`, `txFits_refill` and `rxFits_drain` for the depths,
`Covered` for the outstanding reads. -/
theorem fifosStayInBounds : Obligations.FifosStayInBounds := by
  unfold Obligations.FifosStayInBounds
  refine ⟨fun s t => ⟨fun e => ⟨fun fit => ?_, fun depth small length => ?_⟩, fun e enable _ length => ?_⟩,
    fun s t depth => ⟨fun i hi e h => ?_, fun dat stop restart e h => ?_, fun stop restart e below fit => ?_⟩,
    fun p m c room => ?_, fun s u run a fs msgs count b poll free none => poll.covered free none,
    fun s u a k msgs g on acked none fit => on.covered acked none fit⟩
  · exact readsFit_refill.txEmpty fit t e
  · have fits := (txFits_refill s.par _).txEmpty ⟨rfl, depth, small, length, rfl⟩ t e
    exact ⟨fits.txOver, fits.length⟩
  · have fits := RxFits.rxFull ⟨rfl, enable, Nat.zero_le _, length, rfl⟩ t e
    exact ⟨fits.under, fits.length⟩
  · have covered := Covered.handler hi (x := s.ctl.latched.getLsbD 1) ⟨depth, h, id⟩ t e
    exact ⟨covered.covers, covered.rxOver⟩
  · cases e
    exact execWrite_covered dat stop restart h rfl
  · cases e
    exact execRead_covered stop restart depth below fit rfl
  · have settles := Ctl.move_settles m room
    exact ⟨settles.owes, settles.rxOver⟩

end Sys2Proof.Machine
end

section
/-!
PROOFS. The TX refill (42_interrupt_fifo.md R290 to R295, R312): the words due are issued in order, and the loop stops
for one of its four reasons.
-/

namespace Sys2Proof.Machine

variable {s t u : State} {b : Bus} {mem : Memory} {ws vs : List Word} {w : Word} {i off n : Nat}

/-! ### The words due -/

/-- The words due of message `i` from offset `off` on (42_interrupt_fifo.md R291). -/
def messageWords (b : Bus) (mem : Memory) (i off : Nat) : List Word :=
  (List.range (b.lens.getD i 0 - off)).map fun k =>
    dcWord b i (off + k) (mem.read (bufAddr (msgAt b.msgs i).buf.id (off + k)))

/-- The word due first, at the write cursor. -/
def nextWord (b : Bus) (mem : Memory) : Word :=
  dcWord b b.msgWriteIdx b.txOff (mem.read (bufAddr (msgAt b.msgs b.msgWriteIdx).buf.id b.txOff))

theorem messageWords_done (h : b.lens.getD i 0 ≤ off) : messageWords b mem i off = [] := by
  rw [messageWords, Nat.sub_eq_zero_of_le h]
  rfl

theorem messageWords_cons (h : off < b.lens.getD i 0) :
    messageWords b mem i off =
      dcWord b i off (mem.read (bufAddr (msgAt b.msgs i).buf.id off)) :: messageWords b mem i (off + 1) := by
  rw [messageWords, show b.lens.getD i 0 - off = (b.lens.getD i 0 - (off + 1)) + 1 by omega, List.range_succ_eq_map,
    List.map_cons, List.map_map, Nat.add_zero, messageWords]
  simp only [Function.comp_def, Nat.add_assoc, Nat.add_comm 1]

/-- Due are the rest of the message at the cursor, then every later message whole. -/
theorem wordsToIssue_eq (hi : b.msgWriteIdx < b.msgsNum) :
    wordsToIssue b mem =
      messageWords b mem b.msgWriteIdx b.txOff ++
        (List.range (b.msgsNum - (b.msgWriteIdx + 1))).flatMap fun j =>
          messageWords b mem (b.msgWriteIdx + 1 + j) 0 := by
  rw [wordsToIssue, show b.msgsNum - b.msgWriteIdx = (b.msgsNum - (b.msgWriteIdx + 1)) + 1 by omega,
    List.range_succ_eq_map, List.flatMap_cons, List.flatMap_map]
  refine congrArg₂ _ rfl (List.flatMap_congr fun j _ => ?_)
  simp only [Nat.succ_ne_zero, if_false, messageWords, Nat.succ_eq_add_one]
  rw [show b.msgWriteIdx + (j + 1) = b.msgWriteIdx + 1 + j by omega]

theorem wordsToIssue_whole (h : b.txOff = 0) :
    wordsToIssue b mem =
      (List.range (b.msgsNum - b.msgWriteIdx)).flatMap fun j => messageWords b mem (b.msgWriteIdx + j) 0 := by
  simp only [wordsToIssue, h, ite_self]
  rfl

/-- One word due is issued: those after it are due (42_interrupt_fifo.md R291). -/
theorem wordsToIssue_cons (hi : b.msgWriteIdx < b.msgsNum) (more : b.txOff < b.lens.getD b.msgWriteIdx 0) (r : Nat) :
    wordsToIssue b mem = nextWord b mem :: wordsToIssue { b with rxOutstanding := r, txOff := b.txOff + 1 } mem := by
  rw [wordsToIssue_eq hi, messageWords_cons more, wordsToIssue_eq (by exact hi)]
  rfl

/-- A message issued whole is passed: the same words are due (42_interrupt_fifo.md R290). -/
theorem wordsToIssue_pass (hi : b.msgWriteIdx < b.msgsNum) (whole : b.lens.getD b.msgWriteIdx 0 ≤ b.txOff) :
    wordsToIssue { b with msgWriteIdx := b.msgWriteIdx + 1, txOff := 0 } mem = wordsToIssue b mem := by
  rw [wordsToIssue_eq hi, messageWords_done whole, wordsToIssue_whole rfl]
  rfl

/-! ### The words issued -/

/-- Between `s` and `t` the refill has issued the words `ws`, the first of those due (42_interrupt_fifo.md R290). -/
structure Refilled (ws : List Word) (s t : State) : Prop where
  due      : wordsToIssue s.blk s.mem = ws ++ wordsToIssue t.blk t.mem
  io       : issuedWords t.io = ws.reverse ++ issuedWords s.io
  count    : t.blk.rxOutstanding = s.blk.rxOutstanding + (ws.filter fun w => w.getLsbD 8).length
  blk      : t.blk = { s.blk with
               status := t.blk.status, msgWriteIdx := t.blk.msgWriteIdx, txOff := t.blk.txOff,
               rxOutstanding := t.blk.rxOutstanding, holdForLen := t.blk.holdForLen }
  intrMask : t.ctl.intrMask = s.ctl.intrMask
  mem      : t.mem = s.mem
  agents   : t.agents = s.agents
  devs     : t.devs = s.devs

theorem Refilled.refl (s : State) : Refilled [] s s := ⟨rfl, rfl, rfl, rfl, rfl, rfl, rfl, rfl⟩

theorem Refilled.trans (h : Refilled ws s t) (k : Refilled vs t u) : Refilled (ws ++ vs) s u where
  due := by rw [h.due, k.due, List.append_assoc]
  io := by rw [k.io, h.io, List.reverse_append, List.append_assoc]
  count := by rw [k.count, h.count, List.filter_append, List.length_append, Nat.add_assoc]
  blk := by
    have := k.blk
    rw [h.blk] at this
    exact this
  intrMask := k.intrMask.trans h.intrMask
  mem := k.mem.trans h.mem
  agents := k.agents.trans h.agents
  devs := k.devs.trans h.devs

/-- A change of the bus record that leaves the words due and the counter as they are issues none. -/
theorem Refilled.blkOnly {f : Bus → Bus} (due : wordsToIssue (f s.blk) s.mem = wordsToIssue s.blk s.mem)
    (count : (f s.blk).rxOutstanding = s.blk.rxOutstanding)
    (blk : f s.blk = { s.blk with
      status := (f s.blk).status, msgWriteIdx := (f s.blk).msgWriteIdx, txOff := (f s.blk).txOff,
      rxOutstanding := (f s.blk).rxOutstanding, holdForLen := (f s.blk).holdForLen }) :
    Refilled [] s (s.mapBlk f) :=
  ⟨due.symm, rfl, count, blk, rfl, rfl, rfl, rfl⟩

/-- The TXFLR read issues nothing. -/
theorem Refilled.txflr (s : State) : Refilled [] s (regRead .txflr s).2 where
  due := by simp
  io := by simp [issuedWords]
  count := by simp
  blk := by simp
  intrMask := by simp [Ctl.afterRead, (ctlTurn_keeps s).intrMask]
  mem := by simp
  agents := by simp
  devs := by simp

/-- The DATA_CMD write of the next word due (42_interrupt_fifo.md R290, R291). -/
theorem Refilled.issue (hi : s.blk.msgWriteIdx < s.blk.msgsNum)
    (more : s.blk.txOff < s.blk.lens.getD s.blk.msgWriteIdx 0) :
    Refilled [nextWord s.blk s.mem] s
      (issueWord (nextWord s.blk s.mem) (msgAt s.blk.msgs s.blk.msgWriteIdx).rd s) where
  due := by
    simp only [issueWord, mapBlk_blk, mapBlk_mem, regWrite_blk, regWrite_mem]
    exact wordsToIssue_cons hi more _
  io := by simp [issueWord, issuedWords]
  count := by
    have rd := dcWord_rd s.blk s.blk.msgWriteIdx s.blk.txOff
      (s.mem.read (bufAddr (msgAt s.blk.msgs s.blk.msgWriteIdx).buf.id s.blk.txOff))
    simp only [issueWord, mapBlk_blk, regWrite_blk, nextWord, List.filter_cons, rd, List.filter_nil]
    split <;> rfl
  blk := by simp [issueWord]
  intrMask := by
    simp only [issueWord, mapBlk_ctl, regWrite_ctl, Ctl.writeReg]
    split <;> exact (ctlTurn_keeps s).intrMask
  mem := by simp [issueWord]
  agents := by simp [issueWord]
  devs := by simp [issueWord]

/-! ### One message -/

/-- The DATA byte of a read word is 0, whatever the buffer holds (42_interrupt_fifo.md R291). -/
theorem dcWord_read {x y : Byte} (rd : (msgAt b.msgs i).rd = true) : dcWord b i off x = dcWord b i off y := by
  simp only [dcWord, rd, if_true]

/-- One turn of the inner loop that issues a word (42_interrupt_fifo.md R290, R292). -/
theorem issueWords_succ (fits : s.blk.lens.getD s.blk.msgWriteIdx 0 ≤ (msgAt s.blk.msgs s.blk.msgWriteIdx).buf.cap.toNat)
    (more : s.blk.txOff < s.blk.lens.getD s.blk.msgWriteIdx 0)
    (room : ¬ ((msgAt s.blk.msgs s.blk.msgWriteIdx).rd = true ∧ s.blk.rxOutstanding = s.blk.rxFifoDepth)) :
    issueWords (n + 1) s =
      issueWords n (issueWord (nextWord s.blk s.mem) (msgAt s.blk.msgs s.blk.msgWriteIdx).rd s) := by
  rw [issueWords]
  simp only [not_true, more, if_false]
  cases rd : (msgAt s.blk.msgs s.blk.msgWriteIdx).rd with
  | true =>
    have notFull : ¬ s.blk.rxOutstanding = s.blk.rxFifoDepth := fun e => room ⟨rd, e⟩
    simp only [if_true, notFull, if_false, nextWord]
    rw [dcWord_read rd]
  | false =>
    have inBuf : s.blk.txOff < (msgAt s.blk.msgs s.blk.msgWriteIdx).buf.cap.toNat := more.trans_le fits
    simp only [Bool.false_eq_true, if_false, memRead, inBuf, if_true, nextWord]

/-- The inner loop: it issues `ws`, which advances the offset, and stops with the message issued, the free TX entries
used, or the RX FIFO spoken for (42_interrupt_fifo.md R290, R292). -/
structure IssuedTo (limit : Nat) (ws : List Word) (s t : State) : Prop where
  refilled : Refilled ws s t
  io       : t.io = (ws.reverse.map fun w => Access.write .dataCmd w) ++ s.io
  blk      : t.blk = { s.blk with txOff := s.blk.txOff + ws.length, rxOutstanding := t.blk.rxOutstanding }
  within   : s.blk.txOff + ws.length ≤ s.blk.lens.getD s.blk.msgWriteIdx 0
  stop     : s.blk.txOff + ws.length = s.blk.lens.getD s.blk.msgWriteIdx 0 ∨ ws.length = limit ∨
               (msgAt s.blk.msgs s.blk.msgWriteIdx).rd = true ∧ t.blk.rxOutstanding = s.blk.rxFifoDepth

/-- Where it stops at once nothing is issued. -/
theorem IssuedTo.stay {limit : Nat} (hoff : s.blk.txOff ≤ s.blk.lens.getD s.blk.msgWriteIdx 0)
    (stop : s.blk.txOff = s.blk.lens.getD s.blk.msgWriteIdx 0 ∨ 0 = limit ∨
      (msgAt s.blk.msgs s.blk.msgWriteIdx).rd = true ∧ s.blk.rxOutstanding = s.blk.rxFifoDepth) :
    IssuedTo limit [] s s := ⟨.refl s, rfl, rfl, hoff, stop⟩

/-- One word, then the rest. -/
theorem IssuedTo.cons {limit : Nat} (issue : Refilled [w] s u) (io : u.io = .write .dataCmd w :: s.io)
    (blk : u.blk = { s.blk with txOff := s.blk.txOff + 1, rxOutstanding := u.blk.rxOutstanding })
    (h : IssuedTo limit ws u t) : IssuedTo (limit + 1) (w :: ws) s t := by
  obtain ⟨refilled, hio, hblk, within, stop⟩ := h
  rw [blk] at hblk within stop
  simp only [Nat.add_assoc, Nat.add_comm 1] at hblk within stop
  exact ⟨issue.trans refilled, by rw [hio, io]; simp, hblk, within, stop.imp id (.imp (congrArg (· + 1)) id)⟩

/-- The loop over one message's words (42_interrupt_fifo.md R290, R291). -/
theorem issueWords_issues (limit : Nat) (hi : s.blk.msgWriteIdx < s.blk.msgsNum)
    (fits : s.blk.lens.getD s.blk.msgWriteIdx 0 ≤ (msgAt s.blk.msgs s.blk.msgWriteIdx).buf.cap.toNat)
    (hoff : s.blk.txOff ≤ s.blk.lens.getD s.blk.msgWriteIdx 0) :
    ∃ t ws, issueWords limit s = .next t ∧ IssuedTo limit ws s t := by
  induction limit generalizing s with
  | zero => exact ⟨s, [], rfl, .stay hoff (.inr (.inl rfl))⟩
  | succ limit ih =>
    by_cases more : s.blk.txOff < s.blk.lens.getD s.blk.msgWriteIdx 0
    · by_cases full : (msgAt s.blk.msgs s.blk.msgWriteIdx).rd = true ∧ s.blk.rxOutstanding = s.blk.rxFifoDepth
      · exact ⟨s, [], by simp only [issueWords, full, if_true, not_true, more, if_false], .stay hoff (.inr (.inr full))⟩
      · rw [issueWords_succ fits more full]
        obtain ⟨u, hu⟩ : ∃ u, u = issueWord (nextWord s.blk s.mem) (msgAt s.blk.msgs s.blk.msgWriteIdx).rd s := ⟨_, rfl⟩
        have io : u.io = .write .dataCmd (nextWord s.blk s.mem) :: s.io := by simp [hu, issueWord]
        have blk : u.blk = { s.blk with txOff := s.blk.txOff + 1, rxOutstanding := u.blk.rxOutstanding } := by
          simp [hu, issueWord]
        rw [← hu]
        obtain ⟨t, ws, e, h⟩ := ih (s := u) (by rw [blk]; exact hi) (by rw [blk]; exact fits) (by rw [blk]; exact more)
        exact ⟨t, _, e, .cons (hu ▸ Refilled.issue hi more) io blk h⟩
    · exact ⟨s, [], by simp only [issueWords, more, not_false_eq_true, if_true], .stay hoff (.inl (by omega))⟩

/-! ### The messages -/

/-- Where the refill stands when it stops (42_interrupt_fifo.md R290, R292, R294, R295): S.status the direction of the
message it is at, no RECV_LEN message passed while its length is awaited, and one of the four reasons. -/
structure RefillStops (s t : State) : Prop where
  dir     : t.blk.status = (msgAt t.blk.msgs (min t.blk.msgWriteIdx (t.blk.msgsNum - 1))).dir
  awaited : ∀ j, s.blk.msgWriteIdx ≤ j → j < s.blk.msgsNum → (msgAt s.blk.msgs j).recvLen = true →
              s.blk.recvPending = true → t.blk.msgWriteIdx ≤ j
  stop    :
    (t.blk.msgWriteIdx = t.blk.msgsNum ∧ t.blk.holdForLen = false) ∨
    (t.blk.holdForLen = true ∧ t.blk.msgWriteIdx < t.blk.msgsNum ∧
      t.blk.txOff = t.blk.lens.getD t.blk.msgWriteIdx 0 ∧ t.blk.recvPending = true ∧
      (msgAt t.blk.msgs t.blk.msgWriteIdx).recvLen = true) ∨
    ((t.blk.msgWriteIdx < t.blk.msgsNum ∧ t.blk.txOff < t.blk.lens.getD t.blk.msgWriteIdx 0) ∧
      t.blk.holdForLen = false ∧
      ((msgAt t.blk.msgs t.blk.msgWriteIdx).rd = true ∧ t.blk.rxOutstanding = t.blk.rxFifoDepth ∨
        ∃ (ws : List Word) (v : Word) (io : List Access),
          t.io = (ws.map fun w => Access.write .dataCmd w) ++ .read .txflr (some v) :: io ∧
          t.blk.txFifoDepth ≤ ws.length + v.toNat))

/-- Nothing is left, or a length is awaited: the loop ends (42_interrupt_fifo.md R290). -/
theorem refillLoop_ends (n : Nat) (h : s.blk.msgWriteIdx = s.blk.msgsNum ∨ s.blk.holdForLen = true) :
    refillLoop n s = .next s := by
  cases n with
  | zero => rfl
  | succ n => rw [refillLoop, if_pos h]

/-- From `s` to `t` the refill has read TXFLR, as `v`, and issued the words `ws` of the message at its cursor
(42_interrupt_fifo.md R290). -/
structure IssuedOf (ws : List Word) (v : Word) (s t : State) : Prop where
  refilled : Refilled ws s t
  io       : t.io = (ws.reverse.map fun w => Access.write .dataCmd w) ++ .read .txflr (some v) :: s.io
  blk      : t.blk = { s.blk with
               status := (msgAt s.blk.msgs s.blk.msgWriteIdx).dir, txOff := s.blk.txOff + ws.length,
               rxOutstanding := t.blk.rxOutstanding }
  within   : s.blk.txOff + ws.length ≤ s.blk.lens.getD s.blk.msgWriteIdx 0
  stop     : s.blk.txOff + ws.length = s.blk.lens.getD s.blk.msgWriteIdx 0 ∨ ws.length = s.blk.txFifoDepth - v.toNat ∨
               (msgAt s.blk.msgs s.blk.msgWriteIdx).rd = true ∧ t.blk.rxOutstanding = s.blk.rxFifoDepth

/-- The turn of the refill on the message at its cursor. -/
theorem atMessage_issues (hi : s.blk.msgWriteIdx < s.blk.msgsNum)
    (fits : s.blk.lens.getD s.blk.msgWriteIdx 0 ≤ (msgAt s.blk.msgs s.blk.msgWriteIdx).buf.cap.toNat)
    (hoff : s.blk.txOff ≤ s.blk.lens.getD s.blk.msgWriteIdx 0) :
    ∃ t ws,
      issueWords (s.blk.txFifoDepth - (regRead .txflr (atMessage s)).1.toNat) (regRead .txflr (atMessage s)).2 = .next t ∧
      IssuedOf ws (regRead .txflr (atMessage s)).1 s t := by
  have at_ : Refilled [] s (atMessage s) := .blkOnly rfl rfl rfl
  have blk : (regRead .txflr (atMessage s)).2.blk =
      { s.blk with status := (msgAt s.blk.msgs s.blk.msgWriteIdx).dir } := regRead_blk _ _
  have io : (regRead .txflr (atMessage s)).2.io = .read .txflr (some (regRead .txflr (atMessage s)).1) :: s.io := by
    simp [regRead_fst, atMessage, Ctl.readValue]
  obtain ⟨t, ws, e, refilled, hio, hblk, within, stop⟩ :=
    issueWords_issues (s.blk.txFifoDepth - (regRead .txflr (atMessage s)).1.toNat) (s := (regRead .txflr (atMessage s)).2)
      (by rw [blk]; exact hi) (by rw [blk]; exact fits) (by rw [blk]; exact hoff)
  rw [blk] at hblk within stop
  exact ⟨t, ws, e, (at_.trans (.txflr _)).trans refilled, hio.trans (by rw [io]), hblk, within, stop⟩

section
variable {v : Word} (h : IssuedOf ws v s t) (hi : s.blk.msgWriteIdx < s.blk.msgsNum)
include h hi

theorem IssuedOf.dir : t.blk.status = (msgAt t.blk.msgs (min t.blk.msgWriteIdx (t.blk.msgsNum - 1))).dir := by
  rw [h.blk]
  simp only []
  rw [Nat.min_eq_left (by omega)]

/-- Words of the message are left: the TX FIFO is full, or the RX FIFO spoken for (42_interrupt_fifo.md R292). -/
theorem IssuedOf.left (go : s.blk.holdForLen = false) (left : t.blk.txOff < t.blk.lens.getD s.blk.msgWriteIdx 0) :
    RefillStops s t := by
  have dir := h.dir hi
  obtain ⟨-, io, blk, -, stop⟩ := h
  have idx : t.blk.msgWriteIdx = s.blk.msgWriteIdx := by rw [blk]
  have num : t.blk.msgsNum = s.blk.msgsNum := by rw [blk]
  refine ⟨dir, fun j hj _ _ _ => idx ▸ hj, .inr (.inr ⟨⟨by omega, by rwa [idx]⟩, by rw [blk]; exact go, ?_⟩)⟩
  rw [blk] at left
  simp only [] at left
  rcases stop with whole | full | spoken
  · omega
  · refine .inr ⟨_, v, _, io, ?_⟩
    rw [blk, List.length_reverse]
    simp only []
    omega
  · refine .inl ?_
    rw [blk]
    exact spoken

/-- The one read of a RECV_LEN message is out: its length is awaited (42_interrupt_fifo.md R294). -/
theorem IssuedOf.holds (whole : ¬ t.blk.txOff < t.blk.lens.getD s.blk.msgWriteIdx 0)
    (length : (msgAt s.blk.msgs s.blk.msgWriteIdx).recvLen = true ∧ t.blk.recvPending = true) :
    RefillStops s (t.mapBlk fun b => { b with holdForLen := true }) := by
  have dir := h.dir hi
  obtain ⟨-, -, blk, within, -⟩ := h
  refine ⟨dir, fun j hj _ _ _ => ?_, .inr (.inl ⟨rfl, ?_, ?_, length.2, ?_⟩)⟩ <;> rw [mapBlk_blk] <;> rw [blk] at whole ⊢
  · exact hj
  · exact hi
  · simp only [] at whole ⊢
    omega
  · exact length.1

end

/-- The write cursor passes message `i` (42_interrupt_fifo.md R290). -/
def Bus.passedTx (i : Nat) (b : Bus) : Bus := { b with msgWriteIdx := i + 1, txOff := 0 }

/-- A message passed that awaits no length: where the refill stops after it is where it stops (42_interrupt_fifo.md
R290). -/
theorem IssuedOf.passed {v : Word} (h : IssuedOf ws v s t)
    (length : ¬ ((msgAt s.blk.msgs s.blk.msgWriteIdx).recvLen = true ∧ t.blk.recvPending = true))
    (stops : RefillStops (t.mapBlk (.passedTx s.blk.msgWriteIdx)) u) : RefillStops s u := by
  obtain ⟨-, -, blk, -, -⟩ := h
  refine ⟨stops.dir, fun j hj hn recv pending => ?_, stops.stop⟩
  have awaited := stops.awaited j
  rw [mapBlk_blk, Bus.passedTx, blk] at awaited
  have other : j ≠ s.blk.msgWriteIdx := fun e => length ⟨e ▸ recv, by rw [blk]; exact pending⟩
  exact awaited (by simp only []; omega) hn recv pending

/-- Passing a message issued whole issues nothing (42_interrupt_fifo.md R290). -/
theorem IssuedOf.pass_refilled {v : Word} (h : IssuedOf ws v s t) (hi : s.blk.msgWriteIdx < s.blk.msgsNum)
    (whole : ¬ t.blk.txOff < t.blk.lens.getD s.blk.msgWriteIdx 0) :
    Refilled ws s (t.mapBlk (.passedTx s.blk.msgWriteIdx)) := by
  have idx : s.blk.msgWriteIdx = t.blk.msgWriteIdx := by rw [h.blk]
  have pass : Refilled [] t (t.mapBlk (.passedTx s.blk.msgWriteIdx)) := by
    refine .blkOnly ?_ rfl rfl
    rw [idx] at whole ⊢
    exact wordsToIssue_pass (by rw [h.blk]; exact hi) (Nat.le_of_not_lt whole)
  have both := h.refilled.trans pass
  rwa [List.append_nil] at both

/-- The last message passed, nothing is left (42_interrupt_fifo.md R295). -/
theorem IssuedOf.last {v : Word} (h : IssuedOf ws v s t) (hi : s.blk.msgWriteIdx + 1 = s.blk.msgsNum)
    (go : s.blk.holdForLen = false) :
    RefillStops (t.mapBlk (.passedTx s.blk.msgWriteIdx)) (t.mapBlk (.passedTx s.blk.msgWriteIdx)) := by
  obtain ⟨-, -, blk, -, -⟩ := h
  refine ⟨?_, fun j hj _ _ _ => hj, .inl ⟨?_, ?_⟩⟩ <;> rw [mapBlk_blk, Bus.passedTx, blk]
  · simp only []
    rw [Nat.min_eq_right (by omega), ← hi, Nat.add_sub_cancel]
  · exact hi
  · exact go

/-- The cursors stand at the start of the next message. -/
theorem Bus.CursorsOk.nextMessage (ok : b.CursorsOk) (hi : b.msgWriteIdx < b.msgsNum) (d : Status) (r : Nat) :
    Bus.CursorsOk { b with status := d, msgWriteIdx := b.msgWriteIdx + 1, txOff := 0, rxOutstanding := r } :=
  ⟨ok.num, hi, ok.rIdx, fun _ => Nat.zero_le _, ok.rxOff, ok.lens, ok.pending⟩

/-- The loop over the messages left: the words it issues are the first of those due, and it stops for one of the four
reasons (42_interrupt_fifo.md R290, R292, R294). -/
theorem refillLoop_refills (hn : s.blk.msgsNum - s.blk.msgWriteIdx = n) (ok : s.blk.CursorsOk)
    (hi : s.blk.msgWriteIdx < s.blk.msgsNum) (go : s.blk.holdForLen = false) :
    ∃ t ws, refillLoop n s = .next t ∧ Refilled ws s t ∧ RefillStops s t := by
  induction n generalizing s with
  | zero => omega
  | succ n ih =>
    obtain ⟨t, ws, e, h⟩ := atMessage_issues hi (ok.lens _ hi).2 (ok.txOff hi)
    rw [refillLoop_succ (by simp [go, Nat.ne_of_lt hi]), e, Flow.andThen_next]
    split
    · next left => exact ⟨t, ws, rfl, h.refilled, h.left hi go left⟩
    · next whole =>
      split
      · next length =>
        exact ⟨_, ws ++ [], rfl, h.refilled.trans (.blkOnly rfl rfl rfl), h.holds hi whole length⟩
      · next length =>
        have pass := h.pass_refilled hi whole
        have blk : (t.mapBlk (.passedTx s.blk.msgWriteIdx)).blk = { s.blk with
            status := t.blk.status, msgWriteIdx := s.blk.msgWriteIdx + 1, txOff := 0,
            rxOutstanding := t.blk.rxOutstanding } := by
          rw [mapBlk_blk, Bus.passedTx, h.blk]
        by_cases last : s.blk.msgWriteIdx + 1 = s.blk.msgsNum
        · have done := refillLoop_ends n (s := t.mapBlk (.passedTx s.blk.msgWriteIdx))
            (.inl (by rw [blk]; exact last))
          exact ⟨_, ws, done, pass, h.passed length (h.last last go)⟩
        · obtain ⟨u, vs, eu, refilled, stops⟩ := ih (s := t.mapBlk (.passedTx s.blk.msgWriteIdx))
            (by rw [blk]; simp only []; omega) (by rw [blk]; exact ok.nextMessage hi _ _) (by rw [blk]; simp only []; omega) (by rw [blk]; exact go)
          exact ⟨u, _, eu, pass.trans refilled, h.passed length stops⟩

/-! ### The branch -/

/-- TX_EMPTY masked or not: the rest of the state is as the loop left it, but for Ctl's turn (42_interrupt_fifo.md
R295). -/
theorem maskTxEmpty_rest (t : State) :
    (maskTxEmpty t).blk = t.blk ∧ (maskTxEmpty t).mem = t.mem ∧ (maskTxEmpty t).agents = t.agents ∧
      (maskTxEmpty t).devs = t.devs ∧ issuedWords (maskTxEmpty t).io = issuedWords t.io := by
  unfold maskTxEmpty
  split
  · simp [writeMask, issuedWords]
  · exact ⟨rfl, rfl, rfl, rfl, rfl⟩

theorem maskTxEmpty_of_ends (h : t.blk.msgWriteIdx = t.blk.msgsNum ∨ t.blk.holdForLen = true) :
    (maskTxEmpty t).ctl.intrMask = 0x00000244#32 ∧ (maskTxEmpty t).io = .write .intrMask 0x00000244#32 :: t.io := by
  rw [maskTxEmpty, if_pos h, writeMask_ctl]
  exact ⟨rfl, by simp [writeMask, noTxEmptyMask]⟩

theorem maskTxEmpty_of_left (h : ¬ (t.blk.msgWriteIdx = t.blk.msgsNum ∨ t.blk.holdForLen = true)) :
    maskTxEmpty t = t := by
  rw [maskTxEmpty, if_neg h]

/-- The TX_EMPTY branch of a run without an error (42_interrupt_fifo.md R290). -/
theorem irqTxEmpty_of_loop (clean : s.blk.msgErr = .none) (e : refillLoop (s.blk.msgsNum - s.blk.msgWriteIdx) s = .next t)
    (kept : t.blk.msgErr = .none) : ∃ w, execIrqTxEmpty s = .next { maskTxEmpty t with handler := w } := by
  obtain ⟨blk, -⟩ := maskTxEmpty_rest t
  obtain ⟨w, hw⟩ := endBranch_clean 4 (s := maskTxEmpty t) (by rw [blk]; exact kept)
  refine ⟨w, ?_⟩
  rw [execIrqTxEmpty, if_neg (by simp [clean]), txRefill, e, Flow.andThen_next, Flow.andThen_next, hw]

/-- The loop from any write cursor (42_interrupt_fifo.md R290). -/
theorem refillLoop_any (ok : s.blk.CursorsOk) :
    ∃ t ws, refillLoop (s.blk.msgsNum - s.blk.msgWriteIdx) s = .next t ∧ Refilled ws s t ∧
      (s.blk.msgWriteIdx = s.blk.msgsNum ∨ s.blk.holdForLen = true → ws = [] ∧ t = s) ∧
      (s.blk.msgWriteIdx < s.blk.msgsNum → s.blk.holdForLen = false → RefillStops s t) := by
  by_cases ends : s.blk.msgWriteIdx = s.blk.msgsNum ∨ s.blk.holdForLen = true
  · refine ⟨s, [], refillLoop_ends _ ends, .refl s, fun _ => ⟨rfl, rfl⟩, fun hi go => ?_⟩
    rcases ends with done | hold
    · omega
    · rw [go] at hold; cases hold
  · have hi : s.blk.msgWriteIdx < s.blk.msgsNum := lt_of_le_of_ne ok.wIdx fun e => ends (.inl e)
    obtain ⟨t, ws, e, refilled, stops⟩ := refillLoop_refills rfl ok hi (by simpa using fun e => ends (.inr e))
    exact ⟨t, ws, e, refilled, fun h => absurd h ends, fun _ _ => stops⟩

/-! ### One write message -/

/-- A word of the one message, a write whose length is known: its byte, and STOP on the last (42_interrupt_fifo.md
R293). -/
theorem dcWord_single {m : Msg} {len k : Nat} (msgs : b.msgs = [m]) (num : b.msgsNum = 1) (lens : b.lens = [len])
    (wr : m.rd = false) (plain : m.recvLen = false) (x : Byte) :
    dcWord b 0 k x = x.setWidth 32 ||| (if k + 1 = len then 0x200#32 else 0#32) := by
  have word : dcWord b 0 k x = cmdWord x false (decide (k + 1 = len)) false := by
    simp [dcWord, msgs, num, lens, msgAt, wr, plain]
  have bit9 : ∀ j < 32, (0x200#32).getLsbD j = decide (j = 9) := by decide
  rw [word]
  apply BitVec.eq_of_getLsbD_eq
  intro j hj
  have high : 8 ≤ j → x.getLsbD j = false := BitVec.getLsbD_of_ge x j
  have bit9 := bit9 j hj
  rw [getLsbD_cmdWord, BitVec.getLsbD_or, BitVec.getLsbD_setWidth]
  split <;> grind

/-- With one message its words alone are due. -/
theorem wordsToIssue_one (num : b.msgsNum = 1) (idx : b.msgWriteIdx = 0) :
    wordsToIssue b mem = messageWords b mem 0 b.txOff := by
  rw [wordsToIssue_eq (by omega), num, idx, Nat.sub_self, List.range_zero, List.flatMap_nil, List.append_nil]

/-- The words of the one message, from its start (42_interrupt_fifo.md R291, R293). -/
theorem messageWords_single {m : Msg} {len : Nat} (msgs : b.msgs = [m]) (num : b.msgsNum = 1) (lens : b.lens = [len])
    (wr : m.rd = false) (plain : m.recvLen = false) :
    messageWords b mem 0 0 = (List.range len).map fun k =>
      (mem.read (bufAddr m.buf.id k)).setWidth 32 ||| (if k + 1 = len then 0x200#32 else 0#32) := by
  simp only [messageWords, dcWord_single msgs num lens wr plain, Nat.zero_add]
  simp [msgs, lens, msgAt]

/-- Bit 8 of a message's words is its direction. -/
theorem filter_messageWords (wr : (msgAt b.msgs i).rd = false) :
    (messageWords b mem i off).filter (fun w => w.getLsbD 8) = [] := by
  simp [messageWords, dcWord_rd, wr, -BitVec.getLsbD_eq_getElem]

/-- The loop on one write message that fits the free TX FIFO (42_interrupt_fifo.md R312). -/
theorem refillLoop_single {m : Msg} {len : Nat} (msgs : s.blk.msgs = [m]) (num : s.blk.msgsNum = 1)
    (idx : s.blk.msgWriteIdx = 0) (start : s.blk.txOff = 0) (go : s.blk.holdForLen = false) (lens : s.blk.lens = [len])
    (wr : m.rd = false) (plain : m.recvLen = false) (fits : len ≤ m.buf.cap.toNat)
    (small : (ctlTurn s).ctl.txFifo.length < 512) (room : len + (ctlTurn s).ctl.txFifo.length ≤ s.blk.txFifoDepth) :
    ∃ t, refillLoop 1 s = .next t ∧ Refilled (messageWords s.blk s.mem 0 0) s t ∧
      t.io = ((messageWords s.blk s.mem 0 0).reverse.map fun w => Access.write .dataCmd w) ++
        .read .txflr (some (BitVec.ofNat 32 (ctlTurn s).ctl.txFifo.length)) :: s.io ∧
      t.blk = { s.blk with status := .writeInProgress, msgWriteIdx := 1, txOff := 0 } := by
  have msg : msgAt s.blk.msgs s.blk.msgWriteIdx = m := by simp [msgs, idx, msgAt]
  have size : s.blk.lens.getD s.blk.msgWriteIdx 0 = len := by simp [lens, idx]
  have hi : s.blk.msgWriteIdx < s.blk.msgsNum := by omega
  have level : (regRead .txflr (atMessage s)).1 = BitVec.ofNat 32 (ctlTurn s).ctl.txFifo.length := by
    obtain ⟨turn, -⟩ := ctlTurn_congr (s := s) (u := atMessage s) rfl rfl rfl
    rw [regRead_fst, ← levelWord_eq small, ← turn]
    rfl
  obtain ⟨t, ws, e, h⟩ := atMessage_issues hi (by rw [msg, size]; exact fits) (by omega)
  rw [level] at h
  have whole : ws.length = len := by
    obtain ⟨-, -, -, within, stop⟩ := h
    rw [size, start] at within stop
    rw [BitVec.toNat_ofNat, Nat.mod_eq_of_lt (by omega), msg, wr] at stop
    rcases stop with _ | _ | ⟨rd, -⟩
    · omega
    · omega
    · cases rd
  obtain ⟨all, -⟩ : messageWords s.blk s.mem 0 0 = ws ∧ _ := by
    have due := h.refilled.due
    rw [wordsToIssue_one num idx, start] at due
    refine List.append_inj (t₁ := []) ((List.append_nil _).trans due) ?_
    rw [messageWords_single msgs num lens wr plain, List.length_map, List.length_range, whole]
  have count := h.refilled.count
  rw [← all, filter_messageWords (by rw [← idx, msg]; exact wr)] at count
  have issued : ¬ t.blk.txOff < t.blk.lens.getD s.blk.msgWriteIdx 0 := by
    rw [h.blk]
    simp only []
    omega
  rw [← level] at h
  refine ⟨t.mapBlk (.passedTx s.blk.msgWriteIdx), ?_, all ▸ h.pass_refilled hi issued, ?_, ?_⟩
  · rw [refillLoop_succ (by simp [go, num, idx]), e, Flow.andThen_next, if_neg issued, if_neg (by simp [msg, plain])]
    rfl
  · rw [mapBlk_io, h.io, all, level]
  · rw [mapBlk_blk, Bus.passedTx, h.blk, count, idx]
    simp [msgs, msgAt, Msg.dir, wr]

/-! ### The obligation -/

/-- Settles O30, by `refillLoop_refills`, an induction over the messages left, each issued word by word
(`issueWords_issues`). -/
theorem refillIssuesWrite : Obligations.RefillIssuesWrite := by
  unfold Obligations.RefillIssuesWrite
  refine ⟨fun s stat _ clean ok => ?_, fun s m stat _ clean msgs num idx start go lens wr plain _ fits small room => ?_⟩
  · obtain ⟨t, ws, e, refilled, atEnd, stops⟩ := refillLoop_any ok
    obtain ⟨w, exec⟩ := irqTxEmpty_of_loop clean e (by rw [refilled.blk]; exact clean)
    obtain ⟨blk, mem, agents, devs, io⟩ := maskTxEmpty_rest t
    refine ⟨_, ws.length, exec, ?_⟩
    simp only [blk, mem, agents, devs, io, refilled.due, List.take_left, List.drop_left, List.length_append]
    refine ⟨refilled.io, Nat.le_add_right _ _, trivial, refilled.count, refilled.blk, fun ends => ?_, fun hi go => ?_,
      fun ends => ?_, fun left => ?_, fun x => congrArg (·.read x) refilled.mem, refilled.agents, refilled.devs⟩
    · obtain ⟨rfl, rfl⟩ := atEnd ends
      exact ⟨rfl, rfl, (maskTxEmpty_of_ends ends).2⟩
    · obtain ⟨dir, awaited, stop⟩ := stops hi go
      refine ⟨dir, awaited, stop.imp id (.imp id fun ⟨left, free, why⟩ => why.imp (⟨left, free, ·⟩) fun full => ?_)⟩
      rw [maskTxEmpty_of_left (by simp [Nat.ne_of_lt left.1, free])]
      exact ⟨left, free, full⟩
    · obtain ⟨mask, maskIo⟩ := maskTxEmpty_of_ends ends
      exact ⟨mask, _, maskIo⟩
    · rw [maskTxEmpty_of_left left]
      exact refilled.intrMask
  · obtain ⟨t, e, refilled, io, blk⟩ := refillLoop_single msgs num idx start go lens wr plain fits small room
    obtain ⟨w, exec⟩ := irqTxEmpty_of_loop clean (by rw [num, idx]; exact e) (by rw [refilled.blk]; exact clean)
    obtain ⟨sameBlk, mem, agents, devs, -⟩ := maskTxEmpty_rest t
    obtain ⟨mask, maskIo⟩ := maskTxEmpty_of_ends (t := t) (.inl (by rw [blk]; exact num.symm))
    refine ⟨_, exec, maskIo.trans ?_, sameBlk.trans blk, mask, fun x => by rw [mem, refilled.mem], agents.trans refilled.agents,
      devs.trans refilled.devs⟩
    rw [io, messageWords_single msgs num lens wr plain, ← List.map_reverse, List.map_map]
    rfl

end Sys2Proof.Machine
end

section
/-!
SUPPORT. What an SMBus request refuses (43_smbus.md R320, R321, R322, R329, R331, R334, R335): its operands do not map,
and its failure goes back through the gate of the gated form.
-/

namespace Sys2Proof.Machine

variable {s t u v : State} {a : Agent} {fs : List Frame} {size : SizeClass} {rw : Bool} {g g' : Gate} {r : Result}

/-! ### The requester's place -/

/-- A result is returned to the operations its requester acts in. -/
theorem ActsAt.ret_eq (h : ActsAt a fs s u v) (r : Result) : ret a r v = retFrames a fs r v := by
  obtain ⟨p, hp⟩ := h.caller
  rw [ret, hp]

/-- A requester that acts has the operands it had. -/
theorem ActsAt.ops_eq (h : ActsAt a fs s u v) : v.opsOf a = (s.agent a).ops := by
  obtain ⟨p, hp⟩ := h.caller
  rw [State.opsOf, hp, agent_congr h.base a]

/-- A request that goes on differs from before in the schedule and in whose activity is unfinished alone. -/
theorem GoesOn.state_eq {c : Cont} (on : GoesOn a c s u g) :
    ∃ ms run, u = { s with sched := ms, running := run } := by
  cases on with
  | granted ms | resumed ms => exact ⟨ms, s.running, rfl⟩
  | running => exact ⟨s.sched, none, rfl⟩

/-- SMBUS_XFER_GATED releases the gate and passes its transfer's result on (43_smbus.md R335). -/
theorem retFrames_gated (hg : v.blk.gate.release a = some g) :
    retFrames a (.gated :: fs) r v = retFrames a fs r (v.setGate g) := by
  rw [retFrames, gateRelease_of hg, Flow.andThen_next]

/-! ### Operands that do not map -/

/-- QUICK maps to a message of no bytes (43_smbus.md R321, R322). -/
theorem smbusMap_quick (a : Agent) (rw : Bool) (o : Operands) (m : Memory) :
    ∃ k, smbusMap a .quick rw o m = some k ∧ hasEmptyMsg k.msgs = true := by
  cases rw <;> exact ⟨_, rfl, rfl⟩

/-- A block write does not map where its length byte is 0 or over 32 (43_smbus.md R329, R331). -/
theorem smbusMap_badLength {o : Operands} {m : Memory} (hs : size = .blockData ∨ size = .i2cBlockData)
    (hl : (m.read (bufAddr (.user o.data) 0)).toNat = 0 ∨ 32 < (m.read (bufAddr (.user o.data) 0)).toNat) :
    smbusMap a size false o m = none := by
  have bad : blockLenOk (m.read (bufAddr (.user o.data) 0)) = false := by
    rw [blockLenOk, decide_eq_false_iff_not]
    unfold Config.blockMax
    omega
  rcases hs with rfl | rfl <;> exact if_neg (by rw [bad]; decide)

/-- A request whose operands do not map fails before its transfer, whatever XFER step 1 would find (43_smbus.md R320,
R321, R322; log 13). -/
theorem smbusXfer_refused (hv : ActsAt a fs s u v) (h : ¬ s.SmbusMaps a size rw) :
    smbusXfer size rw a v = ret a (Result.fail .invalidArgument) v := by
  unfold smbusXfer
  simp only [hv.ops_eq, hv.mem]
  by_cases flags : (s.agent a).ops.flags &&& ~~~flagTen ≠ 0#16
  case pos => exact if_pos flags
  rw [if_neg flags]
  by_cases quick : size = .quick
  case pos =>
    obtain ⟨k, map, empty⟩ := smbusMap_quick a rw (s.agent a).ops s.mem
    simp only [quick, map, empty, if_true]
  obtain ⟨rfl, block, length⟩ : rw = false ∧ (size = .blockData ∨ size = .i2cBlockData) ∧
      ((s.mem.read (bufAddr (.user (s.agent a).ops.data) 0)).toNat = 0 ∨
        32 < (s.mem.read (bufAddr (.user (s.agent a).ops.data) 0)).toNat) := by
    by_contra maps
    refine h ⟨quick, not_not.mp flags, fun write block => ?_⟩
    have length := not_or.mp fun bad => maps ⟨write, block, bad⟩
    omega
  rw [smbusMap_badLength block length]

/-- A flag other than TEN does not map (43_smbus.md R320). -/
theorem not_smbusMaps_of_flags (h : (s.agent a).ops.flags &&& ~~~(0x0010#16) ≠ 0#16) : ¬ s.SmbusMaps a size rw :=
  fun maps => h maps.flags

/-- Nor does a block write's length byte of 0 or over 32 (43_smbus.md R329, R331). -/
theorem not_smbusMaps_of_length (hs : size = .blockData ∨ size = .i2cBlockData)
    (hl : (s.mem.read (bufAddr (.user (s.agent a).ops.data) 0)).toNat = 0 ∨
      32 < (s.mem.read (bufAddr (.user (s.agent a).ops.data) 0)).toNat) : ¬ s.SmbusMaps a size false := by
  intro maps
  obtain ⟨low, high⟩ := maps.block rfl hs
  omega

/-- Nor does QUICK (43_smbus.md R321, R322). -/
theorem not_smbusMaps_quick : ¬ s.SmbusMaps a .quick rw := fun maps => maps.moves rfl

/-! ### The requests -/

/-- A plain request that does not map ends at once, whoever owns the gate (43_smbus.md R320). -/
theorem smbusInstr_refused (hs : s.AtRequest) (h : ¬ s.SmbusMaps s.cur size rw) :
    EndsAtOnce (smbusInstr false size rw) s ⟨.invalidArgument, 0#32, .ok⟩ :=
  endsAtOnce_of_ret ((exec_smbusInstr size rw s).1.trans (smbusXfer_refused hs.acts h)) hs

/-- The gated form that does not map ends with its entry of the gate left, no register accessed (43_smbus.md R335). -/
theorem gatedBody_refused (hv : ActsAt a [] u u v) (hu : Untouched u v) (hb : v.blk = { u.blk with gate := g })
    (hg : g.release a = some g') (h : ¬ u.SmbusMaps a size rw) :
    ∃ t, gatedBody size rw a v = .next t ∧ Finished a ⟨.invalidArgument, 0#32, .ok⟩ u t ∧ NoAccess u t ∧
      t.devs = u.devs ∧ t.blk = { u.blk with gate := g' } := by
  have acts := hv.push [.gated]
  have release : (pushFrames a [.gated] v).blk.gate.release a = some g' := by
    rw [pushFrames_blk, hb]
    exact hg
  have run : gatedBody size rw a v = .next (post a (Result.fail .invalidArgument)
      ((pushFrames a [.gated] v).setGate g')) :=
    (smbusXfer_refused acts h).trans ((acts.ret_eq _).trans (retFrames_gated release))
  obtain ⟨ctl, plan, -, io, fresh⟩ := hu
  refine ⟨_, run, (acts.blk _).finished _, ⟨ctl, plan, io, fresh⟩, hv.devs, ?_⟩
  simp [State.setGate, hb]

/-- A gated request that does not map and finds the gate open ends at once (43_smbus.md R335). -/
theorem gatedInstr_refused (hs : s.AtRequest) (hw : s.blk.gate.Wf) (ho : s.blk.gate.OpenTo s.cur)
    (h : ¬ s.SmbusMaps s.cur size rw) :
    EndsAtOnce (smbusInstr true size rw) s ⟨.invalidArgument, 0#32, .ok⟩ := by
  obtain ⟨v, enters, acts, untouched, blk⟩ :=
    AtRequest_gate hs ⟨hw, ho⟩ (.gated size rw) (gatedBody size rw s.cur)
  obtain ⟨t, run, fin, access, devs, tblk⟩ := gatedBody_refused acts untouched blk (Gate.release_entered_one hw ho) h
  exact ⟨t, (exec_smbusInstr size rw s).2.trans (enters.trans run), fin, tblk, devs, access⟩

/-- The same where it is granted the gate: the gate is free again (43_smbus.md R335). -/
theorem GoesOn.gated_refused (on : GoesOn a (.gated size rw) s u g) (hs : (s.agent a).stack = [])
    (owner : g.owner = some a) (depth : g.depth = 1) (h : ¬ s.SmbusMaps a size rw) :
    ∃ t, step s = .next t ∧ Finished a ⟨.invalidArgument, 0#32, .ok⟩ u t ∧ NoAccess u t ∧ t.devs = s.devs ∧
      t.blk = { s.blk with gate := ⟨none, 0, g.waiters⟩ } := by
  rw [step_goesOn on]
  obtain ⟨ms, run, rfl⟩ := on.state_eq
  have acts := (on.acts).1.base_kept on.kept
  rw [hs] at acts
  exact gatedBody_refused acts ⟨rfl, rfl, rfl, rfl, rfl⟩ rfl (Gate.release_outermost owner depth)
    fun maps => h ⟨maps.moves, maps.flags, maps.block⟩

/-- A gated request waits for a gate another holds (43_smbus.md R335). -/
theorem gatedInstr_waits (hs : s.AtRequest) (hg : s.blk.gate.TakenFrom s.cur) (size : SizeClass) (rw : Bool) :
    WaitsForGate (smbusInstr true size rw) (.gated size rw) s :=
  waitsForGate_of _ (exec_smbusInstr size rw s).2 hs hg

/-! ### The statements -/

/-- Every SMBus request of one form, plain or gated, ends at once where its operands do not map. -/
def State.RefusesUnmapped (gated : Bool) (s : State) : Prop :=
  ∀ size rw, ¬ s.SmbusMaps s.cur size rw →
    EndsAtOnce (smbusInstr gated size rw) s ⟨.invalidArgument, 0#32, .ok⟩

/-- Under a flag other than TEN those are the requests of every size class in both directions (43_smbus.md R320). -/
theorem State.RefusesUnmapped.of_flags {gated : Bool} (refuses : s.RefusesUnmapped gated)
    (flags : (s.agent s.cur).ops.flags &&& ~~~(0x0010#16) ≠ 0#16) :
    ∀ i ∈ ([.quick, .byte, .byteData, .wordData, .blockData, .i2cBlockData] : List SizeClass).flatMap
        fun size => [smbusInstr gated size false, smbusInstr gated size true],
      EndsAtOnce i s ⟨.invalidArgument, 0#32, .ok⟩ := by
  intro i member
  obtain ⟨size, -, form⟩ := List.mem_flatMap.mp member
  have ends := fun rw => refuses size rw (not_smbusMaps_of_flags flags)
  simp only [List.mem_cons, List.not_mem_nil, or_false] at form
  rcases form with rfl | rfl
  · exact ends false
  · exact ends true

/-- Under a length byte of 0 or over 32 those are the block writes (43_smbus.md R329, R331). -/
theorem State.RefusesUnmapped.of_length {gated : Bool} (refuses : s.RefusesUnmapped gated)
    (length : (s.mem.read (bufAddr (.user (s.agent s.cur).ops.data) 0)).toNat = 0 ∨
      32 < (s.mem.read (bufAddr (.user (s.agent s.cur).ops.data) 0)).toNat) :
    ∀ i ∈ [smbusInstr gated .blockData false, smbusInstr gated .i2cBlockData false],
      EndsAtOnce i s ⟨.invalidArgument, 0#32, .ok⟩ := by
  have ends := fun size hs => refuses size false (not_smbusMaps_of_length hs length)
  simp only [List.forall_mem_cons]
  exact ⟨ends .blockData (.inl rfl), ends .i2cBlockData (.inr rfl), nofun⟩

/-- Settles O38: `smbusXfer_refused` in a plain request, in a gated one and in one granted the gate. -/
theorem smbusRejects : Obligations.SmbusRejects := by
  refine ⟨fun s hs size rw => ⟨endsAtOnce_of_ret rfl hs, endsAtOnce_of_ret rfl hs⟩, fun s hs => ?plain,
    fun s hs hw ho => ?gated, fun s u a size rw g on hs owner depth refused => ?granted⟩
  case plain =>
    have refuses : s.RefusesUnmapped false := fun _ _ => smbusInstr_refused hs
    exact ⟨refuses.of_flags, refuses.of_length⟩
  case gated =>
    have refuses : s.RefusesUnmapped true := fun _ _ => gatedInstr_refused hs hw ho
    exact ⟨refuses.of_flags, refuses.of_length⟩
  case granted =>
    refine on.gated_refused hs owner depth ?_
    rcases refused with flags | ⟨rfl, block, length⟩
    · exact not_smbusMaps_of_flags flags
    · exact not_smbusMaps_of_length block length

/-- Settles O39: QUICK never maps, the gate open or taken. -/
theorem quickNeverTransfers : Obligations.QuickNeverTransfers := by
  refine ⟨fun s hs hw ho => ?atOnce, fun s hs taken => ?taken, fun s u a rw g on hs owner depth =>
    on.gated_refused hs owner depth not_smbusMaps_quick⟩
  case atOnce =>
    have plain := fun rw => smbusInstr_refused (rw := rw) hs not_smbusMaps_quick
    have gated := fun rw => gatedInstr_refused (rw := rw) hs hw ho not_smbusMaps_quick
    simp only [List.forall_mem_cons]
    exact ⟨plain false, plain true, gated false, gated true, nofun⟩
  case taken =>
    exact ⟨smbusInstr_refused (rw := false) hs not_smbusMaps_quick,
      smbusInstr_refused (rw := true) hs not_smbusMaps_quick, gatedInstr_waits hs taken .quick false,
      gatedInstr_waits hs taken .quick true⟩

end Sys2Proof.Machine
end

section
/-!
SUPPORT. Where an SMBus transfer begins (43_smbus.md R323 to R332, R335, R336): what its operands map to, that XFER
step 1 accepts those messages, and the beginning with its bytes in the scratch buffer, plain or gated.
-/

namespace Sys2Proof.Machine

variable {s t u v : State} {a : Agent} {fs : List Frame} {size : SizeClass} {rw : Bool} {g : Gate} {o : Operands}
  {m : Memory} {k : Mapped}

/-! ### Bytes in memory -/

theorem bufAddr_add (id : BufId) (i j : Nat) : bufAddr id i + j = bufAddr id (i + j) := Nat.add_assoc ..

/-- The bytes of a buffer from an offset on. -/
theorem Memory.readAll_bufAddr (m : Memory) (id : BufId) (off n : Nat) :
    m.readAll (bufAddr id off) n = (List.range n).map fun k => m.read (bufAddr id (off + k)) := by
  refine List.ext_getElem (by simp) fun k hk _ => ?_
  rw [Memory.readAll_getElem, List.getElem_map, List.getElem_range, bufAddr_add]

/-- Bytes written to a buffer stand there, and every other byte is as before. -/
theorem writeAll_holds {x : Nat} {bs : List Byte} (wf : s.mem.wf = true) (mem : t.mem = s.mem.writeAll x bs) :
    HoldsAt x bs t ∧ SameMemBut x bs.length s t :=
  ⟨fun k hk => by rw [mem, Memory.read_writeAll _ _ _ _ wf hk],
    fun y hy => by rw [mem, Memory.read_writeAll_out _ _ _ _ hy]⟩

/-! ### The messages -/

/-- The operands name a target in its width, under no flag but TEN (43_smbus.md R320, 41_transfer_engine.md R242). -/
structure Operands.Addresses (o : Operands) : Prop where
  flags : o.flags &&& ~~~(0x0010#16) = 0#16
  wide  : o.addr.toNat < 1024
  short : o.flags = 0#16 → o.addr.toNat < 128

/-- A message the mapper builds from the operands `o` (43_smbus.md section 2): 1 to 34 bytes of a scratch buffer, one
where the length is awaited, a write, a read or a RECV_LEN read. -/
structure Msg.MappedFrom (o : Operands) (x : Msg) : Prop where
  addr  : x.addr = o.addr
  flags : x.flags = o.flags ∨ x.flags = o.flags ||| flagRd ∨
            (x.flags = o.flags ||| flagRd ||| flagRecvLen ∧ x.len = 1#16)
  len   : x.len.toNat ≠ 0 ∧ x.len.toNat ≤ 34
  cap   : x.buf.cap = 34#16

/-- TEN is the one flag the operands can have. -/
theorem Operands.Addresses.flags_eq (ok : o.Addresses) : o.flags = 0#16 ∨ o.flags = flagTen := by
  have only : o.flags = o.flags &&& BitVec.twoPow 16 4 := calc
    o.flags = (o.flags &&& ~~~(0x0010#16)) ||| (o.flags &&& 0x0010#16) := by
      rw [← BitVec.and_or_distrib_left, BitVec.not_or_self, BitVec.and_allOnes]
    _ = o.flags &&& 0x0010#16 := by rw [ok.flags, BitVec.zero_or]
  rw [only, BitVec.and_twoPow]
  split
  · exact .inr rfl
  · exact .inl rfl

/-- RECV_LEN is none of them. -/
theorem Operands.Addresses.plain (ok : o.Addresses) : o.flags.getLsbD 10 = false := by
  rcases ok.flags_eq with e | e <;> rw [e] <;> rfl

/-- A message has the TEN flag of its operands. -/
theorem Msg.MappedFrom.ten {x : Msg} (h : x.MappedFrom o) : x.ten = o.flags.getLsbD 4 := by
  rcases h.flags with e | e | ⟨e, -⟩ <;> rw [Msg.ten, e] <;> simp [flagRd, flagRecvLen]

/-- A number below `2 ^ i` has no bit from `i` on. -/
theorem extractLsb'_eq_zero {x : Half} {i n : Nat} (h : x.toNat < 2 ^ i) : x.extractLsb' i n = 0#n := by
  apply BitVec.eq_of_toNat_eq
  rw [BitVec.extractLsb'_toNat, Nat.shiftRight_eq_div_pow, Nat.div_eq_of_lt h]
  rfl

/-- XFER step 1 accepts such a message after another to the same target (41_transfer_engine.md R242). -/
theorem Msg.MappedFrom.valid {first x : Msg} (ok : o.Addresses) (hf : first.MappedFrom o) (h : x.MappedFrom o) :
    Msg.valid first x = true := by
  have high : x.addr.extractLsb' 10 6 = 0#6 := extractLsb'_eq_zero (h.addr ▸ ok.wide)
  have width : x.ten = true ∨ x.addr.extractLsb' 7 3 = 0#3 := by
    rcases ok.flags_eq with short | ten
    · exact .inr (extractLsb'_eq_zero (h.addr ▸ ok.short short))
    · exact .inl (by rw [h.ten, ten]; rfl)
  have flags : x.flags &&& ~~~(flagRd ||| flagTen ||| flagRecvLen) = 0#16 := by
    rcases ok.flags_eq with e | e <;> rcases h.flags with f | f | ⟨f, -⟩ <;> rw [f, e] <;> decide
  have awaited : x.recvLen = false ∨ x.rd = true ∧ x.len = 1#16 := by
    rcases h.flags with f | f | ⟨f, one⟩
    · exact .inl (by rw [Msg.recvLen, f, ok.plain])
    · exact .inl (by rw [Msg.recvLen, f, BitVec.getLsbD_or, ok.plain]; rfl)
    · exact .inr ⟨by simp [Msg.rd, f, flagRd], one⟩
  have len : x.len ≠ 0#16 := fun e => h.len.1 (by rw [e]; rfl)
  have same : x.addr = first.addr ∧ x.ten = first.ten := ⟨h.addr.trans hf.addr.symm, h.ten.trans hf.ten.symm⟩
  have fits : x.len.toNat ≤ x.buf.cap.toNat ∧ 1 + Config.blockMax ≤ x.buf.cap.toNat := by
    rw [h.cap]
    exact ⟨h.len.2, by decide⟩
  have length : x.recvLen = false ∨ x.rd = true ∧ x.len = 1#16 ∧ 1 + Config.blockMax ≤ x.buf.cap.toNat :=
    awaited.imp_right fun ⟨rd, one⟩ => ⟨rd, one, fits.2⟩
  simpa only [Msg.valid, Bool.and_eq_true, Bool.or_eq_true, beq_iff_eq, bne_iff_ne, decide_eq_true_eq,
    Bool.not_eq_true', and_assoc] using ⟨flags, high, width, same.1, same.2, len, fits.1, length⟩

/-- So it accepts one alone, or after the write of the command (41_transfer_engine.md R242). -/
theorem goodMsgs_of_mapped {w r : Msg} {msgs : List Msg} (ok : o.Addresses) (hr : r.MappedFrom o)
    (hw : w.MappedFrom o) (plain : w.flags = o.flags) (list : msgs = [r] ∨ msgs = [w, r]) : GoodMsgs msgs := by
  have once : w.recvLen = false := by rw [Msg.recvLen, plain, ok.plain]
  refine (msgsValid_iff msgs).mp ?_
  have single : ([r].filter Msg.recvLen).length ≤ 1 := List.length_filter_le ..
  rcases list with rfl | rfl
  · simp [msgsValid, msgAt, hr.valid ok hr, single]
  · simp [msgsValid, msgAt, hw.valid ok hw, hw.valid ok hr, once, single]

/-- No message of a list XFER step 1 accepts is empty (41_transfer_engine.md R242). -/
theorem hasEmptyMsg_of_good {msgs : List Msg} (good : GoodMsgs msgs) : hasEmptyMsg msgs = false := by
  refine List.any_eq_false.mpr fun x hx empty => good.1 x hx ?_
  have noBytes : x.len.toNat = 0 := by rw [eq_of_beq empty]; rfl
  simp [Msg.Bad, noBytes]

/-- A write message of the mapper's. -/
theorem writeMsg_mapped (a : Agent) {n : Nat} (hn : 1 ≤ n ∧ n ≤ 34) :
    (writeMsg a o.addr o.flags n).MappedFrom o := by
  refine ⟨rfl, .inl rfl, ?_, rfl⟩
  rw [writeMsg, BitVec.toNat_ofNat]
  omega

/-- Every class but QUICK maps to one message, or to the write of the command and another (43_smbus.md R323 to
R332). -/
theorem smbusMap_msgs (hs : size ≠ .quick) (map : smbusMap a size rw o m = some k) :
    ∃ r : Msg, r.MappedFrom o ∧ (k.msgs = [r] ∨ k.msgs = [writeMsg a o.addr o.flags 1, r]) := by
  have write : ∀ {bs : List Byte}, some ⟨bs, [writeMsg a o.addr o.flags bs.length], .none⟩ = some k → bs ≠ [] →
      ∃ r : Msg, r.MappedFrom o ∧ (k.msgs = [r] ∨ k.msgs = [writeMsg a o.addr o.flags 1, r]) := by
    rintro bs ⟨⟩ sends
    exact ⟨_, writeMsg_mapped a ⟨List.length_pos_of_ne_nil sends, smbusMap_bytes map⟩, .inl rfl⟩
  have read : ∀ {buf : BufRef} {n : Nat}, buf.cap = 34#16 → 1 ≤ n ∧ n ≤ 34 →
      (readMsg buf o.addr o.flags n).MappedFrom o := by
    intro buf n cap hn
    refine ⟨rfl, .inr (.inl rfl), ?_, cap⟩
    rw [readMsg, BitVec.toNat_ofNat]
    omega
  have one : (1#16 : Half).toNat ≠ 0 ∧ (1#16 : Half).toNat ≤ 34 := by decide
  cases rw with
  | false =>
    cases size with
    | quick => exact absurd rfl hs
    | byte | byteData | wordData => exact write map nofun
    | blockData | i2cBlockData =>
      obtain ⟨-, mapped⟩ := Option.ite_none_right_eq_some.mp map
      exact write mapped nofun
  | true =>
    cases size with
    | quick => exact absurd rfl hs
    | byte => cases map; exact ⟨_, read rfl (by decide), .inl rfl⟩
    | byteData | wordData | i2cBlockData => cases map; exact ⟨_, read rfl (by decide), .inr rfl⟩
    | blockData => cases map; exact ⟨_, ⟨rfl, .inr (.inr ⟨rfl, rfl⟩), one, rfl⟩, .inr rfl⟩

/-! ### The beginning -/

/-- The operation `run` of `a` begins the mapped transfer `k` inside the operations `fs`, the gate then `g`: its bytes
stand in the first scratch buffer, and no other byte differs from `s`. -/
def BeginsMapped (run : Flow) (a : Agent) (fs : List Frame) (g : Gate) (k : Mapped) (s : State) : Prop :=
  ∃ t, run = .next t ∧ Began a k.msgs (.smbus k.back :: fs) g s t ∧ HoldsAt (bufAddr (.t0 a) 0) k.bytes t ∧
    SameMemBut (bufAddr (.t0 a) 0) k.bytes.length s t

/-- `a`'s SMBus transfer may begin at once, the gate being `g`: memory is canonical, XFER step 1 accepts the bus record
and the target, the gate lets `a` in, and the bus is free (41_transfer_engine.md R242 to R245). -/
structure State.MayMap (s : State) (a : Agent) (g : Gate) : Prop where
  mem       : s.mem.wf = true
  accepts   : s.blk.Accepts
  gate      : g.Wf ∧ g.OpenTo a
  free      : s.BusFree
  addresses : (s.agent a).ops.Addresses

/-- An SMBus transfer whose operands map begins (43_smbus.md R320). -/
theorem smbusXfer_begins (may : u.MayMap a g) (hs : size ≠ .quick)
    (map : smbusMap a size rw (u.agent a).ops u.mem = some k)
    (hv : ActsAt a fs u u v) (hu : Untouched u v) (hb : v.blk = { u.blk with gate := g }) :
    BeginsMapped (smbusXfer size rw a v) a fs (g.entered a 1) k u := by
  obtain ⟨r, mapped, list⟩ := smbusMap_msgs hs map
  have command := writeMsg_mapped (o := (u.agent a).ops) a (n := 1) (by decide)
  have good : GoodMsgs k.msgs := goodMsgs_of_mapped may.addresses mapped command rfl list
  have moves : hasEmptyMsg k.msgs = false := hasEmptyMsg_of_good good
  have count : (BitVec.ofNat 16 k.msgs.length).toNat ≠ 0 ∧
      (BitVec.ofNat 16 k.msgs.length).toNat = k.msgs.length := by
    rcases list with e | e <;> rw [e] <;> exact ⟨nofun, rfl⟩
  obtain ⟨w, hw⟩ : ∃ w, w = pushFrames a [.smbus k.back]
    { v with mem := v.mem.writeAll (bufAddr (scratch0 a).id 0) k.bytes } := ⟨_, rfl⟩
  have run : smbusXfer size rw a v = xferStart a k.msgs (BitVec.ofNat 16 k.msgs.length) w := by
    have flags : ¬ ((u.agent a).ops.flags &&& ~~~flagTen ≠ 0#16) := not_not.mpr may.addresses.flags
    unfold smbusXfer
    simp only [hv.ops_eq, if_neg flags, hv.mem, map, moves, hw, Bool.false_eq_true, if_false]
  obtain ⟨ctl, plan, par, io, -⟩ := hu
  have acts := (hv.put (v.mem.writeAll (bufAddr (scratch0 a).id 0) k.bytes)).push [.smbus k.back]
  rw [← hw] at acts
  have blk : w.blk = { u.blk with gate := g } := by rw [hw, pushFrames_blk, hb]
  obtain ⟨t, begins, mem, began⟩ := xferStart_began (a := a) w k.msgs (BitVec.ofNat 16 k.msgs.length)
    (by rw [blk]; exact may.accepts) (by rw [blk]; exact Gate.acquire_open may.gate.1 may.gate.2) count.1 count.2 good
    (BusFree.congr (s := u) (by rw [hw]; exact par) (by rw [hw]; exact ctl) (by rw [hw]; exact plan) may.free)
  obtain ⟨p, caller⟩ := acts.caller
  rw [caller] at began
  refine ⟨t, run.trans begins, ?_, writeAll_holds may.mem (by rw [mem, hw, pushFrames_mem, hv.mem]; rfl)⟩
  exact began.of (by rw [blk]; rfl) (by rw [hw]; exact ctl) (by rw [hw]; exact io) ⟨p, _, caller⟩ acts.others
    acts.devs acts.rest

/-- A request whose operands map begins its transfer at once, plain or gated (43_smbus.md R320, R335). -/
theorem smbusInstr_begins (hs : s.AtRequest) (may : s.MayMap s.cur s.blk.gate) (moves : size ≠ .quick)
    (map : smbusMap s.cur size rw (s.agent s.cur).ops s.mem = some k) :
    BeginsMapped (exec (smbusInstr false size rw) s) s.cur [] (s.blk.gate.entered s.cur 1) k s ∧
      BeginsMapped (exec (smbusInstr true size rw) s) s.cur [.gated] (s.blk.gate.entered s.cur 2) k s := by
  obtain ⟨plain, gated⟩ := exec_smbusInstr size rw s
  rw [plain, gated]
  refine ⟨smbusXfer_begins may moves map hs.acts (.refl s) rfl, ?_⟩
  obtain ⟨v, enters, acts, untouched, blk⟩ :=
    AtRequest_gate hs may.gate (.gated size rw) (gatedBody size rw s.cur)
  rw [gatedRequest, enters]
  exact smbusXfer_begins { may with gate := Gate.entered_open .. } moves map (acts.push [.gated]) untouched blk

/-- A gated one begins it where it is granted the gate (43_smbus.md R335). -/
theorem GoesOn.gated_begins (on : GoesOn a (.gated size rw) s u g) (hs : (s.agent a).stack = [])
    (may : s.MayMap a g) (moves : size ≠ .quick) (map : smbusMap a size rw (s.agent a).ops s.mem = some k) :
    ∃ t, step s = .next t ∧ Began a k.msgs [.smbus k.back, .gated] (g.entered a 1) u t ∧
      HoldsAt (bufAddr (.t0 a) 0) k.bytes t ∧ SameMemBut (bufAddr (.t0 a) 0) k.bytes.length s t := by
  rw [step_goesOn on]
  obtain ⟨ms, run, rfl⟩ := on.state_eq
  have acts := (on.acts).1.base_kept on.kept
  rw [hs] at acts
  have may : State.MayMap { s with sched := ms, running := run } a g :=
    ⟨may.mem, may.accepts, may.gate, BusFree.congr (s := s) rfl rfl rfl may.free, may.addresses⟩
  exact smbusXfer_begins may moves map (acts.push [.gated]) ⟨rfl, rfl, rfl, rfl, rfl⟩ rfl

/-! ### The writes -/

/-- The bytes a write sends: the command, then the union's byte, word, length and payload, or payload (43_smbus.md R323
to R331). -/
def SizeClass.sent (o : Operands) (m : Memory) (size : SizeClass) : List Byte :=
  let d (k : Nat) : Byte := m.read (bufAddr (.user o.data) k)
  let payload := (List.range (d 0).toNat).map fun k => d (k + 1)
  o.command :: match size with
    | .quick | .byte => []
    | .byteData => [d 0]
    | .wordData => [d 0, d 1]
    | .blockData => d 0 :: payload
    | .i2cBlockData => payload

/-- The payload of the union's block, byte by byte. -/
theorem unionPayload_eq (m : Memory) (n : Nat) : unionPayload m (bufAddr (.user n) 0) =
    (List.range (m.read (bufAddr (.user n) 0)).toNat).map fun k => m.read (bufAddr (.user n) (k + 1)) := by
  rw [unionPayload, bufAddr_add, Memory.readAll_bufAddr]
  simp only [Nat.zero_add, Nat.add_comm 1]

/-- A write maps to one message of the bytes it sends (43_smbus.md R323, R325, R327, R329, R331). -/
theorem smbusMap_write (moves : size ≠ .quick)
    (block : size = .blockData ∨ size = .i2cBlockData → 1 ≤ (m.read (bufAddr (.user o.data) 0)).toNat ∧
      (m.read (bufAddr (.user o.data) 0)).toNat ≤ 32) :
    smbusMap a size false o m =
      some ⟨size.sent o m, [writeMsg a o.addr o.flags (size.sent o m).length], .none⟩ := by
  cases size with
  | quick => exact absurd rfl moves
  | byte | byteData => rfl
  | wordData => simp only [smbusMap, SizeClass.sent, bufAddr_add]
  | blockData | i2cBlockData =>
    have length : blockLenOk (m.read (bufAddr (.user o.data) 0)) = true := by
      rw [blockLenOk, decide_eq_true_eq]
      exact block (by simp)
    simp only [smbusMap, length, if_true, unionPayload_eq, SizeClass.sent]

/-- Settles O40: `smbusInstr_begins` and `GoesOn.gated_begins` at what a write maps to. -/
theorem smbusWritesBegin : Obligations.SmbusWritesBegin := by
  refine ⟨fun s hs taken => ?waits, fun s u a size g on hs wf accepts hw ho free => ?granted,
    fun s hs wf accepts hw ho free => ?atOnce⟩
  case waits =>
    have waits := fun size => gatedInstr_waits hs taken size false
    simp only [List.forall_mem_cons]
    exact ⟨waits .byte, waits .byteData, waits .wordData, waits .blockData, waits .i2cBlockData, nofun⟩
  case granted =>
    intro o d payload bs flags wide short moves block
    have begins := on.gated_begins hs ⟨wf, accepts, ⟨hw, ho⟩, free, flags, wide, short⟩ moves
      (smbusMap_write moves block)
    cases size <;> exact begins
  case atOnce =>
    intro o d payload begins both flags wide short
    have begins := fun size moves block => smbusInstr_begins (size := size) hs
      ⟨wf, accepts, ⟨hw, ho⟩, free, flags, wide, short⟩ moves (smbusMap_write moves block)
    exact ⟨begins .byte nofun nofun, begins .byteData nofun nofun, begins .wordData nofun nofun, fun low high =>
      ⟨begins .blockData nofun fun _ => ⟨low, high⟩, begins .i2cBlockData nofun fun _ => ⟨low, high⟩⟩⟩

/-! ### The reads -/

/-- What a read maps to: BYTE one read message; another class the write of the command, and a read or a RECV_LEN read
into the second scratch buffer (43_smbus.md R322, R324, R326, R328, R330, R332). -/
def SizeClass.readMap (a : Agent) (o : Operands) (size : SizeClass) : Mapped :=
  let alone (n : Half) : List Msg := [⟨o.addr, o.flags ||| 0x0001#16, n, ⟨.t0 a, 34#16⟩⟩]
  let pair (flags n : Half) : List Msg :=
    [⟨o.addr, o.flags, 1#16, ⟨.t0 a, 34#16⟩⟩, ⟨o.addr, o.flags ||| flags, n, ⟨.t1 a, 34#16⟩⟩]
  match size with
  | .quick => ⟨[], alone 0#16, .none⟩
  | .byte => ⟨[], alone 1#16, .byteT0⟩
  | .byteData => ⟨[o.command], pair 0x0001#16 1#16, .byteT1⟩
  | .wordData => ⟨[o.command], pair 0x0001#16 2#16, .wordT1⟩
  | .blockData => ⟨[o.command], pair 0x0401#16 1#16, .blockT1⟩
  | .i2cBlockData => ⟨[o.command], pair 0x0001#16 32#16, .i2cBlockT1⟩

theorem smbusMap_read (a : Agent) (size : SizeClass) (o : Operands) (m : Memory) :
    smbusMap a size true o m = some (size.readMap a o) := by
  cases size with
  | quick | byte | byteData | wordData | i2cBlockData => rfl
  | blockData =>
    have flags : o.flags ||| flagRd ||| flagRecvLen = o.flags ||| 0x0401#16 := BitVec.or_assoc ..
    simp only [smbusMap, recvLenMsg, flags]
    rfl

/-- Settles O41: the same at what a read maps to. -/
theorem smbusReadsBegin : Obligations.SmbusReadsBegin := by
  refine ⟨fun s hs taken => ?waits, fun s u a size g on hs wf accepts hw ho free => ?granted,
    fun s hs wf accepts hw ho free => ?atOnce⟩
  case waits =>
    have waits := fun size => gatedInstr_waits hs taken size true
    simp only [List.forall_mem_cons]
    exact ⟨waits .byte, waits .byteData, waits .wordData, waits .blockData, waits .i2cBlockData, nofun⟩
  case granted =>
    intro o pair begins flags wide short
    have begins := fun moves => on.gated_begins hs ⟨wf, accepts, ⟨hw, ho⟩, free, flags, wide, short⟩ moves
      (smbusMap_read a size o s.mem)
    cases size with
    | quick => trivial
    | byte | byteData | wordData | blockData | i2cBlockData => exact begins nofun
  case atOnce =>
    intro o begins both pair flags wide short
    have begins := fun size moves => smbusInstr_begins (size := size) hs
      ⟨wf, accepts, ⟨hw, ho⟩, free, flags, wide, short⟩ moves (smbusMap_read s.cur size o s.mem)
    exact ⟨begins .byte nofun, begins .byteData nofun, begins .wordData nofun, begins .blockData nofun,
      begins .i2cBlockData nofun⟩

end Sys2Proof.Machine
end

section
/-!
SUPPORT. How an SMBus request ends (43_smbus.md R320, R324 to R333, R335): the copy-back of a success, a failure passed
on unchanged, and that no result goes back by a register access.
-/

namespace Sys2Proof.Machine

variable {s t u v : State} {a : Agent} {fs : List Frame} {g : Gate} {r : Result} {cb : CopyBack} {n : Nat}

/-! ### The return of a result -/

/-- A result goes back to the operations around it without a register access (60_exceptions.md R406). -/
theorem retFrames_untouched (fs : List Frame) (r : Result) (v : State) (h : retFrames a fs r v = .next t) :
    Untouched v t := by
  induction fs generalizing r v with
  | nil => cases h; exact .refl v
  | cons f fs ih =>
    have released : ∀ r w, Flow.andThen (gateRelease a w) (retFrames a fs r) = .next t → Untouched w t := by
      intro r w h
      obtain ⟨x, release, h⟩ := Flow.andThen_eq_next h
      unfold gateRelease at release
      split at release <;> cases release
      exact (ih r _ h :)
    have ended : ∀ n fns r w, Flow.andThen (endProbe a n fns w) (retFrames a fs r) = .next t → Untouched w t :=
      fun n fns r w h => released r (updateDev n _ w) h
    cases f with
    | retry left msgs count =>
      rw [retFrames] at h
      split at h
      · cases h; exact .refl v
      · exact ih r v h
    | smbus cb =>
      rw [retFrames] at h
      split at h
      · exact (ih _ _ h :)
      · exact ih r v h
    | gated => exact released r v h
    | setPage n page => exact released _ (updateDev n _ v) h
    | selected blk =>
      rw [retFrames] at h
      split at h
      · cases h; exact .refl v
      · exact released r v h
    | block => exact released _ v h
    | probe n pos found =>
      simp only [retFrames] at h
      split at h
      · exact ended _ _ _ v h
      · split at h
        · exact ended _ _ _ v h
        · split at h
          · cases h; exact .refl v
          · exact ended _ _ _ v h
    | f01 n base todo =>
      simp only [retFrames] at h
      split at h
      · exact released r v h
      · split at h
        · exact released _ v h
        · cases h; exact .refl v

/-- No result of a failing step 1 is a success (41_transfer_engine.md R242). -/
theorem Bus.Rejects.code_ne {b : Bus} {addr flags : Half} (h : b.Rejects addr flags r) :
    r.code ≠ .ok ∧ r.code ≠ .busBusyTimeout := by
  rcases h with ⟨-, rfl⟩ | ⟨-, -, -, rfl⟩ | ⟨-, -, rfl⟩ <;> exact ⟨nofun, nofun⟩

/-- A request goes on with no register accessed yet. -/
theorem GoesOn.noAccess {c : Cont} (on : GoesOn a c s u g) : NoAccess s u := by
  obtain ⟨ms, run, rfl⟩ := on.state_eq
  exact ⟨rfl, rfl, rfl, rfl⟩

/-- So does a block access come to its page check (44_rmi4.md R364 to R368). -/
theorem AtAccess.noAccess {run : Flow} {blk : Block} (acc : AtAccess s run u a fs blk g) : NoAccess s u := by
  cases acc with
  | readBlock | writeBlock | probe | f01 => exact ⟨rfl, rfl, rfl, rfl⟩
  | access _ _ _ _ on | probeOn _ _ _ _ _ _ on | f01On _ _ _ _ _ _ _ _ on => exact on.noAccess

/-- And so does a transfer to XFER step 1 (43_smbus.md R335; 44_rmi4.md R361 to R365). -/
theorem AtStepOne.noAccess {run : Flow} {addr flags : Half} (one : AtStepOne s run u a fs addr flags g) :
    NoAccess s u := by
  cases one with
  | smbus | gated | setPage => exact ⟨rfl, rfl, rfl, rfl⟩
  | gatedOn _ _ _ _ _ on | setPageOn _ _ _ _ _ on | blockOn _ _ _ _ on => exact on.noAccess
  | select _ _ _ _ _ _ acc | block _ _ _ _ _ _ acc => exact acc.noAccess

/-- A transfer that step 1 rejects accesses no register, whichever operations are around it (41_transfer_engine.md
R242). -/
theorem AtStepOne.rejected_noAccess {run : Flow} {addr flags : Half} (one : AtStepOne s run u a fs addr flags g)
    (rejects : s.blk.Rejects addr flags r) (next : run = .next t) : NoAccess u t := by
  obtain ⟨-, w, rfl, -, ⟨ctl, plan, -, io, fresh⟩, -⟩ := one.acts rejects
  obtain ⟨tctl, tplan, -, tio, tfresh⟩ := retFrames_untouched _ r w next
  obtain ⟨uctl, uplan, uio, ufresh⟩ := one.noAccess
  exact ⟨(tctl.trans ctl).trans uctl.symm, (tplan.trans plan).trans uplan.symm, (tio.trans io).trans uio.symm,
    (tfresh.trans fresh).trans ufresh.symm⟩

/-- A plain request that step 1 rejects is over, its bytes in its first scratch buffer and nothing else changed
(43_smbus.md R320, R333). -/
theorem smbusInstr_rejected {size : SizeClass} {rw : Bool} (hs : s.AtRequest) (maps : s.SmbusMaps s.cur size rw)
    (rejects : s.blk.Rejects s.asked.addr s.asked.flags r) :
    ∃ t, exec (smbusInstr false size rw) s = .next t ∧ NoAccess s t ∧ SameRest s t ∧ t.blk = s.blk ∧
      t.devs = s.devs ∧ OnlyAgent s.cur s t ∧ t.agent s.cur = { s.agent s.cur with
        req := none, waiting := false, result := some r, point := .idle, stack := [] } ∧
      SameMemBut (bufAddr (.t0 s.cur) 0) 34 s t := by
  have one := AtStepOne.smbus size rw hs maps
  obtain ⟨fails, late⟩ := rejects.code_ne
  obtain ⟨m, w, run, acts, -, blk, mem⟩ := one.acts rejects
  have posts : exec (smbusInstr false size rw) s = .next (post s.cur r w) :=
    run.trans (acts.ret_posts fun v => retFrames_failure fails late rfl)
  obtain ⟨p, caller⟩ := acts.caller
  refine ⟨_, posts, one.rejected_noAccess rejects posts, acts.rest.trans ⟨rfl, rfl, rfl, rfl, rfl, rfl⟩, blk,
    acts.devs, fun b hb => ?_, ?_, mem⟩
  · rw [agent_post_ne _ _ _ _ hb]
    exact acts.others b hb
  · rw [agent_post_self, caller]

/-! ### The copy-back -/

/-- The bytes a success copies to the union (43_smbus.md R324 to R332). -/
def CopyBack.bytes (a : Agent) (m : Memory) (cb : CopyBack) : List Byte :=
  let t1 (k : Nat) : Byte := m.read (bufAddr (.t1 a) k)
  match cb with
  | .none => []
  | .byteT0 => [m.read (bufAddr (.t0 a) 0)]
  | .byteT1 => [t1 0]
  | .wordT1 => [t1 0, t1 1]
  | .blockT1 => t1 0 :: (List.range (t1 0).toNat).map fun k => t1 (k + 1)
  | .i2cBlockT1 => 32#8 :: (List.range 32).map t1

/-- The copy-back writes them at the union's start (43_smbus.md R324 to R332). -/
theorem copyBack_eq (a : Agent) (cb : CopyBack) (data : Nat) (m : Memory) :
    copyBack a cb data m = m.writeAll (bufAddr (.user data) 0) (cb.bytes a m) := by
  cases cb with
  | none | byteT0 | byteT1 => rfl
  | wordT1 => simp [copyBack, CopyBack.bytes, Memory.readAll, bufAddr_add]
  | blockT1 =>
    simp only [copyBack, CopyBack.bytes, Memory.readAll, bufAddr_add, Memory.readAll_bufAddr, Nat.zero_add,
      Nat.add_comm 1]
  | i2cBlockT1 => simp only [copyBack, CopyBack.bytes, Memory.readAll_bufAddr, Nat.zero_add]; rfl

/-! ### The end -/

/-- Around an SMBus request's transfer, which has entered the gate `d` times before, stand no further operations in a
plain request, and SMBUS_XFER_GATED in a gated one (43_smbus.md R335). -/
def SmbusOuter (outer : List Frame) (d : Nat) : Prop := (outer = [] ∧ d = 0) ∨ (outer = [.gated] ∧ d = 1)

/-- Such a request's result is posted with the gate free (43_smbus.md R320, R335). -/
theorem SmbusOuter.posts {outer : List Frame} {d : Nat} {waiters : List Agent} (h : SmbusOuter outer d)
    (gate : v.blk.gate = ⟨if d = 0 then none else some a, d, waiters⟩) :
    retFrames a outer r v = .next (post a r (v.setGate ⟨none, 0, waiters⟩)) := by
  rcases h with ⟨rfl, rfl⟩ | ⟨rfl, rfl⟩
  · have same : v.setGate ⟨none, 0, waiters⟩ = v := by
      rw [show (⟨none, 0, waiters⟩ : Gate) = v.blk.gate from gate.symm]
      rfl
    rw [same]
    rfl
  · rw [retFrames_gated (g := ⟨none, 0, waiters⟩) (by rw [gate]; simp [Gate.release])]
    rfl

/-- A success is copied back and posted as OK(0) (43_smbus.md R333). -/
theorem retFrames_smbus_ok (ok : r.code = .ok) (v : State) :
    retFrames a (.smbus cb :: fs) r v = retFrames a fs ⟨.ok, 0#32, .ok⟩
      { v with mem := v.mem.writeAll (bufAddr (.user (v.opsOf a).data) 0) (cb.bytes a v.mem) } := by
  rw [retFrames, if_pos ok, copyBack_eq]
  rfl

/-- A failure is passed on (43_smbus.md R333). -/
theorem retFrames_smbus_fails (fails : r.code ≠ .ok) (v : State) :
    retFrames a (.smbus cb :: fs) r v = retFrames a fs r v := by
  rw [retFrames, if_neg fails]

/-- A request whose result is posted with the gate set is over, and no other requester's record differs. -/
theorem post_setGate_frame (others : OnlyAgent a s v) :
    OnlyAgent a s (post a r (v.setGate g)) ∧ ((post a r (v.setGate g)).agent a).req = none ∧
      (post a r (v.setGate g)).blk.gate = g ∧ ((post a r (v.setGate g)).agent a).result = some r := by
  refine ⟨fun b hb => ?_, ?_, rfl, ?_⟩
  · rw [agent_post_ne _ _ _ _ hb, agent_setGate, others b hb]
  · rw [agent_post_self]
  · rw [agent_post_self]

/-- Settles O42: however the transfer ends its result comes to the request's operation (`XferEnds.acts`), a success by
`retFrames_smbus_ok`, a failure by `retFrames_smbus_fails`. -/
theorem smbusCopyBack : Obligations.SmbusCopyBack := by
  refine ⟨fun s size rw r hs maps rejects => smbusInstr_rejected hs maps rejects,
    fun s u t run a fs addr flags g r one rejects next => one.rejected_noAccess rejects next,
    fun s u run a fs cb g r n ends place wf => ?_⟩
  intro x t1 bytes
  obtain ⟨outer, d, rfl, held, around⟩ : ∃ outer d, fs = .smbus cb :: outer ∧ g = ⟨some a, d + 1, g.waiters⟩ ∧
      SmbusOuter outer d := by
    rcases place with ⟨rfl, hg⟩ | ⟨rfl, hg⟩
    · exact ⟨[], 0, rfl, hg, .inl ⟨rfl, rfl⟩⟩
    · exact ⟨[.gated], 1, rfl, hg, .inr ⟨rfl, rfl⟩⟩
  obtain ⟨m, w, rfl, acts, kept, mem, clean, gate⟩ := ends.acts held
  by_cases ok : r.code = .ok
  · obtain rfl : m = s.mem := kept (clean ok)
    obtain ⟨others, req, free, result⟩ :=
      post_setGate_frame (r := ⟨.ok, 0#32, .ok⟩) (g := ⟨none, 0, g.waiters⟩) (s := s)
        (v := { w with mem := s.mem.writeAll x (cb.bytes a s.mem) }) acts.others
    have run := (retFrames_smbus_ok (cb := cb) (fs := outer) ok w).trans (around.posts gate)
    rw [acts.ops_eq, acts.mem] at run
    exact ⟨_, run, others, req, free, fun _ => ⟨result, writeAll_holds wf rfl⟩, fun fails => absurd ok fails⟩
  · obtain ⟨others, req, free, result⟩ :=
      post_setGate_frame (r := r) (g := ⟨none, 0, g.waiters⟩) (s := s) (v := w) acts.others
    exact ⟨_, (retFrames_smbus_fails ok w).trans (around.posts gate), others, req, free,
      fun success => absurd success ok, fun _ => ⟨mem, result⟩⟩

end Sys2Proof.Machine
end

section
/-!
SUPPORT. Where an RMI4 transfer begins (44_rmi4.md R360 to R368): that XFER step 1 accepts the messages of a page select
and of a block transfer, and the beginning of either, its bytes in the scratch buffer, at once or where a request goes
on.
-/

namespace Sys2Proof.Machine

variable {s t u v : State} {a : Agent} {fs : List Frame} {g g' : Gate} {d : PagedDev} {run : Flow} {blk : Block}
  {n : Nat} {r : Result}

/-! ### The messages -/

/-- A write or a read of a 7-bit target, of one byte or more that fit its buffer (44_rmi4.md R361 to R365). -/
structure Msg.PlainTo (addr : Half) (x : Msg) : Prop where
  addr  : x.addr = addr
  flags : x.flags = 0#16 ∨ x.flags = flagRd
  len   : x.len.toNat ≠ 0 ∧ x.len.toNat ≤ x.buf.cap.toNat

/-- Neither TEN nor RECV_LEN is set in it. -/
theorem Msg.PlainTo.unflagged {addr : Half} {x : Msg} (h : x.PlainTo addr) :
    x.ten = false ∧ x.recvLen = false ∧ x.flags &&& ~~~(flagRd ||| flagTen ||| flagRecvLen) = 0#16 := by
  rcases h.flags with e | e <;> rw [Msg.ten, Msg.recvLen, e] <;> decide

/-- XFER step 1 accepts it after another to the same target (41_transfer_engine.md R242). -/
theorem Msg.PlainTo.valid {addr : Half} {first x : Msg} (narrow : addr.toNat < 128) (hf : first.PlainTo addr)
    (h : x.PlainTo addr) : Msg.valid first x = true := by
  obtain ⟨ten, length, flags⟩ := h.unflagged
  obtain ⟨ten₀, -, -⟩ := hf.unflagged
  have high : addr.extractLsb' 10 6 = 0#6 := extractLsb'_eq_zero (Nat.lt_trans narrow (by decide))
  have width : addr.extractLsb' 7 3 = 0#3 := extractLsb'_eq_zero narrow
  have len : x.len ≠ 0#16 := fun e => h.len.1 (by rw [e]; rfl)
  simp [Msg.valid, ten, ten₀, length, flags, high, width, len, h.addr, hf.addr, h.len.2]

/-- So it accepts a list of such messages. -/
theorem goodMsgs_of_plain {addr : Half} {msgs : List Msg} (narrow : addr.toNat < 128)
    (plain : ∀ x ∈ msgs, x.PlainTo addr) : GoodMsgs msgs := by
  have unawaited : msgs.filter Msg.recvLen = [] :=
    List.filter_eq_nil_iff.mpr fun x hx => by simp [(plain x hx).unflagged]
  have first : ∀ x ∈ msgs, (msgAt msgs 0).PlainTo addr := by
    cases msgs with
    | nil => nofun
    | cons y l => exact fun _ _ => plain y List.mem_cons_self
  refine (msgsValid_iff _).mp ?_
  rw [msgsValid, Bool.and_eq_true, List.all_eq_true, unawaited]
  exact ⟨fun x hx => (first x hx).valid narrow (plain x hx), rfl⟩

/-- A length of 1 to 34 bytes that fit a buffer, as a message gives it. -/
theorem ofNat_fits {cap : Nat} (hn : 1 ≤ n ∧ n ≤ 34 ∧ n ≤ cap) :
    (BitVec.ofNat 16 n).toNat ≠ 0 ∧ (BitVec.ofNat 16 n).toNat ≤ cap := by
  rw [BitVec.toNat_ofNat]
  omega

/-- A write of 1 to 34 bytes of the first scratch buffer. -/
theorem writeMsg_plain (a : Agent) (addr : Half) (hn : 1 ≤ n ∧ n ≤ 34) : (writeMsg a addr 0#16 n).PlainTo addr :=
  ⟨rfl, .inl rfl, ofNat_fits ⟨hn.1, hn.2, hn.2⟩⟩

/-- A read of 1 to 32 bytes that fit a buffer. -/
theorem readMsg_plain (addr : Half) {buf : BufRef} (hn : 1 ≤ n ∧ n ≤ 32 ∧ n ≤ buf.cap.toNat) :
    (readMsg buf addr 0#16 n).PlainTo addr :=
  ⟨rfl, .inr rfl, ofNat_fits ⟨hn.1, Nat.le_add_right_of_le hn.2.1 (k := 2), hn.2.2⟩⟩

/-! ### The beginning -/

/-- The step `run` from `s`, which goes on in `u`, begins `a`'s transfer of `msgs` inside the operations `fs`, the gate
then `g`: the bytes `bs` stand in the first scratch buffer, and no other byte differs from `s`. -/
def Begins (run : Flow) (a : Agent) (msgs : List Msg) (fs : List Frame) (g : Gate) (bs : List Byte) (s u : State) :
    Prop :=
  ∃ t, run = .next t ∧ Began a msgs fs g u t ∧ HoldsAt (bufAddr (.t0 a) 0) bs t ∧
    SameMemBut (bufAddr (.t0 a) 0) bs.length s t

/-- `a`'s transfer to its paged device `n`, `d`, may begin at once, the gate being `g`: memory is canonical, XFER step 1
accepts the bus record and the address, the gate lets `a` in, and the bus is free (41_transfer_engine.md R242 to
R245). -/
structure State.MayReach (s : State) (a : Agent) (g : Gate) (n : Nat) (d : PagedDev) : Prop where
  mem     : s.mem.wf = true
  accepts : s.blk.Accepts
  gate    : g.Wf ∧ g.OpenTo a
  free    : s.BusFree
  device  : s.devs[n]? = some d
  width   : d.addr.toNat < 128

/-- In a step from `s` that goes on in `u`, `a` has come to `v` inside the operations `fs`, with the gate as `g` and
nothing else done yet. -/
structure Arrived (a : Agent) (fs : List Frame) (g : Gate) (s u v : State) : Prop where
  acts      : ActsAt a fs s u v
  untouched : Untouched s v
  blk       : v.blk = { s.blk with gate := g }
  on        : ∃ ms run, u = { s with sched := ms, running := run }

theorem Arrived.push (h : Arrived a fs g s u v) (gs : List Frame) : Arrived a (gs ++ fs) g s u (pushFrames a gs v) :=
  ⟨h.acts.push gs, h.untouched, h.blk, h.on⟩

/-- The gate is entered again (20_memory.md R120). -/
theorem Arrived.enter (h : Arrived a fs g s u v) (g' : Gate) : Arrived a fs g' s u (v.setGate g') :=
  ⟨h.acts.blk _, h.untouched, by simp [State.setGate, h.blk], h.on⟩

/-- A request that goes on has arrived inside its operations. -/
theorem GoesOn.arrived {c : Cont} (on : GoesOn a c s u g) :
    Arrived a (s.agent a).stack g s u (park a .idle (u.setGate g)) := by
  obtain ⟨acts, untouched, blk⟩ := on.acts
  exact ⟨acts, untouched, blk, on.state_eq⟩

/-- So has a block access, however its step comes to it, at its page check (44_rmi4.md R363). -/
theorem AtAccess.arrived (acc : AtAccess s run u a fs blk g) (fits : blk.Fits) :
    ∃ v, run = accessBody blk a v ∧ Arrived a fs g s u v := by
  obtain ⟨v, run, acts, untouched, blk⟩ := acc.acts fits
  refine ⟨v, run, acts, untouched, blk, ?_⟩
  cases acc with
  | readBlock | writeBlock | probe | f01 => exact ⟨s.sched, s.running, rfl⟩
  | access _ _ _ _ on | probeOn _ _ _ _ _ _ on | f01On _ _ _ _ _ _ _ _ on => exact on.state_eq

/-- The device's address, as the operation reads it. -/
theorem Arrived.devAddr_eq (h : Arrived a fs g s u v) (may : s.MayReach a g' n d) : v.devAddr n = d.addr := by
  simp [State.devAddr, h.acts.devs, may.device]

/-- A transfer of plain messages to the device begins, its bytes put in the scratch buffer (41_transfer_engine.md R242
to R245). -/
theorem Arrived.begins (h : Arrived a fs g s u v) (may : s.MayReach a g n d) {msgs : List Msg} {count : Half}
    (counts : count.toNat ≠ 0 ∧ count.toNat = msgs.length) (plain : ∀ x ∈ msgs, x.PlainTo d.addr) (gs : List Frame)
    (bs : List Byte) :
    Begins (xferStart a msgs count
        (pushFrames a gs { v with mem := v.mem.writeAll (bufAddr (scratch0 a).id 0) bs }))
      a msgs (gs ++ fs) (g.entered a 1) bs s u := by
  obtain ⟨acts, ⟨ctl, plan, par, io, -⟩, blk, ms, run, rfl⟩ := h
  obtain ⟨w, hw⟩ : ∃ w, w = pushFrames a gs { v with mem := v.mem.writeAll (bufAddr (scratch0 a).id 0) bs } :=
    ⟨_, rfl⟩
  have put := (acts.base_kept ⟨rfl, rfl⟩).put (v.mem.writeAll (bufAddr (scratch0 a).id 0) bs) |>.push gs
  rw [← hw] at put ⊢
  have wblk : w.blk = { s.blk with gate := g } := by rw [hw, pushFrames_blk, blk]
  obtain ⟨t, begins, mem, began⟩ := xferStart_began (a := a) w msgs count (by rw [wblk]; exact may.accepts)
    (by rw [wblk]; exact Gate.acquire_open may.gate.1 may.gate.2) counts.1 counts.2
    (goodMsgs_of_plain may.width plain)
    (BusFree.congr (s := s) (by rw [hw]; exact par) (by rw [hw]; exact ctl) (by rw [hw]; exact plan) may.free)
  obtain ⟨p, caller⟩ := put.caller
  rw [caller] at began
  refine ⟨t, begins, ?_, writeAll_holds may.mem (by rw [mem, hw, pushFrames_mem, acts.mem]; rfl)⟩
  exact began.of (by rw [wblk]; rfl) (by rw [hw]; exact ctl) (by rw [hw]; exact io) ⟨p, _, caller⟩ put.others put.devs
    put.rest

/-- A page select begins as the write of 0xFF and the page (44_rmi4.md R361, R362). -/
theorem Arrived.setPage_begins (h : Arrived a fs g s u v) (may : s.MayReach a g n d) (page : Byte) :
    Begins (setPageBody n page a v) a [⟨d.addr, 0#16, 2#16, ⟨.t0 a, 34#16⟩⟩] (.smbus .none :: .setPage n page :: fs)
      (g.entered a 1) [0xFF#8, page] s u := by
  rw [setPageBody, h.devAddr_eq may]
  exact h.begins may ⟨by decide, rfl⟩ (List.forall_mem_singleton.mpr (writeMsg_plain a d.addr (by decide)))
    [.smbus .none, .setPage n page] _

/-- The messages of a block transfer (44_rmi4.md R364, R365). -/
def Block.msgs (a : Agent) (addr : Half) (blk : Block) : List Msg :=
  let t0 : BufRef := ⟨.t0 a, 34#16⟩
  match blk.data with
  | .read buf n => [⟨addr, 0#16, 1#16, t0⟩, ⟨addr, 0x0001#16, BitVec.ofNat 16 n, buf⟩]
  | .write _ n => [⟨addr, 0#16, BitVec.ofNat 16 (n + 1), t0⟩]
  | .bytes bs => [⟨addr, 0#16, BitVec.ofNat 16 (bs.length + 1), t0⟩]

/-- The bytes it sends after the register address (44_rmi4.md R365). -/
def Block.sent (m : Memory) (blk : Block) : List Byte :=
  match blk.data with
  | .read _ _ => []
  | .write buf n => (List.range n).map fun k => m.read (bufAddr buf.id k)
  | .bytes bs => bs

/-- A block transfer is an XFER of those messages, the low byte of the address first among the bytes (44_rmi4.md R360,
R364, R365). -/
theorem blockBody_eq (blk : Block) (a : Agent) (v : State) :
    blockBody blk a v = xferStart a (blk.msgs a (v.devAddr blk.dev))
      (BitVec.ofNat 16 (blk.msgs a (v.devAddr blk.dev)).length)
      (pushFrames a [.block] { v with
        mem := v.mem.writeAll (bufAddr (scratch0 a).id 0) (blk.addr.extractLsb' 0 8 :: blk.sent v.mem) }) := by
  obtain ⟨dev, addr, data⟩ := blk
  cases data with
  | read | bytes => rfl
  | write buf n =>
    have sent : v.mem.readAll (bufAddr buf.id 0) n = Block.sent v.mem ⟨dev, addr, .write buf n⟩ := by
      simp only [Memory.readAll_bufAddr, Nat.zero_add, Block.sent]
    rw [← sent]
    rfl

/-- Its messages are plain, where its length is accepted (44_rmi4.md R364, R365). -/
theorem Block.Fits.msgs_plain (fits : blk.Fits) (a : Agent) (addr : Half) :
    ∀ x ∈ blk.msgs a addr, x.PlainTo addr := by
  obtain ⟨dev, off, data⟩ := blk
  cases data with
  | read buf n =>
    exact List.forall_mem_cons.mpr ⟨writeMsg_plain a addr (by decide),
      List.forall_mem_singleton.mpr (readMsg_plain addr fits)⟩
  | write buf n =>
    exact List.forall_mem_singleton.mpr
      (writeMsg_plain a addr ⟨Nat.le_add_left .., Nat.le_succ_of_le (Nat.succ_le_succ fits.2.1)⟩)
  | bytes bs =>
    exact List.forall_mem_singleton.mpr
      (writeMsg_plain a addr ⟨Nat.le_add_left .., Nat.le_succ_of_le (Nat.succ_le_succ fits.2)⟩)

/-- There is one of them, or two. -/
theorem Block.msgs_counts (blk : Block) (a : Agent) (addr : Half) :
    (BitVec.ofNat 16 (blk.msgs a addr).length).toNat ≠ 0 ∧
      (BitVec.ofNat 16 (blk.msgs a addr).length).toNat = (blk.msgs a addr).length := by
  obtain ⟨dev, off, data⟩ := blk
  cases data <;> exact ⟨nofun, rfl⟩

/-- A block transfer begins (44_rmi4.md R364, R365). -/
theorem Arrived.block_begins (h : Arrived a fs g s u v) (may : s.MayReach a g blk.dev d) (fits : blk.Fits) :
    Begins (blockBody blk a v) a (blk.msgs a d.addr) (.block :: fs) (g.entered a 1)
      (blk.addr.extractLsb' 0 8 :: blk.sent s.mem) s u := by
  rw [blockBody_eq, h.devAddr_eq may, h.acts.mem]
  have begins := h.begins may (blk.msgs_counts a d.addr) (fits.msgs_plain a d.addr) [.block]
    (blk.addr.extractLsb' 0 8 :: blk.sent s.mem)
  rwa [h.acts.mem] at begins

/-- A block access begins its block transfer where the page is cached, and its page select where it is not
(44_rmi4.md R363). -/
theorem AtAccess.begins (acc : AtAccess s run u a fs blk g) (may : s.MayReach a g blk.dev d) (fits : blk.Fits) :
    (d.currentPage = some (blk.addr.extractLsb' 8 8) →
      Begins run a (blk.msgs a d.addr) (.block :: fs) (g.entered a 1)
        (blk.addr.extractLsb' 0 8 :: blk.sent s.mem) s u) ∧
    (d.currentPage ≠ some (blk.addr.extractLsb' 8 8) →
      Begins run a [⟨d.addr, 0#16, 2#16, ⟨.t0 a, 34#16⟩⟩]
        (.smbus .none :: .setPage blk.dev (blk.addr.extractLsb' 8 8) :: .selected blk :: fs) (g.entered a 2)
        [0xFF#8, blk.addr.extractLsb' 8 8] s u) := by
  obtain ⟨v, rfl, arrived⟩ := acc.arrived fits
  have page : (v.dev blk.dev).bind (·.currentPage) = some (rmiPage blk.addr) ↔
      d.currentPage = some (blk.addr.extractLsb' 8 8) := by
    rw [State.dev, arrived.acts.devs, may.device]
    rfl
  refine ⟨fun cached => ?_, fun uncached => ?_⟩
  · rw [accessBody, if_pos (page.mpr cached)]
    exact arrived.block_begins may fits
  · have gate : (pushFrames a [.selected blk] v).blk.gate = g := by rw [pushFrames_blk, arrived.blk]
    rw [accessBody, if_neg fun e => uncached (page.mp e),
      withGate_open _ _ (by rw [gate]; exact may.gate.1) (by rw [gate]; exact may.gate.2), gate]
    exact ((arrived.push [.selected blk]).enter (g.entered a 1)).setPage_begins
      { may with gate := Gate.entered_open a g } _

/-! ### RMI_SET_PAGE -/

/-- RMI_SET_PAGE whose checks pass comes to the gate (44_rmi4.md R361). -/
theorem exec_setPage (may : s.RmiReady d) :
    exec .rmiSetPage s = withGate s.cur (.setPage s.asked.dev s.asked.page)
      (setPageBody s.asked.dev s.asked.page s.cur) s := rmiRequest_ready may _

/-- A request stands in the gate it enters at once. -/
theorem State.AtRequest.arrived (hs : s.AtRequest) (g : Gate) : Arrived s.cur [] g s s (s.setGate g) :=
  ⟨hs.acts.blk _, .refl s, rfl, s.sched, s.running, rfl⟩

/-- Settles O44: `Arrived.setPage_begins` inside the gate. -/
theorem setPageWrites : Obligations.SetPageWrites := by
  refine ⟨fun s d hs wf accepts hw ho free => ?atOnce, fun s d hs ready taken => ?taken,
    fun s u a n page g d on wf accepts hw ho free device width => ?granted⟩
  case atOnce =>
    intro o device width
    have may : s.MayReach s.cur (s.blk.gate.entered s.cur 1) o.dev d :=
      ⟨wf, accepts, Gate.entered_open .., free, device, width⟩
    rw [exec_setPage ⟨hs, accepts.1, device, width⟩, withGate_open _ _ hw ho]
    exact (hs.arrived _).setPage_begins may o.page
  case taken =>
    intro o device width
    exact waitsForGate_of _ (exec_setPage ⟨hs, ready, device, width⟩) hs taken
  case granted =>
    rw [step_goesOn on]
    exact on.arrived.setPage_begins ⟨wf, accepts, ⟨hw, ho⟩, free, device, width⟩ page

/-! ### Block accesses -/

/-- The length check of a block access (44_rmi4.md R364, R365). -/
theorem Block.lenOk_iff : blk.lenOk = true ↔ blk.Fits := by
  obtain ⟨dev, addr, data⟩ := blk
  cases data with
  | read | write =>
    rw [Block.lenOk, Bool.and_eq_true, BlockData.fits, decide_eq_true_eq, decide_eq_true_eq]
    exact and_assoc
  | bytes =>
    rw [Block.lenOk, Bool.and_eq_true, BlockData.fits, decide_eq_true_eq]
    exact and_iff_left rfl

/-- A block access of a wrong length fails before the gate (44_rmi4.md R364, R365). -/
theorem blockAccess_unfit (h : ¬ blk.Fits) (v : State) :
    blockAccess blk a v = ret a (Result.fail .invalidArgument) v :=
  if_pos (Bool.not_eq_true _ ▸ mt Block.lenOk_iff.mp h)

/-- One of an accepted length comes to the gate (44_rmi4.md R364, R365). -/
theorem blockAccess_fit (h : blk.Fits) (v : State) :
    blockAccess blk a v = withGate a (.access blk) (accessBody blk a) v :=
  if_neg (by simp [Block.lenOk_iff.mpr h])

/-- The block access an RMI_READ_BLOCK asks for (44_rmi4.md R364). -/
def State.readBlock (s : State) : Block :=
  ⟨s.asked.dev, s.asked.rmiAddr, .read ⟨.user s.asked.buf, s.asked.bufCap⟩ s.asked.len.toNat⟩

/-- The block access an RMI_WRITE_BLOCK asks for (44_rmi4.md R365). -/
def State.writeBlock (s : State) : Block :=
  ⟨s.asked.dev, s.asked.rmiAddr, .write ⟨.user s.asked.buf, s.asked.bufCap⟩ s.asked.len.toNat⟩

/-- Either request is its block access, once its checks pass. -/
theorem exec_block (may : s.RmiReady d) : exec .rmiReadBlock s = blockAccess s.readBlock s.cur s ∧
    exec .rmiWriteBlock s = blockAccess s.writeBlock s.cur s :=
  ⟨rmiRequest_ready may _, rmiRequest_ready may _⟩

/-- A block access of an accepted length waits for a gate another holds (44_rmi4.md R364, R365). -/
theorem blockAccess_waits {i : Instr} (is : exec i s = blockAccess blk s.cur s) (hs : s.AtRequest)
    (taken : s.blk.gate.TakenFrom s.cur) (fits : blk.Fits) : WaitsForGate i (.access blk) s :=
  waitsForGate_of _ (is.trans (blockAccess_fit fits s)) hs taken

/-- Settles O46: the length by `blockAccess_unfit`, the first transfer by `AtAccess.begins`, the next one by
`Arrived.block_begins`. -/
theorem blockAccessSelectsPage : Obligations.BlockAccessSelectsPage := by
  refine ⟨fun s d hs ready taken => ?waits, fun s d may wrong i hi => ?refused,
    fun s u a blk g d wf accepts hw ho free device width fits => ?goesOn,
    fun s d hs wf accepts hw ho free => ?atOnce⟩
  case waits =>
    intro o device width low high room
    obtain ⟨read, write⟩ := exec_block ⟨hs, ready, device, width⟩
    exact ⟨blockAccess_waits read hs taken ⟨low, high, room⟩, blockAccess_waits write hs taken ⟨low, high, room⟩⟩
  case refused =>
    obtain ⟨read, write⟩ := exec_block may
    have unfit : ¬ (1 ≤ s.asked.len.toNat ∧ s.asked.len.toNat ≤ 32 ∧ s.asked.len.toNat ≤ s.asked.bufCap.toNat) := by
      omega
    simp only [List.mem_cons, List.not_mem_nil, or_false] at hi
    rcases hi with rfl | rfl
    · exact endsAtOnce_of_ret (read.trans (blockAccess_unfit (blk := s.readBlock) unfit s)) may.request
    · exact endsAtOnce_of_ret (write.trans (blockAccess_unfit (blk := s.writeBlock) unfit s)) may.request
  case goesOn =>
    intro t0 page fs begins transfer
    have may : s.MayReach a g blk.dev d := ⟨wf, accepts, ⟨hw, ho⟩, free, device, width⟩
    refine ⟨fun on => ?_, fun on => (AtAccess.access u a blk g on).begins may fits⟩
    have began := on.arrived.block_begins may fits
    rw [← show step s = blockBody blk a _ from step_goesOn on] at began
    exact began
  case atOnce =>
    intro o a page off src t0 begins device width low high room
    have may : s.MayReach a (s.blk.gate.entered a 1) o.dev d :=
      ⟨wf, accepts, Gate.entered_open .., free, device, width⟩
    have ready : s.RmiReady d := ⟨hs, accepts.1, device, width⟩
    have lens : BitVec.ofNat 16 s.asked.len.toNat = s.asked.len ∧
        BitVec.ofNat 16 (s.asked.len.toNat + 1) = s.asked.len + 1#16 := by
      simp [BitVec.ofNat_add]
    obtain ⟨readCached, readUncached⟩ := (AtAccess.readBlock d ready ⟨hw, ho⟩).begins may ⟨low, high, room⟩
    obtain ⟨writeCached, writeUncached⟩ := (AtAccess.writeBlock d ready ⟨hw, ho⟩).begins may ⟨low, high, room⟩
    simp only [Block.msgs, lens] at readCached writeCached
    exact ⟨fun cached => ⟨readCached cached, writeCached cached⟩,
      fun uncached => ⟨readUncached uncached, writeUncached uncached⟩⟩

/-! ### RMI_PROBE and RMI_F01_INIT -/

/-- RMI_PROBE whose checks pass comes to the gate (44_rmi4.md R366). -/
theorem exec_probe (may : s.RmiReady d) : exec .rmiProbe s = withGate s.cur (.probe s.asked.dev 0xE9 [])
    (probeBody s.asked.dev 0xE9 [] s.cur) s := rmiRequest_ready may _

/-- RMI_F01_INIT fails where no function 01 was found (44_rmi4.md R368). -/
theorem exec_f01Init_unfound (may : s.RmiReady d) (h : f01Base d = none) :
    exec .rmiF01Init s = ret s.cur (Result.fail .invalidArgument) s := by
  have found : (s.dev s.devOf).bind f01Base = none := by rw [show s.dev s.devOf = some d from may.device]; exact h
  show execRmiF01Init s = _
  rw [execRmiF01Init, rmiRequest_ready may]
  simp only [found]

/-- Where one was it comes to the gate (44_rmi4.md R368). -/
theorem exec_f01Init_found (may : s.RmiReady d) {base : Half} (h : f01Base d = some base) :
    exec .rmiF01Init s = withGate s.cur (.f01 s.asked.dev base s.par.f01Init)
      (f01Body s.asked.dev base s.par.f01Init s.cur) s := by
  have found : (s.dev s.devOf).bind f01Base = some base := by
    rw [show s.dev s.devOf = some d from may.device]; exact h
  show execRmiF01Init s = _
  rw [execRmiF01Init, rmiRequest_ready may]
  simp only [found]
  rfl

/-- The control base a function list gives is that of its first entry with number 01 (44_rmi4.md R368, log 45). -/
theorem f01Base_of_find {f : FnDesc} (h : d.functions.find? (fun f => f.number == 0x01#8) = some f) :
    f01Base d = some f.controlBase := by rw [f01Base, h]; rfl

theorem f01Base_eq_none (h : ∀ f ∈ d.functions, f.number ≠ 0x01#8) : f01Base d = none := by
  rw [f01Base, List.find?_eq_none.mpr fun f hf => by simpa using h f hf]
  rfl

theorem f01Base_isSome (h : ∃ f ∈ d.functions, f.number = 0x01#8) : ∃ base, f01Base d = some base := by
  obtain ⟨f, member, number⟩ := h
  have found : (d.functions.find? fun f => f.number == 0x01#8).isSome :=
    List.find?_isSome.mpr ⟨f, member, by simp [number]⟩
  obtain ⟨f, hf⟩ := Option.isSome_iff_exists.mp found
  exact ⟨_, f01Base_of_find hf⟩

/-- An init sequence that begins no further write, and its result: nothing is left to write, or an entry of no bytes or
of over 32 (44_rmi4.md R365, R368). -/
def F01Stops (todo : List (Half × List Byte)) (r : Result) : Prop :=
  (todo = [] ∧ r = ⟨.ok, 0#32, .ok⟩) ∨
    ∃ k bs rest, todo = (k, bs) :: rest ∧ (bs.length = 0 ∨ 32 < bs.length) ∧ r = ⟨.invalidArgument, 0#32, .ok⟩

/-- A failure inside an init sequence leaves the gate and is passed on (44_rmi4.md R368). -/
theorem retFrames_f01_fails {base : Half} {todo : List (Half × List Byte)} (fails : r.code ≠ .ok) (v : State) :
    retFrames a (.f01 n base todo :: fs) r v = Flow.andThen (gateRelease a v) (retFrames a fs r) := by
  simp only [retFrames, if_pos fails]

/-- Such a sequence ends with the gate left, no register accessed (44_rmi4.md R368). -/
theorem f01Body_stops {base : Half} {todo : List (Half × List Byte)} (h : F01Stops todo r) (acts : ActsAt a [] u u v)
    (gate : v.blk.gate.release a = some g) :
    ∃ t, f01Body n base todo a v = .next t ∧ Finished a r u t ∧ t.devs = u.devs ∧ t.blk = { v.blk with gate := g } ∧
      Untouched v t := by
  rcases h with ⟨rfl, rfl⟩ | ⟨k, bs, rest, rfl, wrong, rfl⟩
  · exact acts.release_posts gate (Passes.none a _)
  · have unfit : ¬ Block.Fits ⟨n, base + k, .bytes bs⟩ :=
      fun (fits : 1 ≤ bs.length ∧ bs.length ≤ 32) => by omega
    have inside := acts.push [.f01 n base rest]
    refine ⟨_, ?_, (inside.blk { v.blk with gate := g }).finished _, acts.devs, rfl, rfl, rfl, rfl, rfl, rfl⟩
    rw [f01Body, blockAccess_unfit unfit, inside.ret_eq]
    refine (retFrames_f01_fails (r := Result.fail .invalidArgument) nofun _).trans ?_
    rw [gateRelease_of (show (pushFrames a [.f01 n base rest] v).blk.gate.release a = some g from gate)]
    rfl

/-- An RMI_F01_INIT that finds the gate open ends so at once (44_rmi4.md R368). -/
theorem f01Init_stops (may : s.RmiReady d) (hw : s.blk.gate.Wf) (ho : s.blk.gate.OpenTo s.cur)
    (found : ∃ f ∈ d.functions, f.number = 0x01#8) (h : F01Stops s.par.f01Init r) : EndsAtOnce .rmiF01Init s r := by
  obtain ⟨base, hbase⟩ := f01Base_isSome found
  obtain ⟨acts, -, -, -⟩ := may.request.arrived (s.blk.gate.entered s.cur 1)
  obtain ⟨t, run, fin, devs, blk, ctl, plan, -, io, fresh⟩ :=
    f01Body_stops (n := s.asked.dev) (base := base) h acts (Gate.release_entered_one hw ho)
  refine ⟨t, ?_, fin, blk, devs, ctl, plan, io, fresh⟩
  rw [exec_f01Init_found may hbase, withGate_open _ _ hw ho]
  exact run

/-- The same where it goes on: the gate is free again (44_rmi4.md R368). -/
theorem GoesOn.f01_stops {base : Half} {todo : List (Half × List Byte)} (on : GoesOn a (.f01 n base todo) s u g)
    (hs : (s.agent a).stack = []) (owner : g.owner = some a) (depth : g.depth = 1) (h : F01Stops todo r) :
    ∃ t, step s = .next t ∧ Finished a r u t ∧ NoAccess u t ∧ t.devs = s.devs ∧
      t.blk = { s.blk with gate := ⟨none, 0, g.waiters⟩ } := by
  obtain ⟨acts, -, -, ms, run, rfl⟩ := on.arrived
  rw [hs] at acts
  obtain ⟨t, stops, fin, devs, blk, ctl, plan, -, io, fresh⟩ :=
    f01Body_stops h (acts.base_kept ⟨rfl, rfl⟩) (Gate.release_outermost owner depth)
  exact ⟨t, (step_goesOn on).trans stops, fin, ⟨ctl, plan, io, fresh⟩, devs, blk⟩

/-- The entry read of a scan fits its buffer (44_rmi4.md R366). -/
theorem scan_fits (n : Nat) (addr : Half) (a : Agent) : Block.Fits ⟨n, addr, .read ⟨.pdt a, 6#16⟩ 6⟩ :=
  ⟨by decide, by decide, Nat.le_refl 6⟩

/-- Settles O49: the ends by `f01Body_stops`, the beginnings by `AtAccess.begins`. -/
theorem probeAndInitBegin : Obligations.ProbeAndInitBegin := by
  refine ⟨fun s d hs ready => ?requests, fun s u a n base todo g on hs owner depth => ?ends,
    fun s d hs wf accepts hw ho free => ?atOnce, fun s u a n g d wf accepts hw ho free device width => ?goesOn⟩
  case requests =>
    intro o device width
    have may : s.RmiReady d := ⟨hs, ready, device, width⟩
    refine ⟨fun unfound => endsAtOnce_of_ret (exec_f01Init_unfound may (f01Base_eq_none unfound)) hs,
      fun hw ho found => ⟨fun empty => f01Init_stops may hw ho found (.inl ⟨empty, rfl⟩),
        fun k bs rest todo wrong => f01Init_stops may hw ho found (.inr ⟨k, bs, rest, todo, wrong, rfl⟩)⟩,
      fun taken => ⟨waitsForGate_of _ (exec_probe may) hs taken,
        fun f found => waitsForGate_of _ (exec_f01Init_found may (f01Base_of_find found)) hs taken⟩⟩
  case ends =>
    exact ⟨fun empty => on.f01_stops hs owner depth (.inl ⟨empty, rfl⟩),
      fun k bs rest list wrong => on.f01_stops hs owner depth (.inr ⟨k, bs, rest, list, wrong, rfl⟩)⟩
  case atOnce =>
    intro o a t0 scan begins device width
    have may : s.MayReach a (s.blk.gate.entered a 2) o.dev d :=
      ⟨wf, accepts, Gate.entered_open a (s.blk.gate.entered a 1), free, device, width⟩
    have ready : s.RmiReady d := ⟨hs, accepts.1, device, width⟩
    have split : (0x00E9#16 : Half).extractLsb' 8 8 = 0x00#8 ∧ (0x00E9#16 : Half).extractLsb' 0 8 = 0xE9#8 := by decide
    obtain ⟨cached, uncached⟩ := (AtAccess.probe d ready ⟨hw, ho⟩).begins may (scan_fits ..)
    simp only [split] at cached uncached
    exact ⟨cached, uncached, fun f found k bs rest todo low high =>
      (AtAccess.f01 d ready ⟨hw, ho⟩ f found k bs rest todo).begins may ⟨low, high⟩⟩
  case goesOn =>
    intro t0 fs begins
    have may : s.MayReach a (g.entered a 1) n d := ⟨wf, accepts, Gate.entered_open a g, free, device, width⟩
    exact ⟨fun pos found on => (AtAccess.probeOn u a n pos found g on ⟨hw, ho⟩).begins may (scan_fits ..),
      fun base k bs rest on low high =>
        (AtAccess.f01On u a n base k bs rest g on ⟨hw, ho⟩).begins may ⟨low, high⟩⟩

end Sys2Proof.Machine
end

section
/-!
SUPPORT. How an RMI4 transfer ends (44_rmi4.md R361 to R368): what each operation around it makes of its result, the
gate and the device records, until the result is posted or the request goes on.
-/

namespace Sys2Proof.Machine

variable {s t u v b : State} {a : Agent} {fs : List Frame} {g : Gate} {r : Result} {run : Flow} {n k w : Nat}
  {waiters : List Agent} {found : List FnDesc}

/-! ### A result on its way -/

/-- The gate as `a` holds it `k` times, free where that is none (20_memory.md R120, R121). -/
def Gate.held (a : Agent) (k : Nat) (waiters : List Agent) : Gate := ⟨if k = 0 then none else some a, k, waiters⟩

/-- One entry left (20_memory.md R121). -/
theorem gateRelease_held (h : v.blk.gate = .held a (k + 1) waiters) :
    gateRelease a v = .next (v.setGate (.held a k waiters)) :=
  gateRelease_of (by rw [h]; simp [Gate.held, Gate.release])

/-- In the step `run`, which goes on in `u`, the result `r` goes back to `a`'s operations `fs`, with the gate as `g` and
the buffers, the device records and the other requesters' records as in `b` by then (60_exceptions.md R406). -/
def Returns (run : Flow) (a : Agent) (fs : List Frame) (r : Result) (g : Gate) (b u : State) : Prop :=
  ∃ st v, run = retFrames a fs r v ∧ ActsAt a st b u v ∧ v.blk.gate = g

/-- However a transfer ends, its result goes back so, its own entry of the gate left: of memory only scratch bytes
differ, and none after a success (41_transfer_engine.md R242 to R245, R256). -/
theorem XferEnds.returns (ends : XferEnds s run u a fs g r w) (held : g = ⟨some a, k + 1, g.waiters⟩) :
    ∃ m, Returns run a fs r (.held a k g.waiters) { s with mem := m } u ∧
      SameMemBut (bufAddr (.t0 a) 0) w s { s with mem := m } ∧ (r.code = .ok → m = s.mem) := by
  obtain ⟨m, v, run, acts, kept, mem, clean, gate⟩ := ends.acts held
  exact ⟨m, ⟨fs, v, run, acts, gate⟩, fun x hx => (congrArg (·.read x) acts.mem.symm).trans (mem x hx),
    fun ok => kept (clean ok)⟩

/-- An operation that leaves the gate passes its result on. -/
theorem ActsAt.leaves {st : List Frame} (acts : ActsAt a st b u v) (gate : v.blk.gate = .held a (k + 1) waiters)
    (fs : List Frame) (r : Result) :
    Returns (Flow.andThen (gateRelease a v) (retFrames a fs r)) a fs r (.held a k waiters) b u :=
  ⟨st, v.setGate (.held a k waiters), by rw [gateRelease_held gate]; rfl, acts.blk _, rfl⟩

/-- A device record changed by the operation itself. -/
theorem ActsAt.device {st : List Frame} (acts : ActsAt a st b u v) (n : Nat) (f : PagedDev → PagedDev) :
    ActsAt a st (updateDev n f b) u (updateDev n f v) :=
  ⟨acts.mem, congrArg (·.modify n f) acts.devs, acts.caller, acts.base, acts.others,
    acts.rest.trans ⟨rfl, rfl, rfl, rfl, rfl, rfl⟩⟩

/-- Memory as in a state that keeps it but for some bytes. -/
theorem SameMemBut.trans_eq {x : Nat} (h : SameMemBut x n s b) (mem : t.mem = b.mem) : SameMemBut x n s t :=
  fun y hy => (congrArg (·.read y) mem).trans (h y hy)

/-! ### Its end -/

/-- `a`'s request is over with the result `r`, the gate then `g`, the buffers, the device records and the other
requesters' records as in `b` (60_exceptions.md R400). -/
structure Posted (a : Agent) (r : Result) (g : Gate) (b u t : State) : Prop where
  mem     : t.mem = b.mem
  devs    : t.devs = b.devs
  others  : OnlyAgent a b t
  req     : (t.agent a).req = none
  result  : (t.agent a).result = some r
  gate    : t.blk.gate = g
  running : t.running = u.running

/-- With no operation around it a result is posted (60_exceptions.md R400). -/
theorem Returns.posts (h : Returns run a [] r g b u) : ∃ t, run = .next t ∧ Posted a r g b u t := by
  obtain ⟨st, v, rfl, acts, gate⟩ := h
  refine ⟨post a r v, rfl, acts.mem, acts.devs, fun c hc => ?_, ?_, ?_, gate, acts.rest.running⟩
  · rw [agent_post_ne _ _ _ _ hc, acts.others c hc]
  · rw [agent_post_self]
  · rw [agent_post_self]

/-- `a`'s request goes on at once at `c` inside the operations `fs`, the gate then `g`, the buffers, the device records
and the other requesters' records as in `b` (44_rmi4.md R363, R366, R368). -/
structure Continues (a : Agent) (c : Cont) (fs : List Frame) (g : Gate) (b t : State) : Prop where
  mem     : t.mem = b.mem
  devs    : t.devs = b.devs
  others  : OnlyAgent a b t
  caller  : t.agent a = { b.agent a with point := .go c, stack := fs }
  gate    : t.blk.gate = g
  running : t.running = some a

/-- The step of an operation that goes on ends so. -/
theorem ActsAt.continues {st : List Frame} (acts : ActsAt a st b u v) (gate : v.blk.gate = g) (c : Cont)
    (fs : List Frame) : Continues a c fs g b (goOn a c fs v) := by
  obtain ⟨p, caller⟩ := acts.caller
  have record : ∀ e, (goOn a c fs v).agent e = (park a (.go c) (setStack a fs v)).agent e := fun _ => rfl
  refine ⟨acts.mem, acts.devs, fun e he => ?_, ?_, gate, rfl⟩
  · rw [record, agent_park_ne _ _ _ _ he, agent_setStack_ne _ _ _ _ he, acts.others e he]
  · rw [record, agent_park_self, agent_setStack_self, caller, agent_congr acts.base]

/-! ### The page select -/

/-- A success is OK(0) (44_rmi4.md R361). -/
theorem pageResult_ok (ok : r.code = .ok) : pageResult r = ⟨.ok, 0#32, .ok⟩ := if_pos ok

/-- A failure is PageSelectFailure with the transfer's code and value (44_rmi4.md R361, 30_encoding.md R155). -/
theorem pageResult_fails (fails : r.code ≠ .ok) : pageResult r = ⟨.pageSelectFailure, r.value, r.code⟩ := if_neg fails

theorem pageAfter_ok {page : Byte} (ok : r.code = .ok) : pageAfter page r = some page := if_pos ok

theorem pageAfter_fails {page : Byte} (fails : r.code ≠ .ok) : pageAfter page r = none := if_neg fails

/-- A page select leaves the gate, the page in the device's cache after a success and UNSET after a failure
(44_rmi4.md R361). -/
theorem Returns.select {page : Byte}
    (h : Returns run a (.smbus .none :: .setPage n page :: fs) r (.held a (k + 1) waiters) b u) :
    Returns run a fs (pageResult r) (.held a k waiters)
      (updateDev n (fun d => { d with currentPage := pageAfter page r }) b) u := by
  obtain ⟨st, v, rfl, acts, gate⟩ := h
  have leaves := (acts.device n fun d => { d with currentPage := pageAfter page r }).leaves gate fs (pageResult r)
  by_cases ok : r.code = .ok
  · have after : pageAfter page (Result.okValue 0#32) = pageAfter page r := by rw [pageAfter_ok ok]; rfl
    have result : pageResult (Result.okValue 0#32) = pageResult r := by rw [pageResult_ok ok]; rfl
    have passed : retFrames a (.smbus .none :: .setPage n page :: fs) r v =
        retFrames a (.setPage n page :: fs) (Result.okValue 0#32) v := by rw [retFrames, if_pos ok]; rfl
    rw [passed, retFrames, after, result]
    exact leaves
  · rw [retFrames_smbus_fails ok, retFrames]
    exact leaves

/-- A record changed, and no other. -/
theorem modify_devs {l m : List PagedDev} {f : PagedDev → PagedDev} (h : m = l.modify n f) :
    (∀ d, l[n]? = some d → m[n]? = some (f d)) ∧ ∀ j, j ≠ n → m[j]? = l[j]? := by
  subst h
  refine ⟨fun d hd => ?_, fun j hj => ?_⟩
  · simp [hd]
  · simp [Ne.symm hj]

/-- Settles O45: `Returns.select` with no operation around it. -/
theorem pageSelectEnds : Obligations.PageSelectEnds := by
  intro s u run a n d page g r k ends held device
  obtain ⟨m, returns, mem, -⟩ := ends.returns held
  obtain ⟨t, run, fin⟩ := returns.select.posts
  obtain ⟨cache, rest⟩ := modify_devs fin.devs
  refine ⟨t, run, mem.trans_eq fin.mem, fin.others, fin.req, fin.gate, rest, fun ok => ⟨?_, ?_⟩, fun fails => ⟨?_, ?_⟩⟩
  · rw [fin.result, pageResult_ok ok]
  · rw [cache d device, pageAfter_ok ok]
  · rw [cache d device, pageAfter_fails fails]
  · rw [fin.result, pageResult_fails fails]

/-- A failed page select ends the block access it was made for, its gate left (44_rmi4.md R363). -/
theorem Returns.selected_fails {blk : Block} (h : Returns run a (.selected blk :: fs) r (.held a (k + 1) waiters) b u)
    (fails : r.code ≠ .ok) : Returns run a fs r (.held a k waiters) b u := by
  obtain ⟨st, v, rfl, acts, gate⟩ := h
  rw [retFrames, if_neg fails]
  exact acts.leaves gate fs r

/-- A good one goes on with the block transfer (44_rmi4.md R363). -/
theorem Returns.selected_continues {blk : Block} (h : Returns run a (.selected blk :: fs) r g b u)
    (ok : r.code = .ok) : ∃ t, run = .next t ∧ Continues a (.block blk) fs g b t := by
  obtain ⟨st, v, rfl, acts, gate⟩ := h
  exact ⟨_, by rw [retFrames, if_pos ok], acts.continues gate (.block blk) fs⟩

/-! ### The block transfer -/

theorem okZero_ok (ok : r.code = .ok) : okZero r = ⟨.ok, 0#32, .ok⟩ := if_pos ok

theorem okZero_fails (fails : r.code ≠ .ok) : okZero r = r := if_neg fails

/-- A block access leaves the gate with its transfer's result, a success as OK(0) (44_rmi4.md R364, R365). -/
theorem Returns.block (h : Returns run a (.block :: fs) r (.held a (k + 1) waiters) b u) :
    Returns run a fs (okZero r) (.held a k waiters) b u := by
  obtain ⟨st, v, rfl, acts, gate⟩ := h
  rw [retFrames]
  exact acts.leaves gate fs (okZero r)

/-! ### The init sequence -/

/-- A failure ends the sequence, its gate left (44_rmi4.md R368). -/
theorem Returns.f01_fails {base : Half} {todo : List (Half × List Byte)}
    (h : Returns run a (.f01 n base todo :: fs) r (.held a (k + 1) waiters) b u) (fails : r.code ≠ .ok) :
    Returns run a fs r (.held a k waiters) b u := by
  obtain ⟨st, v, rfl, acts, gate⟩ := h
  rw [retFrames_f01_fails fails]
  exact acts.leaves gate fs r

/-- The last write ends it with OK(0) (44_rmi4.md R368). -/
theorem Returns.f01_last {base : Half} (h : Returns run a (.f01 n base [] :: fs) r (.held a (k + 1) waiters) b u)
    (ok : r.code = .ok) : Returns run a fs ⟨.ok, 0#32, .ok⟩ (.held a k waiters) b u := by
  obtain ⟨st, v, rfl, acts, gate⟩ := h
  rw [retFrames, if_neg (not_not.mpr ok)]
  exact acts.leaves gate fs (Result.okValue 0#32)

/-- Another one is followed by the next (44_rmi4.md R368). -/
theorem Returns.f01_continues {base : Half} {todo : List (Half × List Byte)}
    (h : Returns run a (.f01 n base todo :: fs) r g b u) (ok : r.code = .ok) (more : todo ≠ []) :
    ∃ t, run = .next t ∧ Continues a (.f01 n base todo) fs g b t := by
  obtain ⟨st, v, rfl, acts, gate⟩ := h
  obtain ⟨x, rest, rfl⟩ := List.exists_cons_of_ne_nil more
  exact ⟨_, by rw [retFrames, if_neg (not_not.mpr ok)], acts.continues gate (.f01 n base (x :: rest)) fs⟩

/-- Settles O48: `Returns.block`, and then the lemmas of the init sequence. -/
theorem blockAccessEnds : Obligations.BlockAccessEnds := by
  intro s u run a fs g r w ends ended
  have concludes : ∀ {m : Memory} {r' : Result} {t : State},
      Posted a r' ⟨none, 0, g.waiters⟩ { s with mem := m } u t → ended t r' :=
    fun fin => ⟨fin.req, fin.result, fin.running, fin.gate⟩
  refine ⟨?alone, ?init⟩
  case alone =>
    rintro rfl held
    obtain ⟨m, returns, mem, -⟩ := ends.returns held
    obtain ⟨t, run, fin⟩ := returns.block.posts
    exact ⟨t, run, mem.trans_eq fin.mem, fin.others, fin.devs, fun ok => okZero_ok ok ▸ concludes fin,
      fun fails => okZero_fails fails ▸ concludes fin⟩
  case init =>
    rintro n base todo rfl held
    obtain ⟨m, returns, mem, -⟩ := ends.returns held
    have returns := returns.block
    by_cases ok : r.code = .ok
    · rw [okZero_ok ok] at returns
      by_cases last : todo = []
      · subst last
        obtain ⟨t, run, fin⟩ := (returns.f01_last rfl).posts
        exact ⟨t, run, mem.trans_eq fin.mem, fin.others, fin.devs, fun _ _ => concludes fin,
          fun _ more => absurd rfl more, fun fails => absurd ok fails⟩
      · obtain ⟨t, run, next⟩ := returns.f01_continues rfl last
        exact ⟨t, run, mem.trans_eq next.mem, next.others, next.devs, fun _ none => absurd none last,
          fun _ _ => ⟨next.running, congrArg (·.point) next.caller, congrArg (·.stack) next.caller, next.gate⟩,
          fun fails => absurd ok fails⟩
    · rw [okZero_fails ok] at returns
      obtain ⟨t, run, fin⟩ := (returns.f01_fails ok).posts
      exact ⟨t, run, mem.trans_eq fin.mem, fin.others, fin.devs, fun success => absurd success ok,
        fun success => absurd success ok, fun _ => concludes fin⟩

/-! ### The scan -/

/-- The entry a scan has read, byte by byte (44_rmi4.md R366). -/
theorem scanEntry_eq (a : Agent) (m : Memory) :
    scanEntry a m = (List.range 6).map fun k => m.read (bufAddr (.pdt a) k) := by
  rw [scanEntry, Memory.readAll_bufAddr]
  simp only [Nat.zero_add]
  rfl

/-- What it decodes to (44_rmi4.md R367). -/
def entryAt (a : Agent) (m : Memory) : FnDesc :=
  let e (k : Nat) : Byte := m.read (bufAddr (.pdt a) k)
  ⟨e 5, (e 0).setWidth 16, (e 1).setWidth 16, (e 2).setWidth 16, (e 3).setWidth 16, (e 4).extractLsb' 0 3,
    (e 4).extractLsb' 5 2⟩

theorem decodeEntry_scanEntry (a : Agent) (m : Memory) : decodeEntry (scanEntry a m) = entryAt a m := by
  rw [scanEntry_eq]
  rfl

/-- Function number 0x00 or 0xFF ends the scan (44_rmi4.md R366). -/
theorem isTerminator_scanEntry (a : Agent) (m : Memory) : isTerminator (scanEntry a m) = true ↔
    m.read (bufAddr (.pdt a) 5) = 0x00#8 ∨ m.read (bufAddr (.pdt a) 5) = 0xFF#8 := by
  have number : (scanEntry a m).getD 5 0#8 = m.read (bufAddr (.pdt a) 5) := by rw [scanEntry_eq]; rfl
  rw [isTerminator, number, Bool.or_eq_true, beq_iff_eq, beq_iff_eq]

/-- The scan's end: the functions are recorded and the gate left (44_rmi4.md R366). -/
theorem ActsAt.scan_ends {st : List Frame} (acts : ActsAt a st b u v) (gate : v.blk.gate = .held a (k + 1) waiters)
    (fns : List FnDesc) (r : Result) :
    Returns (Flow.andThen (endProbe a n fns v) (retFrames a fs r)) a fs r (.held a k waiters)
      (updateDev n (fun d => { d with functions := fns }) b) u :=
  (acts.device n _).leaves gate fs r

/-- A failure ends the scan, its list emptied (44_rmi4.md R366). -/
theorem Returns.probe_fails {pos : Nat}
    (h : Returns run a (.probe n pos found :: fs) r (.held a (k + 1) waiters) b u) (fails : r.code ≠ .ok) :
    Returns run a fs r (.held a k waiters) (updateDev n (fun d => { d with functions := [] }) b) u := by
  obtain ⟨st, v, rfl, acts, gate⟩ := h
  rw [retFrames, if_pos fails]
  exact acts.scan_ends gate [] r

/-- A terminator ends it, unrecorded (44_rmi4.md R366). -/
theorem Returns.probe_terminated {pos : Nat}
    (h : Returns run a (.probe n pos found :: fs) r (.held a (k + 1) waiters) b u) (ok : r.code = .ok)
    (stop : isTerminator (scanEntry a b.mem) = true) :
    Returns run a fs ⟨.ok, BitVec.ofNat 32 found.length, .ok⟩ (.held a k waiters)
      (updateDev n (fun d => { d with functions := found }) b) u := by
  obtain ⟨st, v, rfl, acts, gate⟩ := h
  simp only [retFrames, ok, ne_eq, not_true_eq_false, if_false, acts.mem, stop, if_true]
  exact acts.scan_ends gate found _

/-- The last entry ends it, recorded (44_rmi4.md R366, R367). -/
theorem Returns.probe_last {pos : Nat}
    (h : Returns run a (.probe n pos found :: fs) r (.held a (k + 1) waiters) b u) (ok : r.code = .ok)
    (entry : isTerminator (scanEntry a b.mem) = false) (last : pos < 0x0B) :
    Returns run a fs ⟨.ok, BitVec.ofNat 32 (found.length + 1), .ok⟩ (.held a k waiters)
      (updateDev n (fun d => { d with functions := found ++ [entryAt a b.mem] }) b) u := by
  obtain ⟨st, v, rfl, acts, gate⟩ := h
  have passed : ¬ Config.pdtEnd + Config.pdtEntrySize ≤ pos := Nat.not_le.mpr last
  have ends := acts.scan_ends (n := n) (fs := fs) gate (found ++ [entryAt a b.mem])
    (Result.okValue (BitVec.ofNat 32 (found ++ [entryAt a b.mem]).length))
  simp only [retFrames, ok, ne_eq, not_true_eq_false, if_false, acts.mem, entry, Bool.false_eq_true, passed,
    decodeEntry_scanEntry]
  rwa [List.length_append] at ends ⊢

/-- Another one is recorded and the scan goes on 6 addresses down (44_rmi4.md R366, R367). -/
theorem Returns.probe_continues {pos : Nat} (h : Returns run a (.probe n pos found :: fs) r g b u) (ok : r.code = .ok)
    (entry : isTerminator (scanEntry a b.mem) = false) (more : 0x0B ≤ pos) :
    ∃ t, run = .next t ∧ Continues a (.probe n (pos - 6) (found ++ [entryAt a b.mem])) fs g b t := by
  obtain ⟨st, v, rfl, acts, gate⟩ := h
  have inside : Config.pdtEnd + Config.pdtEntrySize ≤ pos := more
  refine ⟨_, ?_, acts.continues gate (.probe n (pos - 6) (found ++ [entryAt a b.mem])) fs⟩
  simp only [retFrames, ok, ne_eq, not_true_eq_false, if_false, acts.mem, entry, Bool.false_eq_true, inside, if_true,
    decodeEntry_scanEntry]
  rfl

/-- Settles O50: `Returns.block`, and then the lemmas of the scan, by whether the read failed, the entry is a terminator
and an address is left. -/
theorem probeTakesEntry : Obligations.ProbeTakesEntry := by
  intro s u run a n d pos found g r w ends held device e entry ended
  obtain ⟨m, returns, mem, kept⟩ := ends.returns held
  have returns := returns.block
  have concludes : ∀ {fns : List FnDesc} {r' : Result} {t : State},
      Posted a r' ⟨none, 0, g.waiters⟩ (updateDev n (fun d => { d with functions := fns }) { s with mem := m }) u t →
      (∀ k, k ≠ n → t.devs[k]? = s.devs[k]?) ∧ ended t fns r' := by
    intro fns r' t fin
    obtain ⟨record, rest⟩ := modify_devs fin.devs
    exact ⟨rest, record d device, fin.running, fin.gate, fin.req, fin.result⟩
  by_cases ok : r.code = .ok
  · obtain rfl : m = s.mem := kept ok
    rw [okZero_ok ok] at returns
    have number := isTerminator_scanEntry a s.mem
    cases stop : isTerminator (scanEntry a s.mem) with
    | true =>
      obtain ⟨t, run, fin⟩ := (returns.probe_terminated rfl stop).posts
      obtain ⟨rest, final⟩ := concludes fin
      have other : ∀ {p : Prop}, e 5 ≠ 0x00#8 → e 5 ≠ 0xFF#8 → p :=
        fun low high => absurd (number.mp stop) (not_or.mpr ⟨low, high⟩)
      exact ⟨t, run, mem.trans_eq fin.mem, fin.others, rest, fun fails => absurd ok fails, fun _ =>
        ⟨fun _ => final, fun low high => other low high, fun low high => other low high⟩⟩
    | false =>
      have other : ¬ (e 5 = 0x00#8 ∨ e 5 = 0xFF#8) := fun h => by rw [number.mpr h] at stop; cases stop
      by_cases last : pos < 0x0B
      · obtain ⟨t, run, fin⟩ := (returns.probe_last rfl stop last).posts
        obtain ⟨rest, final⟩ := concludes fin
        exact ⟨t, run, mem.trans_eq fin.mem, fin.others, rest, fun fails => absurd ok fails, fun _ =>
          ⟨fun h => absurd h other, fun _ _ _ => final, fun _ _ more => absurd last (Nat.not_lt.mpr more)⟩⟩
      · obtain ⟨t, run, next⟩ := returns.probe_continues rfl stop (Nat.not_lt.mp last)
        exact ⟨t, run, mem.trans_eq next.mem, next.others, fun k _ => congrArg (·[k]?) next.devs,
          fun fails => absurd ok fails, fun _ => ⟨fun h => absurd h other, fun _ _ h => absurd h last, fun _ _ _ =>
            ⟨next.running, congrArg (·.point) next.caller, congrArg (·.stack) next.caller, next.devs, next.gate⟩⟩⟩
  · rw [okZero_fails ok] at returns
    obtain ⟨t, run, fin⟩ := (returns.probe_fails ok).posts
    obtain ⟨rest, final⟩ := concludes fin
    exact ⟨t, run, mem.trans_eq fin.mem, fin.others, rest, fun _ => final, fun success => absurd success ok⟩

/-! ### The page select of a block access -/

/-- Settles O47: `Returns.select` and `Returns.selected_fails`, and then the operation around the access, or
`Returns.selected_continues`. -/
theorem failedSelectStopsAccess : Obligations.FailedSelectStopsAccess := by
  intro s u run a n page blk fs g r w ends ended
  refine ⟨fun ok k held => ?good, fun fails held around => ?failed, fun fails held pos found probe => ?scan⟩
  case good =>
    obtain ⟨m, returns, -, kept⟩ := ends.returns held
    obtain rfl : m = s.mem := kept ok
    have selected : (pageResult r).code = .ok := by rw [pageResult_ok ok]
    obtain ⟨t, run, next⟩ := returns.select.selected_continues selected
    obtain ⟨cache, rest⟩ := modify_devs next.devs
    rw [pageAfter_ok ok] at cache
    exact ⟨t, run, fun x => congrArg (·.read x) next.mem, next.others, next.running, next.caller, next.gate, cache,
      rest⟩
  all_goals
    obtain ⟨m, returns, mem, -⟩ := ends.returns held
    have unselected : (pageResult r).code ≠ .ok := by rw [pageResult_fails fails]; nofun
    have returns := returns.select.selected_fails unselected
  case failed =>
    have passed : Returns run a [] (pageResult r) (.held a 0 g.waiters)
        (updateDev n (fun d => { d with currentPage := pageAfter page r }) { s with mem := m }) u := by
      rcases around with rfl | ⟨base, todo, rfl⟩
      · exact returns
      · exact returns.f01_fails unselected
    obtain ⟨t, run, fin⟩ := passed.posts
    obtain ⟨cache, rest⟩ := modify_devs fin.devs
    rw [pageAfter_fails fails] at cache
    exact ⟨t, run, fin.others,
      ⟨fin.running, mem.trans_eq fin.mem, fin.req, fin.gate, pageResult_fails fails ▸ fin.result⟩,
      cache, rest⟩
  case scan =>
    subst probe
    obtain ⟨t, run, fin⟩ := (returns.probe_fails unselected).posts
    obtain ⟨emptied, kept⟩ := modify_devs fin.devs
    obtain ⟨cache, rest⟩ := modify_devs (l := s.devs) (n := n) (f := fun d => { d with currentPage := none }) rfl
    rw [pageAfter_fails fails] at emptied kept
    exact ⟨t, run, fin.others,
      ⟨fin.running, mem.trans_eq fin.mem, fin.req, fin.gate, pageResult_fails fails ▸ fin.result⟩,
      fun d device => emptied _ (cache d device), fun j hj => (kept j hj).trans (rest j hj)⟩

end Sys2Proof.Machine
end

section
/-!
SUPPORT. LIFE_START and LIFE_STOP (45_lifecycle.md R390 to R392): the polls of their disables, which undo something
where the disable times out, and what follows an acknowledged one.
-/

namespace Sys2Proof.Machine

variable {s b u v c t : State} {a : Agent} {g : Gate} {k : Nat} {prov : Provider} {o : TimingOut}

/-! ### A disable that is not acknowledged -/

/-- Poll `k` of a disable by `a` finds the controller enabled (40_timing_and_bus.md R206): it sleeps below the bound; at
the bound the operation, which then does `undo` to the bus record and leaves the gate as `g`, is a DisableTimeout. `b`
is the state whose request it is, `s` the state whose registers are read, `v` the state of the poll. -/
structure NotAcked (a : Agent) (k : Nat) (d : DisableUse) (undo : Bus → Bus) (g : Gate) (b s v t : State) :
    Prop where
  devs   : t.devs = b.devs
  still  : StillEnabled s t
  sleeps : k < s.par.disablePollLimit → Paused a (.sleep (.disable (k + 1) d)) [] b t ∧ t.blk = v.blk
  fails  : s.par.disablePollLimit ≤ k → Finished a ⟨.disableTimeout, 0#32, .ok⟩ b t ∧
             t.blk = { undo { v.blk with disableUnacked := true } with gate := g }

/-- Every such poll ends so. -/
theorem disablePoll_notAcked {d : DisableUse} {undo : Bus → Bus}
    (failed : ∀ w : State, disableFailed a d w = releaseRet a (Result.fail .disableTimeout) (w.mapBlk undo))
    (gate : ∀ r, (undo r).gate = r.gate) (acts : ActsAt a [] b b v) (untouched : Untouched s v)
    (release : v.blk.gate.release a = some g) (on : (ctlTurn s).ctl.icEn = true) :
    ∃ t, disablePoll a k d v = .next t ∧ NotAcked a k d undo g b s v t := by
  obtain ⟨turn, -⟩ := untouched.turn
  have still := StillEnabled.of_read untouched on
  by_cases below : k < s.par.disablePollLimit
  · have read := acts.read .enableStatus
    exact ⟨_, disablePoll_sleeps a k d (turn ▸ on) (untouched.par ▸ below), read.devs, still,
      fun _ => ⟨read.paused _, regRead_blk _ _⟩, fun bound => absurd below (Nat.not_lt.mpr bound)⟩
  · obtain ⟨t, post, fin, devs, blk, ctl, -, -, io, -⟩ :=
      ((acts.poll true).blk (undo (setUnacked true (regRead .enableStatus v).2).blk)).posted (g := g)
        (by simpa [gate] using release) (Result.fail .disableTimeout)
    refine ⟨t, (disablePoll_fails a k d (turn ▸ on) (untouched.par ▸ Nat.not_lt.mp below)).trans
      ((failed _).trans post), devs, ⟨ctl.trans still.1, io.trans still.2⟩, fun h => absurd h below,
      fun _ => ⟨fin, ?_⟩⟩
    rw [blk, setUnacked_blk, regRead_blk]

/-- The first poll leaves what an unacknowledged disable does (40_timing_and_bus.md R206). -/
theorem StillEnabled.unacked (still : StillEnabled (ctlOff s) t) : Unacked s t := by
  obtain ⟨ctl, io⟩ := still
  obtain ⟨enable, regs⟩ := ctlTurn_ctlOff s
  exact ⟨ctl ▸ enable, ctl ▸ regs, io.trans (by rw [regWrite_io]; rfl)⟩

/-- A later poll, its requester outside any operation (40_timing_and_bus.md R206). -/
theorem GoesOn.polls {d : DisableUse} (on : GoesOn a (.disable k d) s u g) (hs : (s.agent a).stack = [])
    (owner : g.owner = some a) (depth : g.depth = 1) :
    ∃ v, step s = disablePoll a k d v ∧ ActsAt a [] u u v ∧ Untouched s v ∧ v.blk = { s.blk with gate := g } ∧
      v.blk.gate.release a = some ⟨none, 0, g.waiters⟩ := by
  obtain ⟨acts, untouched, blk⟩ := on.acts
  rw [hs] at acts
  exact ⟨_, step_goesOn on, acts.base_kept on.kept, untouched, blk,
    by rw [blk]; exact Gate.release_outermost owner depth⟩

/-- No register accessed up to `v`, nor from there on. -/
theorem Untouched.noAccess (before : Untouched s v) (after : Untouched v t) : NoAccess s t := by
  obtain ⟨vctl, vplan, -, vio, vfresh⟩ := before
  obtain ⟨tctl, tplan, -, tio, tfresh⟩ := after
  exact ⟨tctl.trans vctl, tplan.trans vplan, tio.trans vio, tfresh.trans vfresh⟩

/-! ### LIFE_START once it is configured -/

/-- Every cached page made UNSET is all that an activity after it differs by (44_rmi4.md R363). -/
theorem ActsAt.unsetPages {fs : List Frame} (acts : ActsAt a fs s u v) :
    ActsAt a fs (unsetPages s) (unsetPages u) (unsetPages v) :=
  ⟨acts.mem, congrArg (·.map fun d => { d with currentPage := none }) acts.devs, acts.caller, acts.base, acts.others,
    acts.rest.par, acts.rest.cur, acts.rest.handler, acts.rest.running, acts.rest.sched, acts.rest.attached⟩

/-- The end of a request says nothing of the device records. -/
theorem Finished.of_unsetPages {r : Result} (fin : Finished a r (unsetPages b) t) : Finished a r b t :=
  ⟨fin.ended, fin.others, fin.mem, fin.rest.par, fin.rest.cur, fin.rest.handler, fin.rest.running, fin.rest.sched,
    fin.rest.attached⟩

/-- What `configure_proc` leaves, seen from and in states with the same parameters, bus record, registers and
accesses. -/
theorem Configured.congr {first : List Access} {s' t' : State} (h : Configured first s t) (par : s.par = s'.par)
    (blk : s.blk = s'.blk) (before : s.ctl = s'.ctl ∧ s.io = s'.io) (after : t'.ctl = t.ctl ∧ t'.io = t.io) :
    Configured first s' t' := by
  have kept := h.of (io := []) par (congrArg Bus.startFields blk) (congrArg Ctl.tar before.1) before.2 after.1 after.2
  rwa [List.append_nil] at kept

/-- A handler installed ends the start with OK: the pages are UNSET and S.ready is set last (45_lifecycle.md
R390). -/
theorem startConfigured_installs (acts : ActsAt a [] b b c) (release : c.blk.gate.release a = some g)
    (irq : prov.irq = true) :
    ∃ t, startConfigured a prov true c = .next t ∧ Finished a ⟨.ok, 0#32, .ok⟩ b t ∧
      t.devs = b.devs.map (fun d => { d with currentPage := none }) ∧
      t.blk = { c.blk with irqInstalled := true, ready := true, gate := g } ∧ t.ctl = c.ctl ∧ t.io = c.io := by
  obtain ⟨t, post, fin, devs, blk, ctl, -, -, io, -⟩ :=
    (acts.unsetPages.blk { c.blk with irqInstalled := true, ready := true }).posted (g := g) release
      (Result.okValue 0#32)
  refine ⟨t, ?_, fin.of_unsetPages, devs, blk, ctl, io⟩
  rw [startConfigured, irq]
  exact post

/-- Undoing the configuration masks the interrupts and writes ENABLE 0 (45_lifecycle.md R391). -/
theorem unconfigure_registers (s : State) :
    (unconfigure s).ctl.intrMask = 0#32 ∧ (unconfigure s).ctl.enable = false ∧
      (unconfigure s).io = [.write .enable 0#32, .write .intrMask 0#32] ++ s.io := by
  have mask := (ctlTurn_keeps (writeMask 0#32 s)).intrMask
  rw [writeMask_ctl] at mask
  refine ⟨?_, ?_, ?_⟩
  · rw [unconfigure, regWrite_ctl]
    exact mask
  · rw [unconfigure, regWrite_ctl]
    rfl
  · rw [unconfigure, regWrite_io, writeMask_io]
    rfl

/-- A failed install undoes the configuration and the mapping and is a ConfigurationError (45_lifecycle.md R391). -/
theorem startConfigured_undoes (acts : ActsAt a [] b b c) (release : c.blk.gate.release a = some g)
    (irq : prov.irq = false) :
    ∃ t, startConfigured a prov true c = .next t ∧ Finished a ⟨.configurationError, 0#32, .ok⟩ b t ∧
      t.devs = b.devs ∧ t.blk = { c.blk with mapped := false, gate := g } ∧
      t.ctl.intrMask = 0#32 ∧ t.ctl.enable = false ∧
      ∃ l, t.io = [.write .enable 0#32, .write .intrMask 0#32] ++ l := by
  have blk : (unconfigure c).blk = c.blk := by rw [unconfigure, regWrite_blk, writeMask_blk]
  obtain ⟨t, post, fin, devs, tblk, ctl, -, -, io, -⟩ :=
    (((acts.write .intrMask 0#32).write .enable 0#32).blk (unmap (unconfigure c)).blk).posted (g := g)
      (by rw [unmap_blk, blk]; exact release) (Result.fail .configurationError)
  obtain ⟨mask, enable, accesses⟩ := unconfigure_registers c
  refine ⟨t, ?_, fin, devs, by rw [tblk, unmap_blk, blk], ctl ▸ mask, ctl ▸ enable, c.io, io.trans accesses⟩
  rw [startConfigured, irq]
  exact post

section

/- An acknowledged poll of LIFE_START's disable, at `v` with the registers as in `s`. -/
variable (acts : ActsAt a [] b b v) (untouched : Untouched s v) (release : v.blk.gate.release a = some g)
  (fields : v.blk.startFields = s.blk.startFields) (enable : s.ctl.enable = false)
  (acked : (ctlTurn s).ctl.icEn = false)

include acts untouched release fields enable acked

/-- It is followed by the writes that BUS_CONFIGURE makes too (40_timing_and_bus.md R208, 45_lifecycle.md R390). -/
theorem disabled_start (prov : Provider) :
    ∃ c, disabled a (.configure (.start prov)) (setUnacked false (regRead .enableStatus v).2) =
        startConfigured a prov true c ∧
      ActsAt a [] b b c ∧ Configured [.read .enableStatus (some 0#32)] s c ∧
      c.blk = { v.blk with disableUnacked := false } := by
  obtain ⟨w, hw⟩ : ∃ w, w = setUnacked false (regRead .enableStatus v).2 := ⟨_, rfl⟩
  have written : ActsAt a [] b b (configureWrites w) := by
    rw [configureWrites_eq, hw]
    exact (acts.poll false).writes _
  have blk : (configureWrites w).blk = { v.blk with disableUnacked := false } := by
    rw [configureWrites_eq, regWrites_blk, hw, setUnacked_blk, regRead_blk]
  obtain ⟨t, post, -, -, -, ctl, -, -, io, -⟩ :=
    written.posted (g := g) (by rw [blk]; exact release) (Result.okValue 0#32)
  obtain ⟨t', post', -, -, configured, -⟩ := disabled_configure (u := .bus) (by simp) acts untouched release fields
    enable acked
  rw [← hw] at post' ⊢
  obtain rfl : t = t' := Host.Outcome.next.inj (post.symm.trans post')
  exact ⟨_, rfl, written, configured.congr rfl rfl ⟨rfl, rfl⟩ ⟨ctl.symm, io.symm⟩, blk⟩

/-- The start succeeds where the handler is installed (45_lifecycle.md R390). -/
theorem disabled_start_installs (irq : prov.irq = true) :
    ∃ t, disabled a (.configure (.start prov)) (setUnacked false (regRead .enableStatus v).2) = .next t ∧
      Finished a ⟨.ok, 0#32, .ok⟩ b t ∧ Configured [.read .enableStatus (some 0#32)] s t ∧
      t.devs = b.devs.map (fun d => { d with currentPage := none }) ∧
      t.blk = { v.blk with irqInstalled := true, ready := true, disableUnacked := false, gate := g } := by
  obtain ⟨c, run, written, configured, blk⟩ := disabled_start acts untouched release fields enable acked prov
  obtain ⟨t, post, fin, devs, tblk, after⟩ :=
    startConfigured_installs written (g := g) (by rw [blk]; exact release) irq
  exact ⟨t, run.trans post, fin, configured.congr rfl rfl ⟨rfl, rfl⟩ after, devs, by rw [tblk, blk]⟩

/-- It is undone where it is not (45_lifecycle.md R391). -/
theorem disabled_start_undoes (irq : prov.irq = false) :
    ∃ t, disabled a (.configure (.start prov)) (setUnacked false (regRead .enableStatus v).2) = .next t ∧
      Finished a ⟨.configurationError, 0#32, .ok⟩ b t ∧ t.devs = b.devs ∧
      t.blk = { v.blk with mapped := false, disableUnacked := false, gate := g } ∧
      t.ctl.intrMask = 0#32 ∧ t.ctl.enable = false ∧
      ∃ l, t.io = [.write .enable 0#32, .write .intrMask 0#32] ++ l := by
  obtain ⟨c, run, written, -, blk⟩ := disabled_start acts untouched release fields enable acked prov
  obtain ⟨t, post, fin, devs, tblk, registers⟩ :=
    startConfigured_undoes written (g := g) (by rw [blk]; exact release) irq
  exact ⟨t, run.trans post, fin, devs, by rw [tblk, blk], registers⟩

end

/-! ### LIFE_START -/

/-- LIFE_START of a bus already started or without power fails (45_lifecycle.md R390). -/
theorem execLifeStart_unready (h : s.blk.mapped = true ∨ s.blk.ready = true ∨ s.blk.powered = false) :
    execLifeStart s = ret s.cur (Result.fail .invalidArgument) s := if_pos h

/-- With its precondition met it enters an open gate, to leave it as it was (45_lifecycle.md R390). -/
theorem lifeStart_enters (hs : s.AtRequest) (hw : s.blk.gate.Wf) (ho : s.blk.gate.OpenTo s.cur)
    (hm : s.blk.mapped = false) (hr : s.blk.ready = false) (hp : s.blk.powered = true) :
    ∃ v, exec .lifeStart s = startBody (s.agent s.cur).ops.provider s.cur v ∧ ActsAt s.cur [] s s v ∧
      Untouched s v ∧ v.blk = { s.blk with gate := s.blk.gate.entered s.cur 1 } ∧
      v.blk.gate.release s.cur = some s.blk.gate := by
  obtain ⟨v, run, acts, untouched, blk⟩ := AtRequest_gate hs ⟨hw, ho⟩ (.start (s.opsOf s.cur).provider)
    (startBody (s.opsOf s.cur).provider s.cur)
  exact ⟨v, (execLifeStart_ready hm hr hp).trans run, acts, untouched, blk,
    by rw [blk]; exact Gate.release_entered_one hw ho⟩

/-- The bus record with the window that was mapped and the fields step 2 takes (45_lifecycle.md R390). -/
def Bus.timed (b : Bus) (p : Params) (w : Nat × Nat) (o : TimingOut) : Bus :=
  { b with
    regBase := some w.1, regSize := some w.2, ssHcnt := o.ssHcnt, ssLcnt := o.ssLcnt, fsHcnt := o.fsHcnt,
    fsLcnt := o.fsLcnt, sdaHold := o.sdaHold, txFifoDepth := p.txFifoDepth, rxFifoDepth := p.rxFifoDepth }

/-- The state with the fields of its bus record so. -/
def State.timed (s : State) (w : Nat × Nat) (o : TimingOut) : State := { s with blk := s.blk.timed s.par w o }

/-- A window that does not map is a ConfigurationError (45_lifecycle.md R391). -/
theorem startBody_unmapped (window : prov.window = none) (v : State) :
    startBody prov a v = releaseRet a (Result.fail .configurationError) v := by
  rw [startBody, window]

/-- So are timing inputs that are not there or out of range, the mapping undone (45_lifecycle.md R391). -/
theorem startBody_untimed {w : Nat × Nat} (window : prov.window = some w)
    (inputs : prov.timing.bind (timing v.par) = none) :
    startBody prov a v = releaseRet a (Result.fail .configurationError)
      { v with blk := { v.blk with regBase := some w.1, regSize := some w.2, mapped := false } } := by
  simp only [startBody, window, inputs]
  rfl

/-- With both it comes to the disable of its configure (45_lifecycle.md R390). -/
theorem startBody_configures {w : Nat × Nat} (window : prov.window = some w)
    (inputs : prov.timing.bind (timing v.par) = some o) :
    startBody prov a v = disablePoll a 0 (.configure (.start prov))
      (ctlOff { v with blk := { v.blk.timed v.par w o with mapped := true } }) := by
  simp only [startBody, window, inputs]
  rfl

/-- A disable that times out undoes the mapping (45_lifecycle.md R391). -/
theorem disableFailed_start (w : State) : disableFailed a (.configure (.start prov)) w =
    releaseRet a (Result.fail .disableTimeout) (w.mapBlk fun r => { r with mapped := false }) := rfl

/-- Any poll of LIFE_START's disable that is not acknowledged ends so. -/
theorem disablePoll_start_notAcked (acts : ActsAt a [] b b v) (untouched : Untouched s v)
    (release : v.blk.gate.release a = some g) (on : (ctlTurn s).ctl.icEn = true) :
    ∃ t, disablePoll a k (.configure (.start prov)) v = .next t ∧
      NotAcked a k (.configure (.start prov)) (fun r => { r with mapped := false }) g b s v t :=
  disablePoll_notAcked disableFailed_start (fun _ => rfl) acts untouched release on

section

/- A LIFE_START whose checks pass, of a bus whose gate is open. -/
variable {w : Nat × Nat} (hs : s.AtRequest) (hw : s.blk.gate.Wf) (ho : s.blk.gate.OpenTo s.cur)
  (hm : s.blk.mapped = false) (hr : s.blk.ready = false) (hp : s.blk.powered = true)
  (hprov : (s.agent s.cur).ops.provider = prov) (window : prov.window = some w)
  (inputs : prov.timing.bind (timing s.par) = some o)

include hs hw ho hm hr hp hprov window inputs

/-- It stands at the first poll of its disable, no register but ENABLE written (45_lifecycle.md R390). -/
theorem lifeStart_polls :
    ∃ v, exec .lifeStart s = disablePoll s.cur 0 (.configure (.start prov)) v ∧ ActsAt s.cur [] s s v ∧
      Untouched (ctlOff s) v ∧ Untouched (ctlOff (s.timed w o)) v ∧
      v.blk = { s.blk.timed s.par w o with mapped := true, gate := s.blk.gate.entered s.cur 1 } ∧
      v.blk.gate.release s.cur = some s.blk.gate := by
  obtain ⟨v, run, acts, untouched, blk, release⟩ := lifeStart_enters hs hw ho hm hr hp
  have par := untouched.par
  have before : Untouched s { v with blk := { v.blk.timed v.par w o with mapped := true } } := untouched
  have timed : Untouched (s.timed w o) { v with blk := { v.blk.timed v.par w o with mapped := true } } := untouched
  rw [hprov] at run
  refine ⟨_, run.trans (startBody_configures window (par ▸ inputs)), (acts.blk _).write .enable 0#32,
    before.write .enable 0#32, timed.write .enable 0#32, ?_, ?_⟩
  · rw [regWrite_blk, par, blk]
    rfl
  · rw [regWrite_blk]
    exact release

/-- Acknowledged there, it comes to the writes of its configure (45_lifecycle.md R390, 40_timing_and_bus.md R208). -/
theorem lifeStart_acked (acked : s.DisableAcked) :
    ∃ v, exec .lifeStart s =
        disabled s.cur (.configure (.start prov)) (setUnacked false (regRead .enableStatus v).2) ∧
      ActsAt s.cur [] s s v ∧ Untouched (ctlOff (s.timed w o)) v ∧
      v.blk = { s.blk.timed s.par w o with mapped := true, gate := s.blk.gate.entered s.cur 1 } ∧
      v.blk.gate.release s.cur = some s.blk.gate ∧
      v.blk.startFields = (ctlOff (s.timed w o)).blk.startFields ∧ (ctlOff (s.timed w o)).ctl.enable = false ∧
      (ctlTurn (ctlOff (s.timed w o))).ctl.icEn = false := by
  obtain ⟨v, run, acts, untouched, timed, blk, release⟩ := lifeStart_polls hs hw ho hm hr hp hprov window inputs
  have status : (ctlTurn v).ctl.icEn = false := by rw [untouched.turn.1]; exact acked
  refine ⟨v, run.trans (disablePoll_acked s.cur 0 _ status), acts, timed, blk, release, ?_, ?_, ?_⟩
  · rw [blk, regWrite_blk]
    rfl
  · rw [regWrite_ctl]
    rfl
  · rw [← timed.turn.1, status]

/-- It succeeds where the handler is installed (45_lifecycle.md R390). -/
theorem lifeStart_installs (acked : s.DisableAcked) (irq : prov.irq = true) :
    ∃ t, exec .lifeStart s = .next t ∧ Finished s.cur ⟨.ok, 0#32, .ok⟩ s t ∧
      Configured ackedAtOnce (s.timed w o) t ∧ t.devs = s.devs.map (fun d => { d with currentPage := none }) ∧
      t.blk = { s.blk.timed s.par w o with
        mapped := true, irqInstalled := true, ready := true, disableUnacked := false } := by
  obtain ⟨v, run, acts, timed, blk, release, fields, off, status⟩ :=
    lifeStart_acked hs hw ho hm hr hp hprov window inputs acked
  obtain ⟨t, post, fin, configured, devs, tblk⟩ :=
    disabled_start_installs acts timed release fields off status irq
  refine ⟨t, run.trans post, fin, ?_, devs, by rw [tblk, blk]; rfl⟩
  exact configured.of (io := [.write .enable 0#32]) (by simp) (by simp)
    (by rw [regWrite_ctl]; exact (ctlTurn_keeps _).tar) (by simp) rfl rfl

/-- It is undone where it is not (45_lifecycle.md R391). -/
theorem lifeStart_undoes (acked : s.DisableAcked) (irq : prov.irq = false) :
    ∃ t, exec .lifeStart s = .next t ∧ Finished s.cur ⟨.configurationError, 0#32, .ok⟩ s t ∧ t.devs = s.devs ∧
      t.blk = { s.blk.timed s.par w o with mapped := false, disableUnacked := false } ∧
      t.ctl.intrMask = 0#32 ∧ t.ctl.enable = false ∧
      ∃ l, t.io = [.write .enable 0#32, .write .intrMask 0#32] ++ l := by
  obtain ⟨v, run, acts, timed, blk, release, fields, off, status⟩ :=
    lifeStart_acked hs hw ho hm hr hp hprov window inputs acked
  obtain ⟨t, post, fin, devs, tblk, registers⟩ :=
    disabled_start_undoes acts timed release fields off status irq
  exact ⟨t, run.trans post, fin, devs, by rw [tblk, blk]; rfl, registers⟩

/-- Not acknowledged at its first poll it is a DisableTimeout, the mapping undone, where that is the last one
(45_lifecycle.md R391). -/
theorem lifeStart_timesOut (enabled : ¬ s.DisableAcked) (limit : s.par.disablePollLimit = 0) :
    ∃ t, exec .lifeStart s = .next t ∧ Finished s.cur ⟨.disableTimeout, 0#32, .ok⟩ s t ∧ t.devs = s.devs ∧
      Unacked s t ∧ t.blk = { s.blk.timed s.par w o with mapped := false, disableUnacked := true } := by
  obtain ⟨v, run, acts, untouched, -, blk, release⟩ := lifeStart_polls hs hw ho hm hr hp hprov window inputs
  obtain ⟨t, poll, devs, still, -, fails⟩ := disablePoll_start_notAcked (k := 0) (prov := prov) acts untouched release
    (Bool.eq_true_of_not_eq_false enabled)
  obtain ⟨fin, tblk⟩ := fails (by rw [regWrite_par, limit])
  exact ⟨t, run.trans poll, fin, devs, still.unacked, by rw [tblk, blk]; rfl⟩

/-- It sleeps where it is not (40_timing_and_bus.md R206). -/
theorem lifeStart_sleeps (enabled : ¬ s.DisableAcked) (limit : s.par.disablePollLimit ≠ 0) :
    ∃ t, exec .lifeStart s = .next t ∧ Paused s.cur (.sleep (.disable 1 (.configure (.start prov)))) [] s t ∧
      t.devs = s.devs ∧ Unacked s t ∧
      t.blk = { s.blk.timed s.par w o with mapped := true, gate := s.blk.gate.entered s.cur 1 } := by
  obtain ⟨v, run, acts, untouched, -, blk, release⟩ := lifeStart_polls hs hw ho hm hr hp hprov window inputs
  obtain ⟨t, poll, devs, still, sleeps, -⟩ := disablePoll_start_notAcked (k := 0) (prov := prov) acts untouched release
    (Bool.eq_true_of_not_eq_false enabled)
  obtain ⟨paused, tblk⟩ := sleeps (by rw [regWrite_par]; omega)
  exact ⟨t, run.trans poll, paused, devs, still.unacked, tblk.trans blk⟩

end

/-- Settles O51: the checks by the lemmas of `startBody`, the first poll of the disable by the lemmas of `lifeStart`; a
later one by `disabled_start_installs`, `disabled_start_undoes` and `disablePoll_start_notAcked`. -/
theorem startSteps : Obligations.StartSteps := by
  refine ⟨fun s hs hm hr hp hg => waitsForGate_of _ (execLifeStart_ready hm hr hp) hs hg,
    fun s hs hw ho => ⟨fun h => endsAtOnce_of_ret (execLifeStart_unready h) hs, fun hm hr hp =>
      ⟨fun window => ?unmapped, fun w window => ⟨fun inputs => ?untimed, fun o inputs => ?configures⟩⟩⟩,
    fun s u a k prov g on hs owner depth enable => ?later⟩
  case unmapped =>
    obtain ⟨v, run, acts, untouched, blk, release⟩ := lifeStart_enters hs hw ho hm hr hp
    obtain ⟨t, post, fin, devs, tblk, after⟩ := acts.posted release (Result.fail .configurationError)
    exact ⟨t, run.trans ((startBody_unmapped window v).trans post), fin, by rw [tblk, blk], devs,
      untouched.noAccess after⟩
  case untimed =>
    obtain ⟨v, run, acts, untouched, blk, release⟩ := lifeStart_enters hs hw ho hm hr hp
    obtain ⟨t, post, fin, devs, tblk, after⟩ :=
      (acts.blk { v.blk with regBase := some w.1, regSize := some w.2, mapped := false }).posted release
        (Result.fail .configurationError)
    exact ⟨t, run.trans ((startBody_untimed window (untouched.par ▸ inputs)).trans post), fin,
      untouched.noAccess after, devs, by rw [tblk, blk]⟩
  case configures =>
    exact ⟨lifeStart_installs hs hw ho hm hr hp rfl window inputs, lifeStart_undoes hs hw ho hm hr hp rfl window inputs,
      lifeStart_timesOut hs hw ho hm hr hp rfl window inputs, lifeStart_sleeps hs hw ho hm hr hp rfl window inputs⟩
  case later =>
    intro b
    obtain ⟨v, run, acts, untouched, blk, release⟩ := on.polls hs owner depth
    obtain ⟨ms, going, rfl⟩ := on.state_eq
    have fields : v.blk.startFields = s.blk.startFields := by
      rw [blk]
      rfl
    cases status : (ctlTurn s).ctl.icEn with
    | false =>
      have polled := run.trans (disablePoll_acked a k _ (by rw [untouched.turn.1, status]))
      cases irq : prov.irq with
      | true =>
        obtain ⟨t, post, fin, configured, devs, tblk⟩ :=
          disabled_start_installs acts untouched release fields enable status irq
        exact ⟨t, polled.trans post, fun _ _ => ⟨fin, configured.congr rfl rfl ⟨rfl, rfl⟩ ⟨rfl, rfl⟩, devs,
          by rw [tblk, blk]⟩, nofun, nofun⟩
      | false =>
        obtain ⟨t, post, fin, devs, tblk, registers⟩ :=
          disabled_start_undoes acts untouched release fields enable status irq
        exact ⟨t, polled.trans post, nofun, fun _ _ => ⟨fin, devs, by rw [tblk, blk], registers⟩, nofun⟩
    | true =>
      obtain ⟨t, poll, devs, ⟨ctl, io⟩, sleeps, fails⟩ :=
        disablePoll_start_notAcked (k := k) (prov := prov) acts untouched release status
      rw [blk] at sleeps fails
      exact ⟨t, run.trans poll, nofun, nofun, fun _ => ⟨devs, ctl, io, sleeps, fails⟩⟩

/-! ### LIFE_STOP -/

/-- LIFE_STOP of a bus not started is over (45_lifecycle.md R392). -/
theorem execLifeStop_unmapped (hm : s.blk.mapped = false) : execLifeStop s = ret s.cur (Result.okValue 0#32) s :=
  if_pos hm

/-- Of a started one it waits for a taken gate, S.ready false already (45_lifecycle.md R392). -/
theorem lifeStop_waits (hs : s.AtRequest) (hm : s.blk.mapped = true) (hg : s.blk.gate.TakenFrom s.cur) :
    ∃ t, exec .lifeStop s = .next t ∧ Paused s.cur (.gate .stop) [] s t ∧ NoAccess s t ∧ t.devs = s.devs ∧
      t.blk = { s.blk with ready := false, gate := s.blk.gate.wait s.cur } := by
  obtain ⟨other, owner, ne⟩ := hg
  exact ⟨_, (execLifeStop_started hm).trans
      (withGate_taken (s := { s with blk := { s.blk with ready := false } }) .stop _ owner ne),
    (hs.acts.blk _).paused (.gate .stop), ⟨rfl, rfl, rfl, rfl⟩, rfl, rfl⟩

/-- It enters an open gate, to leave it as it was, S.ready false already (45_lifecycle.md R392). -/
theorem lifeStop_enters (hs : s.AtRequest) (hw : s.blk.gate.Wf) (ho : s.blk.gate.OpenTo s.cur)
    (hm : s.blk.mapped = true) :
    ∃ v, exec .lifeStop s = stopBody s.cur v ∧ ActsAt s.cur [] s s v ∧ Untouched s v ∧
      v.blk = { s.blk with ready := false, gate := s.blk.gate.entered s.cur 1 } ∧
      v.blk.gate.release s.cur = some s.blk.gate :=
  ⟨_, (execLifeStop_started hm).trans
      (withGate_open (s := { s with blk := { s.blk with ready := false } }) .stop _ hw ho),
    hs.acts.blk _, .refl s, rfl, Gate.release_entered_one hw ho⟩

/-- The handler and the mapping released. -/
def Bus.released (b : Bus) : Bus := { b with irqInstalled := false, mapped := false }

/-- LIFE_STOP releases both where its disable times out (45_lifecycle.md R392). -/
theorem disableFailed_stop (w : State) : disableFailed a .stop w =
    releaseRet a (Result.fail .disableTimeout) (w.mapBlk Bus.released) := rfl

/-- It does after an acknowledged one, and without power, and ends with OK (45_lifecycle.md R392). -/
theorem stopTail_releases (acts : ActsAt a [] b b v) (release : v.blk.gate.release a = some g) :
    ∃ t, stopTail a true v = .next t ∧ Finished a ⟨.ok, 0#32, .ok⟩ b t ∧ t.devs = b.devs ∧
      t.blk = { v.blk.released with gate := g } ∧ Untouched v t :=
  (acts.blk v.blk.released).posted release (Result.okValue 0#32)

/-- An acknowledged poll ends it so (40_timing_and_bus.md R206, 45_lifecycle.md R392). -/
theorem disablePoll_stops (acts : ActsAt a [] b b v) (untouched : Untouched s v)
    (release : v.blk.gate.release a = some g) (acked : (ctlTurn s).ctl.icEn = false) :
    ∃ t, disablePoll a k .stop v = .next t ∧ Finished a ⟨.ok, 0#32, .ok⟩ b t ∧ t.devs = b.devs ∧
      t.blk = { v.blk.released with disableUnacked := false, gate := g } ∧ t.ctl = (ctlTurn s).ctl ∧
      t.io = .read .enableStatus (some 0#32) :: s.io := by
  obtain ⟨turn, -⟩ := untouched.turn
  obtain ⟨pctl, pio⟩ := untouched.poll
  obtain ⟨t, post, fin, devs, blk, ctl, -, -, io, -⟩ := stopTail_releases (g := g) (acts.poll false)
    (by simpa using release)
  rw [acked] at pio
  refine ⟨t, (disablePoll_acked a k .stop (turn ▸ acked)).trans post, fin, devs, ?_, ctl.trans pctl, io.trans pio⟩
  rw [blk, setUnacked_blk, regRead_blk]
  rfl

/-- The registers after LIFE_STOP's writes: INTR_MASK and ENABLE 0, CON, TAR, the counts and the thresholds as before
(45_lifecycle.md R392). -/
theorem ctlTurn_masked_off (s : State) :
    let c := (ctlTurn (ctlOff (writeMask 0#32 s))).ctl
    c.intrMask = 0#32 ∧ c.enable = false ∧ c.con = s.ctl.con ∧ c.tar = s.ctl.tar ∧ s.ctl.SameCounts c := by
  obtain ⟨enable, ⟨con, tar, mask⟩, counts, levels⟩ := ctlTurn_ctlOff (writeMask 0#32 s)
  obtain ⟨⟨con', tar', -⟩, counts'⟩ := (ctlTurn_keeps s).sameRegs
  rw [writeMask_ctl] at con tar mask counts levels
  exact ⟨mask, enable, con.trans con', tar.trans tar', counts'.trans ⟨counts, levels⟩⟩

/-- Without power LIFE_STOP accesses no register (45_lifecycle.md R392). -/
theorem lifeStop_unpowered (hs : s.AtRequest) (hw : s.blk.gate.Wf) (ho : s.blk.gate.OpenTo s.cur)
    (hm : s.blk.mapped = true) (hp : s.blk.powered = false) :
    ∃ t, exec .lifeStop s = .next t ∧ t.devs = s.devs ∧ Finished s.cur ⟨.ok, 0#32, .ok⟩ s t ∧ NoAccess s t ∧
      t.blk = { s.blk.released with ready := false } := by
  obtain ⟨v, run, acts, untouched, blk, release⟩ := lifeStop_enters hs hw ho hm
  obtain ⟨t, post, fin, devs, tblk, after⟩ := stopTail_releases acts release
  have body : stopBody s.cur v = stopTail s.cur true v := if_neg (by simp [blk, hp])
  exact ⟨t, run.trans (body.trans post), devs, fin, untouched.noAccess after, by rw [tblk, blk]; rfl⟩

/-- On power it stands at the first poll of its disable, INTR_MASK and ENABLE written 0 (45_lifecycle.md R392). -/
theorem lifeStop_polls (hs : s.AtRequest) (hw : s.blk.gate.Wf) (ho : s.blk.gate.OpenTo s.cur)
    (hm : s.blk.mapped = true) (hp : s.blk.powered = true) :
    ∃ v, exec .lifeStop s = disablePoll s.cur 0 .stop v ∧ ActsAt s.cur [] s s v ∧
      Untouched (ctlOff (writeMask 0#32 s)) v ∧
      v.blk = { s.blk with ready := false, gate := s.blk.gate.entered s.cur 1 } ∧
      v.blk.gate.release s.cur = some s.blk.gate := by
  obtain ⟨v, run, acts, untouched, blk, release⟩ := lifeStop_enters hs hw ho hm
  have body : stopBody s.cur v = disablePoll s.cur 0 .stop (ctlOff (writeMask 0#32 v)) := if_pos (by rw [blk, hp])
  have kept : (ctlOff (writeMask 0#32 v)).blk = v.blk := by rw [regWrite_blk, writeMask_blk]
  exact ⟨_, run.trans body, (acts.write .intrMask 0#32).write .enable 0#32,
    (untouched.write .intrMask 0#32).write .enable 0#32, kept.trans blk, by rw [kept, release]⟩

/-- Settles O52: without power by `lifeStop_unpowered`; an acknowledged disable by `disablePoll_stops`, another one by
`disablePoll_notAcked`, at the first poll, to which `lifeStop_polls` comes, and at a later one. -/
theorem stopSteps : Obligations.StopSteps := by
  refine ⟨fun s hs hm hg => lifeStop_waits hs hm hg,
    fun s hs hm => endsAtOnce_of_ret (execLifeStop_unmapped hm) hs, fun s hs hw ho hm => ?first,
    fun s u a k g on hs owner depth => ?later⟩
  case first =>
    intro b masked
    by_cases hp : s.blk.powered = true
    · have on : s.blk.powered ≠ false := by simp [hp]
      obtain ⟨v, run, acts, untouched, blk, release⟩ := lifeStop_polls hs hw ho hm hp
      obtain ⟨mask, enable, con, tar, counts⟩ := ctlTurn_masked_off s
      by_cases acked : masked.DisableAcked
      · obtain ⟨t, poll, fin, devs, tblk, ctl, io⟩ := disablePoll_stops (k := 0) acts untouched release acked
        rw [blk] at tblk
        refine ⟨t, run.trans poll, devs, by rw [tblk]; rfl, fun h => absurd h on, fun _ _ => ⟨fin, tblk, ?_⟩,
          fun _ h => absurd acked h, fun _ h => absurd acked h⟩
        rw [ctl, io]
        exact ⟨mask, enable, acked, con, tar, counts, by rw [regWrite_io, writeMask_io]; rfl⟩
      · obtain ⟨t, poll, devs, ⟨ctl, -⟩, sleeps, fails⟩ := disablePoll_notAcked (k := 0) disableFailed_stop
          (fun _ => rfl) acts untouched release (Bool.eq_true_of_not_eq_false acked)
        rw [regWrite_par, writeMask_par, blk] at sleeps fails
        rw [← ctl] at mask
        by_cases limit : s.par.disablePollLimit = 0
        · obtain ⟨fin, tblk⟩ := fails (by omega)
          exact ⟨t, run.trans poll, devs, by rw [tblk]; rfl, fun h => absurd h on, fun _ h => absurd h acked,
            fun _ _ _ => ⟨fin, tblk, mask⟩, fun _ _ h => absurd limit h⟩
        · obtain ⟨paused, tblk⟩ := sleeps (by omega)
          exact ⟨t, run.trans poll, devs, by rw [tblk], fun h => absurd h on, fun _ h => absurd h acked,
            fun _ _ h => absurd h limit, fun _ _ _ => ⟨paused, mask, tblk⟩⟩
    · obtain ⟨t, run, devs, fin, access, blk⟩ := lifeStop_unpowered hs hw ho hm (Bool.eq_false_of_not_eq_true hp)
      exact ⟨t, run, devs, by rw [blk], fun _ => ⟨fin, access, blk⟩, fun h => absurd h hp, fun h => absurd h hp,
        fun h => absurd h hp⟩
  case later =>
    intro b x
    obtain ⟨v, run, acts, untouched, blk, release⟩ := on.polls hs owner depth
    have devs := on.kept.2
    cases status : (ctlTurn s).ctl.icEn with
    | false =>
      obtain ⟨t, post, fin, tdevs, tblk, ctl, io⟩ := disablePoll_stops (k := k) acts untouched release status
      rw [blk] at tblk
      exact ⟨t, run.trans post, tdevs.trans devs, ctl, io.trans (by simp [x, status]), fun _ => ⟨fin, tblk⟩, nofun,
        nofun⟩
    | true =>
      obtain ⟨t, post, tdevs, ⟨ctl, io⟩, sleeps, fails⟩ :=
        disablePoll_notAcked (k := k) disableFailed_stop (fun _ => rfl) acts untouched release status
      rw [blk] at sleeps fails
      exact ⟨t, run.trans post, tdevs.trans devs, ctl, io.trans (by simp [x, status]), nofun, fun _ => sleeps,
        fun _ => fails⟩

end Sys2Proof.Machine
end

section
/-!
SUPPORT. BUS_POWER (60_exceptions.md R452): off, on without the mapping, and on with it, which configures.
-/

namespace Sys2Proof.Machine

variable {s b v t : State} {a : Agent}

/-- Register access powered again, with every cached page UNSET (60_exceptions.md R452). -/
def State.poweredOn (s : State) : State := unsetPages { s with blk := { s.blk with powered := true } }

theorem powerBody_mapped (hm : s.blk.mapped = true) :
    powerBody true a s = ctlDisable a (.configure .power) s.poweredOn := by
  simp [powerBody, State.poweredOn, hm]

theorem powerBody_unmapped (hm : s.blk.mapped = false) :
    powerBody true a s = releaseRet a (Result.okValue 0#32) s.poweredOn := by
  simp [powerBody, State.poweredOn, hm]

/-- Powering on makes the pages UNSET and changes the bus record, and nothing that an activity rests on. -/
theorem ActsAt.poweredOn {fs : List Frame} (acts : ActsAt a fs s s v) :
    ActsAt a fs (Machine.unsetPages s) (Machine.unsetPages s) v.poweredOn :=
  acts.unsetPages.blk v.poweredOn.blk

theorem Untouched.poweredOn (h : Untouched s v) : Untouched (unsetPages s) v.poweredOn := h

/-- A pause says nothing of the device records. -/
theorem Paused.of_unsetPages {p : Point} {fs : List Frame} (h : Paused a p fs (unsetPages b) t) : Paused a p fs b t :=
  ⟨h.caller, h.others, h.mem, h.rest.par, h.rest.cur, h.rest.handler, h.rest.running, h.rest.sched, h.rest.attached⟩

/-- Nor does an unacknowledged disable. -/
theorem Unacked.of_unsetPages (h : Unacked (unsetPages b) t) : Unacked b t := ⟨h.enable, h.kept, h.io⟩

/-- Whether the coming disable is acknowledged does not rest on the device records. -/
theorem disableAcked_unsetPages : (unsetPages s).DisableAcked ↔ s.DisableAcked := by
  have same : Untouched s (unsetPages s) := ⟨rfl, rfl, rfl, rfl, rfl⟩
  obtain ⟨ctl, -⟩ := (same.write .enable 0#32).turn
  rw [State.DisableAcked, State.DisableAcked, ctl]

/-- BUS_POWER enters an open gate, mapped or not, powered or not, to leave it as it was (60_exceptions.md R452). -/
theorem busPower_enters (hs : s.AtRequest) (hw : s.blk.gate.Wf) (ho : s.blk.gate.OpenTo s.cur) :
    ∃ v, exec .busPower s = powerBody (s.agent s.cur).ops.enabled s.cur v ∧ ActsAt s.cur [] s s v ∧
      Untouched s v ∧ v.blk = { s.blk with gate := s.blk.gate.entered s.cur 1 } ∧
      v.blk.gate.release s.cur = some s.blk.gate := by
  obtain ⟨v, run, acts, untouched, blk⟩ := AtRequest_gate hs ⟨hw, ho⟩ (.power (s.opsOf s.cur).enabled)
    (powerBody (s.opsOf s.cur).enabled s.cur)
  exact ⟨v, run, acts, untouched, blk, by rw [blk]; exact Gate.release_entered_one hw ho⟩

/-- Power on with the window mapped configures as BUS_CONFIGURE does (60_exceptions.md R452, 40_timing_and_bus.md R206,
R208). -/
theorem powerBody_configures (acts : ActsAt a [] s s v) (untouched : Untouched s v)
    (blk : v.blk = { s.blk with gate := s.blk.gate.entered a 1 }) (release : v.blk.gate.release a = some s.blk.gate)
    (hm : s.blk.mapped = true) :
    ∃ t, powerBody true a v = .next t ∧ t.devs = (unsetPages s).devs ∧
      (s.DisableAcked → Finished a ⟨.ok, 0#32, .ok⟩ s t ∧ Configured ackedAtOnce s t ∧
        t.blk = { s.blk with powered := true, disableUnacked := false }) ∧
      (¬ s.DisableAcked → s.par.disablePollLimit = 0 →
        Finished a ⟨.disableTimeout, 0#32, .ok⟩ s t ∧ Unacked s t ∧
          t.blk = { s.blk with powered := true, disableUnacked := true }) ∧
      (¬ s.DisableAcked → s.par.disablePollLimit ≠ 0 →
        Paused a (.sleep (.disable 1 (.configure .power))) [] s t ∧ Unacked s t ∧
          t.blk = { s.blk with powered := true, gate := s.blk.gate.entered a 1 }) := by
  have on : v.poweredOn.blk = { s.blk with powered := true, gate := s.blk.gate.entered a 1 } := by
    simp only [State.poweredOn, unsetPages_blk, blk]
  have powered := acts.poweredOn
  have registers := untouched.poweredOn
  have opens : v.poweredOn.blk.gate.release a = some s.blk.gate := by rw [on, ← release, blk]
  obtain ⟨t, run, devs, acked, fails, sleeps⟩ := ctlDisable_endings (u := .configure .power)
    (disableFailed_configure (by simp)) powered registers opens
    fun h => disabled_configure (s := ctlOff (unsetPages s)) (by simp) (powered.write .enable 0#32)
      (registers.write .enable 0#32) (by simpa using opens) (by simp [on, Bus.startFields]) (by simp [Ctl.writeReg]) h
  rw [regWrite_blk, on] at acked
  rw [on] at fails sleeps
  rw [disableAcked_unsetPages] at acked fails sleeps
  refine ⟨t, (powerBody_mapped (by rw [blk]; exact hm)).trans run, devs, fun h => ?_, fun h limit => ?_,
    fun h limit => ?_⟩
  · obtain ⟨fin, configured, tblk⟩ := acked h
    exact ⟨fin.of_unsetPages, configured.of (io := [.write .enable 0#32]) (by simp) (by simp)
      (by rw [regWrite_ctl]; exact (ctlTurn_keeps (unsetPages s)).tar) (by simp) rfl rfl, tblk⟩
  · obtain ⟨fin, tblk, unacked⟩ := fails h limit
    exact ⟨fin.of_unsetPages, unacked.of_unsetPages, tblk⟩
  · obtain ⟨paused, tblk, unacked⟩ := sleeps h limit
    exact ⟨paused.of_unsetPages, unacked.of_unsetPages, tblk⟩

/-- Settles O18: off and on without the mapping post OK, on with it is `powerBody_configures`. -/
theorem busPowerEffect : Obligations.BusPowerEffect := by
  refine ⟨fun s hs hg => waitsForGate_of _ rfl hs hg, fun s hs hw ho => ?_⟩
  obtain ⟨v, run, acts, untouched, blk, release⟩ := busPower_enters hs hw ho
  cases enabled : (s.agent s.cur).ops.enabled with
  | false =>
    rw [enabled] at run
    obtain ⟨t, post, fin, devs, tblk, after⟩ :=
      (acts.blk { v.blk with powered := false }).posted (g := s.blk.gate) release (Result.okValue 0#32)
    exact ⟨t, run.trans post, fun _ => ⟨fin, by rw [tblk, blk], devs, untouched.noAccess after⟩, nofun⟩
  | true =>
    rw [enabled] at run
    cases mapped : s.blk.mapped with
    | false =>
      obtain ⟨t, post, fin, devs, tblk, after⟩ :=
        acts.poweredOn.posted (g := s.blk.gate) release (Result.okValue 0#32)
      refine ⟨t, (run.trans (powerBody_unmapped (by rw [blk]; exact mapped))).trans post, nofun,
        fun _ => ⟨devs, fun _ => ⟨fin.of_unsetPages, ?_, untouched.noAccess after⟩, nofun, nofun, nofun⟩⟩
      rw [tblk, State.poweredOn, unsetPages_blk, blk]
    | true =>
      obtain ⟨t, body, devs, acked, fails, sleeps⟩ := powerBody_configures acts untouched blk release mapped
      exact ⟨t, run.trans body, nofun, fun _ => ⟨devs, nofun, fun _ => acked, fun _ => fails, fun _ => sleeps⟩⟩

end Sys2Proof.Machine
end

section
/-!
SUPPORT. The moves of callers and of the platform that are no requests (60_exceptions.md R404, 20_memory.md R117,
R125): stores, changes of a message list, a second request, a detach.
-/

namespace Sys2Proof.Machine

variable {s : State} {a : Agent}

/-- XFER and I2C_TRANSFER alone take a message list (30_encoding.md R150). -/
theorem operandShape_msgs (i : Instr) : operandShape i = .msgs ↔ i = .xfer ∨ i = .i2cTransfer := by
  cases i <;> simp [operandShape]

/-- A requester's list is lent while its XFER or I2C_TRANSFER is in progress (20_memory.md R125). -/
theorem lendsList_iff (c : Caller) : c.lendsList = true ↔ c.req = some .xfer ∨ c.req = some .i2cTransfer := by
  cases h : c.req with
  | none => simp [Caller.lendsList, h]
  | some i => simp [Caller.lendsList, h, operandShape_msgs]

/-- A store to a lent buffer is a race (20_memory.md R117). -/
theorem storeBuf_lent {n off : Nat} {x : Byte} (h : s.bufLent n = true) : storeBuf n off x s = .fault .bufferRace :=
  if_pos h

/-- Any other is one byte written (20_memory.md R100). -/
theorem storeBuf_stores {n off : Nat} {x : Byte} (h : s.bufLent n = false) (hoff : off < 65536) :
    storeBuf n off x s = .next { s with mem := s.mem.write (bufAddr (.user n) off) x } := by
  simp [storeBuf, h, hoff]

/-- A change of a list in progress is a race (20_memory.md R125). -/
theorem changeList_lent {l : List MsgRec} (hk : a.known s.par = true) (h : (s.agent a).lendsList = true) :
    changeList a l s = .fault .bufferRace := by
  simp [changeList, hk, h]

/-- Any other, of a requester that exists, is a change of that list (20_memory.md R125). -/
theorem changeList_sets {l : List MsgRec} (hk : a.known s.par = true) (h : (s.agent a).lendsList = false) :
    changeList a l s = .next (s.setAgent a { s.agent a with ops := { (s.agent a).ops with msgs := l } }) := by
  simp [changeList, hk, h, State.opsOf]

theorem changeList_unknown {l : List MsgRec} (hk : a.known s.par = false) : changeList a l s = .next s := if_pos hk

/-- Settles O7: each move by the lemma of what it does, `step_move` bringing it. -/
theorem callerMoves : Obligations.CallerMoves := by
  intro s
  refine ⟨fun a w ops ms next ha hk hr => ?request, fun ms next hm => ?detach, fun a n off b ms next h => ?race,
    fun a l ms i next hk hr hi => ?lent, fun a l ms next hx hi => ?list,
    fun a n off b ms wf next h hoff => ?store⟩
  case request => rw [step_move next, takeMove, submit_busy (s := { s with sched := ms }) ha hk hr]
  case detach => rw [step_move next]; exact if_pos (.inl hm)
  case race => rw [step_move next]; exact storeBuf_lent (s := { s with sched := ms }) h
  case lent =>
    rw [step_move next]
    exact changeList_lent (s := { s with sched := ms }) hk ((lendsList_iff _).mpr (by
      rcases hi with rfl | rfl
      · exact .inl hr
      · exact .inr hr))
  case list =>
    have free : (s.agent a).lendsList = false :=
      Bool.eq_false_of_not_eq_true fun h => ((lendsList_iff _).mp h).elim hx hi
    rw [step_move next]
    cases hk : a.known s.par with
    | false => exact ⟨_, changeList_unknown (s := { s with sched := ms }) hk, rfl, fun _ _ => rfl, nofun⟩
    | true =>
      exact ⟨_, changeList_sets (s := { s with sched := ms }) hk free, rfl, fun b hb => agent_setAgent_ne _ _ _ _ hb,
        fun _ => agent_setAgent_self _ _ _⟩
  case store =>
    rw [step_move next]
    refine ⟨_, storeBuf_stores (s := { s with sched := ms }) h hoff, Memory.read_write_self _ _ _ wf,
      fun x hx => Memory.read_write_ne _ _ _ _ (by omega), rfl⟩

end Sys2Proof.Machine
end

section
/-!
SUPPORT. A command word on the bus (60_exceptions.md R431, R432, R434, R438, R440): the address it puts where one is
due, and the controller that each of its endings leaves.
-/

namespace Sys2Proof.Machine

variable {a c d : Ctl} {isRead restart stop : Bool} {dat rx next : Byte} {src : Word} {t : Txn} {p : Params}

/-! ### The address -/

/-- The transaction a word belongs to (60_exceptions.md R431, R440): the one held, in the word's direction, or one with
TAR and CON bit 4 as they are. -/
def Ctl.txn (isRead : Bool) (c : Ctl) : Txn :=
  match c.bus with
  | none => ⟨c.tar, c.con.getLsbD 4, isRead⟩
  | some t => ⟨t.target, t.ten, isRead⟩

/-- What a word puts on the bus before its byte (60_exceptions.md R431). -/
def Ctl.started (isRead restart : Bool) (c : Ctl) : List Wire :=
  if Ctl.addressDue isRead restart c then [.start (c.txn isRead).target (c.txn isRead).ten isRead] else []

theorem Ctl.started_eq_nil : c.started isRead restart = [] ↔ Ctl.addressDue isRead restart c = false := by
  simp [Ctl.started]

theorem Ctl.started_of_none (bus : c.bus = none) :
    c.started isRead restart = [.start c.tar (c.con.getLsbD 4) isRead] := by
  simp [Ctl.started, Ctl.addressDue, Ctl.txn, bus]

theorem Ctl.started_of_some (bus : c.bus = some t) :
    c.started isRead restart =
      if restart = true ∨ t.isRead ≠ isRead then [.start t.target t.ten isRead] else [] := by
  simp [Ctl.started, Ctl.addressDue, Ctl.txn, bus]

theorem Ctl.txn_isRead : (c.txn isRead).isRead = isRead := by
  unfold Ctl.txn
  split <;> rfl

/-- Where an address is due the word begins its transaction by a START or repeated START (60_exceptions.md R431). -/
theorem Ctl.address_due (due : Ctl.addressDue isRead restart c = true) :
    Ctl.address isRead restart c = Ctl.putStart (c.txn isRead) c := by
  cases bus : c.bus with
  | none => simp only [Ctl.address, Ctl.txn, bus]
  | some t =>
    simp only [Ctl.addressDue, bus] at due
    simp only [Ctl.address, Ctl.txn, bus, due, if_true]

/-- Where none is due it goes on with the transaction held (60_exceptions.md R431). -/
theorem Ctl.address_held (held : Ctl.addressDue isRead restart c = false) :
    Ctl.address isRead restart c = c ∧ c.bus = some (c.txn isRead) := by
  cases bus : c.bus with
  | none => simp [Ctl.addressDue, bus] at held
  | some t =>
    simp only [Ctl.addressDue, bus] at held
    have direction : t.isRead = isRead := by
      simp only [Bool.or_eq_false_iff, bne_eq_false_iff_eq] at held
      exact held.2
    refine ⟨by simp [Ctl.address, bus, held], ?_⟩
    rw [Ctl.txn, bus, ← direction]

/-- The controller once the address of a word, where it is due, is on the bus (60_exceptions.md R431, R432). -/
structure Ctl.Addressed (isRead restart : Bool) (c d : Ctl) : Prop where
  bus     : d.bus = some (c.txn isRead)
  wire    : d.wire = c.started isRead restart ++ c.wire
  latched : ∀ k, d.latched.getLsbD k =
              ((Ctl.addressDue isRead restart c && (decide (k = 8) || decide (k = 10))) || c.latched.getLsbD k)
  fifos   : d.txFifo = c.txFifo ∧ d.rxFifo = c.rxFifo
  abrtSrc : d.abrtSrc = c.abrtSrc
  targets : d.targets = c.targets.map fun g =>
              if Ctl.addressDue isRead restart c && g.answers (c.txn isRead) then g.atStart isRead else g
  outside : d.icEn = c.icEn ∧ d.otherBusy = c.otherBusy ∧ d.answer = c.answer

theorem Ctl.address_addressed (isRead restart : Bool) (c : Ctl) :
    Ctl.Addressed isRead restart c (Ctl.address isRead restart c) := by
  cases due : Ctl.addressDue isRead restart c with
  | true =>
    rw [Ctl.address_due due]
    refine ⟨rfl, by simp [Ctl.started, due, Ctl.putStart, Ctl.onTargets, Ctl.latch, Ctl.txn_isRead], fun k => ?_,
      ⟨rfl, rfl⟩, rfl, ?_, rfl, rfl, rfl⟩
    · have bits : (Ctl.putStart (c.txn isRead) c).latched = (Ctl.latch 10 (Ctl.latch 8 c)).latched := rfl
      rw [bits, latched_latch _ _ _ (by decide), latched_latch _ _ _ (by decide), due, Bool.or_assoc, Bool.or_comm,
        Bool.true_and]
    · simp only [Ctl.putStart, Ctl.onTargets, Ctl.latch, Ctl.txn_isRead, due, Bool.true_and]
  | false =>
    obtain ⟨same, bus⟩ := Ctl.address_held due
    rw [same]
    exact ⟨bus, by simp [Ctl.started, due], by simp [due], ⟨rfl, rfl⟩, rfl, by simp [due], rfl, rfl, rfl⟩

/-- A START latches START_DET and ACTIVITY alone (60_exceptions.md R432). -/
theorem Ctl.Addressed.latched_of_ne {k : Nat} (h : Ctl.Addressed isRead restart c d) (h8 : k ≠ 8) (h10 : k ≠ 10) :
    d.latched.getLsbD k = c.latched.getLsbD k := by
  rw [h.latched]
  simp [h8, h10]

/-! ### The endings -/

theorem Ctl.stopIf_eq (stop : Bool) (c : Ctl) : Ctl.stopIf stop c = { c with
    bus := if stop then none else c.bus, wire := (if stop then [.stop] else []) ++ c.wire,
    latched := c.latched ||| if stop then BitVec.twoPow 32 9 else 0#32 } := by
  cases stop
  · simp [Ctl.stopIf]
  · rfl

/-- A byte sent (60_exceptions.md R431). -/
theorem Ctl.sendByte_eq (held : c.bus = some t) (dat next : Byte) (stop : Bool) :
    Ctl.sendByte dat next stop c =
      Ctl.stopIf stop (Ctl.onTargets t (Target.receive dat next) { c with wire := .sent dat :: c.wire }) := by
  simp only [Ctl.sendByte, held]

/-- The byte the transaction's target returns: a paged target's own, `rx` where there is none (60_exceptions.md
R442). -/
def Ctl.returned (t : Txn) (rx : Byte) (c : Ctl) : Byte :=
  ((c.targets.find? fun g => g.answers t).map (Target.returns rx)).getD rx

/-- A byte received (60_exceptions.md R431). -/
theorem Ctl.receiveByte_eq (held : c.bus = some t) (p : Params) (rx next : Byte) (stop : Bool) :
    Ctl.receiveByte p rx next stop c =
      Ctl.stopIf stop (Ctl.pushRx p (c.returned t rx)
        (Ctl.onTargets t (Target.advance next) { c with wire := .received (c.returned t rx) :: c.wire })) := by
  simp only [Ctl.receiveByte, held, Ctl.returned]
  cases c.targets.find? fun g => g.answers t <;> rfl

/-- What an abort leaves of a controller that holds the bus (60_exceptions.md R434). -/
theorem Ctl.abort_spec (held : c.bus = some t) (e : d = Ctl.abort src c) :
    d.wire = .stop :: c.wire ∧ d.txFifo = [] ∧ d.rxFifo = c.rxFifo ∧ d.abrtSrc = c.abrtSrc ||| src ∧
      d.bus = none ∧ d.latched.getLsbD 9 = true ∧ d.latched.getLsbD 6 = true := by
  subst e
  simp [Ctl.abort, Ctl.stop, Ctl.latch, held]

/-- What an abort at a refused address leaves (60_exceptions.md R434). -/
theorem Ctl.Addressed.aborted (h : Ctl.Addressed isRead restart c a) (e : d = Ctl.abort src a) :
    d.wire = .stop :: c.started isRead restart ++ c.wire ∧ d.txFifo = [] ∧ d.rxFifo = c.rxFifo ∧
      d.abrtSrc = c.abrtSrc ||| src ∧ d.bus = none ∧ d.latched.getLsbD 9 = true ∧ d.latched.getLsbD 6 = true := by
  obtain ⟨wire, tx, rx, abrt, rest⟩ := Ctl.abort_spec h.bus e
  rw [h.wire] at wire
  rw [h.abrtSrc] at abrt
  obtain ⟨-, rxFifo⟩ := h.fifos
  exact ⟨wire, tx, rx.trans rxFifo, abrt, rest⟩

/-- What a lost arbitration leaves, no STOP among it (60_exceptions.md R434, log 23). -/
theorem Ctl.Addressed.lost (h : Ctl.Addressed isRead restart c a) (e : d = Ctl.loseBus src a) :
    d.wire = c.started isRead restart ++ c.wire ∧ d.txFifo = [] ∧ d.rxFifo = c.rxFifo ∧
      d.abrtSrc = c.abrtSrc ||| src ∧ d.bus = none ∧ d.latched.getLsbD 9 = c.latched.getLsbD 9 ∧
      d.latched.getLsbD 6 = true := by
  have latched (k : Nat) : d.latched.getLsbD k = (a.latched.getLsbD k || decide (k = 6)) :=
    e ▸ latched_latch _ 6 k (by decide)
  obtain ⟨-, rxFifo⟩ := h.fifos
  refine ⟨e ▸ h.wire, e ▸ rfl, e ▸ rxFifo, e ▸ congrArg (· ||| src) h.abrtSrc, e ▸ rfl, ?_,
    (latched 6).trans (Bool.or_true _)⟩
  rw [latched, h.latched_of_ne (by decide) (by decide)]
  exact Bool.or_false _

/-- A byte sent, and STOP if the word says so (60_exceptions.md R431, R432). -/
theorem Ctl.sendByte_spec (held : c.bus = some t) (e : d = Ctl.sendByte dat next stop c) :
    d.wire = (if stop then [.stop] else []) ++ .sent dat :: c.wire ∧ d.txFifo = c.txFifo ∧ d.rxFifo = c.rxFifo ∧
      d.abrtSrc = c.abrtSrc ∧ d.bus.isSome = !stop ∧
      d.latched.getLsbD 9 = (stop || c.latched.getLsbD 9) ∧ d.latched.getLsbD 6 = c.latched.getLsbD 6 := by
  rw [e, Ctl.sendByte_eq held, Ctl.stopIf_eq]
  cases stop <;> simp [Ctl.onTargets, held]

/-- A byte received, and STOP if the word says so (60_exceptions.md R431, R432, R438). -/
theorem Ctl.receiveByte_spec (held : c.bus = some t) (e : d = Ctl.receiveByte p rx next stop c) :
    d.wire = (if stop then [.stop] else []) ++ .received (c.returned t rx) :: c.wire ∧ d.txFifo = c.txFifo ∧
      d.abrtSrc = c.abrtSrc ∧ d.bus.isSome = !stop ∧
      d.latched.getLsbD 9 = (stop || c.latched.getLsbD 9) ∧ d.latched.getLsbD 6 = c.latched.getLsbD 6 ∧
      (c.rxFifo.length < p.ctlRxDepth → d.rxFifo = c.rxFifo ++ [c.returned t rx]) ∧
      (p.ctlRxDepth ≤ c.rxFifo.length → d.rxFifo = c.rxFifo ∧ d.latched.getLsbD 1 = true) := by
  rw [e, Ctl.receiveByte_eq held, Ctl.stopIf_eq]
  by_cases room : c.rxFifo.length < p.ctlRxDepth
  · rw [Ctl.pushRx, if_pos (by exact room)]
    cases stop <;> simp [Ctl.onTargets, held, room, Nat.not_le.mpr room]
  · rw [Ctl.pushRx, if_neg (by exact room)]
    cases stop <;> simp [Ctl.onTargets, Ctl.latch, held, room]

/-- What a word leaves as its address left it, however it ends: whether the controller is enabled, the bus kept busy
from outside, the answer, and ACTIVITY and START_DET. -/
def Ctl.settled (c : Ctl) : Bool × Bool × Answer × Bool × Bool :=
  (c.icEn, c.otherBusy, c.answer, c.latched.getLsbD 8, c.latched.getLsbD 10)

theorem Ctl.settled_latch {n : Nat} (hn : n < 32) (h8 : n ≠ 8) (h10 : n ≠ 10) :
    (Ctl.latch n c).settled = c.settled := by
  simp only [Ctl.settled, latched_latch _ _ _ hn, Prod.mk.injEq]
  simp [Ctl.latch, h8.symm, h10.symm]

theorem Ctl.settled_stop (c : Ctl) : (Ctl.stop c).settled = c.settled :=
  Ctl.settled_latch (by decide) (by decide) (by decide)

theorem Ctl.settled_stopIf (stop : Bool) (c : Ctl) : (Ctl.stopIf stop c).settled = c.settled := by
  cases stop
  · rfl
  · exact Ctl.settled_stop c

theorem Ctl.settled_abort (src : Word) (c : Ctl) : (Ctl.abort src c).settled = c.settled := by
  have latched : (Ctl.latch 6 { c with abrtSrc := c.abrtSrc ||| src, txFifo := [] }).settled = c.settled :=
    Ctl.settled_latch (by decide) (by decide) (by decide)
  unfold Ctl.abort
  simp only []
  split
  · exact (Ctl.settled_stop _).trans latched
  · exact latched

theorem Ctl.settled_loseBus (src : Word) (c : Ctl) : (Ctl.loseBus src c).settled = c.settled :=
  Ctl.settled_latch (by decide) (by decide) (by decide)

theorem Ctl.settled_sendByte (dat next : Byte) (stop : Bool) (c : Ctl) :
    (Ctl.sendByte dat next stop c).settled = c.settled := by
  unfold Ctl.sendByte
  split
  · rfl
  · exact Ctl.settled_stopIf _ _

theorem Ctl.settled_pushRx (p : Params) (x : Byte) (c : Ctl) : (Ctl.pushRx p x c).settled = c.settled := by
  unfold Ctl.pushRx
  split
  · rfl
  · exact Ctl.settled_latch (by decide) (by decide) (by decide)

theorem Ctl.settled_receiveByte (p : Params) (rx next : Byte) (stop : Bool) (c : Ctl) :
    (Ctl.receiveByte p rx next stop c).settled = c.settled := by
  unfold Ctl.receiveByte
  split
  · rfl
  · exact (Ctl.settled_stopIf _ _).trans (Ctl.settled_pushRx _ _ _)

end Sys2Proof.Machine
end

section
/-!
SUPPORT. The two command words (60_exceptions.md R431, R434): which ending each answer brings, and what a word leaves
as it is however it ends.
-/

namespace Sys2Proof.Machine

variable {c d : Ctl} {isRead restart stop : Bool} {dat rx next : Byte} {src : Word} {p : Params}

/-- A word that settles nothing past its address: the controller besides the bus, the FIFOs and the abort is as before,
START_DET and ACTIVITY as its START, where there is one, leaves them (60_exceptions.md R432). -/
theorem Ctl.Keeps.quiet_latched (k : Ctl.Keeps c d) (h : d.settled = (Ctl.address isRead restart c).settled) :
    Ctl.Quiet c d ∧
      ∀ k ∈ [8, 10], d.latched.getLsbD k = (decide (c.started isRead restart ≠ []) || c.latched.getLsbD k) := by
  have addressed := Ctl.address_addressed isRead restart c
  obtain ⟨icEn, otherBusy, answer⟩ := addressed.outside
  simp only [Ctl.settled, Prod.mk.injEq, icEn, otherBusy, answer, addressed.latched] at h
  obtain ⟨hi, hb, ha, activity, startDet⟩ := h
  have due : decide (c.started isRead restart ≠ []) = Ctl.addressDue isRead restart c := by
    simp [Ctl.started_eq_nil]
  refine ⟨⟨⟨k.con, k.tar, k.enable, hi⟩, k.intrMask, k.sameRegs.counts, hb, ha⟩, fun n hn => ?_⟩
  simp only [List.mem_cons, List.not_mem_nil, or_false] at hn
  rw [due]
  rcases hn with rfl | rfl
  · simpa using activity
  · simpa using startDet

/-! ### DC_WRITE -/

/-- A write word whose byte, and address where one is due, is acknowledged sends it (60_exceptions.md R431). -/
theorem Ctl.execWrite_ack (h : c.answer = .ack rx next) :
    Ctl.execWrite dat stop restart c = Ctl.sendByte dat next stop (Ctl.address false restart c) := by
  obtain ⟨-, -, answer⟩ := (Ctl.address_addressed false restart c).outside
  simp only [Ctl.execWrite, answer, h]

/-- So does one whose address is refused while none is due (60_exceptions.md R434). -/
theorem Ctl.execWrite_acked (acked : (∃ rx next, c.answer = .ack rx next) ∨
      (c.started false restart = [] ∧ ∃ src rx next, c.answer = .nackAddress src rx next)) :
    ∃ next, Ctl.execWrite dat stop restart c = Ctl.sendByte dat next stop (Ctl.address false restart c) := by
  obtain ⟨-, -, answer⟩ := (Ctl.address_addressed false restart c).outside
  rcases acked with ⟨rx, next, h⟩ | ⟨held, src, rx, next, h⟩
  · exact ⟨next, Ctl.execWrite_ack h⟩
  · exact ⟨next, by simp [Ctl.execWrite, answer, h, Ctl.started_eq_nil.mp held]⟩

/-- Its address is refused where one is due (60_exceptions.md R434). -/
theorem Ctl.execWrite_addressRefused (h : c.answer = .nackAddress src rx next) (due : c.started false restart ≠ []) :
    Ctl.execWrite dat stop restart c = Ctl.abort src (Ctl.address false restart c) := by
  obtain ⟨-, -, answer⟩ := (Ctl.address_addressed false restart c).outside
  simp [Ctl.execWrite, answer, h, Bool.eq_true_of_not_eq_false (mt Ctl.started_eq_nil.mpr due)]

/-- Its byte is refused, on the bus by then (60_exceptions.md R434). -/
theorem Ctl.execWrite_byteRefused (h : c.answer = .nackByte src rx next) :
    Ctl.execWrite dat stop restart c =
      let a := Ctl.address false restart c
      Ctl.abort src { a with wire := .sent dat :: a.wire } := by
  obtain ⟨-, -, answer⟩ := (Ctl.address_addressed false restart c).outside
  simp only [Ctl.execWrite, answer, h]

/-- Arbitration is lost at it (60_exceptions.md R434). -/
theorem Ctl.execWrite_lost (h : c.answer = .arbLost src) :
    Ctl.execWrite dat stop restart c = Ctl.loseBus src (Ctl.address false restart c) := by
  obtain ⟨-, -, answer⟩ := (Ctl.address_addressed false restart c).outside
  simp only [Ctl.execWrite, answer, h]

theorem Ctl.settled_execWrite (dat : Byte) (stop restart : Bool) (c : Ctl) :
    (Ctl.execWrite dat stop restart c).settled = (Ctl.address false restart c).settled := by
  unfold Ctl.execWrite
  simp only []
  split
  · exact Ctl.settled_sendByte _ _ _ _
  · split
    · exact Ctl.settled_abort _ _
    · exact Ctl.settled_sendByte _ _ _ _
  · exact Ctl.settled_abort _ _
  · exact Ctl.settled_loseBus _ _

/-- A write word brings nothing to the RX FIFO. -/
theorem Ctl.execWrite_rxFifo (p : Params) (dat : Byte) (stop restart : Bool) (c : Ctl) :
    (Ctl.execWrite dat stop restart c).rxFifo = c.rxFifo :=
  ((Ctl.execWrite_grows p dat stop restart c).rx.eq_of_length_le (Ctl.execWrite_gains dat stop restart c).count).symm

/-- Settles O35: the address by `Ctl.Addressed`, each ending by the controller it leaves. -/
theorem writeWordOnBus : Obligations.WriteWordOnBus := by
  intro s dat stop restart c started acked
  have hstarted : started = Ctl.started false restart c := by
    cases bus : s.ctl.bus with
    | none => simp only [started, c, bus, Ctl.started_of_none bus]
    | some t => simp [started, c, bus, Ctl.started_of_some bus]
  clear_value started
  subst hstarted
  have addressed := Ctl.address_addressed false restart c
  have at9 := addressed.latched_of_ne (k := 9) (by decide) (by decide)
  have at6 := addressed.latched_of_ne (k := 6) (by decide) (by decide)
  obtain ⟨tx, -⟩ := addressed.fifos
  obtain ⟨quiet, latched⟩ :=
    (Ctl.execWrite_keeps dat stop restart c).quiet_latched (Ctl.settled_execWrite dat stop restart c)
  refine ⟨Ctl.execWrite dat stop restart c, rfl, quiet, Ctl.execWrite_rxFifo s.par dat stop restart c,
    latched, fun h => ?sent, fun src ⟨rx, next, h⟩ due => ?address, fun src ⟨rx, next, h⟩ => ?byte,
    fun src h => ?lost⟩
  case sent =>
    obtain ⟨next, run⟩ := Ctl.execWrite_acked (dat := dat) (stop := stop) h
    obtain ⟨wire, tx', -, abrt, bus, bit9, bit6⟩ := Ctl.sendByte_spec addressed.bus run
    rw [addressed.wire] at wire
    exact ⟨by simpa using wire, tx'.trans tx, abrt.trans addressed.abrtSrc, bus, bit9.trans (by rw [at9]),
      bit6.trans at6⟩
  case address =>
    obtain ⟨wire, tx, -, rest⟩ := addressed.aborted (Ctl.execWrite_addressRefused (dat := dat) (stop := stop) h due)
    exact ⟨wire, tx, rest⟩
  case byte =>
    obtain ⟨wire, tx', -, abrt, bus, bits⟩ :=
      Ctl.abort_spec (by exact addressed.bus) (Ctl.execWrite_byteRefused (dat := dat) (stop := stop) h)
    exact ⟨by rw [wire, addressed.wire]; rfl, tx', by rw [abrt, addressed.abrtSrc], bus, bits⟩
  case lost =>
    obtain ⟨wire, tx, -, rest⟩ := addressed.lost (Ctl.execWrite_lost (dat := dat) (stop := stop) h)
    exact ⟨wire, tx, rest⟩

/-! ### DC_READ -/

theorem Ctl.execRead_ack (h : c.answer = .ack rx next) :
    Ctl.execRead p stop restart c = Ctl.receiveByte p rx next stop (Ctl.address true restart c) := by
  obtain ⟨-, -, answer⟩ := (Ctl.address_addressed true restart c).outside
  simp only [Ctl.execRead, answer, h]

/-- A read word is refused in its address alone, and only where one is due (60_exceptions.md R434). -/
theorem Ctl.execRead_acked (acked : (∃ next, c.answer = .ack rx next) ∨
      (∃ src next, c.answer = .nackByte src rx next) ∨
      (c.started true restart = [] ∧ ∃ src next, c.answer = .nackAddress src rx next)) :
    ∃ next, Ctl.execRead p stop restart c = Ctl.receiveByte p rx next stop (Ctl.address true restart c) := by
  obtain ⟨-, -, answer⟩ := (Ctl.address_addressed true restart c).outside
  rcases acked with ⟨next, h⟩ | ⟨src, next, h⟩ | ⟨held, src, next, h⟩
  · exact ⟨next, Ctl.execRead_ack h⟩
  · exact ⟨next, by simp only [Ctl.execRead, answer, h]⟩
  · exact ⟨next, by simp [Ctl.execRead, answer, h, Ctl.started_eq_nil.mp held]⟩

theorem Ctl.execRead_addressRefused (h : c.answer = .nackAddress src rx next) (due : c.started true restart ≠ []) :
    Ctl.execRead p stop restart c = Ctl.abort src (Ctl.address true restart c) := by
  obtain ⟨-, -, answer⟩ := (Ctl.address_addressed true restart c).outside
  simp [Ctl.execRead, answer, h, Bool.eq_true_of_not_eq_false (mt Ctl.started_eq_nil.mpr due)]

theorem Ctl.execRead_lost (h : c.answer = .arbLost src) :
    Ctl.execRead p stop restart c = Ctl.loseBus src (Ctl.address true restart c) := by
  obtain ⟨-, -, answer⟩ := (Ctl.address_addressed true restart c).outside
  simp only [Ctl.execRead, answer, h]

theorem Ctl.settled_execRead (p : Params) (stop restart : Bool) (c : Ctl) :
    (Ctl.execRead p stop restart c).settled = (Ctl.address true restart c).settled := by
  unfold Ctl.execRead
  simp only []
  split
  · exact Ctl.settled_receiveByte _ _ _ _ _
  · exact Ctl.settled_receiveByte _ _ _ _ _
  · split
    · exact Ctl.settled_abort _ _
    · exact Ctl.settled_receiveByte _ _ _ _ _
  · exact Ctl.settled_loseBus _ _

/-- Settles O36: the address by `Ctl.Addressed`, each ending by the controller it leaves. -/
theorem readWordOnBus : Obligations.ReadWordOnBus := by
  intro s stop restart c started acked
  have hstarted : started = Ctl.started true restart c := by
    cases bus : s.ctl.bus with
    | none => simp only [started, c, bus, Ctl.started_of_none bus]
    | some t => simp [started, c, bus, Ctl.started_of_some bus]
  clear_value started
  subst hstarted
  have addressed := Ctl.address_addressed true restart c
  have at9 := addressed.latched_of_ne (k := 9) (by decide) (by decide)
  have at6 := addressed.latched_of_ne (k := 6) (by decide) (by decide)
  obtain ⟨tx, rxs⟩ := addressed.fifos
  obtain ⟨quiet, latched⟩ :=
    (Ctl.execRead_keeps s.par stop restart c).quiet_latched (Ctl.settled_execRead s.par stop restart c)
  refine ⟨Ctl.execRead s.par stop restart c, rfl, quiet, latched, fun rx h => ?received,
    fun src ⟨rx, next, h⟩ due => ?address, fun src h => ?lost⟩
  case received =>
    obtain ⟨next, run⟩ := Ctl.execRead_acked (p := s.par) (stop := stop) h
    obtain ⟨wire, tx', abrt, bus, bit9, bit6, room, full⟩ := Ctl.receiveByte_spec addressed.bus run
    rw [addressed.wire] at wire
    rw [rxs] at room full
    refine ⟨_, fun empty => ?_, by simpa using wire, tx'.trans tx, abrt.trans addressed.abrtSrc, bus,
      bit9.trans (by rw [at9]), bit6.trans at6, room, full⟩
    simp [Ctl.returned, addressed.targets, empty]
  case address => exact addressed.aborted (Ctl.execRead_addressRefused (p := s.par) (stop := stop) h due)
  case lost => exact addressed.lost (Ctl.execRead_lost (p := s.par) (stop := stop) h)

end Sys2Proof.Machine
end

section
/-!
SUPPORT. A paged target on the bus (60_exceptions.md R442, 20_memory.md R103): what a byte sent to it or returned by it
does, and what each command word leaves of it.
-/

namespace Sys2Proof.Machine

variable {c : Ctl} {g : Target} {t : Txn} {restart stop : Bool} {b o dat rx next : Byte} {p : Params}

/-- A paged target answers its own 7-bit address (60_exceptions.md R442). -/
theorem Target.answers_iff : g.answers t = true ↔ t.target = g.addr.setWidth 10 ∧ t.ten = false := by
  rw [and_comm, eq_comm (a := t.target)]
  simp [Target.answers]

/-- The first byte a target receives is its in-page offset (60_exceptions.md R442). -/
theorem Target.receive_first (h : g.offset = none) : g.receive b next = { g with offset := some b } := by
  simp only [Target.receive, h]

/-- A byte at offset 0xFF is its page (60_exceptions.md R442). -/
theorem Target.receive_page (h : g.offset = some 0xFF#8) :
    g.receive b next = { g with page := b, offset := some next } := by
  simp only [Target.receive, h, Config.pageSelectReg, if_true]

/-- A byte at another is that register's content (60_exceptions.md R442, 20_memory.md R103). -/
theorem Target.receive_register (h : g.offset = some o) (ho : o ≠ 0xFF#8) :
    g.receive b next = { g with regs := g.regs.write (g.page.toNat * 256 + o.toNat) b, offset := some next } := by
  simp only [Target.receive, h, Config.pageSelectReg, ho, if_false]

/-- A byte returned at offset 0xFF is the page, at another that register's content (60_exceptions.md R442). -/
theorem Target.returns_page (h : g.offset = some 0xFF#8) : g.returns rx = g.page := by
  simp only [Target.returns, h, Config.pageSelectReg, if_true]

theorem Target.returns_register (h : g.offset = some o) (ho : o ≠ 0xFF#8) :
    g.returns rx = g.regs.read (g.page.toNat * 256 + o.toNat) := by
  simp only [Target.returns, h, Config.pageSelectReg, ho, if_false]

theorem Target.advance_unaddressed (h : g.offset = none) : g.advance next = g := by
  simp only [Target.advance, h]

theorem Target.advance_addressed (h : g.offset ≠ none) : g.advance next = { g with offset := some next } := by
  obtain ⟨o, ho⟩ := Option.ne_none_iff_exists'.mp h
  simp only [Target.advance, ho]

/-- The targets at the transaction's address receive the byte sent, the others nothing (60_exceptions.md R442). -/
theorem Ctl.sendByte_targets (held : c.bus = some t) : (Ctl.sendByte dat next stop c).targets =
    c.targets.map fun g => if g.answers t then g.receive dat next else g := by
  rw [Ctl.sendByte_eq held, Ctl.stopIf_eq]
  rfl

theorem Ctl.pushRx_targets (p : Params) (x : Byte) (c : Ctl) : (Ctl.pushRx p x c).targets = c.targets := by
  unfold Ctl.pushRx
  split <;> rfl

theorem Ctl.receiveByte_targets (held : c.bus = some t) : (Ctl.receiveByte p rx next stop c).targets =
    c.targets.map fun g => if g.answers t then g.advance next else g := by
  rw [Ctl.receiveByte_eq held, Ctl.stopIf_eq]
  exact Ctl.pushRx_targets _ _ _

/-- Whether a target answers does not rest on its offset. -/
theorem Target.answers_offset (o : Option Byte) (t : Txn) (g : Target) :
    { g with offset := o }.answers t = g.answers t := rfl

section

/- One target on the bus, and the word acknowledged. -/
variable (targets : c.targets = [g]) (answer : c.answer = .ack rx next)

include targets answer

/-- An answering target receives the byte of a write word, its offset reset by the START where one is due
(60_exceptions.md R442). -/
theorem Ctl.execWrite_target (answers : g.answers (c.txn false) = true) :
    (Ctl.execWrite b stop restart c).targets =
      [{ g with offset := if Ctl.addressDue false restart c then none else g.offset }.receive b next] := by
  have addressed := Ctl.address_addressed false restart c
  rw [Ctl.execWrite_ack answer, Ctl.sendByte_targets addressed.bus, addressed.targets, targets]
  cases Ctl.addressDue false restart c <;> simp [Target.atStart, Target.answers_offset, answers]

/-- An answering target returns the byte of a read word, its offset kept by the START (60_exceptions.md R442). -/
theorem Ctl.execRead_target (answers : g.answers (c.txn true) = true) :
    (Ctl.execRead p stop restart c).targets = [g.advance next] ∧
      Wire.received (g.returns rx) ∈ (Ctl.execRead p stop restart c).wire.take 2 := by
  have addressed := Ctl.address_addressed true restart c
  have same : (Ctl.address true restart c).targets = [g] := by simp [addressed.targets, targets, Target.atStart]
  have returned : (Ctl.address true restart c).returned (c.txn true) rx = g.returns rx := by
    simp [Ctl.returned, same, answers]
  obtain ⟨wire, -⟩ := Ctl.receiveByte_spec addressed.bus (Ctl.execRead_ack (p := p) (stop := stop) answer)
  refine ⟨?_, ?_⟩
  · rw [Ctl.execRead_ack answer, Ctl.receiveByte_targets addressed.bus, same]
    simp [answers]
  · rw [wire, returned]
    cases stop <;> simp

/-- A target at another address is left as it is (60_exceptions.md R442). -/
theorem Ctl.exec_target_unanswered (silent : ∀ isRead, g.answers (c.txn isRead) = false) :
    (Ctl.execWrite b stop restart c).targets = [g] ∧ (Ctl.execRead p stop restart c).targets = [g] := by
  have write := Ctl.address_addressed false restart c
  have read := Ctl.address_addressed true restart c
  rw [Ctl.execWrite_ack answer, Ctl.sendByte_targets write.bus, write.targets, Ctl.execRead_ack answer,
    Ctl.receiveByte_targets read.bus, read.targets, targets]
  simp [silent]

end

/-- Settles O37: `Ctl.execWrite_target` and `Ctl.execRead_target` at the target's address, by its offset, and
`Ctl.exec_target_unanswered` at another. -/
theorem pagedTargetOnBus : Obligations.PagedTargetOnBus := by
  intro s g b next rx stop restart targets answer addressed offset
  have answers : ∀ isRead, g.answers (s.ctl.txn isRead) = true ↔ addressed := by
    intro isRead
    cases bus : s.ctl.bus with
    | none => simp only [addressed, bus, Target.answers_iff, Ctl.txn]
    | some t => simp only [addressed, bus, Target.answers_iff, Ctl.txn]
  have resets : offset = if Ctl.addressDue false restart s.ctl then none else g.offset := by
    cases bus : s.ctl.bus with
    | none => simp [offset, bus, Ctl.addressDue]
    | some t => simp [offset, bus, Ctl.addressDue]
  refine ⟨fun h => ⟨_, rfl, ?write⟩, fun h => ⟨_, rfl, ?read⟩, fun h => ?silent⟩
  case write =>
    have left := Ctl.execWrite_target (b := b) (stop := stop) (restart := restart) targets answer ((answers _).mpr h)
    rw [← resets] at left
    exact ⟨fun h => left.trans (by rw [Target.receive_first (by exact h)]),
      fun h => left.trans (by rw [Target.receive_page (by exact h)]),
      fun o h ho => left.trans (by rw [Target.receive_register (by exact h) ho])⟩
  case read =>
    obtain ⟨left, wire⟩ :=
      Ctl.execRead_target (p := s.par) (stop := stop) (restart := restart) targets answer ((answers _).mpr h)
    exact ⟨fun h => left.trans (by rw [Target.advance_unaddressed h]), fun h => Target.returns_page h ▸ wire,
      fun o h ho => Target.returns_register h ho ▸ wire, fun h => left.trans (by rw [Target.advance_addressed h])⟩
  case silent =>
    obtain ⟨write, read⟩ := Ctl.exec_target_unanswered (b := b) (p := s.par) (stop := stop) (restart := restart)
      targets answer fun isRead => Bool.eq_false_of_not_eq_true (mt (answers isRead).mp h)
    exact ⟨⟨_, rfl, write⟩, _, rfl, read⟩

end Sys2Proof.Machine
end
